-- ==== Sys2Proof/Word.lean ====
section
/-! DEFINITION. The words of the 6C32: bytes, 16-bit and 32-bit fields, and times in sixteenths of a microsecond. -/

namespace Sys2Proof

/-- One byte of a cell, a frame, a record or a block. -/
abbrev Byte := BitVec 8

/-- A 16-bit field (cycle count, serial, tag, target, the check of a cell). -/
abbrev Half := BitVec 16

/-- A 32-bit field (request value, event mask, wrapping counter). -/
abbrev Word := BitVec 32

/-- A time or a span of time in units of 1/16 µs, the resolution of R90. -/
abbrev Ticks := Nat

end Sys2Proof
end

