-- ==== Sys2Proof/Machine/Bytes.lean ====
section
/-! DEFINITION. Byte order and the two ways a counter counts: multi-byte fields most significant byte first (1.5),
counters that wrap and counters that saturate (R175). -/

namespace Sys2Proof.Machine

/-- A 16-bit field from its two bytes, most significant first (1.5). -/
def half (hi lo : Byte) : Half := hi ++ lo

/-- A 32-bit field from its four bytes, most significant first (1.5). -/
def word (b0 b1 b2 b3 : Byte) : Word := (b0 ++ b1) ++ (b2 ++ b3)

/-- The bytes of a 16-bit field, most significant first. -/
def halfBytes (h : Half) : List Byte := [h.extractLsb' 8 8, h.extractLsb' 0 8]

/-- The bytes of a 32-bit field, most significant first. -/
def wordBytes (w : Word) : List Byte :=
  [w.extractLsb' 24 8, w.extractLsb' 16 8, w.extractLsb' 8 8, w.extractLsb' 0 8]

/-- A count written as one byte. -/
def byteOf (n : Nat) : Byte := BitVec.ofNat 8 n

/-- A count written as a 16-bit field. -/
def halfOf (n : Nat) : Half := BitVec.ofNat 16 n

/-- One more on a 16-bit counter that stops at 65535 (R175). -/
def satInc (h : Half) : Half := if h = 0xFFFF#16 then h else h + 1

/-- `k` more on a 16-bit counter that stops at 65535. -/
def satIncBy : Nat → Half → Half
  | 0, h => h
  | k + 1, h => satIncBy k (satInc h)

/-- One more on the lost count, which stops at 255 (R171). -/
def satIncByte (b : Byte) : Byte := if b = 0xFF#8 then b else b + 1

end Sys2Proof.Machine
end

