-- ==== Sys2Proof/Config.lean ====
section
/-! DEFINITION. The fixed quantities of 1.7 and the identity of the part (R164). Every value here is stated by the
manual; the manual leaves no implementation constant open, so there is no free value among them. -/

namespace Sys2Proof.Config

/-- A block is 32 bytes (1.5, R24). -/
def blockBytes : Nat := 32

/-- The pool holds 1024 blocks (R24). -/
def poolBlocks : Nat := 1024

/-- 1024 blocks of 32 bytes (R24). -/
def poolBytes : Nat := 32768

/-- The management buffer holds 512 bytes (R139). -/
def bufferBytes : Nat := 512

/-- The largest payload of a trunk cell (R56). -/
def maxCellPayload : Nat := 1024

/-- The largest payload of a branch frame (7.3, R126). -/
def maxFramePayload : Nat := 256

/-- A stream 0 packet carries at most 32 bytes (R143, R145). -/
def mgmtPacket : Nat := 32

/-- The event queue holds at most 32 records (R170). -/
def eventDepth : Nat := 32

/-- A DOWN stream holds at most 15 credits (R128). -/
def maxCredits : Nat := 15

/-- Four consecutive ALIGN frames bring a link UP (R121). -/
def alignsToUp : Nat := 4

/-- Three consecutive bad checks take a link out of UP (R125). -/
def badChecksToLoss : Nat := 3

/-- The part code 6C32h (R164). -/
def partCode : Half := 0x6C32#16

/-- The revision 01h (R164). -/
def revision : Byte := 0x01#8

/-- The event mask after power-on, every kind enabled (11.6). -/
def maskAtReset : Word := 0x0001FFFE#32

/-- The positions of the event mask that name no kind: bit 0 and bits 17 to 31 (11.6). -/
def maskReserved : Word := 0xFFFE0001#32

end Sys2Proof.Config
end

