-- ==== Sys2Proof/Syntax.lean ====
section
/-! DEFINITION. The commands of the 6C32: one constructor for each row of the table of operations and events. -/

namespace Sys2Proof

/-- A stream direction (1.6 "DOWN, UP"): UP carries branch to trunk, DOWN carries trunk to branch. -/
inductive Dir where
  | up
  | down
deriving DecidableEq, Repr

/-- The header fields of a downstream cell that the node reads (R56, R60): the SEQ bit, the address and the
stream. The kind is the command itself, the length is that of the payload, and ATTN is ignored on receipt (R56). -/
structure CellHdr where
  seq    : Bool
  addr   : Byte
  stream : Byte
deriving DecidableEq, Repr

/-- The fields of the 12-byte REQUEST payload after its request code (11.4). -/
structure ReqFields where
  flags  : Byte
  target : Half
  value  : Word
  length : Half
  tag    : Half
deriving DecidableEq, Repr

/-- The commands. A cell command is a cell that the line receiver has delivered whole; a frame command is a frame
that the receiver of branch `b` has delivered whole; the others are the reports, the timer and the line ends that
the table names. -/
inductive Instr where
  /-- RESET_N: the power-on reset input is released (R48). -/
  | resetN
  /-- TRUNK_SIGNAL_PRESENT: the trunk line receiver reports SIGNAL-PRESENT (R51). -/
  | trunkSignalPresent
  /-- TRUNK_SIGNAL_LOST: the trunk line receiver reports SIGNAL-LOST (R51). -/
  | trunkSignalLost
  /-- LINE_RESET: the trunk line receiver reports LINE-RESET (R52). -/
  | lineReset
  /-- CELL_BAD_CHECK: a delivered cell that fails the form or check test, or a CYCLE whose length is not 2 (R56). -/
  | cellBadCheck
  /-- CELL_UNKNOWN_KIND: a cell whose kind code is unknown or is one that nodes send (R57). -/
  | cellUnknownKind
  /-- CYCLE: a marker with count `k`, taken at the moment `time` (R93). -/
  | cycle (c : CellHdr) (k : Half) (time : Ticks)
  /-- CYCLE_TIMER_EXPIRY: the expiry of the cycle timer that falls at the moment `time` (R99); it happens only if the
  timer is still armed to that moment when it is taken (R103, R104). Every sender names the moment; a term that leaves it
  out names the origin of the moments. -/
  | cycleTimerExpiry (time : Ticks := 0)
  /-- PUT: a PUT cell with its payload (R58). -/
  | put (c : CellHdr) (payload : List Byte)
  /-- FETCH: a FETCH cell; its payload is ignored (R56, R58). -/
  | fetch (c : CellHdr)
  /-- ASK: an ASK cell; its payload is ignored (R56, R58). -/
  | ask (c : CellHdr)
  /-- ACK: an ACK cell; its payload is ignored (R56, R59). -/
  | ack (c : CellHdr)
  /-- REQUEST_BAD_CODE: a REQUEST whose payload is not 12 bytes or whose code names no request (R141). -/
  | requestBadCode (c : CellHdr) (payload : List Byte)
  /-- ASSIGN_ADDRESS (R156). -/
  | assignAddress (c : CellHdr) (f : ReqFields)
  /-- READ_IDENTITY (R164). -/
  | readIdentity (c : CellHdr) (f : ReqFields)
  /-- START (R157). -/
  | start (c : CellHdr) (f : ReqFields)
  /-- STOP (R157). -/
  | stop (c : CellHdr) (f : ReqFields)
  /-- SET_CYCLE (R158). -/
  | setCycle (c : CellHdr) (f : ReqFields)
  /-- WRITE_STREAM (R159): opens the OUT data stage. -/
  | writeStream (c : CellHdr) (f : ReqFields)
  /-- READ_STREAM (R165). -/
  | readStream (c : CellHdr) (f : ReqFields)
  /-- SET_RESPONSE (R160). -/
  | setResponse (c : CellHdr) (f : ReqFields)
  /-- RESET_STREAM (R161). -/
  | resetStream (c : CellHdr) (f : ReqFields)
  /-- BRANCH_ENABLE: BRANCH-CONTROL with value 1 (R124, R163). -/
  | branchEnable (c : CellHdr) (f : ReqFields)
  /-- BRANCH_DISABLE: BRANCH-CONTROL with value 2 (R124, R163). -/
  | branchDisable (c : CellHdr) (f : ReqFields)
  /-- BRANCH_RETRAIN: BRANCH-CONTROL with value 3 (R124, R163). -/
  | branchRetrain (c : CellHdr) (f : ReqFields)
  /-- READ_EVENTS (R166). -/
  | readEvents (c : CellHdr) (f : ReqFields)
  /-- SET_EVENT_MASK (R167). -/
  | setEventMask (c : CellHdr) (f : ReqFields)
  /-- READ_COUNTERS (R168). -/
  | readCounters (c : CellHdr) (f : ReqFields)
  /-- CLEAR_COUNTERS (R168). -/
  | clearCounters (c : CellHdr) (f : ReqFields)
  /-- READ_TIMEBASE (R164). -/
  | readTimebase (c : CellHdr) (f : ReqFields)
  /-- ANSWER_SEND_BEGIN: the Trunk Port begins sending the composed answer (R60, R61). -/
  | answerSendBegin
  /-- ANSWER_SEND_END: the sending of an upstream cell completes on the line (R49). -/
  | answerSendEnd
  /-- BRANCH_SIGNAL_PRESENT: the receiver of branch `b` reports SIGNAL-PRESENT (R120). -/
  | branchSignalPresent (b : Fin 6)
  /-- BRANCH_SIGNAL_LOST: the receiver of branch `b` reports SIGNAL-LOST (R120). -/
  | branchSignalLost (b : Fin 6)
  /-- FRAME_BAD_CHECK: a frame with a bad check on branch `b` (R125). -/
  | frameBadCheck (b : Fin 6)
  /-- ALIGN: a good ALIGN frame on branch `b`, whatever its channel and length (R121, R177). -/
  | align (b : Fin 6)
  /-- DATA: a good DATA frame on channel `ch` of branch `b` (R126). -/
  | data (b : Fin 6) (ch : Fin 8) (payload : List Byte)
  /-- DATA_LAST: a good DATA-LAST frame (R126). -/
  | dataLast (b : Fin 6) (ch : Fin 8) (payload : List Byte)
  /-- CREDIT: a good CREDIT frame (R128). -/
  | credit (b : Fin 6) (ch : Fin 8) (payload : List Byte)
  /-- UNWANTED_FRAME: a good frame of kind GRANT or REVOKE, or of a code that names no kind (R125). -/
  | unwantedFrame (b : Fin 6)
  /-- CONTROL_FRAME_END: the transmission of a GRANT or REVOKE frame ends on branch `b` (R134). -/
  | controlFrameEnd (b : Fin 6)
  /-- DATA_FRAME_END: the transmission of a DOWN data frame ends on branch `b` (R136). -/
  | dataFrameEnd (b : Fin 6)
  /-- BRANCH_CONTROL: BRANCH-CONTROL with a target above 5 or a value that names no action (R163). -/
  | branchControl (c : CellHdr) (f : ReqFields)
deriving DecidableEq, Repr

end Sys2Proof
end

