-- ==== Sys2Proof/Machine/State.lean ====
section
/-! DEFINITION. The state of the 6C32, block by block as 1.2 names the owners, as plain data; the outcomes that are
not a next state; and the state after the release of RESET_N. -/

namespace Sys2Proof.Machine

/-- A byte-addressed store: the listed cells, addresses strictly rising. An unlisted address reads as
`Memory.unlisted`. -/
abbrev Memory := List Host.Cell

/-! ### Trunk Port (Chapter 3) -/

/-- A line status (R48, R119): the last of SIGNAL-PRESENT and SIGNAL-LOST that was taken. -/
inductive LineStatus where
  | absent
  | present
deriving DecidableEq, Repr

/-- The node states (R50). -/
inductive NodeState where
  | detached
  | listening
  | addressed
  | running
deriving DecidableEq, Repr

/-- The kinds of an upstream cell (11.1; an ACK answer carries the code of ACK). -/
inductive UpKind where
  | ack
  | data
  | full
  | wait
  | halt
  | empty
  | result
deriving DecidableEq, Repr

/-- An answer as the Trunk Port composes it (R60), without the ATTN bit that is set when sending begins. -/
structure Answer where
  kind    : UpKind
  addr    : BitVec 6
  stream  : Byte
  seq     : Bool
  payload : List Byte
deriving DecidableEq, Repr

/-- An upstream cell on the line: an answer with the ATTN bit it was begun with (R61). -/
structure UpCell where
  answer : Answer
  attn   : Bool
deriving DecidableEq, Repr

/-- The Trunk Port (R48, R50, R60). -/
structure Trunk where
  line    : LineStatus
  node    : NodeState
  addr    : BitVec 6
  /-- the composed answer that has not begun; at most one (R60) -/
  waiting : Option Answer
  /-- the upstream cell being sent (R49) -/
  sending : Option UpCell
deriving DecidableEq, Repr

/-! ### Stream Table, Buffer Pool records, and what other blocks hold per stream -/

/-- The stream classes (R1). -/
inductive StreamClass where
  | flow
  | cyclic
deriving DecidableEq, Repr

/-- A stream entry as stored: every field of the 16-byte layout of 11.5 at its full width, so that the fields of a
disabled entry come back as they were sent (R3, R178). -/
structure Entry where
  enabled    : Bool
  dir        : Dir
  cls        : StreamClass
  continuous : Bool
  staleFlush : Bool
  holdAtEnd  : Bool
  twoSides   : Bool
  /-- bit 0 of byte 0, shown as 0 -/
  spare0     : Bool
  branch     : Byte
  channel    : Byte
  periodExp  : Byte
  maxPayload : Half
  frameLimit : Half
  baseBlock  : Half
  sideSize   : Byte
  phase      : Byte
  burstCount : Half
  /-- bytes 14 and 15, shown as 0 -/
  spare14    : Half
deriving DecidableEq, Repr

/-- The response states of a stream (R4): OPEN, HOLD, HALT. -/
inductive Response where
  | opened
  | hold
  | halt
deriving DecidableEq, Repr

/-- The five states of a side (R25). -/
inductive SideState where
  | free
  | filling
  | held
  | closed
  | draining
deriving DecidableEq, Repr

/-- Why a side closed (R25). -/
inductive CloseCause where
  | full
  | short
  | last
  | burst
  | single
  | cyclic
deriving DecidableEq, Repr

/-- The record of a side (R25). -/
structure Side where
  state : SideState
  fill  : Nat
  drain : Nat
  cause : Option CloseCause
  /-- the release mark (R39) -/
  marked : Bool
deriving DecidableEq, Repr

/-- A side at its FREE values (R25). -/
def Side.empty : Side := { state := .free, fill := 0, drain := 0, cause := none, marked := false }

/-- The outstanding-packet record of a FLOW UP stream (R66). -/
structure Packet where
  side   : Fin 2
  offset : Nat
  len    : Nat
  seq    : Bool
deriving DecidableEq, Repr

/-- The per-stream counter group (R176). -/
structure StreamCounters where
  passed         : Word
  oversize       : Half
  duplicate      : Half
  overrun        : Half
  underrun       : Half
  intervalMiss   : Half
  wrongDirection : Half
  secondFetch    : Half
  sidesLost      : Half
deriving DecidableEq, Repr

/-- Every counter of a group at 0. -/
def StreamCounters.zero : StreamCounters :=
  { passed := 0, oversize := 0, duplicate := 0, overrun := 0, underrun := 0, intervalMiss := 0,
    wrongDirection := 0, secondFetch := 0, sidesLost := 0 }

/-- All that the blocks hold for one stream: the entry and live fields (Stream Table), the side records and close
order (Buffer Pool), the outstanding record (Flow Handshake Unit), the served flag (Cyclic Scheduler), the grants
and credits (Branch Ports) and the counter group (Counters). -/
structure Stream where
  entry     : Entry
  response  : Response
  seqBit    : Bool
  burst     : Half
  side0     : Side
  side1     : Side
  /-- the close order, oldest first (R26) -/
  order     : List (Fin 2)
  packet    : Option Packet
  served    : Bool
  /-- grants in a GRANT entry of the control-frame queue (R129) -/
  queued    : Nat
  /-- grants in the GRANT frame being transmitted (R129) -/
  inFlight  : Nat
  /-- grants whose GRANT frame has ended and that no frame has consumed (R129) -/
  delivered : Nat
  /-- credits held (R129) -/
  credits   : Nat
  counters  : StreamCounters
deriving DecidableEq, Repr

/-- A route key (R8). -/
structure RouteKey where
  branch  : Fin 6
  channel : Fin 8
  dir     : Dir
deriving DecidableEq, Repr

/-! ### Branch Ports (Chapter 7) -/

/-- The link states (R119). -/
inductive LinkState where
  | disabled
  | down
  | training
  | up
deriving DecidableEq, Repr

/-- An entry of the control-frame queue (R132): a GRANT for an UP key with its count, or a REVOKE for a key. -/
inductive CtlEntry where
  | grant (ch : Fin 8) (count : Nat)
  | revoke (ch : Fin 8) (dir : Dir)
deriving DecidableEq, Repr

/-- A frame in transmission, with its contents fixed (R134, R135). -/
inductive TxFrame where
  | grant (ch : Fin 8) (count : Nat) (capacity : Nat)
  | revoke (ch : Fin 8) (dir : Dir)
  | data (last : Bool) (ch : Fin 8) (stream : Fin 32) (side : Fin 2) (payload : List Byte)
deriving DecidableEq, Repr

/-- What the transmitter of a link is doing (R119). -/
inductive Transmitter where
  | silent
  | aligning
  | idle
  | busy (f : TxFrame)
deriving DecidableEq, Repr

/-- The per-branch counter group (R138). -/
structure BranchCounters where
  good        : Word
  sent        : Word
  oversize    : Half
  noRoom      : Half
  noGrant     : Half
  unrouted    : Half
  checkErrors : Half
deriving DecidableEq, Repr

/-- Every counter of a group at 0. -/
def BranchCounters.zero : BranchCounters :=
  { good := 0, sent := 0, oversize := 0, noRoom := 0, noGrant := 0, unrouted := 0, checkErrors := 0 }

/-- A Branch Port (R119, R132, R138). -/
structure Branch where
  link     : LinkState
  line     : LineStatus
  aligns   : Nat
  errors   : Nat
  /-- the round-robin pointer -/
  pointer  : Fin 8
  tx       : Transmitter
  /-- the control-frame queue, oldest first -/
  queue    : List CtlEntry
  counters : BranchCounters
deriving DecidableEq, Repr

/-! ### Cycle Timebase (Chapter 5) -/

/-- The timebase states (R91). -/
inductive TimebaseState where
  | unsynced
  | locked
  | coasting
  | lost
deriving DecidableEq, Repr

/-- The four nominal cycle lengths (R90). -/
inductive CycleLength where
  | us125
  | us250
  | us500
  | us1000
deriving DecidableEq, Repr

/-- The kind of a boundary; an interpolated one may have been claimed by a marker (R91). -/
inductive BoundaryKind where
  | marker
  | interpolated (claimed : Bool)
deriving DecidableEq, Repr

/-- The last boundary (R91). -/
structure Boundary where
  time : Ticks
  kind : BoundaryKind
deriving DecidableEq, Repr

/-- The Cycle Timebase (R90, R91) with its counter group (R105). -/
structure Timebase where
  state        : TimebaseState
  length       : CycleLength
  /-- the coast limit C -/
  coastLimit   : Nat
  count        : Half
  measured     : Option Ticks
  /-- the consecutive interpolated count -/
  consecutive  : Nat
  last         : Option Boundary
  /-- the cycle timer: stopped, or running toward its expiry time -/
  timer        : Option Ticks
  markers      : Word
  interpolated : Word
deriving DecidableEq, Repr

/-! ### Management Engine (Chapter 8) -/

/-- The exchange states (R139). -/
inductive Exchange where
  | idle
  | dataOut
  | dataIn
  | executing
  | result
  | failed
deriving DecidableEq, Repr

/-- The request header held (R139). `fields` is none when the REQUEST payload was not 12 bytes: the header then
holds its request code only (R141). -/
structure ReqHeader where
  code   : Byte
  fields : Option ReqFields
deriving DecidableEq, Repr

/-- The stream 0 packet sent and not yet acknowledged (R139). -/
inductive MgmtPacket where
  | inData (offset : Nat) (len : Nat) (seq : Bool)
  | result
deriving DecidableEq, Repr

/-- The result codes (11.4). -/
inductive ResultCode where
  | done
  | badRequest
  | wrongState
  | range
  | geometry
  | streamActive
  | overlap
  | routeClash
deriving DecidableEq, Repr

/-- The result an exchange will report (R139). -/
structure MgmtResult where
  code   : ResultCode
  detail : Byte
  tag    : Half
deriving DecidableEq, Repr

/-- The deferred action (R139). -/
inductive Deferred where
  | address (a : BitVec 6)
  | removal (n : Nat) (v : Byte)
deriving DecidableEq, Repr

/-- The stream 0 response (R139). -/
inductive MgmtResponse where
  | opened
  | halt
deriving DecidableEq, Repr

/-- The Management Engine (R139). -/
structure Mgmt where
  exchange : Exchange
  header   : Option ReqHeader
  /-- the management buffer, 512 bytes -/
  buffer   : Memory
  outCount : Nat
  snapLen  : Nat
  /-- the drain offset of the snapshot -/
  snapOff  : Nat
  seqBit   : Bool
  response : MgmtResponse
  packet   : Option MgmtPacket
  result   : Option MgmtResult
  deferred : Option Deferred
deriving DecidableEq, Repr

/-! ### Event Queue and the trunk counters (Chapter 10, R65) -/

/-- The event kinds, in the order of their codes 1 to 16 (R173). -/
inductive EventKind where
  | streamHalted
  | burstDone
  | intervalMiss
  | staleFlush
  | underrun
  | overrun
  | branchUp
  | branchDown
  | timebaseLocked
  | timebaseCoasting
  | timebaseLost
  | markerSkew
  | mgmtAbandoned
  | mgmtSequence
  | trunkReset
  | trunkLost
deriving DecidableEq, Repr

/-- An event record (R170): stream and branch are FFh for none. -/
structure EventRec where
  kind   : EventKind
  stream : Byte
  branch : Byte
  detail : Byte
  count  : Half
  serial : Half
deriving DecidableEq, Repr

/-- The Event Queue (R170). -/
structure EventQueue where
  records : List EventRec
  serial  : Half
  lost    : Byte
  mask    : Word
deriving DecidableEq, Repr

/-- The trunk counter group (R65). -/
structure TrunkCounters where
  badCheck    : Half
  unknownKind : Half
  disabled    : Half
  strayAck    : Half
deriving DecidableEq, Repr

/-! ### The whole state -/

/-- The state of the part, and the commands that wait to be taken, first in first out. -/
structure State where
  trunk    : Trunk
  /-- the 32 stream entries with what each block holds for the stream; entry 0 is the management stream (R1, R2) -/
  streams  : Vector Stream 32
  /-- the route map, by `RouteKey.index` (R8) -/
  routes   : Vector (Option (Fin 32)) 96
  /-- the bytes of the Buffer Pool, by block × 32 + position (R24, R25) -/
  pool     : Memory
  timebase : Timebase
  branches : Vector Branch 6
  mgmt     : Mgmt
  events   : EventQueue
  trunkCtr : TrunkCounters
  pending  : List Instr
deriving DecidableEq, Repr

/-- The faults. There is none: the manual gives every command of the table an effect in every state (a command that
finds nothing to act on is discarded and changes nothing), so no command stops the part. -/
inductive Fault where
deriving DecidableEq, Repr

/-- The refusals. -/
inductive Refusal where
  /-- Raised by an arm of `exec` that has no meaning yet; safe. No arm raises it: every command has its meaning. -/
  | notModelled (mnemonic : String)
deriving DecidableEq, Repr

/-! ### Power-on defaults -/

/-- The defaults of entries 1 to 31 (R1). -/
def Entry.default : Entry :=
  { enabled := false, dir := .up, cls := .flow, continuous := false, staleFlush := false, holdAtEnd := false,
    twoSides := false, spare0 := false, branch := 0, channel := 0, periodExp := 0, maxPayload := 32,
    frameLimit := 256, baseBlock := 0, sideSize := 1, phase := 0, burstCount := 0, spare14 := 0 }

/-- Entry 0, the management stream: enabled, FLOW, max payload 32 (R2). It is FLOW in both directions at once and
has no region, key or branch, so its other fields stand at the defaults of R1 and no block reads them. -/
def Entry.management : Entry := { Entry.default with enabled := true }

/-- A stream with the given entry, no traffic and its live fields at their power-on values (R4, R25, R66, R107, R129). -/
def Stream.idle (e : Entry) : Stream :=
  { entry := e, response := .hold, seqBit := false, burst := 0, side0 := Side.empty, side1 := Side.empty,
    order := [], packet := none, served := false, queued := 0, inFlight := 0, delivered := 0, credits := 0,
    counters := StreamCounters.zero }

/-- A Branch Port at power-on (R119, R132). -/
def Branch.reset : Branch :=
  { link := .down, line := .absent, aligns := 0, errors := 0, pointer := 7, tx := .aligning, queue := [],
    counters := BranchCounters.zero }

/-- The Trunk Port at power-on (R48, R50). -/
def Trunk.reset : Trunk := { line := .absent, node := .detached, addr := 0, waiting := none, sending := none }

/-- The Cycle Timebase at power-on (R90, R91, R101). -/
def Timebase.reset : Timebase :=
  { state := .unsynced, length := .us250, coastLimit := 3, count := 0, measured := none, consecutive := 0,
    last := none, timer := none, markers := 0, interpolated := 0 }

/-- The Management Engine at power-on (R139). The buffer has no meaningful contents; nothing is listed. -/
def Mgmt.reset : Mgmt :=
  { exchange := .idle, header := none, buffer := [], outCount := 0, snapLen := 0, snapOff := 0, seqBit := false,
    response := .opened, packet := none, result := none, deferred := none }

/-- The Event Queue at power-on (R170, 11.6). -/
def EventQueue.reset : EventQueue := { records := [], serial := 0, lost := 0, mask := Config.maskAtReset }

/-- The trunk counters at power-on (R65). -/
def TrunkCounters.zero : TrunkCounters := { badCheck := 0, unknownKind := 0, disabled := 0, strayAck := 0 }

/-- The state when RESET_N is released: every block at its power-on defaults (1.5 "Field tables"), and no command
waiting. -/
def State.reset : State :=
  { trunk := Trunk.reset,
    streams := (Vector.replicate 32 (Stream.idle Entry.default)).set 0 (Stream.idle Entry.management),
    routes := Vector.replicate 96 none,
    pool := [],
    timebase := Timebase.reset,
    branches := Vector.replicate 6 Branch.reset,
    mgmt := Mgmt.reset,
    events := EventQueue.reset,
    trunkCtr := TrunkCounters.zero,
    pending := [] }

end Sys2Proof.Machine
end

