-- ==== Sys2Proof/Machine/Operands.lean ====
section
/-! DEFINITION. The operands of the commands: what the fields of a stream entry, of a request header and of a cell
header name (11.4, 11.5), and the codes of the records (Chapter 11). -/

namespace Sys2Proof

/-- The configurable stream that a number names: 1 to 31 (R11, R160, R161, R165). -/
def streamOfNat? (n : Nat) : Option (Fin 32) :=
  if h : 1 ≤ n ∧ n ≤ 31 then some ⟨n, by omega⟩ else none

/-- The configurable stream that a cell's stream field names (R58): 1 to 31; 0 is the management stream and 32 to
255 name none. -/
def CellHdr.stream? (c : CellHdr) : Option (Fin 32) := streamOfNat? c.stream.toNat

/-- The stream that a request's target names (R160, R161, R165). -/
def ReqFields.stream? (f : ReqFields) : Option (Fin 32) := streamOfNat? f.target.toNat

/-- The branch that a BRANCH-CONTROL target names (R163). -/
def ReqFields.branch? (f : ReqFields) : Option (Fin 6) :=
  if h : f.target.toNat < 6 then some ⟨f.target.toNat, h⟩ else none

/-- Bytes 4 to 7 of a request header, as numbers (11.4): `n` is 4, 5, 6 or 7. -/
def ReqFields.valueByte (f : ReqFields) (n : Nat) : Nat := (f.value.extractLsb' (8 * (7 - n)) 8).toNat

end Sys2Proof

namespace Sys2Proof.Machine

/-! ### Stream numbers -/

/-- The configurable streams 1 to 31, ascending (R1). -/
def streamNumbers : List (Fin 32) :=
  [1, 2, 3, 4, 5, 6, 7, 8, 9, 10, 11, 12, 13, 14, 15, 16, 17, 18, 19, 20, 21, 22, 23, 24, 25, 26, 27, 28, 29, 30, 31]

/-- The branches 0 to 5, ascending. -/
def branchNumbers : List (Fin 6) := [0, 1, 2, 3, 4, 5]

/-- A stream number as a byte of a record. -/
def streamByte (n : Fin 32) : Byte := byteOf n.val

/-- FFh, none, in the stream and branch fields of an event record (R170). -/
def noneByte : Byte := 0xFF#8

/-! ### Stream entry (R1, R7, R25, 11.5) -/

/-- The capacity of a side: side size × 32 bytes (R25). -/
def Entry.capacity (e : Entry) : Nat := e.sideSize.toNat * Config.blockBytes

/-- The number of sides, 1 or 2 (R25). -/
def Entry.sideCount (e : Entry) : Nat := if e.twoSides then 2 else 1

/-- The side numbers of the entry, lowest first (R25). -/
def Entry.sideNos (e : Entry) : List (Fin 2) := if e.twoSides then [0, 1] else [0]

/-- One past the last block of the region (R7). -/
def Entry.regionEnd (e : Entry) : Nat := e.baseBlock.toNat + e.sideSize.toNat * e.sideCount

/-- The pool address of byte position `p` of side `k`: block base + k × side size + p div 32 (R25). -/
def Entry.byteAddr (e : Entry) (k : Fin 2) (p : Nat) : Nat :=
  (e.baseBlock.toNat + k.val * e.sideSize.toNat) * Config.blockBytes + p

/-- The period in cycles, 2 to the power of the period exponent (R1). -/
def Entry.period (e : Entry) : Nat := 2 ^ e.periodExp.toNat

/-- The route key of an entry whose branch and channel lie in their ranges (R8). -/
def Entry.key? (e : Entry) : Option RouteKey :=
  if h : e.branch.toNat < 6 ∧ e.channel.toNat < 8 then
    some { branch := ⟨e.branch.toNat, h.1⟩, channel := ⟨e.channel.toNat, h.2⟩, dir := e.dir }
  else none

/-- The place of a key in the table of 96 keys (R8). -/
def RouteKey.index (k : RouteKey) : Fin 96 :=
  ⟨k.branch.val * 16 + k.channel.val * 2 + (match k.dir with | .up => 0 | .down => 1), by
    have hb := k.branch.isLt
    have hc := k.channel.isLt
    cases k.dir <;> simp only <;> omega⟩

/-- A side of a stream by its number (R25). -/
def Stream.side (st : Stream) (k : Fin 2) : Side := if k = 0 then st.side0 else st.side1

/-- A stream with one side replaced. -/
def Stream.setSide (st : Stream) (k : Fin 2) (sd : Side) : Stream :=
  if k = 0 then { st with side0 := sd } else { st with side1 := sd }

/-- The grants outstanding: queued, in flight and delivered (R129). -/
def Stream.grants (st : Stream) : Nat := st.queued + st.inFlight + st.delivered

/-! ### Requests (11.4) -/

/-- The fifteen requests. -/
inductive Request where
  | assignAddress
  | readIdentity
  | start
  | stop
  | setCycle
  | writeStream
  | readStream
  | setResponse
  | resetStream
  | branchControl
  | readEvents
  | setEventMask
  | readCounters
  | clearCounters
  | readTimebase
deriving DecidableEq, Repr

/-- The request code (11.4). -/
def Request.code : Request → Byte
  | .assignAddress => 0x01#8
  | .readIdentity => 0x02#8
  | .start => 0x03#8
  | .stop => 0x04#8
  | .setCycle => 0x05#8
  | .writeStream => 0x06#8
  | .readStream => 0x07#8
  | .setResponse => 0x08#8
  | .resetStream => 0x09#8
  | .branchControl => 0x0A#8
  | .readEvents => 0x0B#8
  | .setEventMask => 0x0C#8
  | .readCounters => 0x0D#8
  | .clearCounters => 0x0E#8
  | .readTimebase => 0x0F#8

/-- The header fields of a 12-byte REQUEST payload after its code (11.4). -/
def reqFieldsOf? (p : List Byte) : Option (Byte × ReqFields) :=
  match p with
  | [b0, b1, b2, b3, b4, b5, b6, b7, b8, b9, b10, b11] =>
    some (b0, { flags := b1, target := half b2 b3, value := word b4 b5 b6 b7, length := half b8 b9,
                tag := half b10 b11 })
  | _ => none

/-- The request that a code names; 00h and 10h to FFh name none (R178). -/
def Request.ofCode? (code : Byte) : Option Request :=
  match code.toNat with
  | 1 => some .assignAddress
  | 2 => some .readIdentity
  | 3 => some .start
  | 4 => some .stop
  | 5 => some .setCycle
  | 6 => some .writeStream
  | 7 => some .readStream
  | 8 => some .setResponse
  | 9 => some .resetStream
  | 10 => some .branchControl
  | 11 => some .readEvents
  | 12 => some .setEventMask
  | 13 => some .readCounters
  | 14 => some .clearCounters
  | 15 => some .readTimebase
  | _ => none

/-- The cycle length that an L code names (R158). -/
def cycleLengthOfCode? : Nat → Option CycleLength
  | 0 => some .us125
  | 1 => some .us250
  | 2 => some .us500
  | 3 => some .us1000
  | _ => none

/-- The response state that the state part of a SET-RESPONSE value names (11.4). -/
def responseOfCode? : Nat → Option Response
  | 1 => some .opened
  | 2 => some .hold
  | 3 => some .halt
  | _ => none

/-- The actions of a BRANCH-CONTROL (R163). -/
inductive BranchAction where
  | enable
  | disable
  | retrain
deriving DecidableEq, Repr

/-- The action that a BRANCH-CONTROL value names, read whole (R178). -/
def branchActionOf? (value : Word) : Option BranchAction :=
  match value.toNat with
  | 1 => some .enable
  | 2 => some .disable
  | 3 => some .retrain
  | _ => none

/-- The value that names an action (11.4). -/
def BranchAction.value : BranchAction → Word
  | .enable => 1
  | .disable => 2
  | .retrain => 3

/-- The four kinds of counter group (R168). -/
inductive CounterGroup where
  | stream (n : Fin 32)
  | branch (b : Fin 6)
  | trunk
  | timebase
deriving DecidableEq, Repr

/-- The counter group that a target names: 1–31, 0100h–0105h, 0200h, 0300h (R168). -/
def counterGroupOf? (target : Half) : Option CounterGroup :=
  match streamOfNat? target.toNat with
  | some n => some (.stream n)
  | none =>
    if h : 0x100 ≤ target.toNat ∧ target.toNat ≤ 0x105 then some (.branch ⟨target.toNat - 0x100, by omega⟩)
    else if target.toNat = 0x200 then some .trunk
    else if target.toNat = 0x300 then some .timebase
    else none

/-- The record length of a counter group (R168). -/
def CounterGroup.recordLength : CounterGroup → Nat
  | .stream _ => 20
  | .branch _ => 18
  | .trunk => 8
  | .timebase => 8

/-! ### Codes of the records (Chapter 11, R173) -/

/-- The code of a result (11.4). -/
def ResultCode.byte : ResultCode → Byte
  | .done => 0
  | .badRequest => 1
  | .wrongState => 2
  | .range => 3
  | .geometry => 4
  | .streamActive => 5
  | .overlap => 6
  | .routeClash => 7

/-- The code of an event kind (R173). -/
def EventKind.code : EventKind → Nat
  | .streamHalted => 1
  | .burstDone => 2
  | .intervalMiss => 3
  | .staleFlush => 4
  | .underrun => 5
  | .overrun => 6
  | .branchUp => 7
  | .branchDown => 8
  | .timebaseLocked => 9
  | .timebaseCoasting => 10
  | .timebaseLost => 11
  | .markerSkew => 12
  | .mgmtAbandoned => 13
  | .mgmtSequence => 14
  | .trunkReset => 15
  | .trunkLost => 16

/-- The detail of TRUNK-RESET and TRUNK-LOST: the node state when the reset or loss was taken (R173). A DETACHED
node takes neither. -/
def NodeState.detail : NodeState → Byte
  | .detached => 0
  | .listening => 1
  | .addressed => 2
  | .running => 3

/-- The response state in byte 16 of a READ-STREAM record (11.5). -/
def Response.byte : Response → Byte
  | .opened => 1
  | .hold => 2
  | .halt => 3

/-- The side state in the READ-STREAM record (11.5). -/
def SideState.code : SideState → Nat
  | .free => 0
  | .filling => 1
  | .held => 2
  | .closed => 3
  | .draining => 4

/-- The timebase state in the timebase record (11.7). -/
def TimebaseState.byte : TimebaseState → Byte
  | .unsynced => 0
  | .locked => 1
  | .coasting => 2
  | .lost => 3

/-- L in microseconds (R90). -/
def CycleLength.micros : CycleLength → Nat
  | .us125 => 125
  | .us250 => 250
  | .us500 => 500
  | .us1000 => 1000

/-- L in sixteenths of a microsecond (R90). -/
def CycleLength.ticks (l : CycleLength) : Ticks := l.micros * 16

end Sys2Proof.Machine
end

