-- ==== Sys2Proof/WellFormed.lean ====
section
/-! DEFINITION. Which terms of `Instr` are commands of their row: the payload fits the cell or the frame, and a
request that shares its request code with another row is the one its row names. -/

namespace Sys2Proof

/-- The payload of a good cell is at most 1024 bytes (R56). -/
def cellPayloadOk (p : List Byte) : Bool := p.length ≤ Config.maxCellPayload

/-- A frame's length field has 16 bits, so a good frame carries at most 65535 bytes (11.2). -/
def framePayloadOk (p : List Byte) : Bool := p.length ≤ 65535

/-- A 12-byte REQUEST payload whose first byte is one of the fifteen request codes (R141, R178). -/
def namesRequest (p : List Byte) : Bool :=
  p.length == 12 && (match p with
    | [] => false
    | code :: _ => 1 ≤ code.toNat && code.toNat ≤ 15)

/-- The target and value of a BRANCH-CONTROL that acts on a link with action `v` (R163). -/
def branchActs (f : ReqFields) (v : Nat) : Bool := f.target.toNat ≤ 5 && f.value.toNat == v

/-- Well-formedness, row by row. -/
def Instr.wf : Instr → Bool
  | .resetN => true
  | .trunkSignalPresent => true
  | .trunkSignalLost => true
  | .lineReset => true
  | .cellBadCheck => true
  | .cellUnknownKind => true
  | .cycle _ _ _ => true
  | .cycleTimerExpiry _ => true
  | .put _ p => cellPayloadOk p
  | .fetch _ => true
  | .ask _ => true
  | .ack _ => true
  | .requestBadCode _ p => cellPayloadOk p && !namesRequest p
  | .assignAddress _ _ => true
  | .readIdentity _ _ => true
  | .start _ _ => true
  | .stop _ _ => true
  | .setCycle _ _ => true
  | .writeStream _ _ => true
  | .readStream _ _ => true
  | .setResponse _ _ => true
  | .resetStream _ _ => true
  | .branchEnable _ f => branchActs f 1
  | .branchDisable _ f => branchActs f 2
  | .branchRetrain _ f => branchActs f 3
  | .readEvents _ _ => true
  | .setEventMask _ _ => true
  | .readCounters _ _ => true
  | .clearCounters _ _ => true
  | .readTimebase _ _ => true
  | .answerSendBegin => true
  | .answerSendEnd => true
  | .branchSignalPresent _ => true
  | .branchSignalLost _ => true
  | .frameBadCheck _ => true
  | .align _ => true
  | .data _ _ p => framePayloadOk p
  | .dataLast _ _ p => framePayloadOk p
  | .credit _ _ p => framePayloadOk p
  | .unwantedFrame _ => true
  | .controlFrameEnd _ => true
  | .dataFrameEnd _ => true
  | .branchControl _ f => !(branchActs f 1 || branchActs f 2 || branchActs f 3)

end Sys2Proof
end

