-- ==== Sys2Proof/Decode.lean ====
section
/-! DEFINITION. Which command a delivered cell or frame is (R56, R57, R125, R177, R178, 11.1, 11.2), and the bytes of a
command that is a cell or a frame. Every byte string is some command: one that fails the form or check test is
CELL_BAD_CHECK or FRAME_BAD_CHECK, one whose kind is not the sender's is CELL_UNKNOWN_KIND or UNWANTED_FRAME, and a
REQUEST that names no request is REQUEST_BAD_CODE. The table gives its rows no bits, so a table word spells none. -/

namespace Sys2Proof

open Machine

/-! ### The check (R177) -/

/-- One bit through the 16-bit division by x^16 + x^12 + x^5 + 1. -/
def crcBit (r : Half) (bit : Bool) : Half :=
  if (r.msb != bit) then (r <<< 1) ^^^ 0x1021#16 else r <<< 1

/-- One byte, from bit 7 to bit 0. -/
def crcByte (r : Half) (b : Byte) : Half :=
  [7, 6, 5, 4, 3, 2, 1, 0].foldl (fun r i => crcBit r (b.getLsbD i)) r

/-- The remainder over bytes in order, from a remainder `r`. -/
def crcFrom (r : Half) (bs : List Byte) : Half := bs.foldl crcByte r

/-- The check of the bytes of a cell or frame: the remainder starts at FFFFh and is not inverted at the end. -/
def crc (bs : List Byte) : Half := crcFrom 0xFFFF#16 bs

/-- The bytes with their check, most significant byte first. -/
def withCheck (bs : List Byte) : List Byte := bs ++ halfBytes (crc bs)

/-! ### Cells (R56, R57, 11.1) -/

/-- The kind code, header and payload of a delivered cell that passes the form and check tests of R56. -/
def parseCell? (bs : List Byte) : Option (Nat × CellHdr × List Byte) :=
  match bs with
  | b0 :: addr :: stream :: l1 :: l0 :: rest =>
    let len := (half l1 l0).toNat
    let payload := rest.take len
    if rest.length = len + 2 ∧ len ≤ Config.maxCellPayload ∧
        rest.drop len = halfBytes (crc (b0 :: addr :: stream :: l1 :: l0 :: payload)) then
      some ((b0.extractLsb' 4 4).toNat, { seq := b0.getLsbD 1, addr := addr, stream := stream }, payload)
    else none
  | _ => none

/-- The command that a BRANCH-CONTROL header is (R163). -/
def branchCommand (c : CellHdr) (f : ReqFields) : Instr :=
  match f.branch?, branchActionOf? f.value with
  | some _, some .enable => .branchEnable c f
  | some _, some .disable => .branchDisable c f
  | some _, some .retrain => .branchRetrain c f
  | _, _ => .branchControl c f

/-- The command that a request with its header fields is. -/
def requestCommand (c : CellHdr) (f : ReqFields) : Request → Instr
  | .assignAddress => .assignAddress c f
  | .readIdentity => .readIdentity c f
  | .start => .start c f
  | .stop => .stop c f
  | .setCycle => .setCycle c f
  | .writeStream => .writeStream c f
  | .readStream => .readStream c f
  | .setResponse => .setResponse c f
  | .resetStream => .resetStream c f
  | .branchControl => branchCommand c f
  | .readEvents => .readEvents c f
  | .setEventMask => .setEventMask c f
  | .readCounters => .readCounters c f
  | .clearCounters => .clearCounters c f
  | .readTimebase => .readTimebase c f

/-- The command that a REQUEST cell is, by its payload (R141, R178). -/
def requestCell (c : CellHdr) (p : List Byte) : Instr :=
  match reqFieldsOf? p with
  | none => .requestBadCode c p
  | some (code, f) =>
    match Request.ofCode? code with
    | none => .requestBadCode c p
    | some r => requestCommand c f r

/-- The command that a delivered cell is, taken at `time` (R56, R57). -/
def cellCommand (time : Ticks) (bs : List Byte) : Instr :=
  match parseCell? bs with
  | none => .cellBadCheck
  | some (kind, c, p) =>
    match kind with
    | 1 =>
      match p with
      | [hi, lo] => .cycle c (half hi lo) time
      | _ => .cellBadCheck
    | 2 => .put c p
    | 3 => .fetch c
    | 4 => .ask c
    | 5 => requestCell c p
    | 6 => .ack c
    | _ => .cellUnknownKind

/-! ### Frames (R125, R177, 11.2) -/

/-- The kind code, channel and payload of a delivered frame whose check is good. -/
def parseFrame? (bs : List Byte) : Option (Nat × Fin 8 × List Byte) :=
  match bs with
  | b0 :: l1 :: l0 :: rest =>
    let len := (half l1 l0).toNat
    let payload := rest.take len
    if rest.length = len + 2 ∧ rest.drop len = halfBytes (crc (b0 :: l1 :: l0 :: payload)) then
      some ((b0.extractLsb' 4 4).toNat, (b0.extractLsb' 0 3).toFin, payload)
    else none
  | _ => none

/-- The command that a frame delivered on branch `b` is. -/
def frameCommand (b : Fin 6) (bs : List Byte) : Instr :=
  match parseFrame? bs with
  | none => .frameBadCheck b
  | some (kind, ch, p) =>
    match kind with
    | 0 => .align b
    | 1 => .data b ch p
    | 2 => .dataLast b ch p
    | 4 => .credit b ch p
    | _ => .unwantedFrame b

/-! ### The table's words -/

/-- The command that a word spells by the table's bits: no row of the table has any. -/
def decodeTableWord (_nbits _w : Nat) : Option Instr := none

/-! ### The bytes of a command -/

/-- Byte 0 of a cell: kind, two bits sent as 0, SEQ, ATTN (11.1). -/
def cellByte0 (kind : BitVec 4) (seq attn : Bool) : Byte := kind ++ 0#2 ++ BitVec.ofBool seq ++ BitVec.ofBool attn

/-- The bytes of a cell with its check (11.1). -/
def cellBytes (kind : BitVec 4) (seq attn : Bool) (addr stream : Byte) (payload : List Byte) : List Byte :=
  withCheck ([cellByte0 kind seq attn, addr, stream] ++ halfBytes (halfOf payload.length) ++ payload)

/-- The bytes of a cell as the master sends it, ATTN 0. -/
def downBytes (kind : BitVec 4) (c : CellHdr) (payload : List Byte) : List Byte :=
  cellBytes kind c.seq false c.addr c.stream payload

/-- The 12 bytes of a REQUEST payload (11.4). -/
def requestBytes (code : Byte) (f : ReqFields) : List Byte :=
  [code, f.flags] ++ halfBytes f.target ++ wordBytes f.value ++ halfBytes f.length ++ halfBytes f.tag

/-- The bytes of a REQUEST cell for request `r`. -/
def requestCellBytes (r : Request) (c : CellHdr) (f : ReqFields) : List Byte :=
  downBytes 5 c (requestBytes r.code f)

/-- The bytes of a frame with its check (11.2). -/
def frameBytes (kind : BitVec 4) (ch : Fin 8) (payload : List Byte) : List Byte :=
  withCheck ([kind ++ 0#1 ++ BitVec.ofNat 3 ch.val] ++ halfBytes (halfOf payload.length) ++ payload)

/-- The bytes of a command that is one well-formed cell or frame; none for a report, a timer expiry, an end, and for the
rows that stand for every ill-formed cell or frame or every unknown kind. -/
def encode : Instr → Option (List Byte)
  | .resetN => none
  | .trunkSignalPresent => none
  | .trunkSignalLost => none
  | .lineReset => none
  | .cellBadCheck => none
  | .cellUnknownKind => none
  | .cycle c k _ => some (downBytes 1 c (halfBytes k))
  | .cycleTimerExpiry _ => none
  | .put c p => some (downBytes 2 c p)
  | .fetch c => some (downBytes 3 c [])
  | .ask c => some (downBytes 4 c [])
  | .ack c => some (downBytes 6 c [])
  | .requestBadCode c p => some (downBytes 5 c p)
  | .assignAddress c f => some (requestCellBytes .assignAddress c f)
  | .readIdentity c f => some (requestCellBytes .readIdentity c f)
  | .start c f => some (requestCellBytes .start c f)
  | .stop c f => some (requestCellBytes .stop c f)
  | .setCycle c f => some (requestCellBytes .setCycle c f)
  | .writeStream c f => some (requestCellBytes .writeStream c f)
  | .readStream c f => some (requestCellBytes .readStream c f)
  | .setResponse c f => some (requestCellBytes .setResponse c f)
  | .resetStream c f => some (requestCellBytes .resetStream c f)
  | .branchEnable c f => some (requestCellBytes .branchControl c f)
  | .branchDisable c f => some (requestCellBytes .branchControl c f)
  | .branchRetrain c f => some (requestCellBytes .branchControl c f)
  | .readEvents c f => some (requestCellBytes .readEvents c f)
  | .setEventMask c f => some (requestCellBytes .setEventMask c f)
  | .readCounters c f => some (requestCellBytes .readCounters c f)
  | .clearCounters c f => some (requestCellBytes .clearCounters c f)
  | .readTimebase c f => some (requestCellBytes .readTimebase c f)
  | .answerSendBegin => none
  | .answerSendEnd => none
  | .branchSignalPresent _ => none
  | .branchSignalLost _ => none
  | .frameBadCheck _ => none
  | .align _ => some (frameBytes 0 0 [])
  | .data _ ch p => some (frameBytes 1 ch p)
  | .dataLast _ ch p => some (frameBytes 2 ch p)
  | .credit _ ch p => some (frameBytes 4 ch p)
  | .unwantedFrame _ => none
  | .controlFrameEnd _ => none
  | .dataFrameEnd _ => none
  | .branchControl c f => some (requestCellBytes .branchControl c f)

end Sys2Proof
end

