-- ==== Sys2Proof/Machine/Flags.lean ====
section
/-! DEFINITION. The conditions that the rules test: due cycles, the room test, which side a fill takes, which side is
drainable, end packets, close causes, the windows of the timebase, and the header checks of a request. -/

namespace Sys2Proof.Machine

/-! ### Sides (Chapter 2) -/

/-- The FILLING side of a stream, if it has one (R26: at most one). -/
def Stream.fillingSide? (st : Stream) : Option (Fin 2) :=
  st.entry.sideNos.find? (fun k => (st.side k).state == .filling)

/-- The lowest-numbered FREE side of a stream (R28, R29). -/
def Stream.freeSide? (st : Stream) : Option (Fin 2) :=
  st.entry.sideNos.find? (fun k => (st.side k).state == .free)

/-- The side that a fill from the trunk goes into: the FILLING side, otherwise the lowest FREE side (R28). -/
def Stream.fillTarget? (st : Stream) : Option (Fin 2) :=
  match st.fillingSide? with
  | some k => some k
  | none => st.freeSide?

/-- The space left in a side: the capacity less the fill count (R27). -/
def Stream.space (st : Stream) (k : Fin 2) : Nat := st.entry.capacity - (st.side k).fill

/-- The room test (R40): a FILLING side with space for a full packet, or a FREE side. -/
def Stream.room (st : Stream) : Bool :=
  (match st.fillingSide? with
    | some k => decide (st.entry.maxPayload.toNat ≤ st.space k)
    | none => false) || st.freeSide?.isSome

/-- The head of the close order when it is CLOSED: the side that a drain takes next (R33, R34, R36, R37). -/
def Stream.closedHead? (st : Stream) : Option (Fin 2) :=
  match st.order with
  | [] => none
  | k :: _ => if (st.side k).state = .closed then some k else none

/-- Whether a side of the stream is DRAINING (R13). -/
def Stream.draining (st : Stream) : Bool := st.side0.state == .draining || st.side1.state == .draining

/-- How many of the stream's sides are not FREE (R129). -/
def Stream.notFree (st : Stream) : Nat :=
  (st.entry.sideNos.filter (fun k => (st.side k).state != .free)).length

/-- Whether an end packet is due on a side (R34). -/
def endPacketDue (sd : Side) (maxPayload : Nat) : Bool :=
  sd.fill == 0 || (sd.cause == some .last && sd.fill % maxPayload == 0)

/-- The close cause of a FLOW DOWN fill, or none when the side stays FILLING (R30): `n` is the packet's length,
`full` says that the fill count reached the capacity. -/
def flowDownCause (e : Entry) (n : Nat) (burstEnds full : Bool) : Option CloseCause :=
  if !e.continuous then some .single
  else if n < e.maxPayload.toNat then some .short
  else if burstEnds then some .burst
  else if full then some .full
  else none

/-- The close cause of an UP fill, or none when the side stays FILLING (R32). -/
def upCause (e : Entry) (last full : Bool) : Option CloseCause :=
  if last then some .last
  else if !e.continuous then some .single
  else if full then some .full
  else none

/-- Whether the frame that ends at `stop` in side `sd` is DATA-LAST (R37). -/
def frameIsLast (sd : Side) (stop : Nat) : Bool :=
  sd.fill == 0 ||
    (stop == sd.fill && (sd.cause == some .short || sd.cause == some .burst || sd.cause == some .cyclic))

/-! ### Cycles (R106) -/

/-- Whether the entry's stream is due in the cycle of count `c` (R106). -/
def Entry.due (e : Entry) (c : Half) : Bool := (c - e.phase.setWidth 16).toNat % e.period == 0

/-- Whether cyclic streams are served: the timebase is LOCKED or COASTING (R91). -/
def Timebase.serving (t : Timebase) : Bool := t.state == .locked || t.state == .coasting

/-! ### Windows of the timebase (R90) -/

/-- The interval of the timebase: the measured interval when there is one, and L when there is none (R91). -/
def Timebase.interval (t : Timebase) : Ticks := t.measured.getD t.length.ticks

/-- A time is within the capture window when it is at most L/8 (R90). -/
def CycleLength.captures (l : CycleLength) (span : Ticks) : Bool := span ≤ l.ticks / 8

/-- A marker is a runt when it arrives less than L/2 after the last boundary (R90). -/
def CycleLength.isRunt (l : CycleLength) (span : Ticks) : Bool := span < l.ticks / 2

/-- A measured interval is within tolerance between L − L/8 and L + L/8, both ends included (R90). -/
def CycleLength.tolerates (l : CycleLength) (span : Ticks) : Bool :=
  l.ticks - l.ticks / 8 ≤ span && span ≤ l.ticks + l.ticks / 8

/-! ### Request header checks (R141, 9.1) -/

/-- The lengths that step 4 of R141 accepts (9.1, R155). -/
def Request.lengthOk (r : Request) (n : Nat) : Bool :=
  match r with
  | .readIdentity => n == 16
  | .writeStream => n == 16
  | .readStream => n == 24
  | .readEvents => n ≤ 256 && n % 8 == 0
  | .readCounters => n == 8 || n == 18 || n == 20
  | .readTimebase => n == 12
  | .assignAddress | .start | .stop | .setCycle | .setResponse | .resetStream | .branchControl | .setEventMask
  | .clearCounters => n == 0

/-- The node states that step 5 of R141 allows (9.1, R155). -/
def Request.allowedIn (r : Request) (node : NodeState) : Bool :=
  match r with
  | .assignAddress => node == .listening || node == .addressed
  | .start => node == .addressed
  | .stop => node == .running
  | .setCycle => node == .listening || node == .addressed
  | .writeStream => node == .addressed || node == .running
  | .readIdentity | .readStream | .setResponse | .resetStream | .branchControl | .readEvents | .setEventMask
  | .readCounters | .clearCounters | .readTimebase => node != .detached

/-- The first failing check of steps 3 to 5 of R141, as its result code. -/
def headerRefusal? (r : Request) (f : ReqFields) (node : NodeState) : Option ResultCode :=
  if f.flags ≠ 0 then some .badRequest
  else if !r.lengthOk f.length.toNat then some .badRequest
  else if !r.allowedIn node then some .wrongState
  else none

/-! ### WRITE-STREAM checks on the entry alone (R11, R12) -/

/-- The frame limits (R1). -/
def frameLimitOk (n : Nat) : Bool := n == 16 || n == 32 || n == 64 || n == 128 || n == 256

/-- The FLOW max payloads (R1). -/
def flowPayloadOk (n : Nat) : Bool := n == 32 || n == 64 || n == 128 || n == 256 || n == 512 || n == 1024

/-- The field part of the RANGE check of an enabled entry (R3, R11, R178). -/
def Entry.rangeOk (e : Entry) : Bool :=
  !e.spare0 && e.spare14 == 0 && decide (e.branch.toNat ≤ 5) && decide (e.channel.toNat ≤ 7) &&
    decide (e.periodExp.toNat ≤ 5) && frameLimitOk e.frameLimit.toNat && decide (e.baseBlock.toNat ≤ 1023) &&
    decide (1 ≤ e.sideSize.toNat) && decide (e.sideSize.toNat ≤ 64) && decide (e.phase.toNat < e.period) &&
    (match e.cls with
      | .flow => flowPayloadOk e.maxPayload.toNat && e.periodExp == 0 && e.phase == 0
      | .cyclic => decide (1 ≤ e.maxPayload.toNat) && decide (e.maxPayload.toNat ≤ 1024)) &&
    (!e.staleFlush || (e.cls == .cyclic && e.dir == .up)) &&
    ((e.burstCount == 0 && !e.holdAtEnd) || (e.cls == .flow && e.dir == .down)) &&
    !(e.continuous && e.cls == .cyclic && e.dir == .down) &&
    !(e.holdAtEnd && e.burstCount == 0)

/-- The GEOMETRY check (R12). -/
def Entry.geometryOk (e : Entry) : Bool :=
  decide (e.regionEnd ≤ Config.poolBlocks) &&
    (match e.cls, e.dir with
      | .flow, .down =>
        decide (e.maxPayload.toNat ≤ e.capacity) && (!e.continuous || e.capacity % e.maxPayload.toNat == 0)
      | .flow, .up => decide (e.frameLimit.toNat ≤ e.capacity)
      | .cyclic, .down => e.capacity == e.maxPayload.toNat
      | .cyclic, .up =>
        decide (e.capacity ≤ e.maxPayload.toNat) && decide (e.frameLimit.toNat ≤ e.capacity))

/-- Whether two regions share a block (R7, R14). -/
def Entry.overlaps (a b : Entry) : Bool :=
  decide (a.baseBlock.toNat < b.regionEnd) && decide (b.baseBlock.toNat < a.regionEnd)

/-- Whether two entries have the same branch, channel and direction (R15). -/
def Entry.sameKey (a b : Entry) : Bool := a.branch == b.branch && a.channel == b.channel && a.dir == b.dir

end Sys2Proof.Machine
end

