-- ==== Sys2Proof/Machine/Ops.lean ====
section
/-! DEFINITION. The operations the meanings share: the byte stores, one stream's and one branch's record, the offer of
an event, the counters, the answers of the Trunk Port, and the taking of a cell. -/

namespace Sys2Proof.Machine

/-! ### Byte stores -/

/-- What an address that no cell lists reads as. The manual gives no contents before a fill (R24, R139); 00h is the
model's choice (assumption 2). -/
def Memory.unlisted : Byte := 0#8

/-- One byte of a store. -/
def Memory.read : Memory → Nat → Byte
  | [], _ => Memory.unlisted
  | (k, v) :: m, a => if a = k then v else Memory.read m a

/-- A store with one byte written: the canonical form is kept. -/
def Memory.write : Memory → Nat → Byte → Memory
  | [], a, b => if b = Memory.unlisted then [] else [(a, b)]
  | (k, v) :: m, a, b =>
    if a < k then (if b = Memory.unlisted then (k, v) :: m else (a, b) :: (k, v) :: m)
    else if a = k then (if b = Memory.unlisted then m else (a, b) :: m)
    else (k, v) :: Memory.write m a b

/-- Bytes written one after another from address `a` into a store of `size` bytes; a byte past the end has no place. -/
def Memory.writeBytes (size : Nat) : Memory → Nat → List Byte → Memory
  | m, _, [] => m
  | m, a, b :: bs => Memory.writeBytes size (if a < size then m.write a b else m) (a + 1) bs

/-- `n` bytes read one after another from address `a`. -/
def Memory.readBytes (m : Memory) : Nat → Nat → List Byte
  | _, 0 => []
  | a, n + 1 => m.read a :: Memory.readBytes m (a + 1) n

/-- The canonical form from address `lo` on: addresses strictly rising and below `size`, no entry that reads as an
unlisted address does. -/
def Memory.wfFrom (size : Nat) : Nat → Memory → Bool
  | _, [] => true
  | lo, (k, v) :: m => decide (lo ≤ k) && decide (k < size) && v != Memory.unlisted && Memory.wfFrom size (k + 1) m

/-- The canonical form of a store of `size` bytes. -/
def Memory.wf (size : Nat) (m : Memory) : Bool := Memory.wfFrom size 0 m

/-! ### The parts of the state -/

/-- What the blocks hold for stream `n`. -/
def State.stream (s : State) (n : Fin 32) : Stream := s.streams[n]

/-- The Branch Port of branch `b`. -/
def State.branch (s : State) (b : Fin 6) : Branch := s.branches[b]

/-- The stream or none to which a key maps (R8, R9). -/
def State.route (s : State) (k : RouteKey) : Option (Fin 32) := s.routes[k.index]

/-- One stream's record changed. -/
def State.mapStream (s : State) (n : Fin 32) (f : Stream → Stream) : State :=
  { s with streams := s.streams.set n (f s.streams[n]) }

/-- One Branch Port changed. -/
def State.mapBranch (s : State) (b : Fin 6) (f : Branch → Branch) : State :=
  { s with branches := s.branches.set b (f s.branches[b]) }

/-- One key of the route map set (R8). -/
def State.setRoute (s : State) (k : RouteKey) (v : Option (Fin 32)) : State :=
  { s with routes := s.routes.set k.index v }

/-- The Trunk Port changed. -/
def State.mapTrunk (s : State) (f : Trunk → Trunk) : State := { s with trunk := f s.trunk }

/-- The Cycle Timebase changed. -/
def State.mapTimebase (s : State) (f : Timebase → Timebase) : State := { s with timebase := f s.timebase }

/-- The Management Engine changed. -/
def State.mapMgmt (s : State) (f : Mgmt → Mgmt) : State := { s with mgmt := f s.mgmt }

/-- The trunk counters changed. -/
def State.mapTrunkCtr (s : State) (f : TrunkCounters → TrunkCounters) : State :=
  { s with trunkCtr := f s.trunkCtr }

/-- The Buffer Pool's bytes replaced. -/
def State.setPool (s : State) (m : Memory) : State := { s with pool := m }

/-- The Event Queue replaced. -/
def State.setEvents (s : State) (q : EventQueue) : State := { s with events := q }

/-- An operation on each of the streams named, in the order of the list. -/
def State.overStreams (s : State) (ns : List (Fin 32)) (op : State → Fin 32 → State) : State := ns.foldl op s

/-- An operation on each branch, ascending. -/
def State.overBranches (s : State) (op : State → Fin 6 → State) : State := branchNumbers.foldl op s

/-- Whether stream `n` is enabled with a key on branch `b`: the streams that the port of `b` serves (Chapter 7). -/
def State.servedBy (s : State) (b : Fin 6) (n : Fin 32) : Bool :=
  (s.stream n).entry.enabled &&
    (match (s.stream n).entry.key? with
      | some k => k.branch == b
      | none => false)

/-- The enabled streams routed to branch `b`, ascending. -/
def State.streamsOf (s : State) (b : Fin 6) : List (Fin 32) := streamNumbers.filter (fun n => s.servedBy b n)

/-! ### Counters (R65, R138, R176) -/

/-- A per-stream counter group changed. -/
def State.countStream (s : State) (n : Fin 32) (f : StreamCounters → StreamCounters) : State :=
  s.mapStream n (fun st => { st with counters := f st.counters })

/-- A per-branch counter group changed. -/
def State.countBranch (s : State) (b : Fin 6) (f : BranchCounters → BranchCounters) : State :=
  s.mapBranch b (fun br => { br with counters := f br.counters })

/-- Packets passed +1 (R176). -/
def StreamCounters.pass (c : StreamCounters) : StreamCounters := { c with passed := c.passed + 1 }

/-- Overrun fault +1 (R176). -/
def StreamCounters.overran (c : StreamCounters) : StreamCounters := { c with overrun := satInc c.overrun }

/-- Oversize fault +1 (R176). -/
def StreamCounters.oversized (c : StreamCounters) : StreamCounters := { c with oversize := satInc c.oversize }

/-- Interval-miss fault +1 (R176). -/
def StreamCounters.missed (c : StreamCounters) : StreamCounters := { c with intervalMiss := satInc c.intervalMiss }

/-- Stray ACKs +1 (R65). -/
def State.strayAck (s : State) : State := s.mapTrunkCtr (fun t => { t with strayAck := satInc t.strayAck })

/-- Cells of unknown kind +1 (R65). -/
def State.unknownKind (s : State) : State := s.mapTrunkCtr (fun t => { t with unknownKind := satInc t.unknownKind })

/-- Cells for disabled streams +1 (R65). -/
def State.disabledCell (s : State) : State := s.mapTrunkCtr (fun t => { t with disabled := satInc t.disabled })

/-! ### Events (R171, R172) -/

/-- The Event Queue takes an offer whole (R171), with the cycle count the timebase holds. -/
def EventQueue.offer (q : EventQueue) (count : Half) (kind : EventKind) (stream branch detail : Byte) : EventQueue :=
  if q.mask.getLsbD kind.code then
    if q.records.length < Config.eventDepth then
      { q with
        records := q.records ++
          [{ kind := kind, stream := stream, branch := branch, detail := detail, count := count,
             serial := q.serial + 1 }],
        serial := q.serial + 1 }
    else { q with serial := q.serial + 1, lost := satIncByte q.lost }
  else q

/-- An offer of an event. -/
def State.offer (s : State) (kind : EventKind) (stream branch detail : Byte) : State :=
  s.setEvents (s.events.offer s.timebase.count kind stream branch detail)

/-- An event about a stream names the stream and the branch field of its entry (R172). -/
def State.offerStream (s : State) (n : Fin 32) (kind : EventKind) (detail : Byte) : State :=
  s.offer kind (streamByte n) (s.stream n).entry.branch detail

/-- An event about a branch link names the branch, with stream FFh (R172). -/
def State.offerBranch (s : State) (b : Fin 6) (kind : EventKind) (detail : Byte) : State :=
  s.offer kind noneByte (byteOf b.val) detail

/-- A timebase, management or trunk event carries FFh in both fields (R172). -/
def State.offerPlain (s : State) (kind : EventKind) (detail : Byte) : State :=
  s.offer kind noneByte noneByte detail

/-! ### Cells and answers (R49, R50, R57, R60) -/

/-- Whether the node takes a delivered cell: not in DETACHED (R50), and not while it sends (R49). -/
def State.receives (s : State) : Bool := s.trunk.node != .detached && s.trunk.sending.isNone

/-- Whether a cell's address field equals the node address (R57). -/
def State.hears (s : State) (c : CellHdr) : Bool := c.addr == s.trunk.addr.setWidth 8

/-- A cell that is not taken changes nothing; one taken whose address is not the node's is discarded without an
answer and is not counted (R57). -/
def State.takeCell (s : State) (c : CellHdr) (f : State → State) : State :=
  if s.receives && s.hears c then f s else s

/-- An answer handed to the Trunk Port: it composes the header (R60), and the answer replaces a waiting one. -/
def State.answer (s : State) (c : CellHdr) (kind : UpKind) (seq : Bool) (payload : List Byte) : State :=
  s.mapTrunk (fun t =>
    { t with waiting := some { kind := kind, addr := t.addr, stream := c.stream, seq := seq, payload := payload } })

/-! ### What the Buffer Pool tells the Management Engine (R147, R162) -/

/-- The stream that the header of the present exchange targets. -/
def Mgmt.targets (m : Mgmt) (n : Fin 32) : Bool :=
  match m.header with
  | some { code := _, fields := some f } => f.stream? == some n
  | _ => false

/-- The end report of a RESET-STREAM: the marked side of stream `n` has become FREE. An exchange still EXECUTING for
that stream goes to RESULT with the result its commit set (R147, R162). -/
def State.resetStreamEnd (s : State) (n : Fin 32) : State :=
  if s.mgmt.exchange = .executing && s.mgmt.targets n then s.mapMgmt (fun m => { m with exchange := .result })
  else s

end Sys2Proof.Machine
end

