-- ==== Sys2Proof/Machine/Sides.lean ====
section
/-! DEFINITION. The Buffer Pool (Chapter 2): filling, closing, cutting, advancing, freeing and discarding sides. -/

namespace Sys2Proof.Machine

/-! ### One stream's side records -/

/-- A side filled with `len` more bytes: FREE becomes FILLING as the fill begins (R28, R29). -/
def Stream.fill (st : Stream) (k : Fin 2) (len : Nat) : Stream :=
  st.setSide k { st.side k with state := .filling, fill := (st.side k).fill + len }

/-- A side closed: it becomes CLOSED or HELD, records the cause and joins the tail of the close order (R26, R30). -/
def Stream.close (st : Stream) (k : Fin 2) (state : SideState) (cause : CloseCause) : Stream :=
  { st.setSide k { st.side k with state := state, cause := some cause } with order := st.order ++ [k] }

/-- A side closed when the close rules give a cause, else left FILLING (R30, R32). -/
def Stream.closeBy (st : Stream) (k : Fin 2) (cause : Option CloseCause) : Stream :=
  match cause with
  | some c => st.close k .closed c
  | none => st

/-- A side made FREE: every part at its FREE value, and out of the close order (R25, R26). -/
def Stream.free (st : Stream) (k : Fin 2) : Stream :=
  { st.setSide k Side.empty with order := st.order.filter (fun j => j != k) }

/-- The state of a side changed, its place in the close order kept. -/
def Stream.setSideState (st : Stream) (k : Fin 2) (state : SideState) : Stream :=
  st.setSide k { st.side k with state := state }

/-- What a drained packet or frame of length `len` leaves of side `k`: the offset advances, and the side is FREE
when `done` says so, else CLOSED in its place (R35, R38). -/
def Stream.advance (st : Stream) (k : Fin 2) (len : Nat) (done : Bool) : Stream :=
  if done then st.free k
  else st.setSide k { st.side k with state := .closed, drain := (st.side k).drain + len }

/-- What a discard leaves of one side (R39, R42, R44, R46): a DRAINING DOWN side keeps its state and has its release
mark set, every other side becomes FREE. -/
def Side.discard (sd : Side) (dir : Dir) : Side :=
  if sd.state = .draining ∧ dir = .down then { sd with marked := true } else Side.empty

/-- A discard of every side of a stream: the close order ends empty or holding only the marked side (R42). -/
def Stream.discard (st : Stream) : Stream :=
  { st with
    side0 := st.side0.discard st.entry.dir,
    side1 := st.side1.discard st.entry.dir,
    order := st.order.filter (fun k => ((st.side k).discard st.entry.dir).state != .free) }

/-- How many sides a discard frees or marks: the sides that are not FREE (R44, R115). -/
def Stream.discardCount (st : Stream) : Nat :=
  (if st.side0.state = .free then 0 else 1) + (if st.side1.state = .free then 0 else 1)

/-- Whether a side carries the release mark. -/
def Stream.marked (st : Stream) : Bool :=
  (st.side0.state == .draining && st.side0.marked) || (st.side1.state == .draining && st.side1.marked)

/-- What a branch loss leaves of one side (R45). -/
def Side.lose (sd : Side) (dir : Dir) : Side :=
  match dir with
  | .up => if sd.state = .filling then Side.empty else sd
  | .down =>
    if sd.state = .draining then
      (if sd.marked then Side.empty else { sd with state := .closed, drain := 0 })
    else if sd.state = .closed then { sd with drain := 0 }
    else sd

/-- What a branch loss leaves of a stream routed to the branch: its sides as R45 states, and every part of its
grants and its credits 0 (R123). -/
def Stream.lose (st : Stream) : Stream :=
  { st with
    side0 := st.side0.lose st.entry.dir,
    side1 := st.side1.lose st.entry.dir,
    order := st.order.filter (fun k => ((st.side k).lose st.entry.dir).state != .free),
    queued := 0, inFlight := 0, delivered := 0, credits := 0 }

/-- The HELD sides of a stream released (R31, R113). -/
def Side.release (sd : Side) : Side := if sd.state = .held then { sd with state := .closed } else sd

/-- Whether a stream has a HELD side. -/
def Stream.held (st : Stream) : Bool := st.side0.state == .held || st.side1.state == .held

/-- Every HELD side of a stream CLOSED, in its place (R113). -/
def Stream.release (st : Stream) : Stream := { st with side0 := st.side0.release, side1 := st.side1.release }

/-! ### Bytes of a side -/

/-- A fill of side `k` of stream `n`: the bytes go in from the present fill count onward. Bytes that do not fit are
not written and change no side (R27, R28). -/
def State.fillSide (s : State) (n : Fin 32) (k : Fin 2) (bytes : List Byte) : State :=
  let st := s.stream n
  if bytes.length ≤ st.space k then
    (s.setPool (s.pool.writeBytes Config.poolBytes (st.entry.byteAddr k (st.side k).fill) bytes)).mapStream n
      (fun st => st.fill k bytes.length)
  else s

/-- `len` bytes of side `k` of stream `n` from position `off` (R34, R36, R37). -/
def State.readSide (s : State) (n : Fin 32) (k : Fin 2) (off len : Nat) : List Byte :=
  s.pool.readBytes ((s.stream n).entry.byteAddr k off) len

end Sys2Proof.Machine
end

