-- ==== Sys2Proof/Machine/Ports.lean ====
section
/-! DEFINITION. What the Branch Ports share (Chapter 7): the control-frame queue, the issue of grants, the revoking of
a key, the arbiter, the entry to UP and the loss effects. -/

namespace Sys2Proof.Machine

/-! ### The control-frame queue (R132) -/

/-- Whether an entry is a GRANT for channel `ch`. -/
def CtlEntry.isGrant (ch : Fin 8) : CtlEntry → Bool
  | .grant c _ => c == ch
  | .revoke _ _ => false

/-- `d` added to the count of a GRANT for channel `ch`. -/
def CtlEntry.addGrant (ch : Fin 8) (d : Nat) : CtlEntry → CtlEntry
  | .grant c n => if c = ch then .grant c (n + d) else .grant c n
  | .revoke c dir => .revoke c dir

/-- A GRANT request: the count of a GRANT for the same key grows in its place, else an entry joins the tail (R132). -/
def queueGrant (q : List CtlEntry) (ch : Fin 8) (d : Nat) : List CtlEntry :=
  if q.any (CtlEntry.isGrant ch) then q.map (CtlEntry.addGrant ch d) else q ++ [.grant ch d]

/-- A REVOKE request: any GRANT for the same key is removed, then a REVOKE joins the tail unless one for the key is in
the queue (R132). GRANTs are for UP keys alone. -/
def queueRevoke (q : List CtlEntry) (ch : Fin 8) (dir : Dir) : List CtlEntry :=
  let q' := if dir = .up then q.filter (fun e => !e.isGrant ch) else q
  if q'.contains (.revoke ch dir) then q' else q' ++ [.revoke ch dir]

/-! ### The arbiter (R133 to R135) -/

/-- The channels in the order in which the arbiter looks at them: from the one after the pointer, wrapping (R133). -/
def channelsAfter (p : Fin 8) : List (Fin 8) := [p + 1, p + 2, p + 3, p + 4, p + 5, p + 6, p + 7, p]

/-- The stream that the arbiter can send on channel `ch` of branch `b`: enabled, with a drainable side whose head is
CLOSED, and with a credit (R133). -/
def State.sendable? (s : State) (b : Fin 6) (ch : Fin 8) : Option (Fin 32) :=
  match s.route { branch := b, channel := ch, dir := .down } with
  | some n =>
    if (s.stream n).entry.enabled && (s.stream n).closedHead?.isSome && decide (1 ≤ (s.stream n).credits) then some n
    else none
  | none => none

/-- The transmission of a frame begins: its contents are fixed and the transmitter is BUSY. -/
def State.transmit (s : State) (b : Fin 6) (f : TxFrame) : State := s.mapBranch b (fun br => { br with tx := .busy f })

/-- The side capacity that a GRANT for channel `ch` of branch `b` carries (R134). -/
def State.grantCapacity (s : State) (b : Fin 6) (ch : Fin 8) : Nat :=
  match s.route { branch := b, channel := ch, dir := .up } with
  | some n => (s.stream n).entry.capacity
  | none => 0

/-- An operation on the UP stream to which channel `ch` of branch `b` maps, if one. -/
def State.mapUpStream (s : State) (b : Fin 6) (ch : Fin 8) (f : Stream → Stream) : State :=
  match s.route { branch := b, channel := ch, dir := .up } with
  | some n => s.mapStream n f
  | none => s

/-- A control frame's transmission begins (R134): the head entry `e` leaves the queue `e :: rest`, and a GRANT's count
moves from queued to in flight. -/
def State.beginControl (s : State) (b : Fin 6) (e : CtlEntry) (rest : List CtlEntry) : State :=
  let s1 := s.mapBranch b (fun br => { br with queue := rest })
  match e with
  | .grant ch count =>
    (s1.mapUpStream b ch (fun st => { st with queued := st.queued - count, inFlight := st.inFlight + count })).transmit
      b (.grant ch count (s.grantCapacity b ch))
  | .revoke ch dir => s1.transmit b (.revoke ch dir)

/-- The frame that the pool cuts from side `k` of DOWN stream `n` (R37): from the drain offset, at most the frame
limit, DATA-LAST as `frameIsLast` says. -/
def State.cutFrame (s : State) (n : Fin 32) (k : Fin 2) (ch : Fin 8) : TxFrame :=
  let st := s.stream n
  let sd := st.side k
  let len := min st.entry.frameLimit.toNat (sd.fill - sd.drain)
  .data (frameIsLast sd (sd.drain + len)) ch n k (s.readSide n k sd.drain len)

/-- A DOWN frame's transmission begins (R135): the side is DRAINING, one credit is taken, the pointer is set. -/
def State.beginDown (s : State) (b : Fin 6) (ch : Fin 8) (n : Fin 32) (k : Fin 2) : State :=
  ((s.mapStream n (fun st => { st.setSideState k .draining with credits := st.credits - 1 })).mapBranch b
    (fun br => { br with pointer := ch })).transmit b (s.cutFrame n k ch)

/-- The DOWN stream chosen by round robin, with its channel (R133). -/
def State.nextDown? (s : State) (b : Fin 6) : Option (Fin 8 × Fin 32) :=
  (channelsAfter (s.branch b).pointer).findSome? (fun ch => (s.sendable? b ch).map (fun n => (ch, n)))

/-- The arbiter of branch `b` (R133): with the link UP and the transmitter IDLE it takes the head control frame, else
the next DOWN stream, else nothing. -/
def State.arbitrate (s : State) (b : Fin 6) : State :=
  if (s.branch b).link = .up ∧ (s.branch b).tx = .idle then
    match (s.branch b).queue with
    | e :: rest => s.beginControl b e rest
    | [] =>
      match s.nextDown? b with
      | some (ch, n) =>
        match (s.stream n).closedHead? with
        | some k => s.beginDown b ch n k
        | none => s
      | none => s
  else s

/-- The report that a side of DOWN stream `n` has become CLOSED, to the port of its branch (R41, R133). -/
def State.reportClosed (s : State) (n : Fin 32) : State :=
  match (s.stream n).entry.key? with
  | some k => s.arbitrate k.branch
  | none => s

/-! ### Grants (R129, R130) -/

/-- How many grants stream `n` may have more: its sides less its grants outstanding and its sides that are not FREE
(R129). -/
def Stream.grantable (st : Stream) : Nat := st.entry.sideCount - (st.grants + st.notFree)

/-- The issue of grants for stream `n` (R129): an enabled UP stream on a link that is UP, whose grants outstanding plus
sides not FREE number fewer than its sides. The arbiter picks when the transmitter is IDLE (R133). -/
def State.issueGrants (s : State) (n : Fin 32) : State :=
  let st := s.stream n
  match st.entry.key? with
  | some k =>
    if st.entry.enabled ∧ k.dir = .up ∧ (s.branch k.branch).link = .up ∧ 0 < st.grantable then
      ((s.mapStream n (fun st => { st with queued := st.queued + st.grantable })).mapBranch k.branch
        (fun br => { br with queue := queueGrant br.queue k.channel st.grantable })).arbitrate k.branch
    else s
  | none => s

/-- The grants and credits of a stream set to 0 (R130). -/
def Stream.noGrants (st : Stream) : Stream := { st with queued := 0, inFlight := 0, delivered := 0, credits := 0 }

/-- The revoking of a key that stream `n` holds (R130, steps 1 and 2): a REVOKE queued if the link is UP, and the
stream's counts set to 0. -/
def State.revokeKey (s : State) (n : Fin 32) (k : RouteKey) : State :=
  let s1 := s.mapStream n Stream.noGrants
  if (s.branch k.branch).link = .up then
    (s1.mapBranch k.branch (fun br => { br with queue := queueRevoke br.queue k.channel k.dir })).arbitrate k.branch
  else s1

/-- The revoking of the key of stream `n`'s entry. -/
def State.revokeStream (s : State) (n : Fin 32) : State :=
  match (s.stream n).entry.key? with
  | some k => s.revokeKey n k
  | none => s

/-! ### Link state (R121 to R124) -/

/-- Entry to UP (R121): the link state and counts, BRANCH-UP, grants for every enabled UP stream of the branch, then
the transmitter IDLE and the arbiter's pick. -/
def State.linkUp (s : State) (b : Fin 6) : State :=
  let s1 := (s.mapBranch b (fun br => { br with link := .up, aligns := 0, errors := 0 })).offerBranch b .branchUp 0
  let s2 := s1.overStreams (s1.streamsOf b) State.issueGrants
  (s2.mapBranch b (fun br => { br with tx := .idle })).arbitrate b

/-- The loss effects on stream `n` (R45, R123), and the end of a RESET-STREAM that waits for its marked side. -/
def State.loseStream (s : State) (n : Fin 32) : State :=
  let s1 := s.mapStream n Stream.lose
  if (s.stream n).marked && (s.stream n).entry.dir == .down then s1.resetStreamEnd n else s1

/-- The link of branch `b` leaves UP for `link` with the ALIGN count `aligns` (R122), with the loss effects of R123 in
their order: the frame in transmission is abandoned, the sides and counts of the branch's streams, the queue emptied,
the transmitter, and BRANCH-DOWN with `detail`. -/
def State.loseLink (s : State) (b : Fin 6) (link : LinkState) (aligns : Nat) (detail : Byte) : State :=
  let s1 := s.mapBranch b (fun br =>
    { br with link := link, aligns := aligns, errors := 0, queue := [],
              tx := if link = .disabled then .silent else .aligning })
  (s1.overStreams (s1.streamsOf b) State.loseStream).offerBranch b .branchDown detail

end Sys2Proof.Machine
end

