-- ==== Sys2Proof/Machine/Table.lean ====
section
/-! DEFINITION. The Stream Table (Chapter 1): response-state claims and the WRITE-STREAM commit. -/

namespace Sys2Proof.Machine

/-! ### Claims (R19, R22) -/

/-- Whether the Stream Table accepts a claim (R19): the stream is enabled, and OPEN only while the node is RUNNING. -/
def State.claimAccepted (s : State) (n : Fin 32) (r : Response) : Bool :=
  (s.stream n).entry.enabled && (r != .opened || s.trunk.node == .running)

/-- A claim: an accepted one sets the response state, a refused one changes nothing (R19). -/
def State.claim (s : State) (n : Fin 32) (r : Response) : State :=
  if s.claimAccepted n r then s.mapStream n (fun st => { st with response := r }) else s

/-- A HOLD claim for every stream from 1 to 31 (R22). -/
def State.claimHoldAll (s : State) : State := s.overStreams streamNumbers (fun s n => s.claim n .hold)

/-! ### The WRITE-STREAM commit (R10 to R18) -/

/-- An idle stream (R13): disabled, or not OPEN, with no outstanding packet and no side DRAINING. -/
def Stream.isIdle (st : Stream) : Bool :=
  !st.entry.enabled || (st.response != .opened && st.packet.isNone && !st.draining)

/-- The entries of the other enabled streams from 1 to 31 (R14, R15). -/
def State.otherEntries (s : State) (n : Fin 32) : List Entry :=
  (streamNumbers.filter (fun m => m != n && (s.stream m).entry.enabled)).map (fun m => (s.stream m).entry)

/-- The first failing check of a commit on stream `n`, as its result code (R10). The target part of RANGE has passed. -/
def State.commitRefusal? (s : State) (n : Fin 32) (e : Entry) : Option ResultCode :=
  if e.enabled && !e.rangeOk then some .range
  else if e.enabled && !e.geometryOk then some .geometry
  else if !(s.stream n).isIdle then some .streamActive
  else if e.enabled && (s.otherEntries n).any e.overlaps then some .overlap
  else if e.enabled && (s.otherEntries n).any e.sameKey then some .routeClash
  else none

/-- The key of an enabled entry (R8). -/
def Entry.activeKey? (e : Entry) : Option RouteKey := if e.enabled then e.key? else none

/-- The record of a stream after a successful commit (R16 to R18): the new entry, HOLD, every live part at its start,
both sides FREE, no grants or credits; the counters kept. -/
def Stream.commit (st : Stream) (e : Entry) : Stream := { Stream.idle e with counters := st.counters }

/-- The route map of a successful commit: the old key of an enabled entry to none, the new key to the stream (R8). -/
def State.commitRoutes (s : State) (n : Fin 32) (old new : Entry) : State :=
  let s1 := match old.activeKey? with
    | some k => s.setRoute k none
    | none => s
  match new.activeKey? with
  | some k => s1.setRoute k (some n)
  | none => s1

/-- The effects of a successful commit (R16 to R18), in their order: the stream's record, the route map, the REVOKE of
the old key, and the grants of the new entry. -/
def State.commitEntry (s : State) (n : Fin 32) (e : Entry) : State :=
  let old := (s.stream n).entry
  let s1 := (s.mapStream n (fun st => st.commit e)).commitRoutes n old e
  let s2 := match old.activeKey? with
    | some k => s1.revokeKey n k
    | none => s1
  s2.issueGrants n

/-- The commit of R10: the entry applied whole, or refused whole with nothing changed. A target of 0 or above 31 fails
RANGE (R11). -/
def State.commitStream (s : State) (target : Option (Fin 32)) (e : Entry) : State × ResultCode :=
  match target with
  | none => (s, .range)
  | some n =>
    match s.commitRefusal? n e with
    | some code => (s, code)
    | none => (s.commitEntry n e, .done)

end Sys2Proof.Machine
end

