-- ==== Sys2Proof/Machine/Flow.lean ====
section
/-! DEFINITION. The Flow Handshake Unit (Chapter 4): PUT, ASK, FETCH and ACK on FLOW streams. -/

namespace Sys2Proof.Machine

/-! ### PUT on a FLOW DOWN stream -/

/-- An oversize PUT (R69): a HALT claim, STREAM-HALTED, the oversize fault, and a HALT answer. -/
def State.flowOversize (s : State) (c : CellHdr) (n : Fin 32) : State :=
  (((s.claim n .halt).offerStream n .streamHalted 1).countStream n StreamCounters.oversized).answer c .halt c.seq []

/-- The burst progress counted with one more accepted packet (R6, R72 step 3). -/
def Stream.nextBurst (st : Stream) : Nat := st.burst.toNat + 1

/-- Whether the burst progress, counted with this packet, reaches the burst count (R30, R73). -/
def Stream.burstReached (st : Stream) : Bool :=
  decide (0 < st.entry.burstCount.toNat) && decide (st.entry.burstCount.toNat ≤ st.nextBurst)

/-- Whether an accepted packet of `n` bytes ends a burst (R6, R72 step 3). -/
def Stream.burstEnds (st : Stream) (n : Nat) : Bool :=
  decide (0 < st.entry.burstCount.toNat) && (st.burstReached || decide (n < st.entry.maxPayload.toNat))

/-- The live fields and the side of an accepted PUT (R72, steps 2 to 5): the sequence bit toggled, the burst progress
counted or returned to 0, the side closed by R30. -/
def Stream.acceptPut (st : Stream) (k : Fin 2) (n : Nat) (ends reached : Bool) : Stream :=
  let st1 := st.closeBy k
    (flowDownCause st.entry n (ends && reached) ((st.side k).fill == st.entry.capacity))
  { st1 with
    seqBit := !st.seqBit,
    burst := if st.entry.burstCount = 0 then st.burst else if ends then 0 else st.burst + 1 }

/-- The burst-end work of R73 after the progress has returned to 0: the HOLD claim of hold at end, and BURST-DONE. -/
def State.burstEnd (s : State) (n : Fin 32) (reached : Bool) : State :=
  let s1 := if (s.stream n).entry.holdAtEnd then s.claim n .hold else s
  s1.offerStream n .burstDone (if reached then 1 else 2)

/-- The answer to an accepted PUT (R74). -/
def acceptedAnswer (st : Stream) (n : Nat) : UpKind :=
  if n < st.entry.maxPayload.toNat then .ack else if st.room then .ack else .full

/-- An accepted PUT into side `k` (R72), in the order of the rule; the pool's report of a closed side reaches the
Branch Port within it (R41). -/
def State.acceptPut (s : State) (c : CellHdr) (n : Fin 32) (k : Fin 2) (payload : List Byte) : State :=
  let st := s.stream n
  let len := payload.length
  let ends := st.burstEnds len
  let reached := st.burstReached
  let s1 := (s.fillSide n k payload).mapStream n (fun st => st.acceptPut k len ends reached)
  let s2 := if ends then s1.burstEnd n reached else s1
  let s3 := s2.countStream n StreamCounters.pass
  let s4 := s3.answer c (acceptedAnswer (s1.stream n) len) c.seq []
  if ((s1.stream n).side k).state = .closed then s4.reportClosed n else s4

/-- A PUT on a FLOW DOWN stream: the five checks of R68 in order. -/
def State.flowPut (s : State) (c : CellHdr) (n : Fin 32) (payload : List Byte) : State :=
  let st := s.stream n
  match st.response with
  | .halt => s.answer c .halt c.seq []
  | .hold => s.answer c .wait c.seq []
  | .opened =>
    if st.entry.maxPayload.toNat < payload.length then s.flowOversize c n
    else if c.seq ≠ st.seqBit then
      (s.countStream n (fun k => { k with duplicate := satInc k.duplicate })).answer c .ack c.seq []
    else if !st.room then s.answer c .wait c.seq []
    else
      match st.fillTarget? with
      | some k => s.acceptPut c n k payload
      | none => s.answer c .wait c.seq []

/-! ### ASK -/

/-- An ASK on a FLOW DOWN stream (R76); the answer carries the stream's sequence bit (R67). -/
def State.flowAsk (s : State) (c : CellHdr) (n : Fin 32) : State :=
  let st := s.stream n
  match st.response with
  | .halt => s.answer c .halt st.seqBit []
  | .hold => s.answer c .wait st.seqBit []
  | .opened => s.answer c (if st.room then .ack else .wait) st.seqBit []

/-! ### FETCH and ACK on a FLOW UP stream -/

/-- The next packet of side `k` (R34): from the drain offset, at most the max payload, with the stream's sequence bit. -/
def Stream.cutPacket (st : Stream) (k : Fin 2) : Packet :=
  let sd := st.side k
  { side := k, offset := sd.drain, len := min st.entry.maxPayload.toNat (sd.fill - sd.drain), seq := st.seqBit }

/-- The DATA answer that carries a packet of stream `n` (R78, R79). -/
def State.sendPacket (s : State) (c : CellHdr) (n : Fin 32) (p : Packet) : State :=
  s.answer c .data p.seq (s.readSide n p.side p.offset p.len)

/-- A FETCH on a FLOW UP stream (R77 to R80). -/
def State.flowFetch (s : State) (c : CellHdr) (n : Fin 32) : State :=
  let st := s.stream n
  match st.response with
  | .halt => s.answer c .halt st.seqBit []
  | .hold => s.answer c .wait st.seqBit []
  | .opened =>
    match st.packet with
    | some p => s.sendPacket c n p
    | none =>
      match st.closedHead? with
      | some k =>
        (s.mapStream n (fun st => { st.setSideState k .draining with packet := some (st.cutPacket k) })).sendPacket c n
          (st.cutPacket k)
      | none => s.answer c .wait st.seqBit []

/-- Whether the drain of a side is complete when a packet of `len` bytes is acknowledged (R35). -/
def drainDone (sd : Side) (maxPayload len : Nat) : Bool :=
  len == 0 || (sd.drain + len == sd.fill && !endPacketDue sd maxPayload)

/-- What the ACK of packet `p` leaves of the stream's record (R35, R81). -/
def Stream.ackPacket (st : Stream) (p : Packet) : Stream :=
  { st.advance p.side p.len (drainDone (st.side p.side) st.entry.maxPayload.toNat p.len) with
    packet := none, seqBit := !st.seqBit }

/-- An ACK on a FLOW UP stream (R81, R82): it completes the outstanding packet, or it is a stray ACK. -/
def State.flowAck (s : State) (n : Fin 32) : State :=
  let st := s.stream n
  match st.packet with
  | none => s.strayAck
  | some p =>
    let s1 := (s.mapStream n (fun st => st.ackPacket p)).countStream n StreamCounters.pass
    if drainDone (st.side p.side) st.entry.maxPayload.toNat p.len then s1.issueGrants n else s1

end Sys2Proof.Machine
end

