-- ==== Sys2Proof/Machine/Cyclic.lean ====
section
/-! DEFINITION. The Cyclic Scheduler (Chapter 6): cyclic PUT and FETCH, the boundary work and the loss notice. -/

namespace Sys2Proof.Machine

/-! ### Cells on CYCLIC streams -/

/-- A cell refused with INTERVAL-MISS: the event and the interval-miss fault (R108, R110, R118). -/
def State.intervalMiss (s : State) (n : Fin 32) (detail : Byte) : State :=
  (s.countStream n StreamCounters.missed).offerStream n .intervalMiss detail

/-- The served flag set (R107). -/
def State.setServed (s : State) (n : Fin 32) : State := s.mapStream n (fun st => { st with served := true })

/-- A due PUT of `payload` on a CYCLIC DOWN stream (R109). No step sends an answer. -/
def State.cyclicDuePut (s : State) (n : Fin 32) (payload : List Byte) : State :=
  let st := s.stream n
  if st.served then (s.countStream n StreamCounters.overran).offerStream n .overrun 3
  else
    let s1 := s.setServed n
    match st.freeSide? with
    | none => (s1.countStream n StreamCounters.overran).offerStream n .overrun 2
    | some k =>
      if st.entry.maxPayload.toNat < payload.length then
        (s1.countStream n StreamCounters.oversized).offerStream n .overrun 1
      else
        ((s1.fillSide n k payload).mapStream n (fun st => st.close k .held .cyclic)).countStream n
          StreamCounters.pass

/-- A PUT on a CYCLIC DOWN stream (R108): only HALT is ever sent in answer. -/
def State.cyclicPut (s : State) (c : CellHdr) (n : Fin 32) (payload : List Byte) : State :=
  let st := s.stream n
  match st.response with
  | .halt => s.answer c .halt c.seq []
  | .hold => s
  | .opened =>
    if !s.timebase.serving then s.intervalMiss n 1
    else if !st.entry.due s.timebase.count then s.intervalMiss n 2
    else s.cyclicDuePut n payload

/-- A due FETCH on a CYCLIC UP stream (R111). -/
def State.cyclicDueFetch (s : State) (c : CellHdr) (n : Fin 32) : State :=
  let st := s.stream n
  if st.served then
    (s.countStream n (fun k => { k with secondFetch := satInc k.secondFetch })).answer c .empty false []
  else
    let s1 := s.setServed n
    match st.closedHead? with
    | some k =>
      (((s1.mapStream n (fun st => st.free k)).countStream n StreamCounters.pass).answer c .data false
        (s.readSide n k 0 (st.side k).fill)).issueGrants n
    | none =>
      ((s1.countStream n (fun k => { k with underrun := satInc k.underrun })).offerStream n .underrun
        (if st.fillingSide?.isSome then 2 else 1)).answer c .empty false []

/-- A FETCH on a CYCLIC UP stream (R110). An EMPTY carries SEQ 0, a HALT the SEQ of the FETCH. -/
def State.cyclicFetch (s : State) (c : CellHdr) (n : Fin 32) : State :=
  let st := s.stream n
  match st.response with
  | .halt => s.answer c .halt c.seq []
  | .hold => s.answer c .empty false []
  | .opened =>
    if !s.timebase.serving then (s.intervalMiss n 1).answer c .empty false []
    else if !st.entry.due s.timebase.count then (s.intervalMiss n 2).answer c .empty false []
    else s.cyclicDueFetch c n

/-! ### Boundary work (R112 to R114) -/

/-- Whether stream `n` is an enabled CYCLIC stream. -/
def Stream.isCyclic (st : Stream) : Bool := st.entry.enabled && st.entry.cls == .cyclic

/-- A stale flush of a CYCLIC UP stream (R43, R112): the oldest CLOSED side becomes FREE, STALE-FLUSH names it, and the
freed side is reported to the Branch Port. -/
def State.staleFlush (s : State) (n : Fin 32) : State :=
  match (s.stream n).closedHead? with
  | some k => ((s.mapStream n (fun st => st.free k)).offerStream n .staleFlush (byteOf k.val)).issueGrants n
  | none => s

/-- Whether stream `n` fails the unserved check for the ending count `e` (R112). -/
def Stream.unserved (st : Stream) (e : Half) : Bool :=
  st.isCyclic && st.entry.due e && !st.served && st.response == .opened

/-- The unserved check of one stream, and its stale flush (R112). -/
def State.unservedCheck (e : Half) (s : State) (n : Fin 32) : State :=
  let st := s.stream n
  if st.unserved e then
    let s1 := s.intervalMiss n 3
    if st.entry.dir == .up && st.entry.staleFlush then s1.staleFlush n else s1
  else s

/-- The enabled CYCLIC DOWN streams with a HELD side, ascending (R113). -/
def State.heldStreams (s : State) : List (Fin 32) :=
  streamNumbers.filter (fun n => (s.stream n).isCyclic && (s.stream n).entry.dir == .down && (s.stream n).held)

/-- The release of every HELD side of every enabled CYCLIC DOWN stream, and then the reports to the Branch Ports in
ascending stream number (R113; assumption 8). -/
def State.releaseHeld (s : State) : State :=
  let ns := s.heldStreams
  (s.overStreams ns (fun s n => s.mapStream n Stream.release)).overStreams ns State.reportClosed

/-- Every served flag cleared (R113, R115, R62). -/
def State.clearServed (s : State) : State :=
  s.overStreams streamNumbers (fun s n => s.mapStream n (fun st => { st with served := false }))

/-- The boundary work (R112 to R114): the unserved checks when an ending count is handed, the release of HELD sides,
and last the served flags. -/
def State.boundaryWork (s : State) (ending : Option Half) : State :=
  let s1 := match ending with
    | some e => s.overStreams streamNumbers (State.unservedCheck e)
    | none => s
  s1.releaseHeld.clearServed

/-! ### The loss notice (R44, R115) -/

/-- The discard of one CYCLIC stream's sides at the loss notice: each side freed or marked is counted, and the freed
sides of an UP stream are reported to its port. -/
def State.loseCyclic (s : State) (n : Fin 32) : State :=
  let st := s.stream n
  if st.isCyclic then
    let s1 := (s.mapStream n Stream.discard).countStream n
      (fun k => { k with sidesLost := satIncBy st.discardCount k.sidesLost })
    if st.entry.dir == .up && decide (0 < st.discardCount) then s1.issueGrants n else s1
  else s

/-- The loss notice of the timebase (R115). -/
def State.lossNotice (s : State) : State := (s.overStreams streamNumbers State.loseCyclic).clearServed

end Sys2Proof.Machine
end

