-- ==== Sys2Proof/Machine/Timebase.lean ====
section
/-! DEFINITION. The Cycle Timebase (Chapter 5): markers, the cycle timer, the loss of the cycle, and what returns the
timebase to UNSYNCED; the meanings of CYCLE and CYCLE_TIMER_EXPIRY. -/

namespace Sys2Proof.Machine

/-! ### Markers -/

/-- A first boundary: the timebase part of R94. -/
def Timebase.lock (t : Timebase) (k : Half) (time : Ticks) : Timebase :=
  { t with state := .locked, count := k, consecutive := 0, last := some { time := time, kind := .marker },
           timer := some (time + t.length.ticks) }

/-- A marker that locks an UNSYNCED or LOST timebase (R94); `detail` says from which (R173). -/
def State.markerLock (s : State) (k : Half) (time : Ticks) (detail : Byte) : State :=
  ((s.mapTimebase (fun t => t.lock k time)).offerPlain .timebaseLocked detail).boundaryWork none

/-- TIMEBASE-LOCKED on the return from COASTING (R95, R97). -/
def State.returnFrom (s : State) (before : TimebaseState) : State :=
  if before = .coasting then s.offerPlain .timebaseLocked 3 else s

/-- A claimed boundary: the timebase part of R95. The boundary keeps its kind and takes the marker's time. -/
def Timebase.claim (t : Timebase) (k : Half) (time : Ticks) : Timebase :=
  { t with state := .locked, count := k, consecutive := 0,
           last := some { time := time, kind := .interpolated true }, timer := some (time + t.interval) }

/-- A marker that claims the last boundary (R95). The MARKER-SKEW record carries the count k (R98; assumption 9). -/
def State.markerClaim (s : State) (k : Half) (time : Ticks) : State :=
  let s1 := s.mapTimebase (fun t => t.claim k time)
  let s2 := if k ≠ s.timebase.count then s1.offerPlain .markerSkew 2 else s1
  s2.returnFrom s.timebase.state

/-- The span that a new marker boundary measures: none from an interpolated boundary, claimed or not (R97). -/
def Timebase.measure (t : Timebase) (time : Ticks) : Option Ticks :=
  match t.last with
  | some { time := t0, kind := .marker } => some (time - t0)
  | _ => none

/-- The measured interval after a measurement: adopted when within tolerance, else kept (R97). -/
def Timebase.adopt (t : Timebase) (span : Option Ticks) : Option Ticks :=
  match span with
  | some m => if t.length.tolerates m then some m else t.measured
  | none => t.measured

/-- A new boundary: the timebase part of R97. -/
def Timebase.boundary (t : Timebase) (k : Half) (time : Ticks) : Timebase :=
  let measured := t.adopt (t.measure time)
  { t with state := .locked, count := k, consecutive := 0, measured := measured,
           last := some { time := time, kind := .marker }, timer := some (time + measured.getD t.length.ticks) }

/-- The detail of the MARKER-SKEW of a new boundary: 2 count, 3 interval, 4 count and interval, or none (R98). -/
def skewDetail? (offCount offInterval : Bool) : Option Byte :=
  match offCount, offInterval with
  | false, false => none
  | true, false => some 2
  | false, true => some 3
  | true, true => some 4

/-- Whether a marker is off-interval: its measurement is out of tolerance (R97). -/
def Timebase.offInterval (t : Timebase) (time : Ticks) : Bool :=
  match t.measure time with
  | some m => !t.length.tolerates m
  | none => false

/-- A marker that makes a new boundary in LOCKED or COASTING (R97, R98). -/
def State.markerBoundary (s : State) (k : Half) (time : Ticks) : State :=
  let t := s.timebase
  let s1 := s.mapTimebase (fun t => t.boundary k time)
  let s2 := match skewDetail? (decide (k ≠ t.count + 1)) (t.offInterval time) with
    | some d => s1.offerPlain .markerSkew d
    | none => s1
  (s2.returnFrom t.state).boundaryWork (some t.count)

/-- Whether a marker claims the last boundary: interpolated, unclaimed, within the capture window (R93 test 1). -/
def Timebase.claims (t : Timebase) (time : Ticks) : Bool :=
  match t.last with
  | some { time := t0, kind := .interpolated false } => t.length.captures (time - t0)
  | _ => false

/-- Whether a marker comes less than L/2 after the last boundary (R93 test 2). -/
def Timebase.tooEarly (t : Timebase) (time : Ticks) : Bool :=
  match t.last with
  | some { time := t0, kind := _ } => t.length.isRunt (time - t0)
  | none => false

/-- The timebase takes a marker (R93): it counts it, and locks, claims, discards a runt, or makes a boundary. -/
def State.takeMarker (s : State) (k : Half) (time : Ticks) : State :=
  let s1 := s.mapTimebase (fun t => { t with markers := t.markers + 1 })
  match s.timebase.state with
  | .unsynced => s1.markerLock k time 1
  | .lost => s1.markerLock k time 2
  | .locked | .coasting =>
    if s.timebase.claims time then s1.markerClaim k time
    else if s.timebase.tooEarly time then s1.offerPlain .markerSkew 1
    else s1.markerBoundary k time

/-! ### The cycle timer -/

/-- An interpolated boundary at the expiry time: the timebase part of R99. -/
def Timebase.interpolate (t : Timebase) (time : Ticks) : Timebase :=
  { t with state := .coasting, count := t.count + 1, consecutive := t.consecutive + 1,
           last := some { time := time, kind := .interpolated false }, timer := some (time + t.interval),
           interpolated := t.interpolated + 1 }

/-- The timer makes an interpolated boundary (R99). -/
def State.timerBoundary (s : State) (time : Ticks) : State :=
  let s1 := s.mapTimebase (fun t => t.interpolate time)
  let s2 := if s.timebase.state = .locked then s1.offerPlain .timebaseCoasting 0 else s1
  s2.boundaryWork (some s.timebase.count)

/-- The timebase becomes LOST (R100). -/
def State.timebaseLost (s : State) : State :=
  ((s.mapTimebase (fun t => { t with state := .lost, measured := none, timer := none })).offerPlain
    .timebaseLost 0).lossNotice

/-- Whether the expiry that falls at `time` is still due (R103, R104): the timer is armed to that moment, and has not
been re-armed by a marker or stopped since. -/
def Timebase.expires (t : Timebase) (time : Ticks) : Bool := t.timer == some time

/-- The timer runs out at `time` (R99, R100). An expiry that is no longer due does not happen (R103, R104). -/
def State.timerExpires (s : State) (time : Ticks) : State :=
  if s.timebase.expires time then
    if s.timebase.consecutive < s.timebase.coastLimit then s.timerBoundary time else s.timebaseLost
  else s

/-! ### Return to UNSYNCED (R101, R102) -/

/-- The timebase after a trunk reset, a detach or a SET-CYCLE: L, C, the count and the counters kept. -/
def Timebase.unsync (t : Timebase) : Timebase :=
  { t with state := .unsynced, measured := none, consecutive := 0, last := none, timer := none }

/-! ### Meanings -/

/-- CYCLE: a marker is handed to the timebase whatever its address and stream fields, in every node state in which
cells are taken (R57, R93). It gets no answer. -/
def execCycle (_c : CellHdr) (k : Half) (time : Ticks) (s : State) : Host.Outcome State Fault Refusal :=
  .next (if s.receives then s.takeMarker k time else s)

/-- CYCLE_TIMER_EXPIRY: the expiry that falls at `time` (R99, R100, R103). -/
def execCycleTimerExpiry (s : State) (time : Ticks := 0) : Host.Outcome State Fault Refusal := .next (s.timerExpires time)

end Sys2Proof.Machine
end

