-- ==== Sys2Proof/Machine/Records.lean ====
section
/-! DEFINITION. The management records (11.4 to 11.7): the stream entry read from its 16 bytes, and the bytes of the
records that the part returns. -/

namespace Sys2Proof.Machine

/-! ### Stream entry (11.5) -/

/-- Byte 0 of a stream entry. -/
def Entry.byte0 (e : Entry) : Byte :=
  BitVec.ofBool e.enabled ++ BitVec.ofBool (e.dir == .down) ++ BitVec.ofBool (e.cls == .cyclic) ++
    BitVec.ofBool e.continuous ++ BitVec.ofBool e.staleFlush ++ BitVec.ofBool e.holdAtEnd ++
    BitVec.ofBool e.twoSides ++ BitVec.ofBool e.spare0

/-- The 16 bytes of a stream entry. -/
def Entry.bytes (e : Entry) : List Byte :=
  [e.byte0, e.branch, e.channel, e.periodExp] ++ halfBytes e.maxPayload ++ halfBytes e.frameLimit ++
    halfBytes e.baseBlock ++ [e.sideSize, e.phase] ++ halfBytes e.burstCount ++ halfBytes e.spare14

/-- The stream entry that bytes carry; a missing byte reads as 0 (WRITE-STREAM always gathers 16). -/
def Entry.ofBytes (bs : List Byte) : Entry :=
  let b (i : Nat) : Byte := bs.getD i 0
  { enabled := (b 0).getLsbD 7,
    dir := if (b 0).getLsbD 6 then .down else .up,
    cls := if (b 0).getLsbD 5 then .cyclic else .flow,
    continuous := (b 0).getLsbD 4,
    staleFlush := (b 0).getLsbD 3,
    holdAtEnd := (b 0).getLsbD 2,
    twoSides := (b 0).getLsbD 1,
    spare0 := (b 0).getLsbD 0,
    branch := b 1,
    channel := b 2,
    periodExp := b 3,
    maxPayload := half (b 4) (b 5),
    frameLimit := half (b 6) (b 7),
    baseBlock := half (b 8) (b 9),
    sideSize := b 10,
    phase := b 11,
    burstCount := half (b 12) (b 13),
    spare14 := half (b 14) (b 15) }

/-! ### Stream record (R165, R178, 11.5) -/

/-- The state and fill count of a side in two bytes (11.5). -/
def Side.word (sd : Side) : Half := halfOf (sd.state.code * 4096 + sd.fill)

/-- A side as READ-STREAM reports it: side 1 of a one-sided stream as FREE (R25). -/
def Stream.reportedSide (st : Stream) (k : Fin 2) : Side := if k ∈ st.entry.sideNos then st.side k else Side.empty

/-- Byte 17 of the stream record (11.5). -/
def Stream.byte17 (st : Stream) : Byte :=
  byteOf ((match st.entry.dir with | .up => st.grants | .down => st.credits) * 16 +
    (if st.packet.isSome then 2 else 0) + (if st.seqBit then 1 else 0))

/-- The 24-byte READ-STREAM record. A disabled stream is reported in HOLD with nothing else (R165, R178). -/
def Stream.record (st : Stream) : List Byte :=
  st.entry.bytes ++
    (if st.entry.enabled then
      [st.response.byte, st.byte17] ++ halfBytes st.burst ++ halfBytes (st.reportedSide 0).word ++
        halfBytes (st.reportedSide 1).word
    else [Response.hold.byte, 0, 0, 0, 0, 0, 0, 0])

/-! ### The other records -/

/-- The 8-byte event record (11.6). -/
def EventRec.bytes (r : EventRec) : List Byte :=
  [byteOf r.kind.code, r.stream, r.branch, r.detail] ++ halfBytes r.count ++ halfBytes r.serial

/-- The 16-byte identity record (R164, 11.7). -/
def identityRecord : List Byte :=
  halfBytes Config.partCode ++ [Config.revision, 32, 6, byteOf Config.eventDepth] ++
    halfBytes (halfOf Config.poolBlocks) ++ List.replicate 8 0

/-- The 12-byte timebase record: the measured interval in whole microseconds, 0 for none (R105, 11.7). -/
def Timebase.record (t : Timebase) : List Byte :=
  [t.state.byte, byteOf t.consecutive, byteOf t.coastLimit, 0] ++ halfBytes t.count ++
    halfBytes (halfOf t.length.micros) ++ halfBytes (halfOf (t.measured.getD 0 / 16)) ++ [0, 0]

/-- The 20-byte per-stream counter record (11.7). -/
def StreamCounters.record (c : StreamCounters) : List Byte :=
  wordBytes c.passed ++ halfBytes c.oversize ++ halfBytes c.duplicate ++ halfBytes c.overrun ++
    halfBytes c.underrun ++ halfBytes c.intervalMiss ++ halfBytes c.wrongDirection ++ halfBytes c.secondFetch ++
    halfBytes c.sidesLost

/-- The 18-byte per-branch counter record (11.7). -/
def BranchCounters.record (c : BranchCounters) : List Byte :=
  wordBytes c.good ++ wordBytes c.sent ++ halfBytes c.oversize ++ halfBytes c.noRoom ++ halfBytes c.noGrant ++
    halfBytes c.unrouted ++ halfBytes c.checkErrors

/-- The 8-byte trunk counter record (11.7). -/
def TrunkCounters.record (c : TrunkCounters) : List Byte :=
  halfBytes c.badCheck ++ halfBytes c.unknownKind ++ halfBytes c.disabled ++ halfBytes c.strayAck

/-- The 8-byte timebase counter record (11.7). -/
def Timebase.counterRecord (t : Timebase) : List Byte := wordBytes t.markers ++ wordBytes t.interpolated

/-- The record of a counter group (R168). -/
def State.counterRecord (s : State) : CounterGroup → List Byte
  | .stream n => (s.stream n).counters.record
  | .branch b => (s.branch b).counters.record
  | .trunk => s.trunkCtr.record
  | .timebase => s.timebase.counterRecord

/-- Every counter of a group set to 0 (R168, R175). -/
def State.clearGroup (s : State) : CounterGroup → State
  | .stream n => s.countStream n (fun _ => StreamCounters.zero)
  | .branch b => s.countBranch b (fun _ => BranchCounters.zero)
  | .trunk => s.mapTrunkCtr (fun _ => TrunkCounters.zero)
  | .timebase => s.mapTimebase (fun t => { t with markers := 0, interpolated := 0 })

/-- The 4-byte RESULT payload (11.4). -/
def MgmtResult.bytes (r : MgmtResult) : List Byte := [r.code.byte, r.detail] ++ halfBytes r.tag

end Sys2Proof.Machine
end

