-- ==== Sys2Proof/Machine/Exchange.lean ====
section
/-! DEFINITION. The Management Engine's exchange (Chapter 8): how a REQUEST begins one, the data stages, the RESULT
stage, sequence errors, and the stream 0 cells. -/

namespace Sys2Proof.Machine

/-! ### The header in force -/

/-- The request code byte that the header holds, 0 when it holds none (R140). -/
def Mgmt.headerCode (m : Mgmt) : Byte :=
  match m.header with
  | some h => h.code
  | none => 0

/-- The fields of the header in force, if it holds them. -/
def Mgmt.fields? (m : Mgmt) : Option ReqFields := m.header.bind ReqHeader.fields

/-- The tag that the result carries: the header's, or 0 when the REQUEST payload was not 12 bytes (R141, R178). -/
def Mgmt.tag (m : Mgmt) : Half :=
  match m.fields? with
  | some f => f.tag
  | none => 0

/-- The declared length of the data stage. -/
def Mgmt.declared (m : Mgmt) : Nat :=
  match m.fields? with
  | some f => f.length.toNat
  | none => 0

/-! ### Beginning and ending an exchange -/

/-- Whether an exchange stands that a REQUEST would abandon (R140). -/
def Exchange.standing : Exchange → Bool
  | .idle => false
  | .dataOut => true
  | .dataIn => true
  | .executing => true
  | .result => true
  | .failed => false

/-- The Management Engine with a new exchange begun (R140, steps 1 and 2). -/
def Mgmt.begin (m : Mgmt) (header : ReqHeader) : Mgmt :=
  { m with exchange := .idle, header := some header, result := none, deferred := none, outCount := 0, snapLen := 0,
           snapOff := 0, packet := none, seqBit := true, response := .opened }

/-- A REQUEST ends the exchange that stands, with MGMT-ABANDONED unless it was IDLE or FAILED, and begins its own
(R140). -/
def State.beginExchange (s : State) (header : ReqHeader) : State :=
  (if s.mgmt.exchange.standing then s.offerPlain .mgmtAbandoned s.mgmt.headerCode else s).mapMgmt
    (fun m => m.begin header)

/-- The exchange goes to RESULT with a result code (R141, R155). -/
def State.finish (s : State) (code : ResultCode) : State :=
  s.mapMgmt (fun m => { m with exchange := .result, result := some { code := code, detail := 0, tag := m.tag } })

/-- The exchange goes to EXECUTING with the result that it will report (R142, R147). -/
def State.execute (s : State) : State :=
  s.mapMgmt (fun m =>
    { m with exchange := .executing, result := some { code := .done, detail := 0, tag := m.tag } })

/-- An IN request takes its snapshot into the management buffer and goes to DATA-IN (R142). -/
def State.snapshot (s : State) (bytes : List Byte) (detail : Byte) (deferred : Option Deferred) : State :=
  s.mapMgmt (fun m =>
    { m with exchange := .dataIn, buffer := m.buffer.writeBytes Config.bufferBytes 0 bytes, snapLen := bytes.length,
             snapOff := 0, result := some { code := .done, detail := detail, tag := m.tag }, deferred := deferred })

/-- The Management Engine after a sequence error (R150). -/
def Mgmt.fail (m : Mgmt) : Mgmt :=
  { m with exchange := .failed, response := .halt, outCount := 0, snapLen := 0, snapOff := 0, packet := none,
           result := none, deferred := none }

/-- A sequence error: HALT with the cell's SEQ, FAILED, and MGMT-SEQUENCE (R150). -/
def State.sequenceError (s : State) (c : CellHdr) : State :=
  ((s.mapMgmt Mgmt.fail).offerPlain .mgmtSequence s.mgmt.headerCode).answer c .halt c.seq []

/-! ### REQUEST (R58, R140, R141) -/

/-- A REQUEST cell addressed to the node: on a stream other than 0 it is answered HALT and counted as a cell of unknown
kind (R58); on stream 0 it is answered ACK, and begins an exchange that `run` carries on (R140). -/
def State.takeRequest (s : State) (c : CellHdr) (header : ReqHeader) (run : State → State) : State :=
  s.takeCell c (fun s =>
    if c.stream ≠ 0 then s.unknownKind.answer c .halt c.seq []
    else (run (s.beginExchange header)).answer c .ack c.seq [])

/-- The header checks of R141 on a request that its code names, then the request's own work. -/
def State.runRequest (s : State) (r : Request) (f : ReqFields) (body : State → State) : State :=
  match headerRefusal? r f s.trunk.node with
  | some code => s.finish code
  | none => body s

/-- A 12-byte REQUEST whose code names request `r`. -/
def State.request (s : State) (c : CellHdr) (r : Request) (f : ReqFields) (body : State → State) : State :=
  s.takeRequest c { code := r.code, fields := some f } (fun s => s.runRequest r f body)

/-! ### The deferred actions (R53, R149, R174) -/

/-- The Trunk Port applies an address change (R53). -/
def Trunk.applyAddress (t : Trunk) (a : BitVec 6) : Trunk :=
  match t.node with
  | .listening | .addressed =>
    if a = 0 then { t with node := .listening, addr := 0 } else { t with node := .addressed, addr := a }
  | .detached | .running => t

/-- The Event Queue removes the `n` oldest records and reduces the lost count by `v` (R174). -/
def EventQueue.remove (q : EventQueue) (n : Nat) (v : Byte) : EventQueue :=
  { q with records := q.records.drop n, lost := byteOf (q.lost.toNat - v.toNat) }

/-- A deferred action carried out (R149). -/
def State.carryOut (s : State) (d : Option Deferred) : State :=
  match d with
  | none => s
  | some (.address a) => s.mapTrunk (fun t => t.applyAddress a)
  | some (.removal n v) => s.setEvents (s.events.remove n v)

/-- The ACK of the RESULT ends the exchange (R149). -/
def State.resultAck (s : State) : State :=
  (s.mapMgmt (fun m => { m with exchange := .idle, packet := none, deferred := none })).carryOut s.mgmt.deferred

/-! ### Stream 0 cells (8.2) -/

/-- The commit of an OUT request after its last byte (R144): WRITE-STREAM is the one OUT request. -/
def State.commitOut (s : State) : State :=
  let target := s.mgmt.fields?.bind ReqFields.stream?
  let r := s.commitStream target (Entry.ofBytes (s.mgmt.buffer.readBytes 0 s.mgmt.declared))
  r.1.finish r.2

/-- The bytes of an OUT packet appended to the management buffer (R143 step 3). -/
def Mgmt.take (m : Mgmt) (payload : List Byte) : Mgmt :=
  { m with buffer := m.buffer.writeBytes Config.bufferBytes m.outCount payload,
           outCount := m.outCount + payload.length, seqBit := !m.seqBit }

/-- A PUT in DATA-OUT (R143, R144). -/
def State.mgmtOut (s : State) (c : CellHdr) (payload : List Byte) : State :=
  if c.seq ≠ s.mgmt.seqBit then s.answer c .ack c.seq []
  else if Config.mgmtPacket < payload.length ∨ s.mgmt.declared < s.mgmt.outCount + payload.length then
    s.sequenceError c
  else
    let s1 := s.mapMgmt (fun m => m.take payload)
    let s2 := if s1.mgmt.outCount = s1.mgmt.declared then s1.commitOut else s1
    s2.answer c .ack c.seq []

/-- A PUT for stream 0, by exchange state (R143, R150, R151). -/
def State.mgmtPut (s : State) (c : CellHdr) (payload : List Byte) : State :=
  match s.mgmt.exchange with
  | .idle | .failed => s.answer c .halt c.seq []
  | .dataOut => s.mgmtOut c payload
  | .dataIn | .executing | .result => s.sequenceError c

/-- An ASK for stream 0, by exchange state (R150, R151). -/
def State.mgmtAsk (s : State) (c : CellHdr) : State :=
  match s.mgmt.exchange with
  | .idle | .failed => s.answer c .halt c.seq []
  | .dataOut | .dataIn | .executing | .result => s.sequenceError c

/-- An IN packet sent as a DATA cell (R145). -/
def State.sendIn (s : State) (c : CellHdr) (off len : Nat) (seq : Bool) : State :=
  s.answer c .data seq (s.mgmt.buffer.readBytes off len)

/-- A FETCH in DATA-IN (R145): the outstanding packet again, or the next packet, or the end packet. -/
def State.mgmtIn (s : State) (c : CellHdr) : State :=
  match s.mgmt.packet with
  | some (.inData off len seq) => s.sendIn c off len seq
  | _ =>
    let off := s.mgmt.snapOff
    let len := min Config.mgmtPacket (s.mgmt.snapLen - off)
    let seq := s.mgmt.seqBit
    (s.mapMgmt (fun m => { m with packet := some (.inData off len seq) })).sendIn c off len seq

/-- The payload of the RESULT cell (R148). -/
def Mgmt.resultPayload (m : Mgmt) : List Byte :=
  match m.result with
  | some r => r.bytes
  | none => []

/-- A FETCH for stream 0, by exchange state (R145, R147, R148, R150, R151). -/
def State.mgmtFetch (s : State) (c : CellHdr) : State :=
  match s.mgmt.exchange with
  | .idle | .failed => s.answer c .halt c.seq []
  | .dataOut => s.sequenceError c
  | .dataIn => s.mgmtIn c
  | .executing => s.answer c .wait s.mgmt.seqBit []
  | .result =>
    (s.mapMgmt (fun m => { m with packet := some .result })).answer c .result s.mgmt.seqBit s.mgmt.resultPayload

/-- Whether the data stage is complete at the ACK of a packet of `len` bytes (R146): the packet was an end packet, or
the snapshot is drained and no end packet is due. -/
def Mgmt.inDone (m : Mgmt) (len : Nat) : Bool :=
  len == 0 || (m.snapOff + len == m.snapLen && m.snapLen % Config.mgmtPacket != 0)

/-- The ACK of an IN packet of `len` bytes (R146). -/
def Mgmt.ackIn (m : Mgmt) (len : Nat) : Mgmt :=
  { m with packet := none, seqBit := !m.seqBit, snapOff := m.snapOff + len,
           exchange := if m.inDone len then .result else .dataIn }

/-- An ACK for stream 0, by exchange state (R146, R149, R151). -/
def State.mgmtAck (s : State) : State :=
  match s.mgmt.exchange, s.mgmt.packet with
  | .dataIn, some (.inData _ len _) => s.mapMgmt (fun m => m.ackIn len)
  | .result, some .result => s.resultAck
  | _, _ => s.strayAck

end Sys2Proof.Machine
end

