-- ==== Sys2Proof/Machine/Requests.lean ====
section
/-! DEFINITION. The fifteen management requests (Chapter 9): what each does once the header checks have passed, and the
meanings of the request rows. -/

namespace Sys2Proof.Machine

/-! ### Node control -/

/-- ASSIGN-ADDRESS (R156): the address is held as a deferred change until the ACK of the RESULT. -/
def assignAddressBody (f : ReqFields) (s : State) : State :=
  if f.target ≠ 0 then s.finish .badRequest
  else if 63 < f.value.toNat then s.finish .badRequest
  else (s.finish .done).mapMgmt (fun m => { m with deferred := some (.address (f.value.setWidth 6)) })

/-- START (R54, R157). -/
def startBody (s : State) : State := (s.mapTrunk (fun t => { t with node := .running })).finish .done

/-- STOP (R22, R54, R157). -/
def stopBody (s : State) : State :=
  ((s.mapTrunk (fun t => { t with node := .addressed })).claimHoldAll).finish .done

/-- SET-CYCLE (R102, R158): the L code in byte 6, C in byte 7, bytes 4 and 5 zero (11.4). -/
def setCycleBody (f : ReqFields) (s : State) : State :=
  match cycleLengthOfCode? (f.valueByte 6) with
  | none => s.finish .range
  | some l =>
    if f.valueByte 7 < 1 ∨ 15 < f.valueByte 7 then s.finish .range
    else if f.valueByte 4 ≠ 0 ∨ f.valueByte 5 ≠ 0 then s.finish .range
    else
      (s.mapTimebase (fun t => { t.unsync with length := l, coastLimit := f.valueByte 7 })).finish .done

/-! ### Stream control -/

/-- WRITE-STREAM opens its OUT data stage; nothing of it takes effect yet (R142, R159). -/
def writeStreamBody (s : State) : State := s.mapMgmt (fun m => { m with exchange := .dataOut })

/-- The sequence bit of a stream set to 0. -/
def Stream.clearSeq (st : Stream) : Stream := { st with seqBit := false }

/-- SET-RESPONSE (R20, R160): the claim, and then the clear-sequence flag. -/
def setResponseBody (f : ReqFields) (s : State) : State :=
  match f.stream? with
  | none => s.finish .range
  | some n =>
    match responseOfCode? (f.valueByte 7) with
    | none => s.finish .range
    | some r =>
      if f.valueByte 4 ≠ 0 ∨ f.valueByte 5 ≠ 0 ∨ 1 < f.valueByte 6 then s.finish .range
      else if !s.claimAccepted n r then s.finish .wrongState
      else
        let s1 := s.claim n r
        (if f.valueByte 6 = 1 then s1.mapStream n Stream.clearSeq else s1).finish .done

/-- What a RESET-STREAM commit leaves of the stream's record (R42, R84, R161 steps 1 to 3). -/
def Stream.resetStream (st : Stream) : Stream :=
  { st.discard with packet := none, seqBit := false, burst := 0 }

/-- RESET-STREAM (R161): the blocks act in order; with a side marked the exchange goes to EXECUTING. -/
def resetStreamBody (f : ReqFields) (s : State) : State :=
  match f.stream? with
  | none => s.finish .range
  | some n =>
    if !(s.stream n).entry.enabled then s.finish .wrongState
    else
      let s1 := s.mapStream n Stream.resetStream
      let s2 := (s1.revokeStream n).issueGrants n
      if (s1.stream n).marked then s2.execute else s2.finish .done

/-! ### Branch control -/

/-- The commit of a BRANCH-CONTROL on branch `b` (R124). -/
def State.branchCommit (s : State) (b : Fin 6) (a : BranchAction) : State :=
  match a, (s.branch b).link with
  | .disable, .up => s.loseLink b .disabled 0 4
  | .disable, .down => s.mapBranch b (fun br => { br with link := .disabled, aligns := 0, tx := .silent })
  | .disable, .training => s.mapBranch b (fun br => { br with link := .disabled, aligns := 0, tx := .silent })
  | .disable, .disabled => s
  | .enable, .disabled =>
    s.mapBranch b (fun br =>
      { br with link := if br.line = .present then .training else .down, aligns := 0, tx := .aligning })
  | .enable, .down => s
  | .enable, .training => s
  | .enable, .up => s
  | .retrain, .up => s.loseLink b .training 0 5
  | .retrain, .training => s.mapBranch b (fun br => { br with aligns := 0 })
  | .retrain, .down => s
  | .retrain, .disabled => s

/-- BRANCH-CONTROL (R163). -/
def branchControlBody (f : ReqFields) (s : State) : State :=
  match f.branch? with
  | none => s.finish .range
  | some b =>
    match branchActionOf? f.value with
    | none => s.finish .range
    | some a => (s.branchCommit b a).finish .done

/-! ### Observation -/

/-- READ-IDENTITY (R164). -/
def readIdentityBody (s : State) : State := s.snapshot identityRecord 0 none

/-- READ-TIMEBASE (R105, R164). -/
def readTimebaseBody (s : State) : State := s.snapshot s.timebase.record 0 none

/-- READ-STREAM (R165). -/
def readStreamBody (f : ReqFields) (s : State) : State :=
  match f.stream? with
  | none => s.finish .range
  | some n => s.snapshot (s.stream n).record 0 none

/-- How many records a READ-EVENTS takes (R166). -/
def EventQueue.readCount (q : EventQueue) (length : Nat) : Nat := min (length / 8) q.records.length

/-- READ-EVENTS (R166): the oldest records and the lost count, with their removal deferred. -/
def readEventsBody (f : ReqFields) (s : State) : State :=
  let n := s.events.readCount f.length.toNat
  s.snapshot ((s.events.records.take n).flatMap EventRec.bytes) s.events.lost
    (some (.removal n s.events.lost))

/-- SET-EVENT-MASK (R167): every set position names an event kind. -/
def setEventMaskBody (f : ReqFields) (s : State) : State :=
  if f.value &&& Config.maskReserved ≠ 0 then s.finish .range
  else (s.setEvents { s.events with mask := f.value }).finish .done

/-- READ-COUNTERS (R168). -/
def readCountersBody (f : ReqFields) (s : State) : State :=
  match counterGroupOf? f.target with
  | none => s.finish .range
  | some g => if f.length.toNat ≠ g.recordLength then s.finish .badRequest else s.snapshot (s.counterRecord g) 0 none

/-- CLEAR-COUNTERS (R168). -/
def clearCountersBody (f : ReqFields) (s : State) : State :=
  match counterGroupOf? f.target with
  | none => s.finish .range
  | some g => (s.clearGroup g).finish .done

/-- What each request does once its header checks have passed (R142). -/
def Request.body (r : Request) (f : ReqFields) : State → State :=
  match r with
  | .assignAddress => assignAddressBody f
  | .readIdentity => readIdentityBody
  | .start => startBody
  | .stop => stopBody
  | .setCycle => setCycleBody f
  | .writeStream => writeStreamBody
  | .readStream => readStreamBody f
  | .setResponse => setResponseBody f
  | .resetStream => resetStreamBody f
  | .branchControl => branchControlBody f
  | .readEvents => readEventsBody f
  | .setEventMask => setEventMaskBody f
  | .readCounters => readCountersBody f
  | .clearCounters => clearCountersBody f
  | .readTimebase => readTimebaseBody

/-! ### A REQUEST by its payload (R141, R178) -/

/-- A REQUEST cell with any payload: a length other than 12 and a code that names no request give BAD-REQUEST (R141,
steps 1 and 2); any other payload is the request that its code names. -/
def State.requestPayload (s : State) (c : CellHdr) (p : List Byte) : State :=
  match reqFieldsOf? p with
  | none => s.takeRequest c { code := p.headD 0, fields := none } (fun s => s.finish .badRequest)
  | some (code, f) =>
    match Request.ofCode? code with
    | none => s.takeRequest c { code := code, fields := some f } (fun s => s.finish .badRequest)
    | some r => s.request c r f (r.body f)

/-! ### Meanings -/

/-- REQUEST_BAD_CODE (R141). -/
def execRequestBadCode (c : CellHdr) (p : List Byte) (s : State) : Host.Outcome State Fault Refusal :=
  .next (s.requestPayload c p)

/-- ASSIGN_ADDRESS (R156). -/
def execAssignAddress (c : CellHdr) (f : ReqFields) (s : State) : Host.Outcome State Fault Refusal :=
  .next (s.request c .assignAddress f (assignAddressBody f))

/-- READ_IDENTITY (R164). -/
def execReadIdentity (c : CellHdr) (f : ReqFields) (s : State) : Host.Outcome State Fault Refusal :=
  .next (s.request c .readIdentity f readIdentityBody)

/-- START (R157). -/
def execStart (c : CellHdr) (f : ReqFields) (s : State) : Host.Outcome State Fault Refusal :=
  .next (s.request c .start f startBody)

/-- STOP (R157). -/
def execStop (c : CellHdr) (f : ReqFields) (s : State) : Host.Outcome State Fault Refusal :=
  .next (s.request c .stop f stopBody)

/-- SET_CYCLE (R158). -/
def execSetCycle (c : CellHdr) (f : ReqFields) (s : State) : Host.Outcome State Fault Refusal :=
  .next (s.request c .setCycle f (setCycleBody f))

/-- WRITE_STREAM (R159). -/
def execWriteStream (c : CellHdr) (f : ReqFields) (s : State) : Host.Outcome State Fault Refusal :=
  .next (s.request c .writeStream f writeStreamBody)

/-- READ_STREAM (R165). -/
def execReadStream (c : CellHdr) (f : ReqFields) (s : State) : Host.Outcome State Fault Refusal :=
  .next (s.request c .readStream f (readStreamBody f))

/-- SET_RESPONSE (R160). -/
def execSetResponse (c : CellHdr) (f : ReqFields) (s : State) : Host.Outcome State Fault Refusal :=
  .next (s.request c .setResponse f (setResponseBody f))

/-- RESET_STREAM (R161). -/
def execResetStream (c : CellHdr) (f : ReqFields) (s : State) : Host.Outcome State Fault Refusal :=
  .next (s.request c .resetStream f (resetStreamBody f))

/-- BRANCH_ENABLE: the value is 1 (R124, R163). -/
def execBranchEnable (c : CellHdr) (f : ReqFields) (s : State) : Host.Outcome State Fault Refusal :=
  let g := { f with value := BranchAction.enable.value }
  .next (s.request c .branchControl g (branchControlBody g))

/-- BRANCH_DISABLE: the value is 2 (R124, R163). -/
def execBranchDisable (c : CellHdr) (f : ReqFields) (s : State) : Host.Outcome State Fault Refusal :=
  let g := { f with value := BranchAction.disable.value }
  .next (s.request c .branchControl g (branchControlBody g))

/-- BRANCH_RETRAIN: the value is 3 (R124, R163). -/
def execBranchRetrain (c : CellHdr) (f : ReqFields) (s : State) : Host.Outcome State Fault Refusal :=
  let g := { f with value := BranchAction.retrain.value }
  .next (s.request c .branchControl g (branchControlBody g))

/-- READ_EVENTS (R166). -/
def execReadEvents (c : CellHdr) (f : ReqFields) (s : State) : Host.Outcome State Fault Refusal :=
  .next (s.request c .readEvents f (readEventsBody f))

/-- SET_EVENT_MASK (R167). -/
def execSetEventMask (c : CellHdr) (f : ReqFields) (s : State) : Host.Outcome State Fault Refusal :=
  .next (s.request c .setEventMask f (setEventMaskBody f))

/-- READ_COUNTERS (R168). -/
def execReadCounters (c : CellHdr) (f : ReqFields) (s : State) : Host.Outcome State Fault Refusal :=
  .next (s.request c .readCounters f (readCountersBody f))

/-- CLEAR_COUNTERS (R168). -/
def execClearCounters (c : CellHdr) (f : ReqFields) (s : State) : Host.Outcome State Fault Refusal :=
  .next (s.request c .clearCounters f (clearCountersBody f))

/-- READ_TIMEBASE (R164). -/
def execReadTimebase (c : CellHdr) (f : ReqFields) (s : State) : Host.Outcome State Fault Refusal :=
  .next (s.request c .readTimebase f readTimebaseBody)

/-- BRANCH_CONTROL (R163): a target above 5, or a value that names no action, gives RANGE. -/
def execBranchControl (c : CellHdr) (f : ReqFields) (s : State) : Host.Outcome State Fault Refusal :=
  .next (s.request c .branchControl f (branchControlBody f))

end Sys2Proof.Machine
end

