-- ==== Sys2Proof/Machine/Trunk.lean ====
section
/-! DEFINITION. The Trunk Port (Chapter 3): line reports, trunk reset and detach, the dispatch of cells and the sending of
answers; the meanings of the trunk rows. -/

namespace Sys2Proof.Machine

/-! ### Trunk reset and detach (R62, R63) -/

/-- What a trunk reset or detach leaves of a stream's record (R22, R46, R66, R107): HOLD, sequence bit and burst progress
0, no outstanding record, the served flag clear, the sides discarded. -/
def Stream.trunkReset (st : Stream) : Stream :=
  { st.discard with response := .hold, seqBit := false, burst := 0, packet := none, served := false }

/-- The Management Engine after a trunk reset or detach (R152). The buffer then has no meaningful contents; its bytes
stay as they stand (assumption 3). -/
def Mgmt.trunkReset (m : Mgmt) : Mgmt := { Mgmt.reset with buffer := m.buffer }

/-- What a trunk reset or detach does at the port of branch `b` (R131): every key revoked, then grants for the UP
streams. -/
def State.resetPort (s : State) (b : Fin 6) : State :=
  let ns := s.streamsOf b
  (s.overStreams ns State.revokeStream).overStreams ns State.issueGrants

/-- The trunk reset effects (R62) with the line status and node state that follow and the event offered, whose detail
is the node state when the reset or detach was taken (R173). -/
def State.trunkReset (s : State) (line : LineStatus) (node : NodeState) (kind : EventKind) : State :=
  let s1 := s.mapTrunk (fun _ => { line := line, node := node, addr := 0, waiting := none, sending := none })
  let s2 := s1.overStreams streamNumbers (fun s n => s.mapStream n Stream.trunkReset)
  let s3 := (s2.mapMgmt Mgmt.trunkReset).mapTimebase Timebase.unsync
  (s3.overBranches State.resetPort).offerPlain kind s.trunk.node.detail

/-! ### Dispatch (R58, R59) -/

/-- A PUT, FETCH or ASK for a stream from 1 to 31, or for a number that names none (R58): `fits` is the direction and
class test of step 3, `serve` the block that takes the cell. -/
def State.dispatch (s : State) (c : CellHdr) (fits : Entry → Bool) (serve : State → Fin 32 → State) : State :=
  if s.trunk.node ≠ .running then s.answer c .halt c.seq []
  else
    match c.stream? with
    | none => s.disabledCell.answer c .halt c.seq []
    | some n =>
      if !(s.stream n).entry.enabled then s.disabledCell.answer c .halt c.seq []
      else if !fits (s.stream n).entry then
        (s.countStream n (fun k => { k with wrongDirection := satInc k.wrongDirection })).answer c .halt c.seq []
      else serve s n

/-- A PUT that passes the dispatch checks goes to the block of its class. -/
def State.servePut (c : CellHdr) (payload : List Byte) (s : State) (n : Fin 32) : State :=
  match (s.stream n).entry.cls with
  | .flow => s.flowPut c n payload
  | .cyclic => s.cyclicPut c n payload

/-- A FETCH that passes the dispatch checks goes to the block of its class. -/
def State.serveFetch (c : CellHdr) (s : State) (n : Fin 32) : State :=
  match (s.stream n).entry.cls with
  | .flow => s.flowFetch c n
  | .cyclic => s.cyclicFetch c n

/-- An ACK for a stream other than 0 (R59): it is not answered, whatever the node state. -/
def State.streamAck (s : State) (c : CellHdr) : State :=
  match c.stream? with
  | none => s.disabledCell
  | some n =>
    if !(s.stream n).entry.enabled then s.disabledCell
    else if (s.stream n).entry.dir = .up ∧ (s.stream n).entry.cls = .flow then s.flowAck n
    else s.strayAck

/-! ### Meanings -/

/-- RESET_N: every block at its power-on defaults (R48, 1.5); the commands still waiting are the senders'. -/
def execResetN (s : State) : Host.Outcome State Fault Refusal := .next { State.reset with pending := s.pending }

/-- TRUNK_SIGNAL_PRESENT: acted on while the line status is ABSENT, else discarded (R51). -/
def execTrunkSignalPresent (s : State) : Host.Outcome State Fault Refusal :=
  .next (if s.trunk.line = .absent then
    s.mapTrunk (fun t => { t with line := .present, node := .listening, addr := 0 }) else s)

/-- TRUNK_SIGNAL_LOST: acted on while the line status is PRESENT, with the detach effects (R51, R63). -/
def execTrunkSignalLost (s : State) : Host.Outcome State Fault Refusal :=
  .next (if s.trunk.line = .present then s.trunkReset .absent .detached .trunkLost else s)

/-- LINE_RESET: acted on while the line status is PRESENT, with the trunk reset effects (R51, R52, R62). -/
def execLineReset (s : State) : Host.Outcome State Fault Refusal :=
  .next (if s.trunk.line = .present then s.trunkReset .present .listening .trunkReset else s)

/-- CELL_BAD_CHECK: discarded whatever its address, counted, no answer (R56). -/
def execCellBadCheck (s : State) : Host.Outcome State Fault Refusal :=
  .next (if s.receives then s.mapTrunkCtr (fun t => { t with badCheck := satInc t.badCheck }) else s)

/-- CELL_UNKNOWN_KIND: discarded before the address is compared, counted, no answer (R57). -/
def execCellUnknownKind (s : State) : Host.Outcome State Fault Refusal :=
  .next (if s.receives then s.unknownKind else s)

/-- PUT (R58): stream 0 to the Management Engine, an UP stream is the wrong direction. -/
def execPut (c : CellHdr) (payload : List Byte) (s : State) : Host.Outcome State Fault Refusal :=
  .next (s.takeCell c (fun s =>
    if c.stream = 0 then s.mgmtPut c payload
    else s.dispatch c (fun e => e.dir == .down) (State.servePut c payload)))

/-- FETCH (R58): stream 0 to the Management Engine, a DOWN stream is the wrong direction. -/
def execFetch (c : CellHdr) (s : State) : Host.Outcome State Fault Refusal :=
  .next (s.takeCell c (fun s =>
    if c.stream = 0 then s.mgmtFetch c
    else s.dispatch c (fun e => e.dir == .up) (State.serveFetch c)))

/-- ASK (R58): stream 0 to the Management Engine; only a FLOW DOWN stream takes one. -/
def execAsk (c : CellHdr) (s : State) : Host.Outcome State Fault Refusal :=
  .next (s.takeCell c (fun s =>
    if c.stream = 0 then s.mgmtAsk c
    else s.dispatch c (fun e => e.dir == .down && e.cls == .flow) (fun s n => s.flowAsk c n)))

/-- ACK (R58, R59): never answered. -/
def execAck (c : CellHdr) (s : State) : Host.Outcome State Fault Refusal :=
  .next (s.takeCell c (fun s => if c.stream = 0 then s.mgmtAck else s.streamAck c))

/-- ANSWER_SEND_BEGIN: the composed answer goes out, with ATTN as the event queue stands now (R60, R61). With no answer
waiting, or while an earlier cell is being sent, no sending begins. -/
def execAnswerSendBegin (s : State) : Host.Outcome State Fault Refusal :=
  .next (match s.trunk.waiting, s.trunk.sending with
    | some a, none =>
      s.mapTrunk (fun t =>
        { t with waiting := none, sending := some { answer := a, attn := !s.events.records.isEmpty } })
    | _, _ => s)

/-- ANSWER_SEND_END: the cell is complete on the line (R49). -/
def execAnswerSendEnd (s : State) : Host.Outcome State Fault Refusal :=
  .next (s.mapTrunk (fun t => { t with sending := none }))

end Sys2Proof.Machine
end

