-- ==== Sys2Proof/Machine/Links.lean ====
section
/-! DEFINITION. The Branch Ports (Chapter 7): link reports, training, the reception of frames, and the ends of
transmissions; the meanings of the branch rows. -/

namespace Sys2Proof.Machine

/-! ### Frame reception -/

/-- A good frame other than ALIGN on branch `b`: in TRAINING it sets the ALIGN count to 0 (R121), in UP it sets the
check-error count to 0 and is handled by its kind (R125); both count it. In DISABLED it is discarded without count
(R119); in DOWN the line carries no signal and none arrives. -/
def State.goodFrame (s : State) (b : Fin 6) (handle : State → State) : State :=
  match (s.branch b).link with
  | .up =>
    handle (s.mapBranch b (fun br =>
      { br with errors := 0, counters := { br.counters with good := br.counters.good + 1 } }))
  | .training =>
    s.mapBranch b (fun br => { br with aligns := 0, counters := { br.counters with good := br.counters.good + 1 } })
  | .down => s
  | .disabled => s

/-- Frames dropped (unrouted) +1 (R138). -/
def State.unrouted (s : State) (b : Fin 6) : State :=
  s.countBranch b (fun k => { k with unrouted := satInc k.unrouted })

/-- The close rules of R32 applied to side `k` after a fill. -/
def Stream.closeUp (st : Stream) (k : Fin 2) (last : Bool) : Stream :=
  st.closeBy k (upCause st.entry last ((st.side k).fill == st.entry.capacity))

/-- A frame appended to side `k`, with the close rules (R29, R32). -/
def State.fillUp (s : State) (n : Fin 32) (k : Fin 2) (last : Bool) (payload : List Byte) : State :=
  (s.fillSide n k payload).mapStream n (fun st => st.closeUp k last)

/-- A frame dropped as oversize (R126 step 1): the event names the stream, or FFh with the branch when unrouted. -/
def State.dropOversize (s : State) (b : Fin 6) (n : Option (Fin 32)) : State :=
  let s1 := s.countBranch b (fun k => { k with oversize := satInc k.oversize })
  match n with
  | some n => (s1.countStream n StreamCounters.oversized).offerStream n .overrun 4
  | none => s1.offerBranch b .overrun 4

/-- A frame dropped for want of room (R126 step 4). -/
def State.dropNoRoom (s : State) (b : Fin 6) (n : Fin 32) : State :=
  ((s.countBranch b (fun k => { k with noRoom := satInc k.noRoom })).countStream n
    StreamCounters.overran).offerStream n .overrun 5

/-- A frame dropped for want of a grant (R126 step 6). -/
def State.dropNoGrant (s : State) (b : Fin 6) (n : Fin 32) : State :=
  ((s.countBranch b (fun k => { k with noGrant := satInc k.noGrant })).countStream n
    StreamCounters.overran).offerStream n .overrun 6

/-- A DATA (`last` false) or DATA-LAST frame in UP, of payload `p` on channel `ch` (R126): the first step that applies. -/
def State.takeData (s : State) (b : Fin 6) (ch : Fin 8) (last : Bool) (p : List Byte) : State :=
  match s.route { branch := b, channel := ch, dir := .up } with
  | none => if Config.maxFramePayload < p.length then s.dropOversize b none else s.unrouted b
  | some n =>
    let st := s.stream n
    if Config.maxFramePayload < p.length ∨ st.entry.frameLimit.toNat < p.length then s.dropOversize b (some n)
    else
      match st.fillingSide? with
      | some k => if p.length ≤ st.space k then s.fillUp n k last p else s.dropNoRoom b n
      | none =>
        match st.freeSide? with
        | some k =>
          if 1 ≤ st.delivered then
            (s.mapStream n (fun st => { st with delivered := st.delivered - 1 })).fillUp n k last p
          else s.dropNoGrant b n
        | none => s.dropNoGrant b n

/-- A CREDIT frame in UP (R128). -/
def State.takeCredit (s : State) (b : Fin 6) (ch : Fin 8) (p : List Byte) : State :=
  match p, s.route { branch := b, channel := ch, dir := .down } with
  | [count], some n =>
    (s.mapStream n (fun st => { st with credits := min Config.maxCredits (st.credits + count.toNat) })).arbitrate b
  | _, _ => s.unrouted b

/-- The ends of a transmission: the frame is counted as sent, the transmitter is IDLE and the arbiter picks again (R134,
R136). -/
def State.txDone (s : State) (b : Fin 6) : State :=
  (s.mapBranch b (fun br =>
    { br with tx := .idle, counters := { br.counters with sent := br.counters.sent + 1 } })).arbitrate b

/-- What the end of a frame of `len` bytes leaves of side `k` (R38): FREE when the release mark is set or the side is
sent, else CLOSED with its new offset. -/
def Stream.endFrame (st : Stream) (k : Fin 2) (len : Nat) : Stream :=
  st.advance k len ((st.side k).marked || (st.side k).drain + len == (st.side k).fill)

/-! ### Meanings -/

/-- BRANCH_SIGNAL_PRESENT (R120): a DOWN link goes to TRAINING. -/
def execBranchSignalPresent (b : Fin 6) (s : State) : Host.Outcome State Fault Refusal :=
  .next (s.mapBranch b (fun br =>
    if br.link = .down then { br with line := .present, link := .training, aligns := 0 }
    else { br with line := .present }))

/-- BRANCH_SIGNAL_LOST (R120): a TRAINING link goes DOWN, an UP link goes DOWN with the loss effects. -/
def execBranchSignalLost (b : Fin 6) (s : State) : Host.Outcome State Fault Refusal :=
  let s1 := s.mapBranch b (fun br => { br with line := .absent })
  .next (match (s.branch b).link with
    | .up => s1.loseLink b .down 0 3
    | .training => s1.mapBranch b (fun br => { br with link := .down, aligns := 0 })
    | .down => s1
    | .disabled => s1)

/-- FRAME_BAD_CHECK (R121, R125): the third in a row takes an UP link to TRAINING. -/
def execFrameBadCheck (b : Fin 6) (s : State) : Host.Outcome State Fault Refusal :=
  .next (match (s.branch b).link with
    | .up =>
      let s1 := s.mapBranch b (fun br =>
        { br with errors := br.errors + 1,
                  counters := { br.counters with checkErrors := satInc br.counters.checkErrors } })
      if Config.badChecksToLoss ≤ (s1.branch b).errors then s1.loseLink b .training 0 2 else s1
    | .training =>
      s.mapBranch b (fun br =>
        { br with aligns := 0, counters := { br.counters with checkErrors := satInc br.counters.checkErrors } })
    | .down => s
    | .disabled => s)

/-- ALIGN (R121, R122): it counts toward training, or takes an UP link back to TRAINING with the loss effects. -/
def execAlign (b : Fin 6) (s : State) : Host.Outcome State Fault Refusal :=
  .next (match (s.branch b).link with
    | .training =>
      let s1 := s.mapBranch b (fun br =>
        { br with aligns := br.aligns + 1, counters := { br.counters with good := br.counters.good + 1 } })
      if Config.alignsToUp ≤ (s1.branch b).aligns then s1.linkUp b else s1
    | .up => s.goodFrame b (fun s => s.loseLink b .training 1 1)
    | .down => s
    | .disabled => s)

/-- DATA (R121, R126). -/
def execData (b : Fin 6) (ch : Fin 8) (p : List Byte) (s : State) : Host.Outcome State Fault Refusal :=
  .next (s.goodFrame b (fun s => s.takeData b ch false p))

/-- DATA_LAST (R121, R126). -/
def execDataLast (b : Fin 6) (ch : Fin 8) (p : List Byte) (s : State) : Host.Outcome State Fault Refusal :=
  .next (s.goodFrame b (fun s => s.takeData b ch true p))

/-- CREDIT (R121, R128). -/
def execCredit (b : Fin 6) (ch : Fin 8) (p : List Byte) (s : State) : Host.Outcome State Fault Refusal :=
  .next (s.goodFrame b (fun s => s.takeCredit b ch p))

/-- UNWANTED_FRAME (R121, R125). -/
def execUnwantedFrame (b : Fin 6) (s : State) : Host.Outcome State Fault Refusal :=
  .next (s.goodFrame b (fun s => s.unrouted b))

/-- CONTROL_FRAME_END (R134): a GRANT's in-flight grants become delivered. With no control frame in transmission, none
ends. -/
def execControlFrameEnd (b : Fin 6) (s : State) : Host.Outcome State Fault Refusal :=
  .next (match (s.branch b).tx with
    | .busy (.grant ch _ _) =>
      (s.mapUpStream b ch (fun st =>
        { st with delivered := st.delivered + st.inFlight, inFlight := 0 })).txDone b
    | .busy (.revoke _ _) => s.txDone b
    | .busy (.data _ _ _ _ _) => s
    | .idle => s
    | .aligning => s
    | .silent => s)

/-- DATA_FRAME_END (R38, R136): the side advances or is freed, and a RESET-STREAM that waits for the marked side ends
(R162). With no data frame in transmission, none ends. -/
def execDataFrameEnd (b : Fin 6) (s : State) : Host.Outcome State Fault Refusal :=
  .next (match (s.branch b).tx with
    | .busy (.data _ _ n k p) =>
      let s1 := s.mapStream n (fun st => st.endFrame k p.length)
      (if ((s.stream n).side k).marked then s1.resetStreamEnd n else s1).txDone b
    | .busy (.grant _ _ _) => s
    | .busy (.revoke _ _) => s
    | .idle => s
    | .aligning => s
    | .silent => s)

end Sys2Proof.Machine
end

