-- ==== Sys2Proof/Machine/Lines.lean ====
section
/-! DEFINITION. The lines: the bytes of the upstream cells and branch frames that the part sends (R60, R134, R135, R177),
and a delivered cell or frame joining the commands that wait. -/

namespace Sys2Proof.Machine

/-- The kind code of an upstream cell (11.1). An ACK answer carries the code of ACK. -/
def UpKind.code : UpKind → BitVec 4
  | .ack => 0x6#4
  | .data => 0x8#4
  | .full => 0x9#4
  | .wait => 0xA#4
  | .halt => 0xB#4
  | .empty => 0xC#4
  | .result => 0xD#4

/-- The bytes of an upstream cell (R60, R61, R177). -/
def UpCell.bytes (u : UpCell) : List Byte :=
  cellBytes u.answer.kind.code u.answer.seq u.attn (u.answer.addr.setWidth 8) u.answer.stream u.answer.payload

/-- The direction byte of a REVOKE (11.2). -/
def dirByte : Dir → Byte
  | .up => 0x00#8
  | .down => 0x01#8

/-- The bytes of a frame that the part sends (11.2, R134, R135). -/
def TxFrame.bytes : TxFrame → List Byte
  | .grant ch count capacity => frameBytes 3 ch ([byteOf count] ++ halfBytes (halfOf capacity))
  | .revoke ch dir => frameBytes 5 ch [dirByte dir]
  | .data last ch _ _ payload => frameBytes (if last then 2 else 1) ch payload

/-- The bytes of the ALIGN frame that an ALIGNING transmitter sends: length 0 and channel 0 (R177). -/
def alignBytes : List Byte := frameBytes 0 0 []

/-- What the transmitter of a link puts on the line: nothing when SILENT or IDLE (R119). -/
def Transmitter.lineOut : Transmitter → Option (List Byte)
  | .silent => none
  | .aligning => some alignBytes
  | .idle => none
  | .busy f => some f.bytes

/-- A command joins the tail of those that wait. -/
def State.enqueue (s : State) (i : Instr) : State := { s with pending := s.pending ++ [i] }

/-- The trunk line receiver delivers the bytes of a whole cell at `time`. -/
def State.deliverCell (s : State) (time : Ticks) (bytes : List Byte) : State := s.enqueue (cellCommand time bytes)

/-- The receiver of branch `b` delivers the bytes of a whole frame. -/
def State.deliverFrame (s : State) (b : Fin 6) (bytes : List Byte) : State := s.enqueue (frameCommand b bytes)

end Sys2Proof.Machine
end

