-- ==== Sys2Proof/Machine/Dispatch.lean ====
section
/-! DEFINITION. The dispatch of the commands: one arm for each row of the table of operations and events. -/

namespace Sys2Proof.Machine

def exec (i : Instr) (s : State) : Host.Outcome State Fault Refusal :=
  match i with
  | .resetN => Sys2Proof.Machine.execResetN s
  | .trunkSignalPresent => Sys2Proof.Machine.execTrunkSignalPresent s
  | .trunkSignalLost => Sys2Proof.Machine.execTrunkSignalLost s
  | .lineReset => Sys2Proof.Machine.execLineReset s
  | .cellBadCheck => Sys2Proof.Machine.execCellBadCheck s
  | .cellUnknownKind => Sys2Proof.Machine.execCellUnknownKind s
  | .cycle c k time => Sys2Proof.Machine.execCycle c k time s
  | .cycleTimerExpiry time => Sys2Proof.Machine.execCycleTimerExpiry s time
  | .put c p => Sys2Proof.Machine.execPut c p s
  | .fetch c => Sys2Proof.Machine.execFetch c s
  | .ask c => Sys2Proof.Machine.execAsk c s
  | .ack c => Sys2Proof.Machine.execAck c s
  | .requestBadCode c p => Sys2Proof.Machine.execRequestBadCode c p s
  | .assignAddress c f => Sys2Proof.Machine.execAssignAddress c f s
  | .readIdentity c f => Sys2Proof.Machine.execReadIdentity c f s
  | .start c f => Sys2Proof.Machine.execStart c f s
  | .stop c f => Sys2Proof.Machine.execStop c f s
  | .setCycle c f => Sys2Proof.Machine.execSetCycle c f s
  | .writeStream c f => Sys2Proof.Machine.execWriteStream c f s
  | .readStream c f => Sys2Proof.Machine.execReadStream c f s
  | .setResponse c f => Sys2Proof.Machine.execSetResponse c f s
  | .resetStream c f => Sys2Proof.Machine.execResetStream c f s
  | .branchEnable c f => Sys2Proof.Machine.execBranchEnable c f s
  | .branchDisable c f => Sys2Proof.Machine.execBranchDisable c f s
  | .branchRetrain c f => Sys2Proof.Machine.execBranchRetrain c f s
  | .readEvents c f => Sys2Proof.Machine.execReadEvents c f s
  | .setEventMask c f => Sys2Proof.Machine.execSetEventMask c f s
  | .readCounters c f => Sys2Proof.Machine.execReadCounters c f s
  | .clearCounters c f => Sys2Proof.Machine.execClearCounters c f s
  | .readTimebase c f => Sys2Proof.Machine.execReadTimebase c f s
  | .answerSendBegin => Sys2Proof.Machine.execAnswerSendBegin s
  | .answerSendEnd => Sys2Proof.Machine.execAnswerSendEnd s
  | .branchSignalPresent b => Sys2Proof.Machine.execBranchSignalPresent b s
  | .branchSignalLost b => Sys2Proof.Machine.execBranchSignalLost b s
  | .frameBadCheck b => Sys2Proof.Machine.execFrameBadCheck b s
  | .align b => Sys2Proof.Machine.execAlign b s
  | .data b ch p => Sys2Proof.Machine.execData b ch p s
  | .dataLast b ch p => Sys2Proof.Machine.execDataLast b ch p s
  | .credit b ch p => Sys2Proof.Machine.execCredit b ch p s
  | .unwantedFrame b => Sys2Proof.Machine.execUnwantedFrame b s
  | .controlFrameEnd b => Sys2Proof.Machine.execControlFrameEnd b s
  | .dataFrameEnd b => Sys2Proof.Machine.execDataFrameEnd b s
  | .branchControl c f => Sys2Proof.Machine.execBranchControl c f s

end Sys2Proof.Machine
end

