-- ==== Sys2Proof/Safety.lean ====
section
/-! DEFINITION. The words in which the statements speak (a cell or a request that the node takes, the answer to a cell,
the request that a command is), and the laws that the manual says its blocks keep, as decidable predicates on a state. -/

namespace Sys2Proof

/-- The request that a command is, with its cell and its header fields (11.4); none for a command that is no request
with a known code. -/
def Instr.request? : Instr → Option (CellHdr × Machine.Request × ReqFields)
  | .resetN => none
  | .trunkSignalPresent => none
  | .trunkSignalLost => none
  | .lineReset => none
  | .cellBadCheck => none
  | .cellUnknownKind => none
  | .cycle _ _ _ => none
  | .cycleTimerExpiry _ => none
  | .put _ _ => none
  | .fetch _ => none
  | .ask _ => none
  | .ack _ => none
  | .requestBadCode _ _ => none
  | .assignAddress c f => some (c, .assignAddress, f)
  | .readIdentity c f => some (c, .readIdentity, f)
  | .start c f => some (c, .start, f)
  | .stop c f => some (c, .stop, f)
  | .setCycle c f => some (c, .setCycle, f)
  | .writeStream c f => some (c, .writeStream, f)
  | .readStream c f => some (c, .readStream, f)
  | .setResponse c f => some (c, .setResponse, f)
  | .resetStream c f => some (c, .resetStream, f)
  | .branchEnable c f => some (c, .branchControl, f)
  | .branchDisable c f => some (c, .branchControl, f)
  | .branchRetrain c f => some (c, .branchControl, f)
  | .readEvents c f => some (c, .readEvents, f)
  | .setEventMask c f => some (c, .setEventMask, f)
  | .readCounters c f => some (c, .readCounters, f)
  | .clearCounters c f => some (c, .clearCounters, f)
  | .readTimebase c f => some (c, .readTimebase, f)
  | .answerSendBegin => none
  | .answerSendEnd => none
  | .branchSignalPresent _ => none
  | .branchSignalLost _ => none
  | .frameBadCheck _ => none
  | .align _ => none
  | .data _ _ _ => none
  | .dataLast _ _ _ => none
  | .credit _ _ _ => none
  | .unwantedFrame _ => none
  | .controlFrameEnd _ => none
  | .dataFrameEnd _ => none
  | .branchControl c f => some (c, .branchControl, f)

end Sys2Proof

namespace Sys2Proof.Machine

/-! ### Words of the statements -/

/-- The node takes a delivered cell (R49, R50): it is attached, and it is not sending. -/
abbrev State.Receives (s : State) : Prop := s.trunk.node ≠ .detached ∧ s.trunk.sending = none

/-- The node takes cell `c`, whose address is its own (R57). -/
abbrev State.Takes (s : State) (c : CellHdr) : Prop := s.Receives ∧ c.addr = s.trunk.addr.setWidth 8

/-- A request with the header fields `f` reaches a Management Engine with no exchange in progress, and its flags are 0
(R58, R140, R141 step 3). -/
abbrev State.TakesRequest (s : State) (c : CellHdr) (f : ReqFields) : Prop :=
  s.Takes c ∧ c.stream = 0 ∧ (s.mgmt.exchange = .idle ∨ s.mgmt.exchange = .failed) ∧ f.flags = 0

/-- A PUT, FETCH or ASK that passes steps 1 and 2 of R58 for stream `n`. -/
abbrev State.Reaches (s : State) (c : CellHdr) (n : Fin 32) : Prop :=
  s.Takes c ∧ s.trunk.node = .running ∧ c.stream? = some n ∧ (s.stream n).entry.enabled = true

/-- The class and direction of an entry (R3). -/
abbrev Entry.Is (e : Entry) (cls : StreamClass) (dir : Dir) : Prop := e.cls = cls ∧ e.dir = dir

/-- The answer to cell `c` as the Trunk Port composes its header (R60). -/
abbrev State.answerTo (s : State) (c : CellHdr) (kind : UpKind) (seq : Bool) (payload : List Byte) : Answer :=
  { kind := kind, addr := s.trunk.addr, stream := c.stream, seq := seq, payload := payload }

/-- The state with that answer waiting and nothing else changed. -/
abbrev State.withAnswer (s : State) (c : CellHdr) (kind : UpKind) (seq : Bool) (payload : List Byte) : State :=
  { s with trunk := { s.trunk with waiting := some (s.answerTo c kind seq payload) } }

/-- The state with `st` as what the blocks hold for stream `n` and nothing else changed. -/
abbrev State.withStream (s : State) (n : Fin 32) (st : Stream) : State := { s with streams := s.streams.set n st }

/-- The state with `br` as the port of branch `b` and nothing else changed. -/
abbrev State.withBranch (s : State) (b : Fin 6) (br : Branch) : State := { s with branches := s.branches.set b br }

/-- The state after an offer of an event about stream `n` (R171, R172) and nothing else changed. -/
abbrev State.withStreamEvent (s : State) (n : Fin 32) (kind : EventKind) (detail : Byte) : State :=
  { s with events := s.events.offer s.timebase.count kind (streamByte n) (s.stream n).entry.branch detail }

/-- The state after an offer of an event that names no stream and no branch (R171, R172) and nothing else changed. -/
abbrev State.withPlainEvent (s : State) (kind : EventKind) (detail : Byte) : State :=
  { s with events := s.events.offer s.timebase.count kind 0xFF#8 0xFF#8 detail }

/-- A fill from the trunk goes into side `k` (R28): the one FILLING side, or with none FILLING the lowest FREE one. -/
abbrev Stream.FillsInto (st : Stream) (k : Fin 2) : Prop :=
  k ∈ st.entry.sideNos ∧
  (((st.side k).state = .filling ∧ ∀ j, j ≠ k → (st.side j).state ≠ .filling) ∨
   ((∀ j, (st.side j).state ≠ .filling) ∧ (st.side k).state = .free ∧ ∀ j, j < k → (st.side j).state ≠ .free))

/-- The head of the close order of the stream is side `k`, and it is CLOSED: the side that a drain takes (R33). -/
abbrev Stream.Drains (st : Stream) (k : Fin 2) : Prop := st.order.head? = some k ∧ (st.side k).state = .closed

/-- What a discard leaves of a side (R39, R42, R44, R46): a DRAINING DOWN side is marked, every other side is FREE. -/
abbrev Side.Discarded (dir : Dir) (a b : Side) : Prop :=
  (a.state = .draining ∧ dir = .down → b = { a with marked := true }) ∧
  (¬ (a.state = .draining ∧ dir = .down) → b = Side.empty)

/-- What a branch loss leaves of a side, row by row (R45). -/
abbrev Side.Lost (dir : Dir) (a b : Side) : Prop :=
  (dir = .up → a.state = .filling → b = Side.empty) ∧
  (dir = .up → a.state ≠ .filling → b = a) ∧
  (dir = .down → a.state = .draining → a.marked = false → b = { a with state := .closed, drain := 0 }) ∧
  (dir = .down → a.state = .draining → a.marked = true → b = Side.empty) ∧
  (dir = .down → a.state = .closed → b = { a with drain := 0 }) ∧
  (dir = .down → a.state ≠ .draining → a.state ≠ .closed → b = a)

/-- The Management Engine in the RESULT stage of the exchange that the request `r` with the fields `f` began: the header
kept, sequence bit 1, stream 0 OPEN, and the result `code` with detail 0 and the header's tag (R140, R141, R155). -/
abbrev Mgmt.resulted (m : Mgmt) (r : Request) (f : ReqFields) (code : ResultCode) : Mgmt :=
  { exchange := .result, header := some { code := r.code, fields := some f }, buffer := m.buffer, outCount := 0,
    snapLen := 0, snapOff := 0, seqBit := true, response := .opened, packet := none,
    result := some { code := code, detail := 0, tag := f.tag }, deferred := none }

/-- The state in which a request with no data stage has ended with `code` and its REQUEST cell is answered ACK; nothing
else is changed. -/
abbrev State.resulted (s : State) (c : CellHdr) (r : Request) (f : ReqFields) (code : ResultCode) : State :=
  { s.withAnswer c .ack c.seq [] with mgmt := s.mgmt.resulted r f code }

/-- The Management Engine with the snapshot `bytes` of the IN request `r` in its buffer (R142). -/
abbrev Mgmt.snapped (m : Mgmt) (r : Request) (f : ReqFields) (bytes : List Byte) (detail : Byte)
    (deferred : Option Deferred) : Mgmt :=
  { exchange := .dataIn, header := some { code := r.code, fields := some f },
    buffer := m.buffer.writeBytes Config.bufferBytes 0 bytes, outCount := 0, snapLen := bytes.length, snapOff := 0,
    seqBit := true, response := .opened, packet := none,
    result := some { code := .done, detail := detail, tag := f.tag }, deferred := deferred }

/-- The event record that an offer appends (R171). -/
abbrev State.eventOf (s : State) (kind : EventKind) (stream branch detail : Byte) : EventRec :=
  { kind := kind, stream := stream, branch := branch, detail := detail, count := s.timebase.count,
    serial := s.events.serial + 1 }

/-! ### Table and route map (R2, R8, R14, R15) -/

/-- Entry 0 is fixed (R2), and an enabled entry passes the checks of R11 and R12 on it alone. -/
abbrev State.EntriesLaw (s : State) : Prop :=
  (s.stream 0).entry = Entry.management ∧
    ∀ n : Fin 32, n ≠ 0 → (s.stream n).entry.enabled = true →
      (s.stream n).entry.rangeOk = true ∧ (s.stream n).entry.geometryOk = true

/-- The regions of two enabled streams share no block (R14), and two enabled streams differ in branch, channel or
direction (R15). -/
abbrev State.DisjointLaw (s : State) : Prop :=
  ∀ m n : Fin 32, m ≠ 0 → n ≠ 0 → m ≠ n → (s.stream m).entry.enabled = true → (s.stream n).entry.enabled = true →
    (s.stream m).entry.overlaps (s.stream n).entry = false ∧ (s.stream m).entry.sameKey (s.stream n).entry = false

/-- The route map holds a stream's number on the key of an enabled stream and none everywhere else (R8). -/
abbrev State.RouteLaw (s : State) : Prop :=
  (∀ n : Fin 32, n ≠ 0 → (s.stream n).entry.enabled = true →
    ∀ k ∈ (s.stream n).entry.key?, s.route k = some n) ∧
  ∀ i : Fin 96, ∀ n ∈ s.routes[i], n ≠ 0 ∧ (s.stream n).entry.enabled = true ∧
    (s.stream n).entry.key?.map RouteKey.index = some i

/-- The laws of the Stream Table's configuration together. -/
abbrev State.TableLaw (s : State) : Prop := s.EntriesLaw ∧ s.DisjointLaw ∧ s.RouteLaw

/-! ### The work of the ports within another block's happening -/

/-- The key of stream `n`'s entry revoked (R130 steps 1 and 2). -/
abbrev State.revokeOf (s : State) (n : Fin 32) : State :=
  match (s.stream n).entry.key? with
  | some k => s.revokeKey n k
  | none => s

/-- Grants issued for the streams named, in the order of the list (R129). -/
abbrev State.grantsFor (s : State) (ns : List (Fin 32)) : State := ns.foldl State.issueGrants s

/-- The reports that the DOWN streams named have a CLOSED side, in the order of the list, each to the arbiter of its
branch (R41, R133). -/
abbrev State.reportsOf (s : State) (ns : List (Fin 32)) : State :=
  ns.foldl (fun v n => match (v.stream n).entry.key? with
    | some k => v.arbitrate k.branch
    | none => v) s

/-! ### A loss, a trunk reset -/

/-- Stream `n` is one that the port of branch `b` serves: enabled, from 1 to 31, with a key on that branch (Chapter 7). -/
abbrev State.OnBranch (s : State) (b : Fin 6) (n : Fin 32) : Prop :=
  n ≠ 0 ∧ (s.stream n).entry.enabled = true ∧ (s.stream n).entry.branch.toNat = b.val ∧
    (s.stream n).entry.channel.toNat < 8

/-- The loss effects of R123 on the port of branch `b` and on its streams, from `u` to `t`: the link state, the ALIGN
count and the BRANCH-DOWN detail are those of R122; an exchange that waits for a marked side of the branch ends. -/
structure State.LossEffects (u t : State) (b : Fin 6) (link : LinkState) (aligns : Nat) (detail : Byte) : Prop where
  port : t.branch b =
    { u.branch b with link := link, aligns := aligns, errors := 0, queue := [],
                      tx := if link = .disabled then .silent else .aligning }
  otherPorts : ∀ c, c ≠ b → t.branch c = u.branch c
  otherStreams : ∀ n, ¬ u.OnBranch b n → t.stream n = u.stream n
  streams : ∀ n, u.OnBranch b n →
    (u.stream n).side0.Lost (u.stream n).entry.dir (t.stream n).side0 ∧
    (u.stream n).side1.Lost (u.stream n).entry.dir (t.stream n).side1 ∧
    t.stream n = { u.stream n with
      side0 := (t.stream n).side0, side1 := (t.stream n).side1,
      order := (u.stream n).order.filter (fun k => ((t.stream n).side k).state != .free),
      queued := 0, inFlight := 0, delivered := 0, credits := 0 }
  events : t.events = u.events.offer u.timebase.count .branchDown 0xFF#8 (BitVec.ofNat 8 b.val) detail
  exchange : t.mgmt = u.mgmt ∨ (u.mgmt.exchange = .executing ∧ t.mgmt = { u.mgmt with exchange := .result } ∧
    ∃ n, u.OnBranch b n ∧ u.mgmt.targets n = true ∧ (u.stream n).marked = true)
  waiting : u.mgmt.exchange = .executing → (∃ n, u.OnBranch b n ∧ u.mgmt.targets n = true ∧
    (u.stream n).marked = true ∧ (u.stream n).entry.dir = .down) → t.mgmt.exchange = .result
  rest : t = { u with branches := t.branches, streams := t.streams, events := t.events, mgmt := t.mgmt }

/-- The enabled streams of branch `b`, ascending. -/
abbrev State.onBranch (s : State) (b : Fin 6) : List (Fin 32) := streamNumbers.filter (fun n => decide (s.OnBranch b n))

/-- What a trunk reset or a detach does at every port (R131): the keys of its enabled streams revoked in ascending stream
number, and then the grants for its UP streams in ascending stream number. -/
abbrev State.portsReset (s : State) : State :=
  branchNumbers.foldl (fun v b => ((v.onBranch b).foldl State.revokeOf v).grantsFor (v.onBranch b)) s

/-- The effects of a trunk reset or a detach from `s` on every block but the ports, which find them in `u` (R22, R46, R62,
R63, R101, R107, R152): the trunk ends in `trunk`, and `kind` is offered with the node state as its detail. The management
buffer has no meaningful contents then, and nothing is said of its bytes. -/
structure State.ResetEffects (s u : State) (trunk : Trunk) (kind : EventKind) : Prop where
  trunk : u.trunk = trunk
  streams : ∀ n, n ≠ 0 →
    (s.stream n).side0.Discarded (s.stream n).entry.dir (u.stream n).side0 ∧
    (s.stream n).side1.Discarded (s.stream n).entry.dir (u.stream n).side1 ∧
    u.stream n = { s.stream n with
      response := .hold, seqBit := false, burst := 0, packet := none, served := false,
      side0 := (u.stream n).side0, side1 := (u.stream n).side1,
      order := (s.stream n).order.filter (fun k => ((u.stream n).side k).state != .free) }
  entryZero : u.stream 0 = s.stream 0
  timebase : u.timebase =
    { s.timebase with state := .unsynced, measured := none, consecutive := 0, last := none, timer := none }
  mgmt : u.mgmt =
    { exchange := .idle, header := none, buffer := u.mgmt.buffer, outCount := 0, snapLen := 0, snapOff := 0,
      seqBit := false, response := .opened, packet := none, result := none, deferred := none }
  events : u.events = s.events.offer s.timebase.count kind 0xFF#8 0xFF#8 s.trunk.node.detail
  rest : u = { s with trunk := u.trunk, streams := u.streams, timebase := u.timebase, mgmt := u.mgmt,
                      events := u.events }

/-- What the ports have done for each enabled stream after a trunk reset or a detach taken in `s` (R130, R131): the counts
are 0; a link that is not UP keeps its port as it was and grants nothing; with the link UP and a frame in transmission, a
REVOKE of the stream's key waits in the queue, and for an UP stream a GRANT of all its sides. -/
structure State.PortsAfterReset (s t : State) : Prop where
  counts : ∀ b n, s.OnBranch b n → (t.stream n).credits = 0 ∧ (t.stream n).delivered = 0
  down : ∀ b, (s.branch b).link ≠ .up → t.branch b = s.branch b
  grantless : ∀ b n, s.RouteLaw → s.OnBranch b n → (s.branch b).link ≠ .up →
    (t.stream n).queued = 0 ∧ (t.stream n).inFlight = 0
  revoked : ∀ b n, s.OnBranch b n → (s.branch b).link = .up → (s.branch b).tx ≠ .idle →
    ∀ k ∈ (s.stream n).entry.key?, .revoke k.channel k.dir ∈ (t.branch b).queue
  granted : ∀ b n, s.RouteLaw → s.OnBranch b n → (s.branch b).link = .up → (s.branch b).tx ≠ .idle →
    ∀ k ∈ (s.stream n).entry.key?, k.dir = .up →
      .grant k.channel (s.stream n).entry.sideCount ∈ (t.branch b).queue ∧
      (t.stream n).queued = (s.stream n).entry.sideCount ∧ (t.stream n).inFlight = 0

/-! ### A boundary of the timebase (R112 to R114) -/

/-- A stream that fails the unserved check for the ending count `e` (R112). -/
abbrev Stream.Misses (st : Stream) (e : Half) : Prop :=
  st.entry.enabled = true ∧ st.entry.cls = .cyclic ∧ st.entry.due e = true ∧ st.served = false ∧ st.response = .opened

/-- A stream whose oldest CLOSED side `k` is flushed for the ending count `e` (R43, R112). -/
abbrev Stream.Flushes (st : Stream) (e : Half) (k : Fin 2) : Prop :=
  st.Misses e ∧ st.entry.dir = .up ∧ st.entry.staleFlush = true ∧ st.Drains k

/-- A stream that has a HELD side to release (R113). -/
abbrev Stream.Releases (st : Stream) : Prop :=
  st.entry.enabled = true ∧ st.entry.Is .cyclic .down ∧ (st.side0.state = .held ∨ st.side1.state = .held)

/-- The events of the unserved check of stream `n`: INTERVAL-MISS (not served), and then STALE-FLUSH with the number of
the side flushed (R112). With no ending count there is no check (R114). -/
def Stream.boundaryEvents (st : Stream) (n : Fin 32) (ending : Option Half) (count : Half) (q : EventQueue) : EventQueue :=
  if ∃ e ∈ ending, st.Misses e then
    let q1 := q.offer count .intervalMiss (BitVec.ofNat 8 n.val) st.entry.branch 3
    if ∃ e ∈ ending, st.Flushes e 0 then q1.offer count .staleFlush (BitVec.ofNat 8 n.val) st.entry.branch 0
    else if ∃ e ∈ ending, st.Flushes e 1 then q1.offer count .staleFlush (BitVec.ofNat 8 n.val) st.entry.branch 1
    else q1
  else q

/-- What the boundary work leaves of side `k` of a stream: a flushed side is FREE, a HELD side that is released is CLOSED,
and every other side is as it was. -/
def Stream.sideAtBoundary (st : Stream) (ending : Option Half) (k : Fin 2) : Side :=
  if ∃ e ∈ ending, st.Flushes e k then Side.empty
  else if st.Releases ∧ (st.side k).state = .held then { st.side k with state := .closed }
  else st.side k

/-- What the boundary work leaves of a stream from 1 to 31 (R112, R113): its miss counted, its sides as
`sideAtBoundary` says, a flushed side out of the close order, the served flag clear, and all else as it was. -/
def Stream.atBoundary (st : Stream) (ending : Option Half) : Stream :=
  { st with
    served := false,
    counters := if ∃ e ∈ ending, st.Misses e then
        { st.counters with intervalMiss := satInc st.counters.intervalMiss }
      else st.counters,
    side0 := st.sideAtBoundary ending 0,
    side1 := st.sideAtBoundary ending 1,
    order := st.order.filter (fun k => !decide (∃ e ∈ ending, st.Flushes e k)) }

/-- The effects of a boundary from `s` to `t`: the timebase ends in `tb` and has offered the events of `q`; the Cyclic
Scheduler's events follow in ascending stream number, and its work on the sides leaves `u`; the ports then grant the
flushed sides and take the reports of the released ones, each in ascending stream number (R92, R112 to R114; log entry 8
for the reports after all releases). -/
def State.BoundaryEffects (s t : State) (tb : Timebase) (q : EventQueue) (ending : Option Half) : Prop :=
  ∃ u : State,
    u.events = streamNumbers.foldl (fun q n => (s.stream n).boundaryEvents n ending tb.count q) q ∧
    u.stream 0 = s.stream 0 ∧
    (∀ n, n ≠ 0 → u.stream n = (s.stream n).atBoundary ending) ∧
    u = { s with timebase := tb, events := u.events, streams := u.streams } ∧
    t = (u.grantsFor (streamNumbers.filter (fun n => decide (∃ k, ∃ e ∈ ending, (s.stream n).Flushes e k)))).reportsOf
      (streamNumbers.filter (fun n => decide (s.stream n).Releases))

/-! ### Stores (R24, R139) -/

/-- Both byte stores are in canonical form and within their sizes. -/
abbrev State.StoresLaw (s : State) : Prop :=
  s.pool.wf Config.poolBytes = true ∧ s.mgmt.buffer.wf Config.bufferBytes = true

/-! ### Node (R19, R50, R51) -/

/-- The node address is 0 exactly in LISTENING and DETACHED (R50), and the line is ABSENT exactly in DETACHED (R51). -/
abbrev Trunk.Law (t : Trunk) : Prop :=
  (t.addr = 0 ↔ (t.node = .listening ∨ t.node = .detached)) ∧ (t.line = .absent ↔ t.node = .detached)

/-- A disabled stream is in HOLD (R4), and while the node is not RUNNING no stream from 1 to 31 is OPEN (R19). -/
abbrev State.ResponseLaw (s : State) : Prop :=
  ∀ n : Fin 32, n ≠ 0 → ((s.stream n).entry.enabled = false → (s.stream n).response = .hold) ∧
    ((s.stream n).response = .opened → s.trunk.node = .running)

/-- The node laws together. -/
abbrev State.NodeLaw (s : State) : Prop := s.trunk.Law ∧ s.ResponseLaw

/-! ### Timebase (R91, R100) -/

/-- The fields of the Cycle Timebase in each state (R91), and the coast limit (R100). -/
abbrev Timebase.Law (t : Timebase) : Prop :=
  1 ≤ t.coastLimit ∧ t.coastLimit ≤ 15 ∧ t.consecutive ≤ t.coastLimit ∧
  (∀ m ∈ t.measured, t.length.tolerates m = true) ∧
  (t.timer.isSome = true ↔ (t.state = .locked ∨ t.state = .coasting)) ∧
  (t.state = .unsynced → t.measured = none ∧ t.consecutive = 0 ∧ t.last = none) ∧
  (t.state = .lost → t.measured = none ∧ t.consecutive = t.coastLimit) ∧
  (t.state = .locked → t.consecutive = 0 ∧ ∃ b ∈ t.last, b.kind ≠ .interpolated false) ∧
  (t.state = .coasting → 1 ≤ t.consecutive ∧ ∃ b ∈ t.last, b.kind = .interpolated false)

/-! ### Counts (R128, R170) -/

/-- No stream holds more than 15 credits (R128), and the event queue at most 32 records (R170). -/
abbrev State.BoundsLaw (s : State) : Prop :=
  (∀ n : Fin 32, (s.stream n).credits ≤ Config.maxCredits) ∧ s.events.records.length ≤ Config.eventDepth

/-! ### Management Engine (R139, R142 to R149, R174) -/

/-- The exchange's fields in each exchange state. -/
abbrev Mgmt.Law (m : Mgmt) : Prop :=
  m.snapOff ≤ m.snapLen ∧ m.snapLen ≤ 256 ∧ m.outCount ≤ 64 ∧
  (m.response = .halt ↔ m.exchange = .failed) ∧
  (m.exchange = .dataOut → m.outCount < m.declared ∧ m.declared = 16 ∧ m.headerCode = Request.writeStream.code) ∧
  (m.exchange = .dataIn ∨ m.exchange = .executing ∨ m.exchange = .result → m.result ≠ none) ∧
  (∀ p ∈ m.packet, (p = .result ∧ m.exchange = .result) ∨
    (m.exchange = .dataIn ∧
      p = .inData m.snapOff (min Config.mgmtPacket (m.snapLen - m.snapOff)) m.seqBit)) ∧
  (m.exchange = .dataIn → m.snapOff < m.snapLen ∨ m.snapLen % Config.mgmtPacket = 0) ∧
  (m.deferred ≠ none → m.exchange = .dataIn ∨ m.exchange = .result)

/-- What a deferred action rests on: an address change finds the node LISTENING or ADDRESSED (R53), and a removal of n
records and v losses finds that many (R174). -/
def State.deferredOk (s : State) : Bool :=
  match s.mgmt.deferred with
  | none => true
  | some (.address _) => s.trunk.node == .listening || s.trunk.node == .addressed
  | some (.removal n v) => decide (n ≤ s.events.records.length) && decide (v ≤ s.events.lost)

/-- An exchange that is EXECUTING waits for a marked side of the stream that its header names (R147). -/
abbrev State.ExecutingLaw (s : State) : Prop :=
  s.mgmt.exchange = .executing →
    ∃ n : Fin 32, n ≠ 0 ∧ s.mgmt.targets n = true ∧ (s.stream n).entry.enabled = true ∧
      (s.stream n).entry.dir = .down ∧ (s.stream n).marked = true

/-- The laws of the exchange together. -/
abbrev State.ExchangeLaw (s : State) : Prop := s.mgmt.Law ∧ s.deferredOk = true ∧ s.ExecutingLaw

/-! ### Sides (R25 to R27, R66) -/

/-- A side in the close order: HELD, CLOSED or DRAINING (R26). -/
abbrev Side.Ordered (sd : Side) : Prop := sd.state = .held ∨ sd.state = .closed ∨ sd.state = .draining

/-- The counts of a side (R27), and when its drain offset is 0: while it is FILLING or HELD, and on a CYCLIC UP stream
(R36). -/
abbrev Side.CountLaw (sd : Side) (e : Entry) : Prop :=
  sd.fill ≤ e.capacity ∧ sd.drain ≤ sd.fill ∧
  (sd.state = .filling ∨ sd.state = .held ∨ e.Is .cyclic .up → sd.drain = 0) ∧
  (sd.state = .filling → e.dir = .down → sd.fill < e.capacity ∧ sd.fill % e.maxPayload.toNat = 0)

/-- What the state of a side goes with (R25, R31, R36, R39). -/
abbrev Side.StateLaw (sd : Side) (e : Entry) : Prop :=
  (sd.state = .free → sd = Side.empty) ∧
  (sd.cause = none ↔ (sd.state = .free ∨ sd.state = .filling)) ∧
  (sd.state = .filling → e.continuous = true) ∧
  (sd.state = .held → e.Is .cyclic .down) ∧
  (sd.state = .draining → ¬ e.Is .cyclic .up) ∧
  (sd.marked = true → sd.state = .draining ∧ e.dir = .down)

/-- A side record of an entry keeps its laws. -/
def Side.lawful (sd : Side) (e : Entry) : Bool := decide (sd.CountLaw e) && decide (sd.StateLaw e)

/-- The outstanding record of an enabled FLOW UP stream: the packet that its DRAINING side was cut into (R34, R66). -/
abbrev Stream.PacketLaw (st : Stream) (p : Packet) : Prop :=
  st.entry.enabled = true ∧ st.entry.Is .flow .up ∧ (st.side p.side).state = .draining ∧
  p.offset = (st.side p.side).drain ∧
  p.len = min st.entry.maxPayload.toNat ((st.side p.side).fill - (st.side p.side).drain)

/-- The side records of a stream: a disabled stream has no sides, a one-sided stream no side 1 (R25), and at most one side
is FILLING (R26). -/
abbrev Stream.SidesLaw (st : Stream) : Prop :=
  st.side0.lawful st.entry = true ∧ st.side1.lawful st.entry = true ∧
  (st.entry.enabled = false → st.side0 = Side.empty) ∧
  (st.entry.enabled = false ∨ st.entry.twoSides = false → st.side1 = Side.empty) ∧
  ¬ (st.side0.state = .filling ∧ st.side1.state = .filling)

/-- The close order of a stream and its outstanding record: the order names the HELD, CLOSED and DRAINING sides once each,
only its head is DRAINING (R26), and a DRAINING UP side has its packet outstanding (R66). -/
abbrev Stream.OrderLaw (st : Stream) : Prop :=
  st.order.Nodup ∧ (∀ k : Fin 2, k ∈ st.order ↔ (st.side k).Ordered) ∧
  (∀ k : Fin 2, (st.side k).state = .draining → st.order.head? = some k) ∧
  (∀ k : Fin 2, (st.side k).state = .draining → st.entry.dir = .up → st.packet ≠ none) ∧
  (∀ p ∈ st.packet, st.PacketLaw p)

/-- The live fields of a stream (R5, R6, R107, R129). -/
abbrev Stream.LiveLaw (st : Stream) : Prop :=
  (st.entry.cls = .cyclic → st.seqBit = false) ∧
  (st.burst = 0 ∨ st.burst < st.entry.burstCount) ∧
  (st.served = true → st.entry.enabled = true ∧ st.entry.cls = .cyclic) ∧
  (st.entry.enabled = false → st.queued = 0 ∧ st.inFlight = 0 ∧ st.delivered = 0 ∧ st.credits = 0) ∧
  (st.entry.dir = .up → st.credits = 0) ∧
  (st.entry.dir = .down → st.queued = 0 ∧ st.inFlight = 0 ∧ st.delivered = 0) ∧
  (st.entry.dir = .up → st.entry.enabled = true → st.grants + st.notFree ≤ st.entry.sideCount)

/-- Every stream from 1 to 31 keeps the laws of its sides and live fields. -/
abbrev State.StreamsLaw (s : State) : Prop := ∀ n : Fin 32, n ≠ 0 →
  (s.stream n).SidesLaw ∧ (s.stream n).OrderLaw ∧ (s.stream n).LiveLaw

/-! ### Branch Ports (R119, R123, R132 to R135) -/

/-- The fields of a port in each link state (R119), its queue in no state but UP (R132), and no queue left while the
transmitter is IDLE (R133). -/
abbrev Branch.Law (br : Branch) : Prop :=
  (br.link = .disabled ↔ br.tx = .silent) ∧ (br.link = .down ∨ br.link = .training ↔ br.tx = .aligning) ∧
  (br.link ≠ .training → br.aligns = 0) ∧ br.aligns < Config.alignsToUp ∧
  (br.link ≠ .up → br.errors = 0 ∧ br.queue = []) ∧ br.errors < Config.badChecksToLoss ∧
  (br.link = .down → br.line = .absent) ∧ (br.link = .training ∨ br.link = .up → br.line = .present) ∧
  (br.tx = .idle → br.queue = [])

/-- The key and kind of a queue entry. -/
abbrev CtlEntry.tag : CtlEntry → Bool × Fin 8 × Dir
  | .grant ch _ => (true, ch, .up)
  | .revoke ch dir => (false, ch, dir)

/-- At most one GRANT and one REVOKE for a key, the REVOKE ahead, and at most 24 entries (R132). -/
abbrev Branch.QueueLaw (br : Branch) : Prop :=
  (br.queue.map CtlEntry.tag).Nodup ∧ br.queue.length ≤ 24 ∧
  br.queue.Pairwise (fun a b => ¬ (a.tag.1 = true ∧ b.tag = (false, a.tag.2.1, .up)))

/-- The grants that a queue holds for a channel. -/
def queuedFor (q : List CtlEntry) (ch : Fin 8) : Nat :=
  (q.map (fun e => match e with
    | .grant c n => if c = ch then n else 0
    | .revoke _ _ => 0)).sum

/-- The count of the GRANT frame for channel `ch` that is in transmission, if one is. -/
def Transmitter.grants (tx : Transmitter) (ch : Fin 8) : Option Nat :=
  match tx with
  | .busy (.grant c count _) => if c = ch then some count else none
  | _ => none

/-- The channel, stream, side and payload of the data frame in transmission, if one is. -/
def Transmitter.frame? (tx : Transmitter) : Option (Fin 8 × Fin 32 × Fin 2 × List Byte) :=
  match tx with
  | .busy (.data _ ch n k p) => some (ch, n, k, p)
  | _ => none

/-- Each GRANT in the queue of branch `b` names a key of an UP stream, and each such stream's queued count is what the
queue holds for it (R129, R134). -/
abbrev State.GrantsLaw (s : State) (b : Fin 6) : Prop :=
  (∀ e ∈ (s.branch b).queue, e.tag.1 = true →
    (s.route { branch := b, channel := e.tag.2.1, dir := .up }).isSome = true) ∧
  ∀ ch : Fin 8, ∀ n ∈ s.route { branch := b, channel := ch, dir := .up },
    (s.stream n).queued = queuedFor (s.branch b).queue ch ∧
    ((s.branch b).link ≠ .up → (s.stream n).grants = 0) ∧
    (0 < (s.stream n).inFlight → (s.branch b).tx.grants ch = some (s.stream n).inFlight)

/-- A data frame in transmission on branch `b` comes from a DRAINING side of the stream with its key and carries the
bytes that its end will advance over (R37, R38, R135). -/
abbrev State.FrameLaw (s : State) (b : Fin 6) : Prop :=
  ∀ f ∈ (s.branch b).tx.frame?,
    s.route { branch := b, channel := f.1, dir := .down } = some f.2.1 ∧
      ((s.stream f.2.1).side f.2.2.1).state = .draining ∧
      f.2.2.2.length = min (s.stream f.2.1).entry.frameLimit.toNat
        (((s.stream f.2.1).side f.2.2.1).fill - ((s.stream f.2.1).side f.2.2.1).drain)

/-- A DRAINING DOWN side on a channel of branch `b` has its frame in transmission (R26 "DRAINING"), a stream holds credits
only while the link is UP (R121, R123), and an IDLE transmitter leaves no stream that it could send (R133). -/
abbrev State.SendLaw (s : State) (b : Fin 6) : Prop :=
  ∀ ch : Fin 8,
    ((s.branch b).tx = .idle → s.sendable? b ch = none) ∧
    ∀ n ∈ s.route { branch := b, channel := ch, dir := .down },
      ((s.branch b).link ≠ .up → (s.stream n).credits = 0) ∧
      ∀ k : Fin 2, ((s.stream n).side k).state = .draining →
        ∃ f ∈ (s.branch b).tx.frame?, f.1 = ch ∧ f.2.1 = n ∧ f.2.2.1 = k

/-- Every port keeps its laws. -/
abbrev State.PortsLaw (s : State) : Prop :=
  ∀ b : Fin 6, (s.branch b).Law ∧ (s.branch b).QueueLaw ∧ s.GrantsLaw b ∧ s.FrameLaw b ∧ s.SendLaw b

/-! ### The whole -/

/-- Every law that the manual states of the part. -/
abbrev State.Law (s : State) : Prop :=
  s.StoresLaw ∧ s.NodeLaw ∧ s.TableLaw ∧ s.timebase.Law ∧ s.BoundsLaw ∧ s.ExchangeLaw ∧ s.StreamsLaw ∧ s.PortsLaw

end Sys2Proof.Machine
end

