-- ==== Sys2Proof/Certificates/Slice0/Obligations.lean ====
section
/-! DEFINITION. The statements for the provers: what each command does and leaves unchanged, and the laws that every step
keeps. Each docstring names the rule of the manual that the statement formalises. -/

open Sys2Proof Sys2Proof.Machine

/-! ### The step and the power-on state -/

/-- The command that has waited longest is taken whole, with the queue's rest waiting. That a happening is taken whole is
1.5's ("happening"); that the happenings of every sender wait in one queue, first in first out, is the model's choice (log
entry 5). -/
def Obligations.StepTakesTheFrontCommand : Prop :=
  ∀ (s : State) (i : Instr) (rest : List Instr), s.pending = i :: rest → step s = exec i { s with pending := rest }

/-- RESET_N leaves every block at its power-on defaults, whatever the state (R1, R4, R8, R48, R50, R65, R90, R91, R119,
R129, R139, R170). That the commands still waiting are kept is the model's choice (log entry 14). -/
def Obligations.ResetNLeavesPowerOnDefaults : Prop :=
  ∀ s : State, ∃ t : State, exec .resetN s = .next t ∧ t.pending = s.pending ∧
    t.trunk = { line := .absent, node := .detached, addr := 0, waiting := none, sending := none } ∧
    (∀ n : Fin 32, n ≠ 0 → t.stream n =
      { entry := { enabled := false, dir := .up, cls := .flow, continuous := false, staleFlush := false,
                   holdAtEnd := false, twoSides := false, spare0 := false, branch := 0, channel := 0,
                   periodExp := 0, maxPayload := 32, frameLimit := 256, baseBlock := 0, sideSize := 1,
                   phase := 0, burstCount := 0, spare14 := 0 },
        response := .hold, seqBit := false, burst := 0, side0 := Side.empty, side1 := Side.empty, order := [],
        packet := none, served := false, queued := 0, inFlight := 0, delivered := 0, credits := 0,
        counters := StreamCounters.zero }) ∧
    (∀ k, t.route k = none) ∧
    t.timebase = { state := .unsynced, length := .us250, coastLimit := 3, count := 0, measured := none,
                   consecutive := 0, last := none, timer := none, markers := 0, interpolated := 0 } ∧
    (∀ b, t.branch b = { link := .down, line := .absent, aligns := 0, errors := 0, pointer := 7, tx := .aligning,
                         queue := [], counters := BranchCounters.zero }) ∧
    t.mgmt.exchange = .idle ∧ t.mgmt.header = none ∧ t.mgmt.outCount = 0 ∧ t.mgmt.snapLen = 0 ∧
    t.mgmt.snapOff = 0 ∧ t.mgmt.seqBit = false ∧ t.mgmt.response = .opened ∧ t.mgmt.packet = none ∧
    t.mgmt.result = none ∧ t.mgmt.deferred = none ∧
    t.events = { records := [], serial := 0, lost := 0, mask := 0x0001FFFE#32 } ∧
    t.trunkCtr = { badCheck := 0, unknownKind := 0, disabled := 0, strayAck := 0 }

/-! ### The Trunk Port -/

/-- SIGNAL-PRESENT while ABSENT makes the node LISTENING at 0 and tells no other block; a report that finds the other
status changes nothing (R51). LINE-RESET and SIGNAL-LOST while PRESENT take the trunk reset and the detach effects on every
block (R51, R52, R62, R63), and then every port revokes the keys of its enabled streams and grants its UP streams (R131);
`ControlQueueKeepsItsLaw` says what each of these does. -/
def Obligations.LineReportsByStatus : Prop :=
  (∀ s : State, s.trunk.line = .absent →
    exec .trunkSignalPresent s =
      .next { s with trunk := { s.trunk with line := .present, node := .listening, addr := 0 } }) ∧
  (∀ s : State, s.trunk.line = .present → exec .trunkSignalPresent s = .next s) ∧
  (∀ s : State, s.trunk.line = .absent → exec .trunkSignalLost s = .next s ∧ exec .lineReset s = .next s) ∧
  ∀ s : State, s.trunk.line = .present →
    (∃ u : State, exec .lineReset s = .next u.portsReset ∧ s.PortsAfterReset u.portsReset ∧ s.ResetEffects u
      { line := .present, node := .listening, addr := 0, waiting := none, sending := none } .trunkReset) ∧
    (∃ u : State, exec .trunkSignalLost s = .next u.portsReset ∧ s.PortsAfterReset u.portsReset ∧ s.ResetEffects u
      { line := .absent, node := .detached, addr := 0, waiting := none, sending := none } .trunkLost)

/-- A cell that fails its form or check is counted, and a cell of a kind that the master does not send is counted, and
each gets no answer (R56, R57, R65). A cell that is not for the node changes nothing: no answer and no count (R50, R57).
While the node sends, or is DETACHED, no cell is taken at all (R49, R50). -/
def Obligations.CellsCountedOrPassedOver : Prop :=
  (∀ s : State, s.Receives →
    exec .cellBadCheck s =
      .next { s with trunkCtr := { s.trunkCtr with badCheck := satInc s.trunkCtr.badCheck } } ∧
    exec .cellUnknownKind s =
      .next { s with trunkCtr := { s.trunkCtr with unknownKind := satInc s.trunkCtr.unknownKind } }) ∧
  (∀ (s : State) (c : CellHdr), ¬ s.Takes c →
    (∀ p, exec (.put c p) s = .next s) ∧ exec (.fetch c) s = .next s ∧ exec (.ask c) s = .next s ∧
      exec (.ack c) s = .next s ∧ (∀ p, exec (.requestBadCode c p) s = .next s) ∧
      ∀ (i : Instr) (r : Request) (f : ReqFields), i.request? = some (c, r, f) → exec i s = .next s) ∧
  ∀ s : State, ¬ s.Receives →
    exec .cellBadCheck s = .next s ∧ exec .cellUnknownKind s = .next s ∧
      ∀ c k time, exec (.cycle c k time) s = .next s

/-- A PUT, FETCH or ASK on a stream other than 0 is answered HALT by the first check of R58 that applies: a node not
RUNNING, a stream not enabled (or a number that names none), a wrong direction or kind. -/
def Obligations.DispatchChecksAnswerHalt : Prop :=
  ∀ (s : State) (c : CellHdr) (p : List Byte) (i : Instr), s.Takes c → c.stream ≠ 0 →
    i = .put c p ∨ i = .fetch c ∨ i = .ask c →
    (s.trunk.node ≠ .running → exec i s = .next (s.withAnswer c .halt c.seq [])) ∧
    (s.trunk.node = .running → (∀ n, c.stream? = some n → (s.stream n).entry.enabled = false) →
      exec i s = .next { s.withAnswer c .halt c.seq [] with
        trunkCtr := { s.trunkCtr with disabled := satInc s.trunkCtr.disabled } }) ∧
    ∀ n, s.trunk.node = .running → c.stream? = some n → (s.stream n).entry.enabled = true →
      (i = .put c p ∧ (s.stream n).entry.dir = .up) ∨ (i = .fetch c ∧ (s.stream n).entry.dir = .down) ∨
        (i = .ask c ∧ ((s.stream n).entry.dir = .up ∨ (s.stream n).entry.cls = .cyclic)) →
      exec i s = .next ((s.withStream n { s.stream n with counters := { (s.stream n).counters with
        wrongDirection := satInc (s.stream n).counters.wrongDirection } }).withAnswer c .halt c.seq [])

/-- An ACK for a stream other than 0 that completes no packet is counted and not answered, in every node state in which
cells are taken (R59, R82). -/
def Obligations.AcksThatCompleteNothing : Prop :=
  ∀ (s : State) (c : CellHdr), s.Takes c → c.stream ≠ 0 →
    ((∀ n, c.stream? = some n → (s.stream n).entry.enabled = false) →
      exec (.ack c) s = .next { s with trunkCtr := { s.trunkCtr with disabled := satInc s.trunkCtr.disabled } }) ∧
    ∀ n, c.stream? = some n → (s.stream n).entry.enabled = true →
      ¬ (s.stream n).entry.Is .flow .up ∨ (s.stream n).packet = none →
      exec (.ack c) s = .next { s with trunkCtr := { s.trunkCtr with strayAck := satInc s.trunkCtr.strayAck } }

/-- The sending of the composed answer begins once an earlier cell is sent, with ATTN as the event queue stands at that
moment (R60, R61), and ends in a happening of its own (R49). -/
def Obligations.AnswerSendBeginAndEnd : Prop :=
  (∀ (s : State) (a : Answer), s.trunk.waiting = some a → s.trunk.sending = none →
    exec .answerSendBegin s = .next { s with trunk := { s.trunk with
      waiting := none, sending := some { answer := a, attn := decide (s.events.records ≠ []) } } }) ∧
  ∀ s : State, exec .answerSendEnd s = .next { s with trunk := { s.trunk with sending := none } }

/-! ### FLOW streams -/

/-- An ASK on a FLOW DOWN stream is answered by the response state and the room, with the stream's sequence bit, and changes
nothing else (R67, R76); and the room test is that of R40, for a stream with at most one side FILLING (R26). -/
def Obligations.FlowAskAnswered : Prop :=
  (∀ (s : State) (c : CellHdr) (n : Fin 32), s.Reaches c n → (s.stream n).entry.Is .flow .down →
    ((s.stream n).response = .halt → exec (.ask c) s = .next (s.withAnswer c .halt (s.stream n).seqBit [])) ∧
    ((s.stream n).response = .hold → exec (.ask c) s = .next (s.withAnswer c .wait (s.stream n).seqBit [])) ∧
    ((s.stream n).response = .opened → (s.stream n).room = true →
      exec (.ask c) s = .next (s.withAnswer c .ack (s.stream n).seqBit [])) ∧
    ((s.stream n).response = .opened → (s.stream n).room = false →
      exec (.ask c) s = .next (s.withAnswer c .wait (s.stream n).seqBit []))) ∧
  ∀ st : Stream, ¬ (st.side0.state = .filling ∧ st.side1.state = .filling) →
    (st.room = true ↔ ∃ k ∈ st.entry.sideNos,
      ((st.side k).state = .filling ∧ st.entry.maxPayload.toNat ≤ st.entry.capacity - (st.side k).fill) ∨
        (st.side k).state = .free)

/-- A PUT on a FLOW DOWN stream that one of the five checks of R68 stops: HALT, HOLD, oversize (R69), duplicate (R70), no
room (R71), in that order. -/
def Obligations.FlowPutRefusedInOrder : Prop :=
  ∀ (s : State) (c : CellHdr) (n : Fin 32) (p : List Byte), s.Reaches c n → (s.stream n).entry.Is .flow .down →
    ((s.stream n).response = .halt → exec (.put c p) s = .next (s.withAnswer c .halt c.seq [])) ∧
    ((s.stream n).response = .hold → exec (.put c p) s = .next (s.withAnswer c .wait c.seq [])) ∧
    ((s.stream n).response = .opened → (s.stream n).entry.maxPayload.toNat < p.length →
      exec (.put c p) s = .next (((s.withStreamEvent n .streamHalted 1).withStream n
        { s.stream n with response := .halt, counters := { (s.stream n).counters with
            oversize := satInc (s.stream n).counters.oversize } }).withAnswer c .halt c.seq [])) ∧
    ((s.stream n).response = .opened → p.length ≤ (s.stream n).entry.maxPayload.toNat →
      c.seq ≠ (s.stream n).seqBit →
      exec (.put c p) s = .next ((s.withStream n { s.stream n with counters := { (s.stream n).counters with
        duplicate := satInc (s.stream n).counters.duplicate } }).withAnswer c .ack c.seq [])) ∧
    ((s.stream n).response = .opened → p.length ≤ (s.stream n).entry.maxPayload.toNat →
      c.seq = (s.stream n).seqBit → (s.stream n).room = false →
      exec (.put c p) s = .next (s.withAnswer c .wait c.seq []))

/-- A PUT that passes the five checks is accepted (R72 to R75): the bytes are written from the fill count on (R28), the
sequence bit toggles, the burst progress counts and ends (R6, R73), the side closes by R30, packets passed counts, and the
answer is R74's; a side that closed is reported to the arbiter of the stream's branch (R41, R133), whose pick
`ArbiterPicksTheNextFrame` states. That BURST-DONE has detail 1 for a packet that is short and reaches the burst count too is
the model's reading of R173 (log entry 11). -/
def Obligations.FlowPutAccepted : Prop :=
  ∀ (s : State) (c : CellHdr) (n : Fin 32) (k : Fin 2) (p : List Byte), s.Reaches c n →
    (s.stream n).entry.Is .flow .down → (s.stream n).response = .opened →
    p.length ≤ (s.stream n).entry.maxPayload.toNat → c.seq = (s.stream n).seqBit → (s.stream n).room = true →
    (s.stream n).FillsInto k → p.length ≤ (s.stream n).entry.capacity - ((s.stream n).side k).fill →
    s.pool.wf Config.poolBytes = true →
    (s.stream n).entry.byteAddr k ((s.stream n).side k).fill + p.length ≤ Config.poolBytes →
    let st := s.stream n
    let sd := st.side k
    let e := st.entry
    let start := e.byteAddr k sd.fill
    let short := decide (p.length < e.maxPayload.toNat)
    let reached := decide (0 < e.burstCount.toNat ∧ e.burstCount.toNat ≤ st.burst.toNat + 1)
    let ends := decide (0 < e.burstCount.toNat) && (reached || short)
    let cause : Option CloseCause :=
      if e.continuous = false then some .single
      else if short then some .short
      else if reached then some .burst
      else if sd.fill + p.length = e.capacity then some .full
      else none
    ∃ u : State, exec (.put c p) s = .next (if cause = none then u else u.reportsOf [n]) ∧
      u = { s with trunk := u.trunk, streams := u.streams, pool := u.pool, events := u.events } ∧
      (∀ m, m ≠ n → u.stream m = s.stream m) ∧
      u.stream n = { st.setSide k { sd with state := if cause = none then .filling else .closed,
                                            fill := sd.fill + p.length, cause := cause.or sd.cause } with
        order := if cause = none then st.order else st.order ++ [k],
        seqBit := !st.seqBit,
        burst := if e.burstCount = 0 then st.burst else if ends then 0 else st.burst + 1,
        response := if ends ∧ e.holdAtEnd = true then .hold else .opened,
        counters := { st.counters with passed := st.counters.passed + 1 } } ∧
      (∀ a, u.pool.read a =
        if start ≤ a ∧ a < start + p.length then p.getD (a - start) 0 else s.pool.read a) ∧
      u.events = (if ends then (s.withStreamEvent n .burstDone (if reached then 1 else 2)).events else s.events) ∧
      u.trunk.waiting = some (s.answerTo c (if short ∨ (u.stream n).room = true then .ack else .full) c.seq []) ∧
      u.trunk = { s.trunk with waiting := u.trunk.waiting }

/-- A FETCH on a FLOW UP stream (R67, R77 to R80): HALT, HOLD and no drainable side answer with the sequence bit and change
nothing; an outstanding packet is sent again; a new packet is cut from the drainable side and recorded (R34, R79). -/
def Obligations.FlowFetchAnswered : Prop :=
  ∀ (s : State) (c : CellHdr) (n : Fin 32), s.Reaches c n → (s.stream n).entry.Is .flow .up →
    ((s.stream n).response = .halt → exec (.fetch c) s = .next (s.withAnswer c .halt (s.stream n).seqBit [])) ∧
    ((s.stream n).response = .hold → exec (.fetch c) s = .next (s.withAnswer c .wait (s.stream n).seqBit [])) ∧
    (∀ p, (s.stream n).response = .opened → (s.stream n).packet = some p →
      exec (.fetch c) s = .next (s.withAnswer c .data p.seq
        (s.pool.readBytes ((s.stream n).entry.byteAddr p.side p.offset) p.len))) ∧
    (∀ k, (s.stream n).response = .opened → (s.stream n).packet = none → (s.stream n).Drains k →
      let sd := (s.stream n).side k
      let len := min (s.stream n).entry.maxPayload.toNat (sd.fill - sd.drain)
      exec (.fetch c) s = .next ((s.withStream n { (s.stream n).setSide k { sd with state := .draining } with
          packet := some { side := k, offset := sd.drain, len := len, seq := (s.stream n).seqBit } }).withAnswer c .data
        (s.stream n).seqBit (s.pool.readBytes ((s.stream n).entry.byteAddr k sd.drain) len))) ∧
    ((s.stream n).response = .opened → (s.stream n).packet = none → (∀ k, ¬ (s.stream n).Drains k) →
      exec (.fetch c) s = .next (s.withAnswer c .wait (s.stream n).seqBit []))

/-- An ACK that completes the outstanding packet of a FLOW UP stream (R35, R81): the record goes, the sequence bit toggles,
packets passed counts, and the side advances, or is freed when its drain is complete; a freed side is reported to the port,
which issues the stream's grants (R41, R129): on a link that is UP they are queued. -/
def Obligations.FlowAckCompletesPacket : Prop :=
  ∀ (s : State) (c : CellHdr) (n : Fin 32) (p : Packet), s.Takes c → c.stream? = some n →
    (s.stream n).entry.enabled = true → (s.stream n).entry.Is .flow .up → (s.stream n).packet = some p →
    let st := s.stream n
    let sd := st.side p.side
    let endDue := sd.fill = 0 ∨ (sd.cause = some .last ∧ sd.fill % st.entry.maxPayload.toNat = 0)
    let done := p.len = 0 ∨ (sd.drain + p.len = sd.fill ∧ ¬ endDue)
    let counted := { st with packet := none, seqBit := !st.seqBit,
                             counters := { st.counters with passed := st.counters.passed + 1 } }
    (¬ done → exec (.ack c) s = .next (s.withStream n
      (counted.setSide p.side { sd with state := .closed, drain := sd.drain + p.len }))) ∧
    (done →
      let freed := { counted.setSide p.side Side.empty with order := st.order.filter (fun j => j != p.side) }
      exec (.ack c) s = .next ((s.withStream n freed).issueGrants n) ∧
        ∀ k ∈ st.entry.key?, (s.branch k.branch).link = .up → (s.branch k.branch).tx ≠ .idle →
          ((s.withStream n freed).issueGrants n).stream n = { freed with queued := freed.queued + (freed.entry.sideCount - (freed.grants + freed.notFree)) })

/-! ### CYCLIC streams -/

/-- A CYCLIC stream with period exponent e and phase p is due in the cycles whose count agrees with p modulo 2^e, on across
the wrap of the count (R106). -/
def Obligations.DueCyclesRepeatByPeriod : Prop :=
  ∀ (e : Entry) (c : Half), e.periodExp.toNat ≤ 16 →
    (e.due c = true ↔ c.toNat % 2 ^ e.periodExp.toNat = e.phase.toNat % 2 ^ e.periodExp.toNat) ∧
    (e.due (c + BitVec.ofNat 16 (2 ^ e.periodExp.toNat)) = e.due c)

/-- A PUT on a CYCLIC DOWN stream in HALT, HOLD, without a timebase, off-cycle, or due and refused, in the order of R108 and
R109; only the HALT is answered. -/
def Obligations.CyclicPutRefusedInOrder : Prop :=
  ∀ (s : State) (c : CellHdr) (n : Fin 32) (p : List Byte), s.Reaches c n → (s.stream n).entry.Is .cyclic .down →
    let st := s.stream n
    let served := s.timebase.state = .locked ∨ s.timebase.state = .coasting
    let missed := { st with counters := { st.counters with intervalMiss := satInc st.counters.intervalMiss } }
    let overran := { st with served := true, counters := { st.counters with overrun := satInc st.counters.overrun } }
    (st.response = .halt → exec (.put c p) s = .next (s.withAnswer c .halt c.seq [])) ∧
    (st.response = .hold → exec (.put c p) s = .next s) ∧
    (st.response = .opened → ¬ served →
      exec (.put c p) s = .next ((s.withStreamEvent n .intervalMiss 1).withStream n missed)) ∧
    (st.response = .opened → served → st.entry.due s.timebase.count = false →
      exec (.put c p) s = .next ((s.withStreamEvent n .intervalMiss 2).withStream n missed)) ∧
    (st.response = .opened → served → st.entry.due s.timebase.count = true → st.served = true →
      exec (.put c p) s = .next ((s.withStreamEvent n .overrun 3).withStream n overran)) ∧
    (st.response = .opened → served → st.entry.due s.timebase.count = true → st.served = false →
      (∀ k ∈ st.entry.sideNos, (st.side k).state ≠ .free) →
      exec (.put c p) s = .next ((s.withStreamEvent n .overrun 2).withStream n overran)) ∧
    (st.response = .opened → served → st.entry.due s.timebase.count = true → st.served = false →
      (∃ k ∈ st.entry.sideNos, (st.side k).state = .free) → st.entry.maxPayload.toNat < p.length →
      exec (.put c p) s = .next ((s.withStreamEvent n .overrun 1).withStream n
        { st with served := true, counters := { st.counters with oversize := satInc st.counters.oversize } }))

/-- A due PUT that R109 accepts: the bytes go into the lowest FREE side, which becomes HELD with cause CYCLIC at the tail of
the close order (R31); the served flag is set, packets passed counts, and no answer goes (R109). -/
def Obligations.CyclicPutAccepted : Prop :=
  ∀ (s : State) (c : CellHdr) (n : Fin 32) (k : Fin 2) (p : List Byte), s.Reaches c n →
    (s.stream n).entry.Is .cyclic .down → (s.stream n).response = .opened →
    s.timebase.state = .locked ∨ s.timebase.state = .coasting →
    (s.stream n).entry.due s.timebase.count = true → (s.stream n).served = false →
    k ∈ (s.stream n).entry.sideNos → (s.stream n).side k = Side.empty →
    (∀ j, j < k → ((s.stream n).side j).state ≠ .free) →
    p.length ≤ (s.stream n).entry.maxPayload.toNat → p.length ≤ (s.stream n).entry.capacity →
    s.pool.wf Config.poolBytes = true → (s.stream n).entry.byteAddr k 0 + p.length ≤ Config.poolBytes →
    let st := s.stream n
    let start := st.entry.byteAddr k 0
    ∃ t : State, exec (.put c p) s = .next t ∧ t = { s with streams := t.streams, pool := t.pool } ∧
      (∀ m, m ≠ n → t.stream m = s.stream m) ∧
      t.stream n = { st.setSide k { state := .held, fill := p.length, drain := 0, cause := some .cyclic,
                                    marked := false } with
        order := st.order ++ [k], served := true, counters := { st.counters with passed := st.counters.passed + 1 } } ∧
      ∀ a, t.pool.read a = if start ≤ a ∧ a < start + p.length then p.getD (a - start) 0 else s.pool.read a

/-- A FETCH on a CYCLIC UP stream (R110, R111): HALT, HOLD, no timebase, off-cycle, second fetch and underrun in order; and
the whole oldest CLOSED side as one DATA cell with SEQ 0, the side freed and reported to the port, which issues the stream's
grants (R36, R41, R129). -/
def Obligations.CyclicFetchAnswered : Prop :=
  ∀ (s : State) (c : CellHdr) (n : Fin 32), s.Reaches c n → (s.stream n).entry.Is .cyclic .up →
    let st := s.stream n
    let served := s.timebase.state = .locked ∨ s.timebase.state = .coasting
    let missed := { st with counters := { st.counters with intervalMiss := satInc st.counters.intervalMiss } }
    (st.response = .halt → exec (.fetch c) s = .next (s.withAnswer c .halt c.seq [])) ∧
    (st.response = .hold → exec (.fetch c) s = .next (s.withAnswer c .empty false [])) ∧
    (st.response = .opened → ¬ served →
      exec (.fetch c) s =
        .next (((s.withStreamEvent n .intervalMiss 1).withStream n missed).withAnswer c .empty false [])) ∧
    (st.response = .opened → served → st.entry.due s.timebase.count = false →
      exec (.fetch c) s =
        .next (((s.withStreamEvent n .intervalMiss 2).withStream n missed).withAnswer c .empty false [])) ∧
    (st.response = .opened → served → st.entry.due s.timebase.count = true → st.served = true →
      exec (.fetch c) s = .next ((s.withStream n { st with counters := { st.counters with
        secondFetch := satInc st.counters.secondFetch } }).withAnswer c .empty false [])) ∧
    (∀ k, st.response = .opened → served → st.entry.due s.timebase.count = true → st.served = false →
      st.Drains k →
      exec (.fetch c) s = .next
        (((s.withStream n { st.setSide k Side.empty with
            order := st.order.filter (fun j => j != k), served := true,
            counters := { st.counters with passed := st.counters.passed + 1 } }).withAnswer c .data false
          (s.pool.readBytes (st.entry.byteAddr k 0) (st.side k).fill)).issueGrants n)) ∧
    (st.response = .opened → served → st.entry.due s.timebase.count = true → st.served = false →
      (∀ k, ¬ st.Drains k) →
      exec (.fetch c) s = .next (((s.withStreamEvent n .underrun
          (if ∃ k ∈ st.entry.sideNos, (st.side k).state = .filling then 2 else 1)).withStream n
        { st with served := true, counters := { st.counters with underrun := satInc st.counters.underrun } }).withAnswer
          c .empty false []))

/-! ### The Cycle Timebase -/

/-- A marker taken in UNSYNCED or LOST makes a first boundary and locks the timebase (R94); no unserved check is made, every
HELD side of an enabled CYCLIC DOWN stream is released and reported, and every served flag cleared (R113, R114). That the
reports follow all the releases is the model's choice (log entry 8). -/
def Obligations.MarkerLocksTimebase : Prop :=
  ∀ (s : State) (c : CellHdr) (k : Half) (time : Ticks), s.Receives →
    s.timebase.state = .unsynced ∨ s.timebase.state = .lost →
    ∃ t : State, exec (.cycle c k time) s = .next t ∧
      s.BoundaryEffects t
        { s.timebase with
          state := .locked, count := k, consecutive := 0, last := some { time := time, kind := .marker },
          timer := some (time + s.timebase.length.ticks), markers := s.timebase.markers + 1 }
        (s.events.offer k .timebaseLocked 0xFF#8 0xFF#8 (if s.timebase.state = .unsynced then 1 else 2)) none

/-- A marker that claims the last boundary (R93 test 1, R95): count, boundary time, timer and state, with MARKER-SKEW (count)
before TIMEBASE-LOCKED (R98); nothing is handed to the Cyclic Scheduler. That the MARKER-SKEW record carries k follows R98 and
R92 (log entry 9). -/
def Obligations.MarkerClaimsBoundary : Prop :=
  ∀ (s : State) (c : CellHdr) (k : Half) (time t0 : Ticks), s.Receives →
    s.timebase.state = .locked ∨ s.timebase.state = .coasting →
    s.timebase.last = some { time := t0, kind := .interpolated false } → time - t0 ≤ s.timebase.length.ticks / 8 →
    let e1 := if k = s.timebase.count then s.events else s.events.offer k .markerSkew 0xFF#8 0xFF#8 2
    exec (.cycle c k time) s = .next { s with
      timebase := { s.timebase with
        state := .locked, count := k, consecutive := 0, last := some { time := time, kind := .interpolated true },
        timer := some (time + s.timebase.measured.getD s.timebase.length.ticks),
        markers := s.timebase.markers + 1 },
      events := if s.timebase.state = .coasting then e1.offer k .timebaseLocked 0xFF#8 0xFF#8 3 else e1 }

/-- A marker that claims nothing and comes less than L/2 after the last boundary is a runt: it is counted, MARKER-SKEW
(runt) is offered, and nothing else changes (R93, R96). -/
def Obligations.RuntMarkerDiscarded : Prop :=
  ∀ (s : State) (c : CellHdr) (k : Half) (time : Ticks) (b : Boundary), s.Receives →
    s.timebase.state = .locked ∨ s.timebase.state = .coasting → s.timebase.last = some b →
    ¬ (b.kind = .interpolated false ∧ time - b.time ≤ s.timebase.length.ticks / 8) →
    time - b.time < s.timebase.length.ticks / 2 →
    exec (.cycle c k time) s = .next { s.withPlainEvent .markerSkew 1 with
      timebase := { s.timebase with markers := s.timebase.markers + 1 } }

/-- Any other marker in LOCKED or COASTING makes a new boundary (R97): the measurement from a marker boundary is adopted when
within tolerance, the timer re-armed with the interval as it then stands; MARKER-SKEW as R98 names it and then
TIMEBASE-LOCKED stand ahead of what the boundary work offers (R92). The work is that of R112 and R113 with the old count as the
ending count: INTERVAL-MISS (not served) and its fault, STALE-FLUSH with the oldest side freed (R43) and granted again, HELD sides
released and reported, served flags cleared, and every other part of every stream kept. That the reports follow all the
releases is the model's choice (log entry 8). -/
def Obligations.MarkerMakesBoundary : Prop :=
  ∀ (s : State) (c : CellHdr) (k : Half) (time : Ticks) (b : Boundary), s.Receives →
    s.timebase.state = .locked ∨ s.timebase.state = .coasting → s.timebase.last = some b →
    ¬ (b.kind = .interpolated false ∧ time - b.time ≤ s.timebase.length.ticks / 8) →
    s.timebase.length.ticks / 2 ≤ time - b.time →
    let l := s.timebase.length.ticks
    let span := time - b.time
    let inside := l - l / 8 ≤ span ∧ span ≤ l + l / 8
    let measured := if b.kind = .marker ∧ inside then some span else s.timebase.measured
    let offCount := k ≠ s.timebase.count + 1
    let offInterval := b.kind = .marker ∧ ¬ inside
    let e1 := if offCount ∧ offInterval then s.events.offer k .markerSkew 0xFF#8 0xFF#8 4
      else if offCount then s.events.offer k .markerSkew 0xFF#8 0xFF#8 2
      else if offInterval then s.events.offer k .markerSkew 0xFF#8 0xFF#8 3
      else s.events
    let e2 := if s.timebase.state = .coasting then e1.offer k .timebaseLocked 0xFF#8 0xFF#8 3 else e1
    ∃ t : State, exec (.cycle c k time) s = .next t ∧
      s.BoundaryEffects t
        { s.timebase with
          state := .locked, count := k, consecutive := 0, measured := measured,
          last := some { time := time, kind := .marker }, timer := some (time + measured.getD l),
          markers := s.timebase.markers + 1 }
        e2 (some s.timebase.count)

/-- A timer expiry below the coast limit makes an interpolated boundary (R99), with TIMEBASE-COASTING first when it was LOCKED.
The work is that of R112 and R113: each enabled CYCLIC stream that was due in the ending count, unserved and OPEN is reported
and counted, and flushed when it is an UP stream with stale flush and a CLOSED side (R43); HELD sides are released and reported,
served flags cleared, and every other part of every stream kept. That the reports follow all the releases is the model's
choice (log entry 8). -/
def Obligations.TimerMakesInterpolatedBoundary : Prop :=
  ∀ (s : State) (time : Ticks), s.timebase.timer = some time → s.timebase.consecutive < s.timebase.coastLimit →
    ∃ t : State, exec (.cycleTimerExpiry time) s = .next t ∧
      s.BoundaryEffects t
        { s.timebase with
          state := .coasting, count := s.timebase.count + 1, consecutive := s.timebase.consecutive + 1,
          last := some { time := time, kind := .interpolated false },
          timer := some (time + s.timebase.measured.getD s.timebase.length.ticks),
          interpolated := s.timebase.interpolated + 1 }
        (if s.timebase.state = .locked then
          s.events.offer (s.timebase.count + 1) .timebaseCoasting 0xFF#8 0xFF#8 0
        else s.events)
        (some s.timebase.count)

/-- A timer expiry at the coast limit loses the timebase (R100): the sides of every enabled CYCLIC stream are discarded and
counted (R44, R115), every served flag is cleared, and the freed sides of UP streams are reported to the ports, which issue
the streams' grants (R41, R129). An expiry that is no longer due, because the timer has been re-armed or stopped since, does not
happen (R103, R104). The model's choices: a DRAINING side that carries the release mark already is counted too (log entry 10),
and a stream's grants are issued once, after its sides are discarded (log entry 7). -/
def Obligations.TimerLosesTimebase : Prop :=
  (∀ (s : State) (time : Ticks), s.timebase.timer = some time → s.timebase.coastLimit ≤ s.timebase.consecutive →
    ∃ u : State, exec (.cycleTimerExpiry time) s = .next (u.grantsFor (streamNumbers.filter (fun n => decide
        ((s.stream n).entry.enabled = true ∧ (s.stream n).entry.Is .cyclic .up ∧
          ((s.stream n).side0.state ≠ .free ∨ (s.stream n).side1.state ≠ .free))))) ∧
      u.timebase = { s.timebase with state := .lost, measured := none, timer := none } ∧
      u.events = s.events.offer s.timebase.count .timebaseLost 0xFF#8 0xFF#8 0 ∧
      u.stream 0 = s.stream 0 ∧
      (∀ n, n ≠ 0 → ¬ ((s.stream n).entry.enabled = true ∧ (s.stream n).entry.cls = .cyclic) →
        u.stream n = { s.stream n with served := false }) ∧
      (∀ n, n ≠ 0 → (s.stream n).entry.enabled = true → (s.stream n).entry.cls = .cyclic →
        (s.stream n).side0.Discarded (s.stream n).entry.dir (u.stream n).side0 ∧
        (s.stream n).side1.Discarded (s.stream n).entry.dir (u.stream n).side1 ∧
        u.stream n = { s.stream n with
          served := false, side0 := (u.stream n).side0, side1 := (u.stream n).side1,
          order := (s.stream n).order.filter (fun k => ((u.stream n).side k).state != .free),
          counters := { (s.stream n).counters with
            sidesLost := satIncBy
              ((if (s.stream n).side0.state = .free then 0 else 1) +
                (if (s.stream n).side1.state = .free then 0 else 1)) (s.stream n).counters.sidesLost } }) ∧
      u = { s with timebase := u.timebase, events := u.events, streams := u.streams }) ∧
  ∀ (s : State) (time : Ticks), s.timebase.timer ≠ some time → exec (.cycleTimerExpiry time) s = .next s

/-! ### Branch links -/

/-- SIGNAL-PRESENT takes a DOWN link to TRAINING, and is recorded only in DISABLED; SIGNAL-LOST takes a TRAINING link DOWN, and is
recorded only in DOWN and DISABLED (R120). -/
def Obligations.BranchSignalReports : Prop :=
  ∀ (s : State) (b : Fin 6),
    ((s.branch b).link = .down → exec (.branchSignalPresent b) s =
      .next (s.withBranch b { s.branch b with line := .present, link := .training, aligns := 0 })) ∧
    ((s.branch b).link = .disabled → exec (.branchSignalPresent b) s =
      .next (s.withBranch b { s.branch b with line := .present })) ∧
    ((s.branch b).link = .training → exec (.branchSignalLost b) s =
      .next (s.withBranch b { s.branch b with line := .absent, link := .down, aligns := 0 })) ∧
    ((s.branch b).link = .down ∨ (s.branch b).link = .disabled → exec (.branchSignalLost b) s =
      .next (s.withBranch b { s.branch b with line := .absent }))

/-- A link that is UP leaves it by the five causes of R122, each with the loss effects of R123 in the same happening and its
detail in BRANCH-DOWN: an ALIGN frame, the third bad frame in a row (R125), SIGNAL-LOST, DISABLE and RETRAIN (R124). -/
def Obligations.LinkLeavesUp : Prop :=
  (∀ (s : State) (b : Fin 6), (s.branch b).link = .up →
    (∃ t : State, exec (.branchSignalLost b) s = .next t ∧
      (s.withBranch b { s.branch b with line := .absent }).LossEffects t b .down 0 3) ∧
    (∃ t : State, exec (.align b) s = .next t ∧
      (s.withBranch b { s.branch b with errors := 0, counters := { (s.branch b).counters with
        good := (s.branch b).counters.good + 1 } }).LossEffects t b .training 1 1) ∧
    ((s.branch b).errors = 2 → ∃ t : State, exec (.frameBadCheck b) s = .next t ∧
      (s.withBranch b { s.branch b with errors := 3, counters := { (s.branch b).counters with
        checkErrors := satInc (s.branch b).counters.checkErrors } }).LossEffects t b .training 0 2)) ∧
  ∀ (s : State) (c : CellHdr) (f : ReqFields) (b : Fin 6), s.TakesRequest c f → f.length = 0 →
    f.target.toNat = b.val → (s.branch b).link = .up →
    (f.value = 2 → ∃ t : State, exec (.branchDisable c f) s = .next t ∧
      (s.resulted c .branchControl f .done).LossEffects t b .disabled 0 4) ∧
    (f.value = 3 → ∃ t : State, exec (.branchRetrain c f) s = .next t ∧
      (s.resulted c .branchControl f .done).LossEffects t b .training 0 5)

/-- Frames in TRAINING (R121): an ALIGN counts toward training, any other good frame and a bad frame set the ALIGN count to 0;
a bad frame in UP below the third is counted (R125); in DISABLED a frame is discarded without count (R119). -/
def Obligations.TrainingFramesCounted : Prop :=
  ∀ (s : State) (b : Fin 6) (ch : Fin 8) (p : List Byte),
    let br := s.branch b
    let good := { br.counters with good := br.counters.good + 1 }
    let bad := { br.counters with checkErrors := satInc br.counters.checkErrors }
    (br.link = .training → br.aligns < 3 → exec (.align b) s =
      .next (s.withBranch b { br with aligns := br.aligns + 1, counters := good })) ∧
    (br.link = .training → ∀ i, i = .data b ch p ∨ i = .dataLast b ch p ∨ i = .credit b ch p ∨ i = .unwantedFrame b →
      exec i s = .next (s.withBranch b { br with aligns := 0, counters := good })) ∧
    (br.link = .training → exec (.frameBadCheck b) s =
      .next (s.withBranch b { br with aligns := 0, counters := bad })) ∧
    (br.link = .up → br.errors < 2 → exec (.frameBadCheck b) s =
      .next (s.withBranch b { br with errors := br.errors + 1, counters := bad })) ∧
    (br.link = .disabled → ∀ i, i = .align b ∨ i = .data b ch p ∨ i = .dataLast b ch p ∨ i = .credit b ch p ∨
      i = .unwantedFrame b ∨ i = .frameBadCheck b → exec i s = .next s)

/-- The fourth ALIGN makes the link UP (R121): BRANCH-UP is offered, the grants of the branch's UP streams are issued in
ascending stream number (R129), and then the transmitter is IDLE and the arbiter picks (R133). Each enabled UP stream of the
branch with no grants and a key of its own is so granted its FREE sides. -/
def Obligations.FourthAlignBringsLinkUp : Prop :=
  ∀ (s : State) (b : Fin 6), (s.branch b).link = .training → (s.branch b).aligns = 3 →
    (s.branch b).tx = .aligning →
    let u : State := { s.withBranch b { s.branch b with
        link := .up, aligns := 0, errors := 0,
        counters := { (s.branch b).counters with good := (s.branch b).counters.good + 1 } } with
      events := s.events.offer s.timebase.count .branchUp 0xFF#8 (BitVec.ofNat 8 b.val) 0 }
    let v := u.grantsFor (s.onBranch b)
    let t := (v.withBranch b { v.branch b with tx := .idle }).arbitrate b
    exec (.align b) s = .next t ∧ (∀ c, c ≠ b → t.branch c = s.branch c) ∧
      ∀ n, s.OnBranch b n → (s.stream n).entry.dir = .up → (s.stream n).grants = 0 →
        (∀ m, m ≠ n → ∀ k ∈ (s.stream m).entry.key?, s.route k ≠ some n) →
        (∀ k ∈ (s.stream n).entry.key?, s.route k = some n) → (s.branch b).queue = [] →
        (t.stream n).grants = (s.stream n).entry.sideCount - (s.stream n).notFree

/-- A DATA or DATA-LAST frame in UP that R126 drops, by the first step that applies: oversize (1), unrouted (2), no room (4),
no grant (6), each with its counters and event. -/
def Obligations.DataFramesDropped : Prop :=
  ∀ (s : State) (b : Fin 6) (ch : Fin 8) (p : List Byte) (i : Instr), (s.branch b).link = .up →
    i = .data b ch p ∨ i = .dataLast b ch p →
    let br := s.branch b
    let key : RouteKey := { branch := b, channel := ch, dir := .up }
    let good := { br.counters with good := br.counters.good + 1 }
    (s.route key = none → 256 < p.length → exec i s = .next { s.withBranch b { br with errors := 0, counters :=
        { good with oversize := satInc br.counters.oversize } } with
      events := s.events.offer s.timebase.count .overrun 0xFF#8 (BitVec.ofNat 8 b.val) 4 }) ∧
    (s.route key = none → p.length ≤ 256 → exec i s = .next (s.withBranch b { br with errors := 0, counters :=
        { good with unrouted := satInc br.counters.unrouted } })) ∧
    ∀ n, s.route key = some n →
      let st := s.stream n
      (256 < p.length ∨ st.entry.frameLimit.toNat < p.length →
        exec i s = .next (((s.withStreamEvent n .overrun 4).withStream n { st with counters := { st.counters with
          oversize := satInc st.counters.oversize } }).withBranch b { br with errors := 0, counters :=
            { good with oversize := satInc br.counters.oversize } })) ∧
      (p.length ≤ 256 → p.length ≤ st.entry.frameLimit.toNat → ∀ k ∈ st.entry.sideNos,
        (st.side k).state = .filling → (∀ j, j ≠ k → (st.side j).state ≠ .filling) →
        st.entry.capacity - (st.side k).fill < p.length →
        exec i s = .next (((s.withStreamEvent n .overrun 5).withStream n { st with counters := { st.counters with
          overrun := satInc st.counters.overrun } }).withBranch b { br with errors := 0, counters :=
            { good with noRoom := satInc br.counters.noRoom } })) ∧
      (p.length ≤ 256 → p.length ≤ st.entry.frameLimit.toNat → (∀ k, (st.side k).state ≠ .filling) →
        st.delivered = 0 →
        exec i s = .next (((s.withStreamEvent n .overrun 6).withStream n { st with counters := { st.counters with
          overrun := satInc st.counters.overrun } }).withBranch b { br with errors := 0, counters :=
            { good with noGrant := satInc br.counters.noGrant } }))

/-- A DATA or DATA-LAST frame in UP that R126 takes (steps 3 and 5): appended to the FILLING side, or opening the lowest FREE
side with a delivered grant; the bytes are written from the fill count on and the side closes by R32. -/
def Obligations.DataFramesFillSides : Prop :=
  ∀ (s : State) (b : Fin 6) (ch : Fin 8) (p : List Byte) (last : Bool) (n : Fin 32) (k : Fin 2),
    (s.branch b).link = .up → s.route { branch := b, channel := ch, dir := .up } = some n →
    p.length ≤ 256 → p.length ≤ (s.stream n).entry.frameLimit.toNat → (s.stream n).FillsInto k →
    p.length ≤ (s.stream n).entry.capacity - ((s.stream n).side k).fill →
    (((s.stream n).side k).state = .free → 1 ≤ (s.stream n).delivered) → s.pool.wf Config.poolBytes = true →
    (s.stream n).entry.byteAddr k ((s.stream n).side k).fill + p.length ≤ Config.poolBytes →
    let st := s.stream n
    let sd := st.side k
    let start := st.entry.byteAddr k sd.fill
    let cause : Option CloseCause :=
      if last then some .last
      else if st.entry.continuous = false then some .single
      else if sd.fill + p.length = st.entry.capacity then some .full
      else none
    ∃ t : State, exec (if last then .dataLast b ch p else .data b ch p) s = .next t ∧
      t = { s with streams := t.streams, pool := t.pool, branches := t.branches } ∧
      (∀ m, m ≠ n → t.stream m = s.stream m) ∧ (∀ c, c ≠ b → t.branch c = s.branch c) ∧
      t.branch b = { s.branch b with errors := 0, counters := { (s.branch b).counters with
        good := (s.branch b).counters.good + 1 } } ∧
      t.stream n = { st.setSide k { sd with state := if cause = none then .filling else .closed,
                                            fill := sd.fill + p.length, cause := cause.or sd.cause } with
        order := if cause = none then st.order else st.order ++ [k],
        delivered := if sd.state = .free then st.delivered - 1 else st.delivered } ∧
      ∀ a, t.pool.read a = if start ≤ a ∧ a < start + p.length then p.getD (a - start) 0 else s.pool.read a

/-- A CREDIT in UP (R128): one count byte for a DOWN key adds to the credits held, up to 15, and the arbiter may begin the
stream's frame (R133); any other length, and a key that maps to no stream, is dropped as unrouted. A frame of kind GRANT or REVOKE, or
of no kind, is dropped so too (R125). -/
def Obligations.CreditsAndUnwantedFrames : Prop :=
  ∀ (s : State) (b : Fin 6) (ch : Fin 8), (s.branch b).link = .up →
    let br := s.branch b
    let key : RouteKey := { branch := b, channel := ch, dir := .down }
    let taken := { br with errors := 0, counters := { br.counters with good := br.counters.good + 1 } }
    let dropped := { taken with counters := { taken.counters with unrouted := satInc br.counters.unrouted } }
    (∀ (n : Fin 32) (count : Byte), s.route key = some n →
      let u := (s.withBranch b taken).withStream n
        { s.stream n with credits := min 15 ((s.stream n).credits + count.toNat) }
      exec (.credit b ch [count]) s = .next (u.arbitrate b)) ∧
    (∀ p : List Byte, p.length ≠ 1 ∨ s.route key = none →
      exec (.credit b ch p) s = .next (s.withBranch b dropped)) ∧
    exec (.unwantedFrame b) s = .next (s.withBranch b dropped)

/-- The end of a control frame (R134): the in-flight grants of a GRANT's stream become delivered, frames sent counts, the
transmitter is IDLE and the arbiter picks (R133). -/
def Obligations.ControlFrameEnds : Prop :=
  ∀ (s : State) (b : Fin 6), (s.branch b).link = .up →
    let idle := { s.branch b with tx := .idle, counters := { (s.branch b).counters with
      sent := (s.branch b).counters.sent + 1 } }
    (∀ ch dir, (s.branch b).tx = .busy (.revoke ch dir) →
      exec (.controlFrameEnd b) s = .next ((s.withBranch b idle).arbitrate b)) ∧
    ∀ ch count cap n, (s.branch b).tx = .busy (.grant ch count cap) →
      s.route { branch := b, channel := ch, dir := .up } = some n →
      let u := (s.withStream n { s.stream n with
        delivered := (s.stream n).delivered + (s.stream n).inFlight, inFlight := 0 }).withBranch b idle
      exec (.controlFrameEnd b) s = .next (u.arbitrate b)

/-- The end of a DOWN data frame (R38, R136): a marked side is freed, and an exchange that waits for it goes to RESULT (R162); any
other side advances, and is freed when its bytes are sent; frames sent counts and the arbiter picks again (R133). -/
def Obligations.DataFrameEnds : Prop :=
  ∀ (s : State) (b : Fin 6) (last : Bool) (ch : Fin 8) (n : Fin 32) (k : Fin 2) (p : List Byte),
    (s.branch b).tx = .busy (.data last ch n k p) →
    let st := s.stream n
    let sd := st.side k
    let idle := { s.branch b with tx := .idle, counters := { (s.branch b).counters with
      sent := (s.branch b).counters.sent + 1 } }
    let freed := { st.setSide k Side.empty with order := st.order.filter (fun j => j != k) }
    let ended : State := { (s.withBranch b idle).withStream n freed with
      mgmt := if s.mgmt.exchange = .executing ∧ s.mgmt.targets n = true
        then { s.mgmt with exchange := .result } else s.mgmt }
    (sd.marked = true → exec (.dataFrameEnd b) s = .next (ended.arbitrate b)) ∧
    (sd.marked = false → sd.drain + p.length = sd.fill →
      exec (.dataFrameEnd b) s = .next (((s.withBranch b idle).withStream n freed).arbitrate b)) ∧
    (sd.marked = false → sd.drain + p.length ≠ sd.fill →
      exec (.dataFrameEnd b) s = .next (((s.withBranch b idle).withStream n
        (st.setSide k { sd with state := .closed, drain := sd.drain + p.length })).arbitrate b))

/-- The arbiter's pick on a link that is UP with an IDLE transmitter. It prefers the control-frame queue (R133, R134): its head
leaves the queue and is transmitted; a GRANT's count moves from queued to in flight and the frame carries the side capacity of
the key's stream. With no control frame it takes the first channel after the pointer whose DOWN stream has a CLOSED head and a
credit (R133): the frame of R37 begins, its side is DRAINING, one credit is taken and the pointer is set (R135); with no such
channel the transmitter stays IDLE. -/
def Obligations.ArbiterPicksTheNextFrame : Prop :=
  (∀ (s : State) (b : Fin 6) (rest : List CtlEntry), (s.branch b).link = .up → (s.branch b).tx = .idle →
    (∀ ch dir, (s.branch b).queue = .revoke ch dir :: rest →
      s.arbitrate b = s.withBranch b { s.branch b with queue := rest, tx := .busy (.revoke ch dir) }) ∧
    ∀ ch count n, (s.branch b).queue = .grant ch count :: rest →
      s.route { branch := b, channel := ch, dir := .up } = some n →
      s.arbitrate b = (s.withStream n { s.stream n with
          queued := (s.stream n).queued - count, inFlight := (s.stream n).inFlight + count }).withBranch b
        { s.branch b with queue := rest, tx := .busy (.grant ch count (s.stream n).entry.capacity) }) ∧
  ∀ (s : State) (b : Fin 6), (s.branch b).link = .up → (s.branch b).tx = .idle → (s.branch b).queue = [] →
    let ready (ch : Fin 8) (n : Fin 32) : Prop :=
      s.route { branch := b, channel := ch, dir := .down } = some n ∧ (s.stream n).entry.enabled = true ∧
        (∃ k, (s.stream n).Drains k) ∧ 1 ≤ (s.stream n).credits
    (∀ (d : Fin 8) (n : Fin 32) (k : Fin 2), ready ((s.branch b).pointer + 1 + d) n → (s.stream n).Drains k →
      (∀ j, j < d → ∀ m, ¬ ready ((s.branch b).pointer + 1 + j) m) →
      let ch := (s.branch b).pointer + 1 + d
      let st := s.stream n
      let sd := st.side k
      let len := min st.entry.frameLimit.toNat (sd.fill - sd.drain)
      let last := decide (sd.fill = 0 ∨ (sd.drain + len = sd.fill ∧
        (sd.cause = some .short ∨ sd.cause = some .burst ∨ sd.cause = some .cyclic)))
      s.arbitrate b = (s.withStream n { st.setSide k { sd with state := .draining } with
          credits := st.credits - 1 }).withBranch b
        { s.branch b with pointer := ch, tx := .busy (.data last ch n k
          (s.pool.readBytes (st.entry.byteAddr k sd.drain) len)) }) ∧
    ((∀ ch n, ¬ ready ch n) → s.arbitrate b = s)

/-- The control-frame queue, and the grants and REVOKEs that join it. A GRANT request adds to the GRANT of its key in its place
or joins the tail; a REVOKE request removes the GRANT of its key and joins the tail unless a REVOKE of the key is there, which
keeps its place (R132); each keeps at most one of each kind for a key, with the REVOKE ahead, and so at most 24 entries. The
issue of grants queues a GRANT for the sides that are FREE and not granted, on a link that is UP (R129). The revoking of a key
queues a REVOKE when the link is UP, and sets the stream's counts to 0 (R130; those of the other direction are 0 already). The
arbiter picks after each request (R133). -/
def Obligations.ControlQueueKeepsItsLaw : Prop :=
  (∀ (br : Branch), br.QueueLaw → ∀ (ch : Fin 8) (dir : Dir) (d : Nat),
    ({ br with queue := queueGrant br.queue ch d } : Branch).QueueLaw ∧
    ({ br with queue := queueRevoke br.queue ch dir } : Branch).QueueLaw ∧
    (∀ c, queuedFor (queueGrant br.queue ch d) c = queuedFor br.queue c + if c = ch then d else 0) ∧
    (∀ c, queuedFor (queueRevoke br.queue ch dir) c = if c = ch ∧ dir = .up then 0 else queuedFor br.queue c) ∧
    (∀ pre post m, br.queue = pre ++ .grant ch m :: post →
      queueGrant br.queue ch d = pre ++ .grant ch (m + d) :: post) ∧
    ((∀ m, .grant ch m ∉ br.queue) → queueGrant br.queue ch d = br.queue ++ [.grant ch d]) ∧
    let kept := br.queue.filter (fun e => !decide (dir = .up ∧ e.tag = (true, ch, .up)))
    (.revoke ch dir ∈ br.queue → queueRevoke br.queue ch dir = kept) ∧
    (.revoke ch dir ∉ br.queue → queueRevoke br.queue ch dir = kept ++ [.revoke ch dir])) ∧
  ∀ (s : State) (n : Fin 32) (k : RouteKey),
    let st := s.stream n
    let br := s.branch k.branch
    let held := (st.entry.sideNos.filter (fun j => (st.side j).state != .free)).length
    let d := st.entry.sideCount - (st.queued + st.inFlight + st.delivered + held)
    let may := st.entry.enabled = true ∧ k.dir = .up ∧ br.link = .up ∧ 0 < d
    (st.entry.key? = some k → may → s.issueGrants n =
      ((s.withStream n { st with queued := st.queued + d }).withBranch k.branch
        { br with queue := queueGrant br.queue k.channel d }).arbitrate k.branch) ∧
    (st.entry.key? = some k → ¬ may → s.issueGrants n = s) ∧
    let cleared := s.withStream n { st with queued := 0, inFlight := 0, delivered := 0, credits := 0 }
    (br.link = .up → s.revokeKey n k =
      (cleared.withBranch k.branch { br with queue := queueRevoke br.queue k.channel k.dir }).arbitrate k.branch) ∧
    (br.link ≠ .up → s.revokeKey n k = cleared)

/-! ### The management exchange -/

/-- A REQUEST on stream 0 is answered ACK in every exchange state and begins an exchange of its own (R140): the header stored, the
sequence bit 1, stream 0 OPEN, no packet outstanding; an exchange that stood in any state but IDLE and FAILED is reported first
with its request code. What the request then does is what it does with no exchange standing: a REQUEST that abandons an exchange
acts as it would on the same state with the exchange IDLE and MGMT-ABANDONED offered. -/
def Obligations.RequestBeginsItsExchange : Prop :=
  (∀ (s : State) (i : Instr) (c : CellHdr) (r : Request) (f : ReqFields), i.wf = true → i.request? = some (c, r, f) →
    s.Takes c → c.stream = 0 →
    ∃ t : State, exec i s = .next t ∧
      t.trunk.waiting = some (s.answerTo c .ack c.seq []) ∧ t.trunk.sending = none ∧
      t.mgmt.header = some { code := r.code, fields := some f } ∧ t.mgmt.seqBit = true ∧
      t.mgmt.response = .opened ∧ t.mgmt.packet = none ∧ t.mgmt.outCount = 0 ∧ t.mgmt.snapOff = 0 ∧
      t.mgmt.exchange ≠ .idle ∧ t.mgmt.exchange ≠ .failed ∧
      (if s.mgmt.exchange = .idle ∨ s.mgmt.exchange = .failed then s.events
        else (s.withPlainEvent .mgmtAbandoned s.mgmt.headerCode).events).records <+: t.events.records) ∧
  ∀ (s : State) (i : Instr) (c : CellHdr), s.Takes c → c.stream = 0 →
    (∃ r f, i.request? = some (c, r, f)) ∨ (∃ p, i = .requestBadCode c p ∧ namesRequest p = false) →
    s.mgmt.exchange ≠ .idle → s.mgmt.exchange ≠ .failed →
    exec i s = exec i { s.withPlainEvent .mgmtAbandoned s.mgmt.headerCode with
      mgmt := { s.mgmt with exchange := .idle } }

/-- A request that fails a header check of R141 ends at once with the code of the first that fails, and nothing else of the part
changes: the flags, the length, the node state (R141). The lengths and the node states that a request allows are those of its
row in 9.1 (R155). -/
def Obligations.HeaderChecksRefuse : Prop :=
  (∀ (s : State) (i : Instr) (c : CellHdr) (r : Request) (f : ReqFields), i.wf = true → i.request? = some (c, r, f) →
    s.Takes c → c.stream = 0 → s.mgmt.exchange = .idle ∨ s.mgmt.exchange = .failed →
    (f.flags ≠ 0 ∨ r.lengthOk f.length.toNat = false → exec i s = .next (s.resulted c r f .badRequest)) ∧
    (f.flags = 0 → r.lengthOk f.length.toNat = true → r.allowedIn s.trunk.node = false →
      exec i s = .next (s.resulted c r f .wrongState))) ∧
  (∀ (r : Request) (n : Nat), r.lengthOk n = true ↔
    match r with
    | .readIdentity | .writeStream => n = 16
    | .readStream => n = 24
    | .readEvents => n ≤ 256 ∧ n % 8 = 0
    | .readCounters => n = 8 ∨ n = 18 ∨ n = 20
    | .readTimebase => n = 12
    | _ => n = 0) ∧
  ∀ (r : Request) (node : NodeState), r.allowedIn node = true ↔
    match r with
    | .assignAddress | .setCycle => node = .listening ∨ node = .addressed
    | .start => node = .addressed
    | .stop => node = .running
    | .writeStream => node = .addressed ∨ node = .running
    | _ => node ≠ .detached

/-- A REQUEST whose payload is not 12 bytes, or whose code names no request, ends with BAD-REQUEST (R141 steps 1 and 2), with
the code byte it carried, or 0, in its header; and a REQUEST on a stream other than 0 is answered HALT and counted as a cell of
unknown kind (R58). -/
def Obligations.BadRequestsAndStrayRequests : Prop :=
  (∀ (s : State) (c : CellHdr) (p : List Byte), namesRequest p = false → s.Takes c → c.stream = 0 →
    s.mgmt.exchange = .idle ∨ s.mgmt.exchange = .failed →
    ∃ t : State, exec (.requestBadCode c p) s = .next t ∧
      t.trunk = { s.trunk with waiting := some (s.answerTo c .ack c.seq []) } ∧
      t.mgmt.exchange = .result ∧ t.mgmt.headerCode = p.headD 0 ∧ (p.length ≠ 12 → t.mgmt.fields? = none) ∧
      t.mgmt.result = some { code := .badRequest, detail := 0,
                             tag := if p.length = 12 then half (p.getD 10 0) (p.getD 11 0) else 0 } ∧
      t.mgmt.seqBit = true ∧ t.mgmt.response = .opened ∧ t.mgmt.packet = none ∧ t.mgmt.deferred = none ∧
      t.mgmt.outCount = 0 ∧ t.mgmt.snapLen = 0 ∧ t.mgmt.snapOff = 0 ∧ t.mgmt.buffer = s.mgmt.buffer ∧
      t = { s with trunk := t.trunk, mgmt := t.mgmt }) ∧
  ∀ (s : State) (i : Instr) (c : CellHdr), s.Takes c → c.stream ≠ 0 →
    (∃ r f, i.request? = some (c, r, f)) ∨ (∃ p, i = .requestBadCode c p ∧ namesRequest p = false) →
    exec i s = .next { s.withAnswer c .halt c.seq [] with
      trunkCtr := { s.trunkCtr with unknownKind := satInc s.trunkCtr.unknownKind } }

/-- ASSIGN-ADDRESS in LISTENING or ADDRESSED (R156): a target other than 0 and a value above 63 are refused; else DONE, with the
address held as the deferred action and nothing changed at the Trunk Port. -/
def Obligations.AssignAddressIsDeferred : Prop :=
  ∀ (s : State) (c : CellHdr) (f : ReqFields), s.TakesRequest c f → f.length = 0 →
    s.trunk.node = .listening ∨ s.trunk.node = .addressed →
    (f.target ≠ 0 ∨ 63 < f.value.toNat →
      exec (.assignAddress c f) s = .next (s.resulted c .assignAddress f .badRequest)) ∧
    (f.target = 0 → f.value.toNat ≤ 63 → exec (.assignAddress c f) s =
      .next { s.withAnswer c .ack c.seq [] with
        mgmt := { s.mgmt.resulted .assignAddress f .done with
          deferred := some (.address (BitVec.ofNat 6 f.value.toNat)) } })

/-- START in ADDRESSED makes the node RUNNING and opens no stream; STOP in RUNNING makes it ADDRESSED with HOLD for every stream
from 1 to 31, and changes nothing else of them (R22, R54, R157). A disabled stream stands in HOLD already (R4). -/
def Obligations.StartAndStopMoveTheNode : Prop :=
  ∀ (s : State) (c : CellHdr) (f : ReqFields), s.TakesRequest c f → f.length = 0 →
    (s.trunk.node = .addressed → exec (.start c f) s =
      .next { s with trunk := { s.trunk with node := .running, waiting := some (s.answerTo c .ack c.seq []) },
                     mgmt := s.mgmt.resulted .start f .done }) ∧
    (s.trunk.node = .running → ∃ t : State, exec (.stop c f) s = .next t ∧
      t.trunk = { s.trunk with node := .addressed, waiting := some (s.answerTo c .ack c.seq []) } ∧
      t.mgmt = s.mgmt.resulted .stop f .done ∧ t.stream 0 = s.stream 0 ∧
      (∀ n, n ≠ 0 → t.stream n =
        if (s.stream n).entry.enabled = true then { s.stream n with response := .hold } else s.stream n) ∧
      t = { s with trunk := t.trunk, mgmt := t.mgmt, streams := t.streams })

/-- SET-CYCLE in LISTENING or ADDRESSED (R102, R158): an L code above 3, a C outside 1 to 15 and any other part that is not 0 give
RANGE; else L and C are taken and the timebase is UNSYNCED, its count and counters kept. -/
def Obligations.SetCycleRestartsTheTimebase : Prop :=
  ∀ (s : State) (c : CellHdr) (f : ReqFields), s.TakesRequest c f → f.length = 0 →
    s.trunk.node = .listening ∨ s.trunk.node = .addressed →
    let code := f.value.toNat / 256
    let limit := f.value.toNat % 256
    (3 < code ∨ limit = 0 ∨ 15 < limit → exec (.setCycle c f) s = .next (s.resulted c .setCycle f .range)) ∧
    ∀ l : CycleLength, code = (match l with | .us125 => 0 | .us250 => 1 | .us500 => 2 | .us1000 => 3) →
      1 ≤ limit → limit ≤ 15 → exec (.setCycle c f) s =
        .next { s.resulted c .setCycle f .done with
          timebase := { s.timebase with state := .unsynced, length := l, coastLimit := limit, measured := none,
                                        consecutive := 0, last := none, timer := none } }

/-- The reading requests take their snapshot at the REQUEST and go to DATA-IN, changing nothing else (R142): READ-IDENTITY and
READ-TIMEBASE (R164), READ-STREAM (R165), READ-COUNTERS with its own checks (R168), and READ-EVENTS (R166, R174): the oldest
records that the length takes, end to end, the lost count as the result's detail, and their removal deferred. The records
are laid out as 11.5 to 11.7 say (R105, R165, R178). -/
def Obligations.ReadRequestsTakeSnapshots : Prop :=
  (∀ (s : State) (c : CellHdr) (f : ReqFields), s.TakesRequest c f →
    (f.length = 16 → exec (.readIdentity c f) s = .next { s.withAnswer c .ack c.seq [] with
      mgmt := s.mgmt.snapped .readIdentity f
        [0x6C#8, 0x32#8, 0x01#8, 32#8, 6#8, 32#8, 0x04#8, 0x00#8, 0, 0, 0, 0, 0, 0, 0, 0] 0 none }) ∧
    (f.length = 12 → exec (.readTimebase c f) s = .next { s.withAnswer c .ack c.seq [] with
      mgmt := s.mgmt.snapped .readTimebase f s.timebase.record 0 none }) ∧
    (f.length = 24 → ∀ n : Fin 32, n ≠ 0 → f.target.toNat = n.val → exec (.readStream c f) s =
      .next { s.withAnswer c .ack c.seq [] with
        mgmt := s.mgmt.snapped .readStream f (s.stream n).record 0 none }) ∧
    (f.length = 24 → f.target = 0 ∨ 31 < f.target.toNat →
      exec (.readStream c f) s = .next (s.resulted c .readStream f .range)) ∧
    (f.length = 8 ∨ f.length = 18 ∨ f.length = 20 →
      (counterGroupOf? f.target = none →
        exec (.readCounters c f) s = .next (s.resulted c .readCounters f .range)) ∧
      ∀ g, counterGroupOf? f.target = some g →
        (f.length.toNat ≠ g.recordLength →
          exec (.readCounters c f) s = .next (s.resulted c .readCounters f .badRequest)) ∧
        (f.length.toNat = g.recordLength → exec (.readCounters c f) s =
          .next { s.withAnswer c .ack c.seq [] with
            mgmt := s.mgmt.snapped .readCounters f (s.counterRecord g) 0 none })) ∧
    (f.length.toNat ≤ 256 → f.length.toNat % 8 = 0 →
      let n := min (f.length.toNat / 8) s.events.records.length
      exec (.readEvents c f) s = .next { s.withAnswer c .ack c.seq [] with
        mgmt := s.mgmt.snapped .readEvents f ((s.events.records.take n).flatMap EventRec.bytes) s.events.lost
          (some (.removal n s.events.lost)) })) ∧
  let hi (h : Half) : Byte := h.extractLsb' 8 8
  let lo (h : Half) : Byte := h.extractLsb' 0 8
  let word (w : Word) : List Byte := [w.extractLsb' 24 8, w.extractLsb' 16 8, w.extractLsb' 8 8, w.extractLsb' 0 8]
  let num (n : Nat) : Byte := BitVec.ofNat 8 n
  let side (sd : Side) : Half := BitVec.ofNat 16 (sd.fill + 4096 *
    (match sd.state with | .free => 0 | .filling => 1 | .held => 2 | .closed => 3 | .draining => 4))
  (∀ st : Stream,
    let one := side st.side0
    let two := if st.entry.twoSides = true then side st.side1 else 0
    (st.entry.enabled = false → st.record = st.entry.bytes ++ [2, 0, 0, 0, 0, 0, 0, 0]) ∧
    (st.entry.enabled = true → st.record = st.entry.bytes ++
      [match st.response with | .opened => 1 | .hold => 2 | .halt => 3,
       num ((if st.entry.dir = .up then st.queued + st.inFlight + st.delivered else st.credits) * 16 +
         (if st.packet = none then 0 else 2) + if st.seqBit then 1 else 0),
       hi st.burst, lo st.burst, hi one, lo one, hi two, lo two])) ∧
  (∀ t : Timebase,
    let l : Half := match t.length with | .us125 => 125 | .us250 => 250 | .us500 => 500 | .us1000 => 1000
    let m : Half := match t.measured with | none => 0 | some ticks => BitVec.ofNat 16 (ticks / 16)
    t.record = [match t.state with | .unsynced => 0 | .locked => 1 | .coasting => 2 | .lost => 3,
      num t.consecutive, num t.coastLimit, 0, hi t.count, lo t.count, hi l, lo l, hi m, lo m, 0, 0]) ∧
  (∀ k : StreamCounters, k.record = word k.passed ++
    [hi k.oversize, lo k.oversize, hi k.duplicate, lo k.duplicate, hi k.overrun, lo k.overrun, hi k.underrun,
     lo k.underrun, hi k.intervalMiss, lo k.intervalMiss, hi k.wrongDirection, lo k.wrongDirection,
     hi k.secondFetch, lo k.secondFetch, hi k.sidesLost, lo k.sidesLost]) ∧
  (∀ k : BranchCounters, k.record = word k.good ++ word k.sent ++
    [hi k.oversize, lo k.oversize, hi k.noRoom, lo k.noRoom, hi k.noGrant, lo k.noGrant, hi k.unrouted, lo k.unrouted,
     hi k.checkErrors, lo k.checkErrors]) ∧
  (∀ k : TrunkCounters, k.record = [hi k.badCheck, lo k.badCheck, hi k.unknownKind, lo k.unknownKind, hi k.disabled,
    lo k.disabled, hi k.strayAck, lo k.strayAck]) ∧
  (∀ t : Timebase, t.counterRecord = word t.markers ++ word t.interpolated) ∧
  (∀ (s : State) (n : Fin 32) (b : Fin 6), s.counterRecord (.stream n) = (s.stream n).counters.record ∧
    s.counterRecord (.branch b) = (s.branch b).counters.record ∧ s.counterRecord .trunk = s.trunkCtr.record ∧
    s.counterRecord .timebase = s.timebase.counterRecord) ∧
  (∀ r : EventRec, r.bytes = [num r.kind.code, r.stream, r.branch, r.detail, hi r.count, lo r.count, hi r.serial,
    lo r.serial]) ∧
  ∀ target : Half, counterGroupOf? target =
    if h : 1 ≤ target.toNat ∧ target.toNat ≤ 31 then some (.stream ⟨target.toNat, by omega⟩)
    else if h : 256 ≤ target.toNat ∧ target.toNat ≤ 261 then some (.branch ⟨target.toNat - 256, by omega⟩)
    else if target.toNat = 512 then some .trunk
    else if target.toNat = 768 then some .timebase
    else none

/-- SET-RESPONSE (R20, R160): the own checks in order, and then the claim with the clear-sequence flag; nothing else of the
stream changes. -/
def Obligations.SetResponseClaims : Prop :=
  ∀ (s : State) (c : CellHdr) (f : ReqFields), s.TakesRequest c f → f.length = 0 →
    let state := f.value.toNat % 256
    let clear := f.value.toNat / 256
    (f.target = 0 ∨ 31 < f.target.toNat ∨ state = 0 ∨ 3 < state ∨ 1 < clear →
      exec (.setResponse c f) s = .next (s.resulted c .setResponse f .range)) ∧
    ∀ (n : Fin 32) (r : Response), n ≠ 0 → f.target.toNat = n.val →
      state = (match r with | .opened => 1 | .hold => 2 | .halt => 3) → clear ≤ 1 →
      ((s.stream n).entry.enabled = false ∨ (r = .opened ∧ s.trunk.node ≠ .running) →
        exec (.setResponse c f) s = .next (s.resulted c .setResponse f .wrongState)) ∧
      ((s.stream n).entry.enabled = true → (r = .opened → s.trunk.node = .running) →
        exec (.setResponse c f) s = .next ((s.resulted c .setResponse f .done).withStream n
          { s.stream n with response := r, seqBit := if clear = 1 then false else (s.stream n).seqBit }))

/-- RESET-STREAM (R84, R161): the own checks, and then the record gone, sequence bit and burst progress 0, the sides discarded, the
key revoked and an UP stream granted again by the ports (R129, R130); the response state, served flag and counters kept. A REVOKE
of the key joins the control-frame queue when the link is UP, and for an UP stream a GRANT of all its sides behind it; on a link
that is not UP the counts alone change. The exchange waits EXECUTING when a side is marked, and ends DONE when none is (R42, R147). -/
def Obligations.ResetStreamEmptiesOne : Prop :=
  ∀ (s : State) (c : CellHdr) (f : ReqFields), s.TakesRequest c f → f.length = 0 →
    (f.target = 0 ∨ 31 < f.target.toNat →
      exec (.resetStream c f) s = .next (s.resulted c .resetStream f .range)) ∧
    ∀ n : Fin 32, n ≠ 0 → f.target.toNat = n.val →
      ((s.stream n).entry.enabled = false →
        exec (.resetStream c f) s = .next (s.resulted c .resetStream f .wrongState)) ∧
      ((s.stream n).entry.enabled = true →
        let st := s.stream n
        let waits := st.entry.dir = .down ∧ (st.side0.state = .draining ∨ st.side1.state = .draining)
        ∃ (u : State) (w : Stream), exec (.resetStream c f) s = .next ((u.revokeOf n).issueGrants n) ∧
          st.side0.Discarded st.entry.dir w.side0 ∧ st.side1.Discarded st.entry.dir w.side1 ∧
          w = { st with packet := none, seqBit := false, burst := 0, side0 := w.side0, side1 := w.side1,
                        order := st.order.filter (fun k => (w.side k).state != .free) } ∧
          u = { s.resulted c .resetStream f .done with
              mgmt := { s.mgmt.resulted .resetStream f .done with
                exchange := if waits then .executing else .result } }.withStream n w ∧
          ∀ k ∈ st.entry.key?,
            let br := s.branch k.branch
            let cleared := { w with queued := 0, inFlight := 0, delivered := 0, credits := 0 }
            (br.link ≠ .up → (u.revokeOf n).issueGrants n = u.withStream n cleared) ∧
            (br.link = .up → br.tx ≠ .idle → (u.revokeOf n).issueGrants n =
              if st.entry.dir = .up then
                (u.withStream n { cleared with queued := st.entry.sideCount }).withBranch k.branch
                  { br with queue := queueGrant (queueRevoke br.queue k.channel .up) k.channel st.entry.sideCount }
              else (u.withStream n cleared).withBranch k.branch
                { br with queue := queueRevoke br.queue k.channel .down }))

/-- BRANCH-CONTROL that leaves no link from UP (R124, R163): ENABLE, DISABLE and RETRAIN in each other link state, with DONE; a
target above 5 or a value that names no action gives RANGE (R163, R178). -/
def Obligations.BranchControlActs : Prop :=
  (∀ (s : State) (c : CellHdr) (f : ReqFields) (b : Fin 6), s.TakesRequest c f → f.length = 0 →
    f.target.toNat = b.val →
    let br := s.branch b
    let done := s.resulted c .branchControl f .done
    (f.value = 1 → br.link = .disabled → exec (.branchEnable c f) s =
      .next (done.withBranch b { br with link := if br.line = .present then .training else .down, aligns := 0,
                                         tx := .aligning })) ∧
    (f.value = 1 → br.link ≠ .disabled → exec (.branchEnable c f) s = .next done) ∧
    (f.value = 2 → br.link = .down ∨ br.link = .training → exec (.branchDisable c f) s =
      .next (done.withBranch b { br with link := .disabled, aligns := 0, tx := .silent })) ∧
    (f.value = 2 → br.link = .disabled → exec (.branchDisable c f) s = .next done) ∧
    (f.value = 3 → br.link = .training → exec (.branchRetrain c f) s =
      .next (done.withBranch b { br with aligns := 0 })) ∧
    (f.value = 3 → br.link = .down ∨ br.link = .disabled → exec (.branchRetrain c f) s = .next done)) ∧
  ∀ (s : State) (c : CellHdr) (f : ReqFields), s.TakesRequest c f → f.length = 0 →
    5 < f.target.toNat ∨ f.value = 0 ∨ 3 < f.value.toNat →
    exec (.branchControl c f) s = .next (s.resulted c .branchControl f .range)

/-- CLEAR-COUNTERS sets every counter of the group that its target names to 0 and no other (R168, R175); a target that names no
group gives RANGE. SET-EVENT-MASK with a position that names no kind gives RANGE, else the mask is replaced and the records
stay (R167). -/
def Obligations.ClearCountersAndSetEventMask : Prop :=
  ∀ (s : State) (c : CellHdr) (f : ReqFields), s.TakesRequest c f → f.length = 0 →
    let done := s.resulted c .clearCounters f .done
    let target := f.target.toNat
    (∀ n : Fin 32, n ≠ 0 → target = n.val → exec (.clearCounters c f) s =
      .next (done.withStream n { s.stream n with counters := StreamCounters.zero })) ∧
    (∀ b : Fin 6, target = 256 + b.val → exec (.clearCounters c f) s =
      .next (done.withBranch b { s.branch b with counters := BranchCounters.zero })) ∧
    (target = 512 → exec (.clearCounters c f) s =
      .next { done with trunkCtr := { badCheck := 0, unknownKind := 0, disabled := 0, strayAck := 0 } }) ∧
    (target = 768 → exec (.clearCounters c f) s =
      .next { done with timebase := { s.timebase with markers := 0, interpolated := 0 } }) ∧
    (target = 0 ∨ (31 < target ∧ target < 256) ∨ (261 < target ∧ target ≠ 512 ∧ target ≠ 768) →
      exec (.clearCounters c f) s = .next (s.resulted c .clearCounters f .range)) ∧
    ((∃ j < 32, f.value.getLsbD j = true ∧ (j = 0 ∨ 16 < j)) →
      exec (.setEventMask c f) s = .next (s.resulted c .setEventMask f .range)) ∧
    ((∀ j < 32, f.value.getLsbD j = true → 1 ≤ j ∧ j ≤ 16) → exec (.setEventMask c f) s =
      .next { s.resulted c .setEventMask f .done with events := { s.events with mask := f.value } })

/-- WRITE-STREAM in ADDRESSED or RUNNING opens its OUT data stage and takes no effect yet (R142, R159). A PUT in DATA-OUT that
does not complete the data (R143): a repeat is acknowledged and discarded, and the bytes of any other are appended to the
management buffer. -/
def Obligations.OutDataIsGathered : Prop :=
  (∀ (s : State) (c : CellHdr) (f : ReqFields), s.TakesRequest c f → f.length = 16 →
    s.trunk.node = .addressed ∨ s.trunk.node = .running →
    exec (.writeStream c f) s = .next { s.withAnswer c .ack c.seq [] with
      mgmt := { exchange := .dataOut, header := some { code := 0x06#8, fields := some f }, buffer := s.mgmt.buffer,
                outCount := 0, snapLen := 0, snapOff := 0, seqBit := true, response := .opened, packet := none,
                result := none, deferred := none } }) ∧
  ∀ (s : State) (c : CellHdr) (p : List Byte), s.Takes c → c.stream = 0 → s.mgmt.exchange = .dataOut →
    (c.seq ≠ s.mgmt.seqBit → exec (.put c p) s = .next (s.withAnswer c .ack c.seq [])) ∧
    (c.seq = s.mgmt.seqBit → p.length ≤ 32 → s.mgmt.outCount + p.length < s.mgmt.declared →
      s.mgmt.buffer.wf Config.bufferBytes = true → s.mgmt.declared ≤ 64 →
      ∃ t : State, exec (.put c p) s = .next t ∧
        t.mgmt = { s.mgmt with buffer := t.mgmt.buffer, outCount := s.mgmt.outCount + p.length,
                               seqBit := !s.mgmt.seqBit } ∧
        (∀ a, t.mgmt.buffer.read a = if s.mgmt.outCount ≤ a ∧ a < s.mgmt.outCount + p.length
          then p.getD (a - s.mgmt.outCount) 0 else s.mgmt.buffer.read a) ∧
        t = { s.withAnswer c .ack c.seq [] with mgmt := t.mgmt })

/-- The PUT that completes the entry of a WRITE-STREAM commits it (R10, R144): it is answered ACK, and the result is the code of the
first of RANGE, GEOMETRY, STREAM-ACTIVE, OVERLAP and ROUTE-CLASH that fails, with nothing of the table changed. RANGE is the table
of R1 with R3, R11 and R178, GEOMETRY that of R12, and regions overlap when they share a block (R7, R14). -/
def Obligations.WriteStreamRefusedWhole : Prop :=
  (∀ (s : State) (c : CellHdr) (p : List Byte) (f : ReqFields), s.Takes c → c.stream = 0 →
    s.mgmt.exchange = .dataOut → s.mgmt.header = some { code := 0x06#8, fields := some f } → f.length = 16 →
    c.seq = s.mgmt.seqBit → p.length ≤ 32 → s.mgmt.outCount + p.length = 16 →
    let e := Entry.ofBytes ((s.mgmt.buffer.writeBytes Config.bufferBytes s.mgmt.outCount p).readBytes 0 16)
    let refused (code : ResultCode) : Prop :=
      exec (.put c p) s = .next { s.withAnswer c .ack c.seq [] with
        mgmt := { s.mgmt with
          exchange := .result, buffer := s.mgmt.buffer.writeBytes Config.bufferBytes s.mgmt.outCount p,
          outCount := 16, seqBit := !s.mgmt.seqBit, result := some { code := code, detail := 0, tag := f.tag } } }
    let active (n : Fin 32) : Prop := (s.stream n).entry.enabled = true ∧ ((s.stream n).response = .opened ∨
      (s.stream n).packet ≠ none ∨ (s.stream n).side0.state = .draining ∨ (s.stream n).side1.state = .draining)
    (f.target = 0 ∨ 31 < f.target.toNat → refused .range) ∧
    ∀ n : Fin 32, n ≠ 0 → f.target.toNat = n.val →
      (e.enabled = true → e.rangeOk = false → refused .range) ∧
      (e.enabled = true → e.rangeOk = true → e.geometryOk = false → refused .geometry) ∧
      ((e.enabled = true → e.rangeOk = true ∧ e.geometryOk = true) → active n → refused .streamActive) ∧
      (e.enabled = true → e.rangeOk = true → e.geometryOk = true → ¬ active n →
        (∃ m, m ≠ 0 ∧ m ≠ n ∧ (s.stream m).entry.enabled = true ∧ e.overlaps (s.stream m).entry = true) →
        refused .overlap) ∧
      (e.enabled = true → e.rangeOk = true → e.geometryOk = true → ¬ active n →
        (∀ m, m ≠ 0 → m ≠ n → (s.stream m).entry.enabled = true → e.overlaps (s.stream m).entry = false) →
        (∃ m, m ≠ 0 ∧ m ≠ n ∧ (s.stream m).entry.enabled = true ∧ (s.stream m).entry.branch = e.branch ∧
          (s.stream m).entry.channel = e.channel ∧ (s.stream m).entry.dir = e.dir) → refused .routeClash)) ∧
  (∀ e : Entry, e.rangeOk = true ↔
    e.spare0 = false ∧ e.spare14 = 0 ∧ e.branch.toNat ≤ 5 ∧ e.channel.toNat ≤ 7 ∧ e.periodExp.toNat ≤ 5 ∧
    e.frameLimit.toNat ∈ [16, 32, 64, 128, 256] ∧ e.baseBlock.toNat ≤ 1023 ∧ 1 ≤ e.sideSize.toNat ∧
    e.sideSize.toNat ≤ 64 ∧ e.phase.toNat < 2 ^ e.periodExp.toNat ∧
    (e.cls = .flow → e.maxPayload.toNat ∈ [32, 64, 128, 256, 512, 1024] ∧ e.periodExp = 0 ∧ e.phase = 0) ∧
    (e.cls = .cyclic → 1 ≤ e.maxPayload.toNat ∧ e.maxPayload.toNat ≤ 1024) ∧
    (e.staleFlush = true → e.Is .cyclic .up) ∧ (e.burstCount ≠ 0 ∨ e.holdAtEnd = true → e.Is .flow .down) ∧
    (e.continuous = true → ¬ e.Is .cyclic .down) ∧ (e.holdAtEnd = true → e.burstCount ≠ 0)) ∧
  (∀ e : Entry,
    let capacity := e.sideSize.toNat * 32
    let sides := if e.twoSides = true then 2 else 1
    e.geometryOk = true ↔
      e.baseBlock.toNat + e.sideSize.toNat * sides ≤ 1024 ∧
      (e.Is .flow .down → e.maxPayload.toNat ≤ capacity ∧
        (e.continuous = true → capacity % e.maxPayload.toNat = 0)) ∧
      (e.cls = .cyclic → capacity ≤ e.maxPayload.toNat) ∧
      (e.Is .cyclic .down → e.maxPayload.toNat ≤ capacity) ∧
      (e.dir = .up → e.frameLimit.toNat ≤ capacity)) ∧
  ∀ a b : Entry, 1 ≤ a.sideSize.toNat → 1 ≤ b.sideSize.toNat →
    let holds (e : Entry) (block : Nat) : Prop := e.baseBlock.toNat ≤ block ∧
      block < e.baseBlock.toNat + e.sideSize.toNat * (if e.twoSides = true then 2 else 1)
    (a.overlaps b = true ↔ ∃ block, holds a block ∧ holds b block)

/-- The PUT that completes an entry that passes every check applies it whole (R16 to R18): the new fields, HOLD and cleared live
fields, FREE sides, no record, the counters kept; the old key maps to none and the new key to the stream (R8). Then the port of
the old key revokes it, and that of the new entry issues its grants (R18, R129, R130). -/
def Obligations.WriteStreamAppliesWhole : Prop :=
  ∀ (s : State) (c : CellHdr) (p : List Byte) (f : ReqFields) (n : Fin 32), s.Takes c → c.stream = 0 →
    s.mgmt.exchange = .dataOut → s.mgmt.header = some { code := 0x06#8, fields := some f } → f.length = 16 →
    c.seq = s.mgmt.seqBit → p.length ≤ 32 → s.mgmt.outCount + p.length = 16 → n ≠ 0 → f.target.toNat = n.val →
    let e := Entry.ofBytes ((s.mgmt.buffer.writeBytes Config.bufferBytes s.mgmt.outCount p).readBytes 0 16)
    let old := s.stream n
    (e.enabled = true → e.rangeOk = true ∧ e.geometryOk = true) →
    old.entry.enabled = false ∨ (old.response ≠ .opened ∧ old.packet = none ∧ old.side0.state ≠ .draining ∧
      old.side1.state ≠ .draining) →
    (e.enabled = true → ∀ m, m ≠ 0 → m ≠ n → (s.stream m).entry.enabled = true →
      e.overlaps (s.stream m).entry = false ∧ e.sameKey (s.stream m).entry = false) →
    ∃ u : State,
      (∀ k, old.entry.enabled = true → old.entry.key? = some k →
        exec (.put c p) s = .next ((u.revokeKey n k).issueGrants n)) ∧
      (old.entry.enabled = false ∨ old.entry.key? = none → exec (.put c p) s = .next (u.issueGrants n)) ∧
      u.stream n = { entry := e, response := .hold, seqBit := false, burst := 0, side0 := Side.empty,
                     side1 := Side.empty, order := [], packet := none, served := false, queued := 0, inFlight := 0,
                     delivered := 0, credits := 0, counters := old.counters } ∧
      (∀ m, m ≠ n → u.stream m = s.stream m) ∧
      (∀ k, u.route k =
        if e.enabled = true ∧ e.key? = some k then some n
        else if old.entry.enabled = true ∧ old.entry.key? = some k then none
        else s.route k) ∧
      u.mgmt.exchange = .result ∧ u.mgmt.result = some { code := .done, detail := 0, tag := f.tag } ∧
      u.trunk = { s.trunk with waiting := some (s.answerTo c .ack c.seq []) } ∧
      u = { s with trunk := u.trunk, streams := u.streams, routes := u.routes, mgmt := u.mgmt }

/-- The 16-byte layout of a stream entry is that of 11.5, and it loses nothing: an entry read back from its bytes is the
entry. -/
def Obligations.EntryBytesRoundTrip : Prop :=
  (∀ e : Entry, Entry.ofBytes e.bytes = e) ∧ ∀ bs : List Byte, bs.length = 16 → (Entry.ofBytes bs).bytes = bs ∧
  ∀ e : Entry, ∃ b : Byte,
    e.bytes = [b, e.branch, e.channel, e.periodExp, e.maxPayload.extractLsb' 8 8, e.maxPayload.extractLsb' 0 8,
      e.frameLimit.extractLsb' 8 8, e.frameLimit.extractLsb' 0 8, e.baseBlock.extractLsb' 8 8,
      e.baseBlock.extractLsb' 0 8, e.sideSize, e.phase, e.burstCount.extractLsb' 8 8, e.burstCount.extractLsb' 0 8,
      e.spare14.extractLsb' 8 8, e.spare14.extractLsb' 0 8] ∧
    b.getLsbD 7 = e.enabled ∧ b.getLsbD 6 = decide (e.dir = .down) ∧ b.getLsbD 5 = decide (e.cls = .cyclic) ∧
    b.getLsbD 4 = e.continuous ∧ b.getLsbD 3 = e.staleFlush ∧ b.getLsbD 2 = e.holdAtEnd ∧ b.getLsbD 1 = e.twoSides ∧
    b.getLsbD 0 = e.spare0

/-- The IN data stage (R145, R146): a FETCH sends the outstanding packet again or cuts the next of at most 32 bytes; the ACK
completes it, and ends the stage after an end packet or when the snapshot is drained and no end packet is due. A new packet is cut
while bytes are left, or as the end packet of a snapshot whose length is a multiple of 32 (R145). -/
def Obligations.InDataStage : Prop :=
  ∀ (s : State) (c : CellHdr), s.Takes c → c.stream = 0 → s.mgmt.exchange = .dataIn →
    let m := s.mgmt
    (∀ off len seq, m.packet = some (.inData off len seq) →
      exec (.fetch c) s = .next (s.withAnswer c .data seq (m.buffer.readBytes off len)) ∧
      exec (.ack c) s = .next { s with mgmt := { m with
        packet := none, seqBit := !m.seqBit, snapOff := m.snapOff + len,
        exchange := if len = 0 ∨ (m.snapOff + len = m.snapLen ∧ m.snapLen % 32 ≠ 0) then .result else .dataIn } }) ∧
    (m.packet = none →
      let len := min 32 (m.snapLen - m.snapOff)
      (m.snapOff < m.snapLen ∨ m.snapLen % 32 = 0 → exec (.fetch c) s =
        .next { s.withAnswer c .data m.seqBit (m.buffer.readBytes m.snapOff len) with
          mgmt := { m with packet := some (.inData m.snapOff len m.seqBit) } }) ∧
      exec (.ack c) s = .next { s with trunkCtr := { s.trunkCtr with strayAck := satInc s.trunkCtr.strayAck } })

/-- The RESULT stage (R148, R149): each FETCH sends the same RESULT; the ACK of a RESULT that has been sent ends the exchange and
carries out the deferred action: the address of R53, or the removal of R174. That the result and the header stay held in IDLE after
the ACK is the model's reading (log entry 15). -/
def Obligations.ResultStage : Prop :=
  ∀ (s : State) (c : CellHdr) (r : MgmtResult), s.Takes c → c.stream = 0 → s.mgmt.exchange = .result →
    s.mgmt.result = some r →
    let ended := { s.mgmt with exchange := .idle, packet := none, deferred := none }
    exec (.fetch c) s = .next { s.withAnswer c .result s.mgmt.seqBit
        [r.code.byte, r.detail, r.tag.extractLsb' 8 8, r.tag.extractLsb' 0 8] with
      mgmt := { s.mgmt with packet := some .result } } ∧
    (s.mgmt.packet = none → exec (.ack c) s =
      .next { s with trunkCtr := { s.trunkCtr with strayAck := satInc s.trunkCtr.strayAck } }) ∧
    (s.mgmt.packet = some .result →
      (s.mgmt.deferred = none → exec (.ack c) s = .next { s with mgmt := ended }) ∧
      (∀ a, s.mgmt.deferred = some (.address a) → s.trunk.node = .listening ∨ s.trunk.node = .addressed →
        exec (.ack c) s = .next { s with mgmt := ended, trunk :=
          { s.trunk with node := if a = 0 then .listening else .addressed, addr := a } }) ∧
      ∀ n v, s.mgmt.deferred = some (.removal n v) → exec (.ack c) s = .next { s with mgmt := ended, events :=
        { s.events with records := s.events.records.drop n,
                        lost := BitVec.ofNat 8 (s.events.lost.toNat - v.toNat) } })

/-- A cell that the present stage cannot take is a sequence error (R150): HALT with its SEQ, FAILED, stream 0 HALT, the data, the
packet, the result and the deferred action dropped, and MGMT-SEQUENCE with the request code. In IDLE and FAILED a PUT, FETCH or
ASK for stream 0 is answered HALT with its SEQ and changes nothing; an ACK is stray there, in DATA-OUT and in EXECUTING (R151);
a FETCH in EXECUTING is answered WAIT (R147). That the header stays held in FAILED is the model's reading (log entry 15). -/
def Obligations.CellsOutOfPlaceOnStreamZero : Prop :=
  (∀ (s : State) (c : CellHdr) (p : List Byte) (i : Instr), s.Takes c → c.stream = 0 →
    (i = .put c p ∧ s.mgmt.exchange = .dataOut ∧ c.seq = s.mgmt.seqBit ∧
        (32 < p.length ∨ s.mgmt.declared < s.mgmt.outCount + p.length)) ∨
      (i = .fetch c ∧ s.mgmt.exchange = .dataOut) ∨ (i = .ask c ∧ s.mgmt.exchange = .dataOut) ∨
      ((i = .put c p ∨ i = .ask c) ∧
        (s.mgmt.exchange = .dataIn ∨ s.mgmt.exchange = .executing ∨ s.mgmt.exchange = .result)) →
    exec i s = .next { (s.withPlainEvent .mgmtSequence s.mgmt.headerCode).withAnswer c .halt c.seq [] with
      mgmt := { s.mgmt with exchange := .failed, response := .halt, outCount := 0, snapLen := 0, snapOff := 0,
                            packet := none, result := none, deferred := none } }) ∧
  ∀ (s : State) (c : CellHdr) (p : List Byte), s.Takes c → c.stream = 0 →
    (s.mgmt.exchange = .idle ∨ s.mgmt.exchange = .failed → ∀ i, i = .put c p ∨ i = .fetch c ∨ i = .ask c →
      exec i s = .next (s.withAnswer c .halt c.seq [])) ∧
    (s.mgmt.exchange = .idle ∨ s.mgmt.exchange = .failed ∨ s.mgmt.exchange = .dataOut ∨
        s.mgmt.exchange = .executing →
      exec (.ack c) s = .next { s with trunkCtr := { s.trunkCtr with strayAck := satInc s.trunkCtr.strayAck } }) ∧
    (s.mgmt.exchange = .executing → exec (.fetch c) s = .next (s.withAnswer c .wait s.mgmt.seqBit []))

/-! ### The Event Queue -/

/-- The Event Queue takes an offer whole (R171): forgotten when masked out, appended under the next serial with the cycle count as
the timebase holds it when there is room, else lost and counted up to 255. -/
def Obligations.OffersTakenWhole : Prop :=
  ∀ (s : State) (kind : EventKind) (st br d : Byte),
    let q := s.events
    (q.mask.getLsbD kind.code = false → s.offer kind st br d = s) ∧
    (q.mask.getLsbD kind.code = true → q.records.length < 32 → s.offer kind st br d =
      { s with events := { q with serial := q.serial + 1, records := q.records ++ [s.eventOf kind st br d] } }) ∧
    (q.mask.getLsbD kind.code = true → 32 ≤ q.records.length → s.offer kind st br d =
      { s with events := { q with serial := q.serial + 1, lost := if q.lost = 255 then 255 else q.lost + 1 } })

/-! ### The lines -/

/-- A receiver that runs the division of R177 over the bytes and their check obtains 0 exactly when the check is good. Every
cell and frame that the part sends has the header of 11.1 or 11.2 with its bits shown as 0 at 0, the length of its payload, the
payload, and that check (R134, R177). That an ACK answer carries the kind code of ACK is the model's reading (log entry 12). -/
def Obligations.CheckResidueIsZero : Prop :=
  (∀ (bs : List Byte) (hi lo : Byte), crc (bs ++ [hi, lo]) = 0 ↔ [hi, lo] = halfBytes (crc bs)) ∧
  (∀ u : UpCell, crc u.bytes = 0 ∧ ∃ b0 hi lo c0 c1 : Byte,
    u.bytes = [b0, u.answer.addr.setWidth 8, u.answer.stream, hi, lo] ++ u.answer.payload ++ [c0, c1] ∧
    b0.extractLsb' 4 4 = (match u.answer.kind with
      | .ack => 6 | .data => 8 | .full => 9 | .wait => 10 | .halt => 11 | .empty => 12 | .result => 13) ∧
    b0.getLsbD 3 = false ∧ b0.getLsbD 2 = false ∧ b0.getLsbD 1 = u.answer.seq ∧ b0.getLsbD 0 = u.attn ∧
    hi ++ lo = BitVec.ofNat 16 u.answer.payload.length) ∧
  ∀ f : TxFrame, crc f.bytes = 0 ∧
    let ch : Fin 8 := match f with | .grant c _ _ => c | .revoke c _ => c | .data _ c _ _ _ => c
    let code : BitVec 4 := match f with | .grant _ _ _ => 3 | .revoke _ _ => 5 | .data last _ _ _ _ => if last then 2 else 1
    let payload : List Byte := match f with
      | .grant _ count capacity => [BitVec.ofNat 8 count, BitVec.ofNat 8 (capacity / 256), BitVec.ofNat 8 capacity]
      | .revoke _ dir => [if dir = .up then 0 else 1]
      | .data _ _ _ _ p => p
    ∃ b0 hi lo c0 c1 : Byte, f.bytes = [b0, hi, lo] ++ payload ++ [c0, c1] ∧ b0.extractLsb' 4 4 = code ∧
      b0.getLsbD 3 = false ∧ (b0.extractLsb' 0 3).toNat = ch.val ∧ hi ++ lo = BitVec.ofNat 16 payload.length

/-- Decode and encode agree (11.1 to 11.4, R177, R178): every well-formed command that is one cell or frame is read back from its
bytes, with every operand at every value that the encoding admits; a CYCLE keeps the moment at which it is delivered. -/
def Obligations.LineCommandsRoundTrip : Prop :=
  ∀ (i : Instr) (bs : List Byte), i.wf = true → encode i = some bs →
    match i with
    | .cycle _ _ time => cellCommand time bs = i
    | .align b => frameCommand b bs = i
    | .data b _ _ => frameCommand b bs = i
    | .dataLast b _ _ => frameCommand b bs = i
    | .credit b _ _ => frameCommand b bs = i
    | _ => ∀ time, cellCommand time bs = i

/-! ### Laws that every step keeps -/

/-- The power-on state keeps every law of the part. -/
def Obligations.ResetKeepsEveryLaw : Prop := State.reset.Law

/-- The byte stores keep their canonical form and size (R24, R139), no stream ever holds more than 15 credits (R128) and the event
queue never more than 32 records (R170), and the exchange keeps the fields of its state (R139, R143 to R151), after every step. -/
def Obligations.StepsKeepStoresBoundsAndExchange : Prop :=
  ∀ s t : State, step s = .next t →
    (s.StoresLaw → t.StoresLaw) ∧ (s.BoundsLaw → t.BoundsLaw) ∧ (s.mgmt.Law → t.mgmt.Law)

/-- The node address is 0 exactly in LISTENING and DETACHED (R50), and no stream is OPEN while the node is not RUNNING (R19), after
every step. -/
def Obligations.StepsKeepTheNodeLaw : Prop :=
  ∀ s t : State, s.NodeLaw → step s = .next t → t.NodeLaw

/-- Regions stay disjoint and inside the pool (R14), keys stay distinct (R15), the route map holds exactly the keys of the enabled
streams (R8), and entry 0 stays fixed (R2), after every step. -/
def Obligations.StepsKeepTheTableLaw : Prop :=
  ∀ s t : State, s.TableLaw → step s = .next t → t.TableLaw

/-- The timebase keeps the fields of its state (R91) and never coasts past the limit (R100), after every step. -/
def Obligations.StepsKeepTheTimebaseLaw : Prop :=
  ∀ s t : State, s.timebase.Law → step s = .next t → t.timebase.Law

/-- Every law of the part together, after every step: among them the side laws (R26, R27), the grant law (R129), the queue law (R132)
and the exchange laws (R139, R147, R174). -/
def Obligations.StepsKeepEveryLaw : Prop :=
  ∀ s t : State, s.Law → step s = .next t → t.Law
end

