-- ==== Sys2Proof/Laws/Memory.lean ====
section
/-! SUPPORT. The laws of the byte stores: every operation keeps the canonical form, a read after a write gives the value
written, and a write leaves every other byte alone. -/

namespace Sys2Proof.Machine

/-- The canonical form from a higher address is the canonical form from a lower one. -/
theorem Memory.wfFrom_mono {size lo lo' : Nat} {m : Memory} (h : Memory.wfFrom size lo m = true) (hl : lo' ≤ lo) :
    Memory.wfFrom size lo' m = true := by
  cases m with
  | nil => rfl
  | cons c m =>
    simp only [Memory.wfFrom, Bool.and_eq_true, decide_eq_true_eq] at h ⊢
    exact ⟨⟨⟨by omega, h.1.1.2⟩, h.1.2⟩, h.2⟩

/-- A write inside the store keeps the canonical form from any address at or below it. -/
theorem Memory.write_wfFrom {size a : Nat} (b : Byte) (ha : a < size) :
    ∀ {m : Memory} {lo : Nat}, Memory.wfFrom size lo m = true → lo ≤ a →
      Memory.wfFrom size lo (m.write a b) = true := by
  intro m
  induction m with
  | nil =>
    intro lo _ hlo
    simp only [Memory.write]
    split
    · rfl
    · next hb => simp [Memory.wfFrom, hlo, ha, hb]
  | cons c m ih =>
    obtain ⟨k, v⟩ := c
    intro lo h hlo
    have hh := h
    simp only [Memory.wfFrom, Bool.and_eq_true, decide_eq_true_eq] at h
    obtain ⟨⟨⟨h1, h2⟩, h3⟩, h4⟩ := h
    simp only [Memory.write]
    split
    · next hlt =>
      split
      · exact hh
      · next hb => simp [Memory.wfFrom, hlo, ha, hb, h2, h4, (bne_iff_ne.mp h3)]; omega
    · next hlt =>
      split
      · next heq =>
        subst heq
        split
        · exact Memory.wfFrom_mono h4 (by omega)
        · next hb => simp [Memory.wfFrom, hlo, ha, hb, h4]
      · next hne =>
        have := ih h4 (by omega)
        simp [Memory.wfFrom, h1, h2, (bne_iff_ne.mp h3), this]

/-- A write inside the store keeps the canonical form. -/
theorem Memory.write_wf {size a : Nat} {m : Memory} (b : Byte) (h : m.wf size = true) (ha : a < size) :
    (m.write a b).wf size = true := Memory.write_wfFrom b ha h (Nat.zero_le a)

/-- Every run of bytes written keeps the canonical form: a byte past the end is not written. -/
theorem Memory.writeBytes_wf {size : Nat} (bs : List Byte) :
    ∀ {m : Memory} (a : Nat), m.wf size = true → (m.writeBytes size a bs).wf size = true := by
  induction bs with
  | nil => intro m a h; exact h
  | cons b bs ih =>
    intro m a h
    simp only [Memory.writeBytes]
    apply ih
    split
    · next ha => exact Memory.write_wf b h ha
    · exact h

/-- An address below those listed reads as an unlisted one. -/
theorem Memory.read_below {size a : Nat} :
    ∀ {m : Memory} {lo : Nat}, Memory.wfFrom size lo m = true → a < lo → m.read a = Memory.unlisted := by
  intro m
  induction m with
  | nil => intros; rfl
  | cons c m ih =>
    obtain ⟨k, v⟩ := c
    intro lo h hlt
    simp only [Memory.wfFrom, Bool.and_eq_true, decide_eq_true_eq] at h
    have hk : a ≠ k := by omega
    simp only [Memory.read, hk, if_false]
    exact ih h.2 (by omega)

/-- A read after a write: the byte written at its address, every other byte as before. -/
theorem Memory.read_write_from {size : Nat} (a : Nat) (b : Byte) (c : Nat) :
    ∀ {m : Memory} {lo : Nat}, Memory.wfFrom size lo m = true →
      (m.write a b).read c = if c = a then b else m.read c := by
  intro m
  induction m with
  | nil =>
    intro lo _
    simp only [Memory.write]
    split
    · next hb => simp only [Memory.read]; split <;> simp_all
    · simp only [Memory.read]
  | cons e m ih =>
    obtain ⟨k, v⟩ := e
    intro lo h
    have hh := h
    simp only [Memory.wfFrom, Bool.and_eq_true, decide_eq_true_eq] at h
    obtain ⟨⟨⟨h1, h2⟩, h3⟩, h4⟩ := h
    simp only [Memory.write]
    split
    · next hlt =>
      have hbelow : Memory.read ((k, v) :: m) a = Memory.unlisted := by
        have hk : a ≠ k := by omega
        simp only [Memory.read, hk, if_false]
        exact Memory.read_below h4 (by omega)
      split
      · next hb =>
        by_cases hc : c = a
        · subst hc; rw [if_pos rfl, hbelow, hb]
        · rw [if_neg hc]
      · by_cases hc : c = a
        · subst hc; simp [Memory.read]
        · simp only [Memory.read, hc, if_false]
    · next hlt =>
      split
      · next heq =>
        subst heq
        split
        · next hb =>
          by_cases hc : c = a
          · subst hc; rw [if_pos rfl, hb]; exact Memory.read_below h4 (by omega)
          · simp only [Memory.read, hc, if_false]
        · by_cases hc : c = a
          · subst hc; simp [Memory.read]
          · simp only [Memory.read, hc, if_false]
      · next hne =>
        by_cases hck : c = k
        · have : c ≠ a := by omega
          simp [Memory.read, hck, show k ≠ a by omega]
        · simp only [Memory.read, hck, if_false]
          exact ih h4

/-- A read after a write in a canonical store. -/
theorem Memory.read_write {size : Nat} {m : Memory} (h : m.wf size = true) (a : Nat) (b : Byte) (c : Nat) :
    (m.write a b).read c = if c = a then b else m.read c := Memory.read_write_from a b c h

/-- A read after a run of bytes is written within the store: the run at its addresses, every other byte as before. -/
theorem Memory.read_writeBytes {size : Nat} (bs : List Byte) :
    ∀ {m : Memory} (a : Nat), m.wf size = true → a + bs.length ≤ size → ∀ c,
      (m.writeBytes size a bs).read c = if a ≤ c ∧ c < a + bs.length then bs.getD (c - a) 0 else m.read c := by
  induction bs with
  | nil => intro m a _ _ c; rw [if_neg (by simp)]; rfl
  | cons b bs ih =>
    intro m a h hs c
    simp only [List.length_cons] at hs
    have ha : a < size := by omega
    simp only [Memory.writeBytes, ha, if_true]
    rw [ih (a + 1) (Memory.write_wf b h ha) (by omega) c, Memory.read_write h]
    simp only [List.length_cons]
    by_cases hc : c = a
    · subst hc; simp
    · by_cases hin : a + 1 ≤ c ∧ c < a + 1 + bs.length
      · rw [if_pos hin, if_pos (by omega)]
        obtain ⟨d, rfl⟩ := Nat.exists_eq_add_of_le hin.1
        rw [show a + 1 + d - a = d + 1 by omega, show a + 1 + d - (a + 1) = d by omega]
        simp
      · rw [if_neg hin, if_neg hc, if_neg (by omega)]

/-- A read of `n` bytes gives `n` bytes. -/
@[simp] theorem Memory.readBytes_length (m : Memory) (n : Nat) : ∀ a, (m.readBytes a n).length = n := by
  induction n with
  | zero => intro a; rfl
  | succ n ih => intro a; simp [Memory.readBytes, ih]

/-- The bytes that a read of `n` bytes gives, one by one. -/
theorem Memory.readBytes_getElem (m : Memory) (n : Nat) :
    ∀ (a i : Nat) (h : i < (m.readBytes a n).length), (m.readBytes a n)[i] = m.read (a + i) := by
  induction n with
  | zero => intro a i h; simp [Memory.readBytes] at h
  | succ n ih =>
    intro a i h
    cases i with
    | zero => rfl
    | succ i =>
      have := ih (a + 1) i (by simpa [Memory.readBytes] using h)
      simp only [Memory.readBytes, List.getElem_cons_succ, this]
      congr 1
      omega

/-- What was written is read back. -/
theorem Memory.readBytes_writeBytes {size : Nat} {m : Memory} (a : Nat) (bs : List Byte) (h : m.wf size = true)
    (hs : a + bs.length ≤ size) : (m.writeBytes size a bs).readBytes a bs.length = bs := by
  apply List.ext_getElem (by simp)
  intro i h1 h2
  rw [Memory.readBytes_getElem, Memory.read_writeBytes bs a h hs, if_pos (by omega)]
  simp [List.getD, h2]

/-- The stores of the power-on state are canonical. -/
theorem State.reset_stores_wf :
    State.reset.pool.wf Config.poolBytes = true ∧ State.reset.mgmt.buffer.wf Config.bufferBytes = true := ⟨rfl, rfl⟩

end Sys2Proof.Machine
end

