-- ==== Sys2Proof/Laws/State.lean ====
section
/-! SUPPORT. The small lemmas of the state's updates: what each leaves of each field and of each observer. -/

namespace Sys2Proof.Machine

variable (s : State)

/-! ### `State.mapStream` -/

@[simp] theorem State.mapStream_trunk (n : Fin 32) (f : Stream → Stream) : (s.mapStream n f).trunk = s.trunk := rfl
@[simp] theorem State.mapStream_streams (n : Fin 32) (f : Stream → Stream) :
    (s.mapStream n f).streams = s.streams.set n (f s.streams[n]) := rfl
@[simp] theorem State.mapStream_routes (n : Fin 32) (f : Stream → Stream) : (s.mapStream n f).routes = s.routes := rfl
@[simp] theorem State.mapStream_pool (n : Fin 32) (f : Stream → Stream) : (s.mapStream n f).pool = s.pool := rfl
@[simp] theorem State.mapStream_timebase (n : Fin 32) (f : Stream → Stream) :
    (s.mapStream n f).timebase = s.timebase := rfl
@[simp] theorem State.mapStream_branches (n : Fin 32) (f : Stream → Stream) :
    (s.mapStream n f).branches = s.branches := rfl
@[simp] theorem State.mapStream_mgmt (n : Fin 32) (f : Stream → Stream) : (s.mapStream n f).mgmt = s.mgmt := rfl
@[simp] theorem State.mapStream_events (n : Fin 32) (f : Stream → Stream) : (s.mapStream n f).events = s.events := rfl
@[simp] theorem State.mapStream_trunkCtr (n : Fin 32) (f : Stream → Stream) :
    (s.mapStream n f).trunkCtr = s.trunkCtr := rfl
@[simp] theorem State.mapStream_pending (n : Fin 32) (f : Stream → Stream) :
    (s.mapStream n f).pending = s.pending := rfl
@[simp] theorem State.mapStream_branch (n : Fin 32) (f : Stream → Stream) (b' : Fin 6) :
    (s.mapStream n f).branch b' = s.branch b' := rfl
@[simp] theorem State.mapStream_route (n : Fin 32) (f : Stream → Stream) (k' : RouteKey) :
    (s.mapStream n f).route k' = s.route k' := rfl

/-! ### `State.mapBranch` -/

@[simp] theorem State.mapBranch_trunk (b : Fin 6) (f : Branch → Branch) : (s.mapBranch b f).trunk = s.trunk := rfl
@[simp] theorem State.mapBranch_streams (b : Fin 6) (f : Branch → Branch) :
    (s.mapBranch b f).streams = s.streams := rfl
@[simp] theorem State.mapBranch_routes (b : Fin 6) (f : Branch → Branch) : (s.mapBranch b f).routes = s.routes := rfl
@[simp] theorem State.mapBranch_pool (b : Fin 6) (f : Branch → Branch) : (s.mapBranch b f).pool = s.pool := rfl
@[simp] theorem State.mapBranch_timebase (b : Fin 6) (f : Branch → Branch) :
    (s.mapBranch b f).timebase = s.timebase := rfl
@[simp] theorem State.mapBranch_branches (b : Fin 6) (f : Branch → Branch) :
    (s.mapBranch b f).branches = s.branches.set b (f s.branches[b]) := rfl
@[simp] theorem State.mapBranch_mgmt (b : Fin 6) (f : Branch → Branch) : (s.mapBranch b f).mgmt = s.mgmt := rfl
@[simp] theorem State.mapBranch_events (b : Fin 6) (f : Branch → Branch) : (s.mapBranch b f).events = s.events := rfl
@[simp] theorem State.mapBranch_trunkCtr (b : Fin 6) (f : Branch → Branch) :
    (s.mapBranch b f).trunkCtr = s.trunkCtr := rfl
@[simp] theorem State.mapBranch_pending (b : Fin 6) (f : Branch → Branch) :
    (s.mapBranch b f).pending = s.pending := rfl
@[simp] theorem State.mapBranch_stream (b : Fin 6) (f : Branch → Branch) (n' : Fin 32) :
    (s.mapBranch b f).stream n' = s.stream n' := rfl
@[simp] theorem State.mapBranch_route (b : Fin 6) (f : Branch → Branch) (k' : RouteKey) :
    (s.mapBranch b f).route k' = s.route k' := rfl

/-! ### `State.setRoute` -/

@[simp] theorem State.setRoute_trunk (k : RouteKey) (v : Option (Fin 32)) : (s.setRoute k v).trunk = s.trunk := rfl
@[simp] theorem State.setRoute_streams (k : RouteKey) (v : Option (Fin 32)) :
    (s.setRoute k v).streams = s.streams := rfl
@[simp] theorem State.setRoute_routes (k : RouteKey) (v : Option (Fin 32)) :
    (s.setRoute k v).routes = s.routes.set k.index v := rfl
@[simp] theorem State.setRoute_pool (k : RouteKey) (v : Option (Fin 32)) : (s.setRoute k v).pool = s.pool := rfl
@[simp] theorem State.setRoute_timebase (k : RouteKey) (v : Option (Fin 32)) :
    (s.setRoute k v).timebase = s.timebase := rfl
@[simp] theorem State.setRoute_branches (k : RouteKey) (v : Option (Fin 32)) :
    (s.setRoute k v).branches = s.branches := rfl
@[simp] theorem State.setRoute_mgmt (k : RouteKey) (v : Option (Fin 32)) : (s.setRoute k v).mgmt = s.mgmt := rfl
@[simp] theorem State.setRoute_events (k : RouteKey) (v : Option (Fin 32)) : (s.setRoute k v).events = s.events := rfl
@[simp] theorem State.setRoute_trunkCtr (k : RouteKey) (v : Option (Fin 32)) :
    (s.setRoute k v).trunkCtr = s.trunkCtr := rfl
@[simp] theorem State.setRoute_pending (k : RouteKey) (v : Option (Fin 32)) :
    (s.setRoute k v).pending = s.pending := rfl
@[simp] theorem State.setRoute_stream (k : RouteKey) (v : Option (Fin 32)) (n' : Fin 32) :
    (s.setRoute k v).stream n' = s.stream n' := rfl
@[simp] theorem State.setRoute_branch (k : RouteKey) (v : Option (Fin 32)) (b' : Fin 6) :
    (s.setRoute k v).branch b' = s.branch b' := rfl

/-! ### `State.mapTrunk` -/

@[simp] theorem State.mapTrunk_trunk (f : Trunk → Trunk) : (s.mapTrunk f).trunk = f s.trunk := rfl
@[simp] theorem State.mapTrunk_streams (f : Trunk → Trunk) : (s.mapTrunk f).streams = s.streams := rfl
@[simp] theorem State.mapTrunk_routes (f : Trunk → Trunk) : (s.mapTrunk f).routes = s.routes := rfl
@[simp] theorem State.mapTrunk_pool (f : Trunk → Trunk) : (s.mapTrunk f).pool = s.pool := rfl
@[simp] theorem State.mapTrunk_timebase (f : Trunk → Trunk) : (s.mapTrunk f).timebase = s.timebase := rfl
@[simp] theorem State.mapTrunk_branches (f : Trunk → Trunk) : (s.mapTrunk f).branches = s.branches := rfl
@[simp] theorem State.mapTrunk_mgmt (f : Trunk → Trunk) : (s.mapTrunk f).mgmt = s.mgmt := rfl
@[simp] theorem State.mapTrunk_events (f : Trunk → Trunk) : (s.mapTrunk f).events = s.events := rfl
@[simp] theorem State.mapTrunk_trunkCtr (f : Trunk → Trunk) : (s.mapTrunk f).trunkCtr = s.trunkCtr := rfl
@[simp] theorem State.mapTrunk_pending (f : Trunk → Trunk) : (s.mapTrunk f).pending = s.pending := rfl
@[simp] theorem State.mapTrunk_stream (f : Trunk → Trunk) (n' : Fin 32) :
    (s.mapTrunk f).stream n' = s.stream n' := rfl
@[simp] theorem State.mapTrunk_branch (f : Trunk → Trunk) (b' : Fin 6) : (s.mapTrunk f).branch b' = s.branch b' := rfl
@[simp] theorem State.mapTrunk_route (f : Trunk → Trunk) (k' : RouteKey) : (s.mapTrunk f).route k' = s.route k' := rfl

/-! ### `State.mapTimebase` -/

@[simp] theorem State.mapTimebase_trunk (f : Timebase → Timebase) : (s.mapTimebase f).trunk = s.trunk := rfl
@[simp] theorem State.mapTimebase_streams (f : Timebase → Timebase) : (s.mapTimebase f).streams = s.streams := rfl
@[simp] theorem State.mapTimebase_routes (f : Timebase → Timebase) : (s.mapTimebase f).routes = s.routes := rfl
@[simp] theorem State.mapTimebase_pool (f : Timebase → Timebase) : (s.mapTimebase f).pool = s.pool := rfl
@[simp] theorem State.mapTimebase_timebase (f : Timebase → Timebase) :
    (s.mapTimebase f).timebase = f s.timebase := rfl
@[simp] theorem State.mapTimebase_branches (f : Timebase → Timebase) : (s.mapTimebase f).branches = s.branches := rfl
@[simp] theorem State.mapTimebase_mgmt (f : Timebase → Timebase) : (s.mapTimebase f).mgmt = s.mgmt := rfl
@[simp] theorem State.mapTimebase_events (f : Timebase → Timebase) : (s.mapTimebase f).events = s.events := rfl
@[simp] theorem State.mapTimebase_trunkCtr (f : Timebase → Timebase) : (s.mapTimebase f).trunkCtr = s.trunkCtr := rfl
@[simp] theorem State.mapTimebase_pending (f : Timebase → Timebase) : (s.mapTimebase f).pending = s.pending := rfl
@[simp] theorem State.mapTimebase_stream (f : Timebase → Timebase) (n' : Fin 32) :
    (s.mapTimebase f).stream n' = s.stream n' := rfl
@[simp] theorem State.mapTimebase_branch (f : Timebase → Timebase) (b' : Fin 6) :
    (s.mapTimebase f).branch b' = s.branch b' := rfl
@[simp] theorem State.mapTimebase_route (f : Timebase → Timebase) (k' : RouteKey) :
    (s.mapTimebase f).route k' = s.route k' := rfl

/-! ### `State.mapMgmt` -/

@[simp] theorem State.mapMgmt_trunk (f : Mgmt → Mgmt) : (s.mapMgmt f).trunk = s.trunk := rfl
@[simp] theorem State.mapMgmt_streams (f : Mgmt → Mgmt) : (s.mapMgmt f).streams = s.streams := rfl
@[simp] theorem State.mapMgmt_routes (f : Mgmt → Mgmt) : (s.mapMgmt f).routes = s.routes := rfl
@[simp] theorem State.mapMgmt_pool (f : Mgmt → Mgmt) : (s.mapMgmt f).pool = s.pool := rfl
@[simp] theorem State.mapMgmt_timebase (f : Mgmt → Mgmt) : (s.mapMgmt f).timebase = s.timebase := rfl
@[simp] theorem State.mapMgmt_branches (f : Mgmt → Mgmt) : (s.mapMgmt f).branches = s.branches := rfl
@[simp] theorem State.mapMgmt_mgmt (f : Mgmt → Mgmt) : (s.mapMgmt f).mgmt = f s.mgmt := rfl
@[simp] theorem State.mapMgmt_events (f : Mgmt → Mgmt) : (s.mapMgmt f).events = s.events := rfl
@[simp] theorem State.mapMgmt_trunkCtr (f : Mgmt → Mgmt) : (s.mapMgmt f).trunkCtr = s.trunkCtr := rfl
@[simp] theorem State.mapMgmt_pending (f : Mgmt → Mgmt) : (s.mapMgmt f).pending = s.pending := rfl
@[simp] theorem State.mapMgmt_stream (f : Mgmt → Mgmt) (n' : Fin 32) : (s.mapMgmt f).stream n' = s.stream n' := rfl
@[simp] theorem State.mapMgmt_branch (f : Mgmt → Mgmt) (b' : Fin 6) : (s.mapMgmt f).branch b' = s.branch b' := rfl
@[simp] theorem State.mapMgmt_route (f : Mgmt → Mgmt) (k' : RouteKey) : (s.mapMgmt f).route k' = s.route k' := rfl

/-! ### `State.mapTrunkCtr` -/

@[simp] theorem State.mapTrunkCtr_trunk (f : TrunkCounters → TrunkCounters) : (s.mapTrunkCtr f).trunk = s.trunk := rfl
@[simp] theorem State.mapTrunkCtr_streams (f : TrunkCounters → TrunkCounters) :
    (s.mapTrunkCtr f).streams = s.streams := rfl
@[simp] theorem State.mapTrunkCtr_routes (f : TrunkCounters → TrunkCounters) :
    (s.mapTrunkCtr f).routes = s.routes := rfl
@[simp] theorem State.mapTrunkCtr_pool (f : TrunkCounters → TrunkCounters) : (s.mapTrunkCtr f).pool = s.pool := rfl
@[simp] theorem State.mapTrunkCtr_timebase (f : TrunkCounters → TrunkCounters) :
    (s.mapTrunkCtr f).timebase = s.timebase := rfl
@[simp] theorem State.mapTrunkCtr_branches (f : TrunkCounters → TrunkCounters) :
    (s.mapTrunkCtr f).branches = s.branches := rfl
@[simp] theorem State.mapTrunkCtr_mgmt (f : TrunkCounters → TrunkCounters) : (s.mapTrunkCtr f).mgmt = s.mgmt := rfl
@[simp] theorem State.mapTrunkCtr_events (f : TrunkCounters → TrunkCounters) :
    (s.mapTrunkCtr f).events = s.events := rfl
@[simp] theorem State.mapTrunkCtr_trunkCtr (f : TrunkCounters → TrunkCounters) :
    (s.mapTrunkCtr f).trunkCtr = f s.trunkCtr := rfl
@[simp] theorem State.mapTrunkCtr_pending (f : TrunkCounters → TrunkCounters) :
    (s.mapTrunkCtr f).pending = s.pending := rfl
@[simp] theorem State.mapTrunkCtr_stream (f : TrunkCounters → TrunkCounters) (n' : Fin 32) :
    (s.mapTrunkCtr f).stream n' = s.stream n' := rfl
@[simp] theorem State.mapTrunkCtr_branch (f : TrunkCounters → TrunkCounters) (b' : Fin 6) :
    (s.mapTrunkCtr f).branch b' = s.branch b' := rfl
@[simp] theorem State.mapTrunkCtr_route (f : TrunkCounters → TrunkCounters) (k' : RouteKey) :
    (s.mapTrunkCtr f).route k' = s.route k' := rfl

/-! ### `State.setPool` -/

@[simp] theorem State.setPool_trunk (m : Memory) : (s.setPool m).trunk = s.trunk := rfl
@[simp] theorem State.setPool_streams (m : Memory) : (s.setPool m).streams = s.streams := rfl
@[simp] theorem State.setPool_routes (m : Memory) : (s.setPool m).routes = s.routes := rfl
@[simp] theorem State.setPool_pool (m : Memory) : (s.setPool m).pool = m := rfl
@[simp] theorem State.setPool_timebase (m : Memory) : (s.setPool m).timebase = s.timebase := rfl
@[simp] theorem State.setPool_branches (m : Memory) : (s.setPool m).branches = s.branches := rfl
@[simp] theorem State.setPool_mgmt (m : Memory) : (s.setPool m).mgmt = s.mgmt := rfl
@[simp] theorem State.setPool_events (m : Memory) : (s.setPool m).events = s.events := rfl
@[simp] theorem State.setPool_trunkCtr (m : Memory) : (s.setPool m).trunkCtr = s.trunkCtr := rfl
@[simp] theorem State.setPool_pending (m : Memory) : (s.setPool m).pending = s.pending := rfl
@[simp] theorem State.setPool_stream (m : Memory) (n' : Fin 32) : (s.setPool m).stream n' = s.stream n' := rfl
@[simp] theorem State.setPool_branch (m : Memory) (b' : Fin 6) : (s.setPool m).branch b' = s.branch b' := rfl
@[simp] theorem State.setPool_route (m : Memory) (k' : RouteKey) : (s.setPool m).route k' = s.route k' := rfl

/-! ### `State.setEvents` -/

@[simp] theorem State.setEvents_trunk (q : EventQueue) : (s.setEvents q).trunk = s.trunk := rfl
@[simp] theorem State.setEvents_streams (q : EventQueue) : (s.setEvents q).streams = s.streams := rfl
@[simp] theorem State.setEvents_routes (q : EventQueue) : (s.setEvents q).routes = s.routes := rfl
@[simp] theorem State.setEvents_pool (q : EventQueue) : (s.setEvents q).pool = s.pool := rfl
@[simp] theorem State.setEvents_timebase (q : EventQueue) : (s.setEvents q).timebase = s.timebase := rfl
@[simp] theorem State.setEvents_branches (q : EventQueue) : (s.setEvents q).branches = s.branches := rfl
@[simp] theorem State.setEvents_mgmt (q : EventQueue) : (s.setEvents q).mgmt = s.mgmt := rfl
@[simp] theorem State.setEvents_events (q : EventQueue) : (s.setEvents q).events = q := rfl
@[simp] theorem State.setEvents_trunkCtr (q : EventQueue) : (s.setEvents q).trunkCtr = s.trunkCtr := rfl
@[simp] theorem State.setEvents_pending (q : EventQueue) : (s.setEvents q).pending = s.pending := rfl
@[simp] theorem State.setEvents_stream (q : EventQueue) (n' : Fin 32) : (s.setEvents q).stream n' = s.stream n' := rfl
@[simp] theorem State.setEvents_branch (q : EventQueue) (b' : Fin 6) : (s.setEvents q).branch b' = s.branch b' := rfl
@[simp] theorem State.setEvents_route (q : EventQueue) (k' : RouteKey) : (s.setEvents q).route k' = s.route k' := rfl

/-! ### Reading back what an update wrote -/

@[simp] theorem State.mapStream_stream_self (n : Fin 32) (f : Stream → Stream) :
    (s.mapStream n f).stream n = f (s.stream n) := by
  simp [State.stream, State.mapStream]

theorem State.mapStream_stream_ne {n m : Fin 32} (h : m ≠ n) (f : Stream → Stream) :
    (s.mapStream n f).stream m = s.stream m := by
  have : (n : Nat) ≠ m := fun e => h (Fin.ext e.symm)
  simp [State.stream, State.mapStream, this]

theorem State.mapStream_stream (n m : Fin 32) (f : Stream → Stream) :
    (s.mapStream n f).stream m = if m = n then f (s.stream n) else s.stream m := by
  split
  · next h => subst h; simp
  · next h => exact s.mapStream_stream_ne h f

@[simp] theorem State.mapBranch_branch_self (b : Fin 6) (f : Branch → Branch) :
    (s.mapBranch b f).branch b = f (s.branch b) := by
  simp [State.branch, State.mapBranch]

theorem State.mapBranch_branch_ne {b c : Fin 6} (h : c ≠ b) (f : Branch → Branch) :
    (s.mapBranch b f).branch c = s.branch c := by
  have : (b : Nat) ≠ c := fun e => h (Fin.ext e.symm)
  simp [State.branch, State.mapBranch, this]

theorem State.mapBranch_branch (b c : Fin 6) (f : Branch → Branch) :
    (s.mapBranch b f).branch c = if c = b then f (s.branch b) else s.branch c := by
  split
  · next h => subst h; simp
  · next h => exact s.mapBranch_branch_ne h f

@[simp] theorem State.setRoute_route_self (k : RouteKey) (v : Option (Fin 32)) : (s.setRoute k v).route k = v := by
  simp [State.route, State.setRoute]

/-- Two keys with the same place in the table are the same key. -/
theorem RouteKey.index_inj {j k : RouteKey} (h : j.index = k.index) : j = k := by
  obtain ⟨b, c, d⟩ := j
  obtain ⟨b', c', d'⟩ := k
  have hb := b.isLt
  have hc := c.isLt
  have hb' := b'.isLt
  have hc' := c'.isLt
  simp only [RouteKey.index, Fin.mk.injEq] at h
  cases d <;> cases d' <;> simp only at h <;> simp only [RouteKey.mk.injEq, Fin.ext_iff, and_true, reduceCtorEq, and_false] <;> omega

theorem State.setRoute_route_ne {j k : RouteKey} (h : j ≠ k) (v : Option (Fin 32)) :
    (s.setRoute k v).route j = s.route j := by
  have : (k.index : Nat) ≠ j.index := fun e => h (RouteKey.index_inj (Fin.ext e.symm))
  simp [State.route, State.setRoute, this]

theorem State.setRoute_route (j k : RouteKey) (v : Option (Fin 32)) :
    (s.setRoute k v).route j = if j = k then v else s.route j := by
  split
  · next h => subst h; simp
  · next h => exact s.setRoute_route_ne h v

/-- Two states are equal when their parts are, stream by stream, branch by branch and key by key. -/
theorem State.ext_parts {s t : State} (h1 : s.trunk = t.trunk) (h2 : ∀ n, s.stream n = t.stream n)
    (h3 : s.routes = t.routes) (h4 : s.pool = t.pool) (h5 : s.timebase = t.timebase)
    (h6 : ∀ b, s.branch b = t.branch b) (h7 : s.mgmt = t.mgmt) (h8 : s.events = t.events)
    (h9 : s.trunkCtr = t.trunkCtr) (h10 : s.pending = t.pending) : s = t := by
  have e2 : s.streams = t.streams := Vector.ext fun i hi => h2 ⟨i, hi⟩
  have e6 : s.branches = t.branches := Vector.ext fun i hi => h6 ⟨i, hi⟩
  cases s
  cases t
  simp only [State.mk.injEq]
  exact ⟨h1, e2, h3, h4, h5, e6, h7, h8, h9, h10⟩

/-! ### The counters, the offers and the answers: each changes one part -/

@[simp] theorem State.countStream_trunk (n : Fin 32) (f : StreamCounters → StreamCounters) :
    (s.countStream n f).trunk = s.trunk := rfl
@[simp] theorem State.countStream_routes (n : Fin 32) (f : StreamCounters → StreamCounters) :
    (s.countStream n f).routes = s.routes := rfl
@[simp] theorem State.countStream_pool (n : Fin 32) (f : StreamCounters → StreamCounters) :
    (s.countStream n f).pool = s.pool := rfl
@[simp] theorem State.countStream_timebase (n : Fin 32) (f : StreamCounters → StreamCounters) :
    (s.countStream n f).timebase = s.timebase := rfl
@[simp] theorem State.countStream_mgmt (n : Fin 32) (f : StreamCounters → StreamCounters) :
    (s.countStream n f).mgmt = s.mgmt := rfl
@[simp] theorem State.countStream_events (n : Fin 32) (f : StreamCounters → StreamCounters) :
    (s.countStream n f).events = s.events := rfl
@[simp] theorem State.countStream_trunkCtr (n : Fin 32) (f : StreamCounters → StreamCounters) :
    (s.countStream n f).trunkCtr = s.trunkCtr := rfl
@[simp] theorem State.countStream_pending (n : Fin 32) (f : StreamCounters → StreamCounters) :
    (s.countStream n f).pending = s.pending := rfl
@[simp] theorem State.countStream_branch (n : Fin 32) (f : StreamCounters → StreamCounters) (b' : Fin 6) :
    (s.countStream n f).branch b' = s.branch b' := rfl
@[simp] theorem State.countStream_route (n : Fin 32) (f : StreamCounters → StreamCounters) (k' : RouteKey) :
    (s.countStream n f).route k' = s.route k' := rfl

@[simp] theorem State.countBranch_trunk (b : Fin 6) (f : BranchCounters → BranchCounters) :
    (s.countBranch b f).trunk = s.trunk := rfl
@[simp] theorem State.countBranch_routes (b : Fin 6) (f : BranchCounters → BranchCounters) :
    (s.countBranch b f).routes = s.routes := rfl
@[simp] theorem State.countBranch_pool (b : Fin 6) (f : BranchCounters → BranchCounters) :
    (s.countBranch b f).pool = s.pool := rfl
@[simp] theorem State.countBranch_timebase (b : Fin 6) (f : BranchCounters → BranchCounters) :
    (s.countBranch b f).timebase = s.timebase := rfl
@[simp] theorem State.countBranch_mgmt (b : Fin 6) (f : BranchCounters → BranchCounters) :
    (s.countBranch b f).mgmt = s.mgmt := rfl
@[simp] theorem State.countBranch_events (b : Fin 6) (f : BranchCounters → BranchCounters) :
    (s.countBranch b f).events = s.events := rfl
@[simp] theorem State.countBranch_trunkCtr (b : Fin 6) (f : BranchCounters → BranchCounters) :
    (s.countBranch b f).trunkCtr = s.trunkCtr := rfl
@[simp] theorem State.countBranch_pending (b : Fin 6) (f : BranchCounters → BranchCounters) :
    (s.countBranch b f).pending = s.pending := rfl
@[simp] theorem State.countBranch_stream (b : Fin 6) (f : BranchCounters → BranchCounters) (n' : Fin 32) :
    (s.countBranch b f).stream n' = s.stream n' := rfl
@[simp] theorem State.countBranch_route (b : Fin 6) (f : BranchCounters → BranchCounters) (k' : RouteKey) :
    (s.countBranch b f).route k' = s.route k' := rfl

@[simp] theorem State.strayAck_trunk : (s.strayAck).trunk = s.trunk := rfl
@[simp] theorem State.strayAck_routes : (s.strayAck).routes = s.routes := rfl
@[simp] theorem State.strayAck_pool : (s.strayAck).pool = s.pool := rfl
@[simp] theorem State.strayAck_timebase : (s.strayAck).timebase = s.timebase := rfl
@[simp] theorem State.strayAck_mgmt : (s.strayAck).mgmt = s.mgmt := rfl
@[simp] theorem State.strayAck_events : (s.strayAck).events = s.events := rfl
@[simp] theorem State.strayAck_pending : (s.strayAck).pending = s.pending := rfl
@[simp] theorem State.strayAck_stream (n' : Fin 32) : (s.strayAck).stream n' = s.stream n' := rfl
@[simp] theorem State.strayAck_branch (b' : Fin 6) : (s.strayAck).branch b' = s.branch b' := rfl
@[simp] theorem State.strayAck_route (k' : RouteKey) : (s.strayAck).route k' = s.route k' := rfl

@[simp] theorem State.unknownKind_trunk : (s.unknownKind).trunk = s.trunk := rfl
@[simp] theorem State.unknownKind_routes : (s.unknownKind).routes = s.routes := rfl
@[simp] theorem State.unknownKind_pool : (s.unknownKind).pool = s.pool := rfl
@[simp] theorem State.unknownKind_timebase : (s.unknownKind).timebase = s.timebase := rfl
@[simp] theorem State.unknownKind_mgmt : (s.unknownKind).mgmt = s.mgmt := rfl
@[simp] theorem State.unknownKind_events : (s.unknownKind).events = s.events := rfl
@[simp] theorem State.unknownKind_pending : (s.unknownKind).pending = s.pending := rfl
@[simp] theorem State.unknownKind_stream (n' : Fin 32) : (s.unknownKind).stream n' = s.stream n' := rfl
@[simp] theorem State.unknownKind_branch (b' : Fin 6) : (s.unknownKind).branch b' = s.branch b' := rfl
@[simp] theorem State.unknownKind_route (k' : RouteKey) : (s.unknownKind).route k' = s.route k' := rfl

@[simp] theorem State.disabledCell_trunk : (s.disabledCell).trunk = s.trunk := rfl
@[simp] theorem State.disabledCell_routes : (s.disabledCell).routes = s.routes := rfl
@[simp] theorem State.disabledCell_pool : (s.disabledCell).pool = s.pool := rfl
@[simp] theorem State.disabledCell_timebase : (s.disabledCell).timebase = s.timebase := rfl
@[simp] theorem State.disabledCell_mgmt : (s.disabledCell).mgmt = s.mgmt := rfl
@[simp] theorem State.disabledCell_events : (s.disabledCell).events = s.events := rfl
@[simp] theorem State.disabledCell_pending : (s.disabledCell).pending = s.pending := rfl
@[simp] theorem State.disabledCell_stream (n' : Fin 32) : (s.disabledCell).stream n' = s.stream n' := rfl
@[simp] theorem State.disabledCell_branch (b' : Fin 6) : (s.disabledCell).branch b' = s.branch b' := rfl
@[simp] theorem State.disabledCell_route (k' : RouteKey) : (s.disabledCell).route k' = s.route k' := rfl

@[simp] theorem State.offer_trunk (kind : EventKind) (st br d : Byte) : (s.offer kind st br d).trunk = s.trunk := rfl
@[simp] theorem State.offer_routes (kind : EventKind) (st br d : Byte) :
    (s.offer kind st br d).routes = s.routes := rfl
@[simp] theorem State.offer_pool (kind : EventKind) (st br d : Byte) : (s.offer kind st br d).pool = s.pool := rfl
@[simp] theorem State.offer_timebase (kind : EventKind) (st br d : Byte) :
    (s.offer kind st br d).timebase = s.timebase := rfl
@[simp] theorem State.offer_mgmt (kind : EventKind) (st br d : Byte) : (s.offer kind st br d).mgmt = s.mgmt := rfl
@[simp] theorem State.offer_trunkCtr (kind : EventKind) (st br d : Byte) :
    (s.offer kind st br d).trunkCtr = s.trunkCtr := rfl
@[simp] theorem State.offer_pending (kind : EventKind) (st br d : Byte) :
    (s.offer kind st br d).pending = s.pending := rfl
@[simp] theorem State.offer_stream (kind : EventKind) (st br d : Byte) (n' : Fin 32) :
    (s.offer kind st br d).stream n' = s.stream n' := rfl
@[simp] theorem State.offer_branch (kind : EventKind) (st br d : Byte) (b' : Fin 6) :
    (s.offer kind st br d).branch b' = s.branch b' := rfl
@[simp] theorem State.offer_route (kind : EventKind) (st br d : Byte) (k' : RouteKey) :
    (s.offer kind st br d).route k' = s.route k' := rfl

@[simp] theorem State.offerStream_trunk (n : Fin 32) (kind : EventKind) (d : Byte) :
    (s.offerStream n kind d).trunk = s.trunk := rfl
@[simp] theorem State.offerStream_routes (n : Fin 32) (kind : EventKind) (d : Byte) :
    (s.offerStream n kind d).routes = s.routes := rfl
@[simp] theorem State.offerStream_pool (n : Fin 32) (kind : EventKind) (d : Byte) :
    (s.offerStream n kind d).pool = s.pool := rfl
@[simp] theorem State.offerStream_timebase (n : Fin 32) (kind : EventKind) (d : Byte) :
    (s.offerStream n kind d).timebase = s.timebase := rfl
@[simp] theorem State.offerStream_mgmt (n : Fin 32) (kind : EventKind) (d : Byte) :
    (s.offerStream n kind d).mgmt = s.mgmt := rfl
@[simp] theorem State.offerStream_trunkCtr (n : Fin 32) (kind : EventKind) (d : Byte) :
    (s.offerStream n kind d).trunkCtr = s.trunkCtr := rfl
@[simp] theorem State.offerStream_pending (n : Fin 32) (kind : EventKind) (d : Byte) :
    (s.offerStream n kind d).pending = s.pending := rfl
@[simp] theorem State.offerStream_stream (n : Fin 32) (kind : EventKind) (d : Byte) (n' : Fin 32) :
    (s.offerStream n kind d).stream n' = s.stream n' := rfl
@[simp] theorem State.offerStream_branch (n : Fin 32) (kind : EventKind) (d : Byte) (b' : Fin 6) :
    (s.offerStream n kind d).branch b' = s.branch b' := rfl
@[simp] theorem State.offerStream_route (n : Fin 32) (kind : EventKind) (d : Byte) (k' : RouteKey) :
    (s.offerStream n kind d).route k' = s.route k' := rfl

@[simp] theorem State.offerBranch_trunk (b : Fin 6) (kind : EventKind) (d : Byte) :
    (s.offerBranch b kind d).trunk = s.trunk := rfl
@[simp] theorem State.offerBranch_routes (b : Fin 6) (kind : EventKind) (d : Byte) :
    (s.offerBranch b kind d).routes = s.routes := rfl
@[simp] theorem State.offerBranch_pool (b : Fin 6) (kind : EventKind) (d : Byte) :
    (s.offerBranch b kind d).pool = s.pool := rfl
@[simp] theorem State.offerBranch_timebase (b : Fin 6) (kind : EventKind) (d : Byte) :
    (s.offerBranch b kind d).timebase = s.timebase := rfl
@[simp] theorem State.offerBranch_mgmt (b : Fin 6) (kind : EventKind) (d : Byte) :
    (s.offerBranch b kind d).mgmt = s.mgmt := rfl
@[simp] theorem State.offerBranch_trunkCtr (b : Fin 6) (kind : EventKind) (d : Byte) :
    (s.offerBranch b kind d).trunkCtr = s.trunkCtr := rfl
@[simp] theorem State.offerBranch_pending (b : Fin 6) (kind : EventKind) (d : Byte) :
    (s.offerBranch b kind d).pending = s.pending := rfl
@[simp] theorem State.offerBranch_stream (b : Fin 6) (kind : EventKind) (d : Byte) (n' : Fin 32) :
    (s.offerBranch b kind d).stream n' = s.stream n' := rfl
@[simp] theorem State.offerBranch_branch (b : Fin 6) (kind : EventKind) (d : Byte) (b' : Fin 6) :
    (s.offerBranch b kind d).branch b' = s.branch b' := rfl
@[simp] theorem State.offerBranch_route (b : Fin 6) (kind : EventKind) (d : Byte) (k' : RouteKey) :
    (s.offerBranch b kind d).route k' = s.route k' := rfl

@[simp] theorem State.offerPlain_trunk (kind : EventKind) (d : Byte) : (s.offerPlain kind d).trunk = s.trunk := rfl
@[simp] theorem State.offerPlain_routes (kind : EventKind) (d : Byte) : (s.offerPlain kind d).routes = s.routes := rfl
@[simp] theorem State.offerPlain_pool (kind : EventKind) (d : Byte) : (s.offerPlain kind d).pool = s.pool := rfl
@[simp] theorem State.offerPlain_timebase (kind : EventKind) (d : Byte) :
    (s.offerPlain kind d).timebase = s.timebase := rfl
@[simp] theorem State.offerPlain_mgmt (kind : EventKind) (d : Byte) : (s.offerPlain kind d).mgmt = s.mgmt := rfl
@[simp] theorem State.offerPlain_trunkCtr (kind : EventKind) (d : Byte) :
    (s.offerPlain kind d).trunkCtr = s.trunkCtr := rfl
@[simp] theorem State.offerPlain_pending (kind : EventKind) (d : Byte) :
    (s.offerPlain kind d).pending = s.pending := rfl
@[simp] theorem State.offerPlain_stream (kind : EventKind) (d : Byte) (n' : Fin 32) :
    (s.offerPlain kind d).stream n' = s.stream n' := rfl
@[simp] theorem State.offerPlain_branch (kind : EventKind) (d : Byte) (b' : Fin 6) :
    (s.offerPlain kind d).branch b' = s.branch b' := rfl
@[simp] theorem State.offerPlain_route (kind : EventKind) (d : Byte) (k' : RouteKey) :
    (s.offerPlain kind d).route k' = s.route k' := rfl

@[simp] theorem State.answer_routes (c : CellHdr) (kind : UpKind) (seq : Bool) (p : List Byte) :
    (s.answer c kind seq p).routes = s.routes := rfl
@[simp] theorem State.answer_pool (c : CellHdr) (kind : UpKind) (seq : Bool) (p : List Byte) :
    (s.answer c kind seq p).pool = s.pool := rfl
@[simp] theorem State.answer_timebase (c : CellHdr) (kind : UpKind) (seq : Bool) (p : List Byte) :
    (s.answer c kind seq p).timebase = s.timebase := rfl
@[simp] theorem State.answer_mgmt (c : CellHdr) (kind : UpKind) (seq : Bool) (p : List Byte) :
    (s.answer c kind seq p).mgmt = s.mgmt := rfl
@[simp] theorem State.answer_events (c : CellHdr) (kind : UpKind) (seq : Bool) (p : List Byte) :
    (s.answer c kind seq p).events = s.events := rfl
@[simp] theorem State.answer_trunkCtr (c : CellHdr) (kind : UpKind) (seq : Bool) (p : List Byte) :
    (s.answer c kind seq p).trunkCtr = s.trunkCtr := rfl
@[simp] theorem State.answer_pending (c : CellHdr) (kind : UpKind) (seq : Bool) (p : List Byte) :
    (s.answer c kind seq p).pending = s.pending := rfl
@[simp] theorem State.answer_stream (c : CellHdr) (kind : UpKind) (seq : Bool) (p : List Byte) (n' : Fin 32) :
    (s.answer c kind seq p).stream n' = s.stream n' := rfl
@[simp] theorem State.answer_branch (c : CellHdr) (kind : UpKind) (seq : Bool) (p : List Byte) (b' : Fin 6) :
    (s.answer c kind seq p).branch b' = s.branch b' := rfl
@[simp] theorem State.answer_route (c : CellHdr) (kind : UpKind) (seq : Bool) (p : List Byte) (k' : RouteKey) :
    (s.answer c kind seq p).route k' = s.route k' := rfl

end Sys2Proof.Machine
end

