-- ==== Sys2Proof/Laws/Ops.lean ====
section
/-! SUPPORT. What each shared operation can do, said once: the taking of a cell, an offer, a claim, a fill, a run over the
streams, the beginning and the end of an exchange, an expiry of the cycle timer. -/

namespace Sys2Proof.Machine

/-! ### Numbers -/

/-- The configurable streams are those other than 0. -/
@[simp] theorem mem_streamNumbers (n : Fin 32) : n ∈ streamNumbers ↔ n ≠ 0 := by
  revert n; decide

theorem streamNumbers_nodup : streamNumbers.Nodup := by decide

@[simp] theorem mem_branchNumbers (b : Fin 6) : b ∈ branchNumbers := by
  revert b; decide

/-- A stream number that a field names is not 0. -/
theorem streamOfNat?_ne_zero {k : Nat} {n : Fin 32} (h : streamOfNat? k = some n) : n ≠ 0 ∧ n.val = k := by
  unfold streamOfNat? at h
  split at h
  · next hk =>
    injection h with h
    subst h
    exact ⟨fun e => absurd (congrArg Fin.val e) (by simp; omega), rfl⟩
  · exact absurd h (by simp)

/-! ### Cells -/

/-- The test by which a cell is taken (R49, R50). -/
theorem State.receives_iff (s : State) : s.receives = true ↔ s.Receives := by
  simp [State.receives, State.Receives]

/-- The address test (R57). -/
theorem State.hears_iff (s : State) (c : CellHdr) : s.hears c = true ↔ c.addr = s.trunk.addr.setWidth 8 := by
  simp [State.hears]

/-- A cell that the node takes is handed on. -/
theorem State.takeCell_taken {s : State} {c : CellHdr} (h : s.Takes c) (f : State → State) : s.takeCell c f = f s := by
  have h1 := s.receives_iff.mpr h.1
  have h2 := (s.hears_iff c).mpr h.2
  simp [State.takeCell, h1, h2]

/-- A cell that the node does not take changes nothing. -/
theorem State.takeCell_missed {s : State} {c : CellHdr} (h : ¬ s.Takes c) (f : State → State) : s.takeCell c f = s := by
  unfold State.takeCell
  rw [if_neg]
  intro hh
  simp only [Bool.and_eq_true] at hh
  exact h ⟨s.receives_iff.mp hh.1, (s.hears_iff c).mp hh.2⟩

/-- All that the taking of a cell can do. -/
theorem State.takeCell_cases (s : State) (c : CellHdr) (f : State → State) :
    (s.Takes c ∧ s.takeCell c f = f s) ∨ (¬ s.Takes c ∧ s.takeCell c f = s) := by
  by_cases h : s.Takes c
  · exact .inl ⟨h, State.takeCell_taken h f⟩
  · exact .inr ⟨h, State.takeCell_missed h f⟩

/-- The answer that waits after an answer is handed over (R60). -/
@[simp] theorem State.answer_trunk (s : State) (c : CellHdr) (kind : UpKind) (seq : Bool) (p : List Byte) :
    (s.answer c kind seq p).trunk = { s.trunk with waiting := some (s.answerTo c kind seq p) } := rfl

/-- An answer changes nothing but the answer that waits. -/
theorem State.answer_eq (s : State) (c : CellHdr) (kind : UpKind) (seq : Bool) (p : List Byte) :
    s.answer c kind seq p = s.withAnswer c kind seq p := rfl

/-! ### Events (R171) -/

/-- A masked-out offer is forgotten. -/
theorem EventQueue.offer_masked {q : EventQueue} {kind : EventKind} (h : q.mask.getLsbD kind.code = false)
    (count : Half) (st br d : Byte) : q.offer count kind st br d = q := by
  simp [EventQueue.offer, h]

/-- An offer with room is appended under the next serial. -/
theorem EventQueue.offer_room {q : EventQueue} {kind : EventKind} (h : q.mask.getLsbD kind.code = true)
    (hr : q.records.length < Config.eventDepth) (count : Half) (st br d : Byte) :
    q.offer count kind st br d =
      { q with
        records := q.records ++
          [{ kind := kind, stream := st, branch := br, detail := d, count := count, serial := q.serial + 1 }],
        serial := q.serial + 1 } := by
  simp [EventQueue.offer, h, hr]

/-- An offer to a full queue is lost and counted, its serial spent. -/
theorem EventQueue.offer_full {q : EventQueue} {kind : EventKind} (h : q.mask.getLsbD kind.code = true)
    (hr : ¬ q.records.length < Config.eventDepth) (count : Half) (st br d : Byte) :
    q.offer count kind st br d = { q with serial := q.serial + 1, lost := satIncByte q.lost } := by
  simp [EventQueue.offer, h, hr]

/-- An offer never takes the queue past its depth. -/
theorem EventQueue.offer_length {q : EventQueue} (h : q.records.length ≤ Config.eventDepth) (count : Half)
    (kind : EventKind) (st br d : Byte) : (q.offer count kind st br d).records.length ≤ Config.eventDepth := by
  unfold EventQueue.offer
  split
  · split
    · simp only [List.length_append, List.length_singleton]; omega
    · exact h
  · exact h

/-- An offer keeps the records that stand, at the head of the list. -/
theorem EventQueue.offer_prefix (q : EventQueue) (count : Half) (kind : EventKind) (st br d : Byte) :
    q.records <+: (q.offer count kind st br d).records := by
  unfold EventQueue.offer
  split
  · split
    · exact List.prefix_append _ _
    · exact List.prefix_refl _
  · exact List.prefix_refl _

/-- An offer does not lower the lost count. -/
theorem EventQueue.offer_lost (q : EventQueue) (count : Half) (kind : EventKind) (st br d : Byte) :
    q.lost ≤ (q.offer count kind st br d).lost := by
  unfold EventQueue.offer
  split
  · split
    · exact BitVec.le_refl _
    · simp only [satIncByte]
      split
      · exact BitVec.le_refl _
      · next h => bv_omega
  · exact BitVec.le_refl _

/-- The mask does not change by an offer. -/
@[simp] theorem EventQueue.offer_mask (q : EventQueue) (count : Half) (kind : EventKind) (st br d : Byte) :
    (q.offer count kind st br d).mask = q.mask := by
  unfold EventQueue.offer
  split
  · split <;> rfl
  · rfl

/-! ### Runs over the streams -/

@[simp] theorem State.overStreams_nil (s : State) (op : State → Fin 32 → State) : s.overStreams [] op = s := rfl

@[simp] theorem State.overStreams_cons (s : State) (n : Fin 32) (ns : List (Fin 32)) (op : State → Fin 32 → State) :
    s.overStreams (n :: ns) op = (op s n).overStreams ns op := rfl

/-- What every operation of a run keeps, the run keeps. -/
theorem State.overStreams_keeps {P : State → Prop} {op : State → Fin 32 → State} (ns : List (Fin 32))
    (h : ∀ s, ∀ n ∈ ns, P s → P (op s n)) : ∀ s : State, P s → P (s.overStreams ns op) := by
  induction ns with
  | nil => exact fun s hs => hs
  | cons n ns ih =>
    intro s hs
    exact ih (fun s m hm => h s m (List.mem_cons_of_mem n hm)) _ (h s n List.mem_cons_self hs)

/-- What every operation over the branches keeps, the run keeps. -/
theorem State.overBranches_keeps {P : State → Prop} {op : State → Fin 6 → State} (h : ∀ s b, P s → P (op s b))
    (s : State) (hs : P s) : P (s.overBranches op) := by
  have key : ∀ (bs : List (Fin 6)) (s : State), P s → P (bs.foldl op s) := by
    intro bs
    induction bs with
    | nil => exact fun s hs => hs
    | cons b bs ih => exact fun s hs => ih _ (h s b hs)
  exact key branchNumbers s hs

/-- A run that changes one stream after another changes each of them once. -/
theorem State.overStreams_mapStream (f : Stream → Stream) (ns : List (Fin 32)) (hn : ns.Nodup) :
    ∀ (s : State) (m : Fin 32), (s.overStreams ns (fun s n => s.mapStream n f)).stream m =
      if m ∈ ns then f (s.stream m) else s.stream m := by
  induction ns with
  | nil => intro s m; simp
  | cons n ns ih =>
    intro s m
    have hn' := List.nodup_cons.mp hn
    rw [State.overStreams_cons, ih hn'.2]
    by_cases hm : m = n
    · subst hm; simp [hn'.1]
    · simp [s.mapStream_stream_ne hm, hm]

/-- Such a run changes no other part of the state. -/
theorem State.overStreams_mapStream_rest (f : Stream → Stream) (ns : List (Fin 32)) (s : State) :
    s.overStreams ns (fun s n => s.mapStream n f) =
      { s with streams := (s.overStreams ns (fun s n => s.mapStream n f)).streams } := by
  refine State.overStreams_keeps
    (P := fun t => t = { s with streams := t.streams }) ns (fun t n _ ht => ?_) s rfl
  rw [ht]
  rfl

/-! ### Claims (R19) -/

/-- All that a claim can do: an accepted one sets the response state, a refused one nothing. -/
theorem State.claim_cases (s : State) (n : Fin 32) (r : Response) :
    ((s.stream n).entry.enabled = true ∧ (r = .opened → s.trunk.node = .running) ∧
      s.claim n r = s.mapStream n (fun st => { st with response := r })) ∨
    (¬ ((s.stream n).entry.enabled = true ∧ (r = .opened → s.trunk.node = .running)) ∧ s.claim n r = s) := by
  unfold State.claim
  split
  · next h =>
    simp only [State.claimAccepted, Bool.and_eq_true, Bool.or_eq_true, bne_iff_ne, beq_iff_eq] at h
    exact .inl ⟨h.1, fun e => h.2.resolve_left (fun hne => hne e), rfl⟩
  · next h =>
    simp only [State.claimAccepted, Bool.and_eq_true, Bool.or_eq_true, bne_iff_ne, beq_iff_eq] at h
    refine .inr ⟨fun hh => h ⟨hh.1, ?_⟩, rfl⟩
    by_cases hr : r = .opened
    · exact .inr (hh.2 hr)
    · exact .inl hr

/-! ### Fills (R27, R28) -/

/-- A fill that fits writes its bytes from the fill count on and grows it. -/
theorem State.fillSide_fits {s : State} {n : Fin 32} {k : Fin 2} {bytes : List Byte}
    (h : bytes.length ≤ (s.stream n).space k) :
    s.fillSide n k bytes =
      (s.setPool (s.pool.writeBytes Config.poolBytes
        ((s.stream n).entry.byteAddr k ((s.stream n).side k).fill) bytes)).mapStream n
          (fun st => st.fill k bytes.length) := by
  simp [State.fillSide, h]

/-- A fill that does not fit changes nothing. -/
theorem State.fillSide_full {s : State} {n : Fin 32} {k : Fin 2} {bytes : List Byte}
    (h : ¬ bytes.length ≤ (s.stream n).space k) : s.fillSide n k bytes = s := by
  simp [State.fillSide, h]

/-! ### Exchanges (R140 to R142, R147) -/

/-- A request whose cell the node takes on stream 0. -/
theorem State.takeRequest_taken {s : State} {c : CellHdr} (h : s.Takes c) (hs : c.stream = 0) (header : ReqHeader)
    (run : State → State) :
    s.takeRequest c header run = (run (s.beginExchange header)).answer c .ack c.seq [] := by
  rw [State.takeRequest, State.takeCell_taken h, if_neg (fun hne => hne hs)]

/-- A request whose cell names a stream other than 0 (R58). -/
theorem State.takeRequest_stray {s : State} {c : CellHdr} (h : s.Takes c) (hs : c.stream ≠ 0) (header : ReqHeader)
    (run : State → State) : s.takeRequest c header run = s.unknownKind.answer c .halt c.seq [] := by
  rw [State.takeRequest, State.takeCell_taken h, if_pos hs]

/-- With no exchange to abandon, a request begins its own and offers nothing. -/
theorem State.beginExchange_idle {s : State} (h : s.mgmt.exchange = .idle ∨ s.mgmt.exchange = .failed)
    (header : ReqHeader) : s.beginExchange header = s.mapMgmt (fun m => m.begin header) := by
  rcases h with h | h <;> simp [State.beginExchange, Exchange.standing, h]

/-- A request that passes its header checks does its own work. -/
theorem State.runRequest_ok {s : State} {r : Request} {f : ReqFields}
    (h : headerRefusal? r f s.trunk.node = none) (body : State → State) : s.runRequest r f body = body s := by
  simp [State.runRequest, h]

/-- A request that fails a header check ends with its code. -/
theorem State.runRequest_refused {s : State} {r : Request} {f : ReqFields} {code : ResultCode}
    (h : headerRefusal? r f s.trunk.node = some code) (body : State → State) :
    s.runRequest r f body = s.finish code := by
  simp [State.runRequest, h]

/-- All that the end report of a RESET-STREAM can do. -/
theorem State.resetStreamEnd_cases (s : State) (n : Fin 32) :
    (s.mgmt.exchange = .executing ∧ s.mgmt.targets n = true ∧
      s.resetStreamEnd n = s.mapMgmt (fun m => { m with exchange := .result })) ∨ s.resetStreamEnd n = s := by
  unfold State.resetStreamEnd
  split
  · next h =>
    simp only [Bool.and_eq_true, decide_eq_true_eq] at h
    exact .inl ⟨h.1, h.2, rfl⟩
  · exact .inr rfl

/-! ### The cycle timer (R99, R100, R103, R104) -/

/-- All that an expiry can do: while it is due, a boundary below the coast limit and the loss at it; else nothing. -/
theorem State.timerExpires_cases (s : State) (time : Ticks) :
    (s.timebase.timer = some time ∧ s.timebase.consecutive < s.timebase.coastLimit ∧
      s.timerExpires time = s.timerBoundary time) ∨
    (s.timebase.timer = some time ∧ s.timebase.coastLimit ≤ s.timebase.consecutive ∧
      s.timerExpires time = s.timebaseLost) ∨
    (s.timebase.timer ≠ some time ∧ s.timerExpires time = s) := by
  unfold State.timerExpires Timebase.expires
  by_cases h : s.timebase.timer = some time
  · by_cases hc : s.timebase.consecutive < s.timebase.coastLimit
    · exact .inl ⟨h, hc, by simp [h, hc]⟩
    · exact .inr (.inl ⟨h, by omega, by simp [h, hc]⟩)
  · exact .inr (.inr ⟨h, by simp [h]⟩)

end Sys2Proof.Machine
end

