-- ==== Sys2Proof/Laws/Ports.lean ====
section
/-! SUPPORT. What the operations of the Branch Ports can do, said once: a port that queues, grants, revokes or picks takes
a `State.PortStep`, and so does every run of such operations. -/

namespace Sys2Proof.Machine

/-! ### What the ports may do by themselves -/

/-- A side that is as it was, or whose next frame's transmission has begun (R135). -/
abbrev Side.Begun (a b : Side) : Prop := b = a ∨ (a.state = .closed ∧ b = { a with state := .draining })

/-- What the grants, the REVOKEs and the arbiter of the Branch Ports may change of a stream (R129 to R135): its grants and
credits, and a CLOSED side from which a frame begins. -/
structure Stream.PortStep (a b : Stream) : Prop where
  entry : b.entry = a.entry
  response : b.response = a.response
  seqBit : b.seqBit = a.seqBit
  burst : b.burst = a.burst
  side0 : a.side0.Begun b.side0
  side1 : a.side1.Begun b.side1
  order : b.order = a.order
  packet : b.packet = a.packet
  served : b.served = a.served
  counters : b.counters = a.counters

/-- What they may change of a port: its pointer, its transmitter and its queue. -/
structure Branch.PortStep (a b : Branch) : Prop where
  link : b.link = a.link
  line : b.line = a.line
  aligns : b.aligns = a.aligns
  errors : b.errors = a.errors
  counters : b.counters = a.counters
  down : a.link ≠ .up → b = a

/-- What they may change of the state. -/
structure State.PortStep (s t : State) : Prop where
  trunk : t.trunk = s.trunk
  routes : t.routes = s.routes
  pool : t.pool = s.pool
  timebase : t.timebase = s.timebase
  mgmt : t.mgmt = s.mgmt
  events : t.events = s.events
  trunkCtr : t.trunkCtr = s.trunkCtr
  pending : t.pending = s.pending
  stream : ∀ n, (s.stream n).PortStep (t.stream n)
  branch : ∀ b, (s.branch b).PortStep (t.branch b)

/-! ### Steps of the ports compose -/

theorem Side.Begun.refl (a : Side) : a.Begun a := Or.inl rfl

theorem Side.Begun.trans {a b c : Side} (h : a.Begun b) (g : b.Begun c) : a.Begun c := by
  rcases h with rfl | ⟨ha, rfl⟩
  · exact g
  · rcases g with rfl | ⟨hb, _⟩
    · exact Or.inr ⟨ha, rfl⟩
    · exact absurd hb (by simp)

theorem Stream.PortStep.refl (a : Stream) : a.PortStep a :=
  ⟨rfl, rfl, rfl, rfl, .refl _, .refl _, rfl, rfl, rfl, rfl⟩

theorem Stream.PortStep.trans {a b c : Stream} (h : a.PortStep b) (g : b.PortStep c) : a.PortStep c :=
  ⟨g.entry.trans h.entry, g.response.trans h.response, g.seqBit.trans h.seqBit, g.burst.trans h.burst,
    h.side0.trans g.side0, h.side1.trans g.side1, g.order.trans h.order, g.packet.trans h.packet,
    g.served.trans h.served, g.counters.trans h.counters⟩

theorem Branch.PortStep.refl (a : Branch) : a.PortStep a := ⟨rfl, rfl, rfl, rfl, rfl, fun _ => rfl⟩

theorem Branch.PortStep.trans {a b c : Branch} (h : a.PortStep b) (g : b.PortStep c) : a.PortStep c :=
  ⟨g.link.trans h.link, g.line.trans h.line, g.aligns.trans h.aligns, g.errors.trans h.errors,
    g.counters.trans h.counters, fun hl => (g.down (h.link ▸ hl)).trans (h.down hl)⟩

theorem State.PortStep.refl (s : State) : s.PortStep s :=
  ⟨rfl, rfl, rfl, rfl, rfl, rfl, rfl, rfl, fun _ => .refl _, fun _ => .refl _⟩

theorem State.PortStep.trans {s t u : State} (h : s.PortStep t) (g : t.PortStep u) : s.PortStep u :=
  ⟨g.trunk.trans h.trunk, g.routes.trans h.routes, g.pool.trans h.pool, g.timebase.trans h.timebase,
    g.mgmt.trans h.mgmt, g.events.trans h.events, g.trunkCtr.trans h.trunkCtr, g.pending.trans h.pending,
    fun n => (h.stream n).trans (g.stream n), fun b => (h.branch b).trans (g.branch b)⟩

/-- A run of operations over streams, each of which is a step of the ports, is one. -/
theorem State.overStreams_portStep {op : State → Fin 32 → State} (h : ∀ (s : State) n, s.PortStep (op s n)) (ns : List (Fin 32)) :
    ∀ s : State, s.PortStep (s.overStreams ns op) := by
  induction ns with
  | nil => exact State.PortStep.refl
  | cons n ns ih => intro s; exact (h s n).trans (ih (op s n))

/-- A run over the branches likewise. -/
theorem State.overBranches_portStep {op : State → Fin 6 → State} (h : ∀ (s : State) b, s.PortStep (op s b)) (s : State) :
    s.PortStep (s.overBranches op) := by
  have key : ∀ (bs : List (Fin 6)) (s : State), s.PortStep (bs.foldl op s) := by
    intro bs
    induction bs with
    | nil => exact State.PortStep.refl
    | cons b bs ih => intro s; exact (h s b).trans (ih (op s b))
  exact key branchNumbers s

/-! ### One stream, one port -/

/-- A change of one stream that is a step of the ports. -/
theorem State.mapStream_portStep (s : State) (n : Fin 32) {f : Stream → Stream}
    (h : (s.stream n).PortStep (f (s.stream n))) : s.PortStep (s.mapStream n f) := by
  refine ⟨rfl, rfl, rfl, rfl, rfl, rfl, rfl, rfl, fun m => ?_, fun _ => .refl _⟩
  by_cases hm : m = n
  · subst hm; simpa using h
  · rw [s.mapStream_stream_ne hm]; exact .refl _

/-- A change of one port that is a step of the ports. -/
theorem State.mapBranch_portStep (s : State) (b : Fin 6) {f : Branch → Branch}
    (h : (s.branch b).PortStep (f (s.branch b))) : s.PortStep (s.mapBranch b f) := by
  refine ⟨rfl, rfl, rfl, rfl, rfl, rfl, rfl, rfl, fun _ => .refl _, fun c => ?_⟩
  by_cases hc : c = b
  · subst hc; simpa using h
  · rw [s.mapBranch_branch_ne hc]; exact .refl _

/-- The grants and credits of a stream changed, and nothing else of it. -/
theorem Stream.counts_portStep (a : Stream) (q i d c : Nat) :
    a.PortStep { a with queued := q, inFlight := i, delivered := d, credits := c } :=
  ⟨rfl, rfl, rfl, rfl, .refl _, .refl _, rfl, rfl, rfl, rfl⟩

/-- The pointer, transmitter and queue of a port that is UP changed, and nothing else of it. -/
theorem Branch.work_portStep (a : Branch) (p : Fin 8) (tx : Transmitter) (q : List CtlEntry) (h : a.link = .up) :
    a.PortStep { a with pointer := p, tx := tx, queue := q } :=
  ⟨rfl, rfl, rfl, rfl, rfl, fun hl => absurd h hl⟩

/-- The side of a stream after another side is set. -/
@[simp] theorem Stream.setSide_side_self (st : Stream) (k : Fin 2) (sd : Side) : (st.setSide k sd).side k = sd := by
  unfold Stream.setSide Stream.side
  split <;> rfl

theorem Stream.setSide_side_ne (st : Stream) {j k : Fin 2} (h : j ≠ k) (sd : Side) :
    (st.setSide k sd).side j = st.side j := by
  unfold Stream.setSide Stream.side
  by_cases hk : k = 0
  · have hj : j ≠ 0 := fun e => h (e.trans hk.symm)
    simp [hk, hj]
  · have hj : j = 0 := by omega
    simp [hk, hj]

/-- The beginning of a frame from a CLOSED side is a step of the ports. -/
theorem Stream.draining_portStep (a : Stream) (k : Fin 2) (c : Nat) (h : (a.side k).state = .closed) :
    a.PortStep { a.setSideState k .draining with credits := c } := by
  unfold Stream.setSideState Stream.setSide
  unfold Stream.side at h ⊢
  split at h
  · next hk =>
    simp only [hk, if_true]
    exact ⟨rfl, rfl, rfl, rfl, .inr ⟨h, rfl⟩, .refl _, rfl, rfl, rfl, rfl⟩
  · next hk =>
    simp only [hk, if_false]
    exact ⟨rfl, rfl, rfl, rfl, .refl _, .inr ⟨h, rfl⟩, rfl, rfl, rfl, rfl⟩

/-! ### The operations -/

/-- A frame's transmission begins on a link that is UP. -/
theorem State.transmit_portStep (s : State) (b : Fin 6) (f : TxFrame) (h : (s.branch b).link = .up) :
    s.PortStep (s.transmit b f) := s.mapBranch_portStep b (Branch.work_portStep _ _ _ _ h)

theorem State.mapUpStream_portStep (s : State) (b : Fin 6) (ch : Fin 8) {f : Stream → Stream}
    (h : ∀ a : Stream, a.PortStep (f a)) : s.PortStep (s.mapUpStream b ch f) := by
  unfold State.mapUpStream
  split
  · exact s.mapStream_portStep _ (h _)
  · exact .refl s

theorem State.beginControl_portStep (s : State) (b : Fin 6) (e : CtlEntry) (rest : List CtlEntry)
    (h : (s.branch b).link = .up) : s.PortStep (s.beginControl b e rest) := by
  have h1 : s.PortStep (s.mapBranch b (fun br => { br with queue := rest })) :=
    s.mapBranch_portStep b (Branch.work_portStep _ _ _ _ h)
  unfold State.beginControl
  cases e with
  | grant ch count =>
    have h2 := State.mapUpStream_portStep (s.mapBranch b (fun br => { br with queue := rest })) b ch
      (f := fun st => { st with queued := st.queued - count, inFlight := st.inFlight + count })
      (fun a => Stream.counts_portStep a _ _ _ _)
    have hl := ((h1.trans h2).branch b).link.trans h
    exact (h1.trans h2).trans (State.transmit_portStep _ b _ hl)
  | revoke ch dir => exact h1.trans (State.transmit_portStep _ b _ ((h1.branch b).link.trans h))

/-- The head of the close order that `closedHead?` gives is CLOSED. -/
theorem Stream.closedHead?_closed {st : Stream} {k : Fin 2} (h : st.closedHead? = some k) :
    (st.side k).state = .closed := by
  unfold Stream.closedHead? at h
  split at h
  · exact absurd h (by simp)
  · split at h
    · next hc => injection h with h; exact h ▸ hc
    · exact absurd h (by simp)

theorem State.beginDown_portStep (s : State) (b : Fin 6) (ch : Fin 8) (n : Fin 32) (k : Fin 2)
    (h : (s.branch b).link = .up) (hk : ((s.stream n).side k).state = .closed) :
    s.PortStep (s.beginDown b ch n k) := by
  have h1 : s.PortStep
      (s.mapStream n (fun st => { st.setSideState k .draining with credits := st.credits - 1 })) :=
    s.mapStream_portStep n (Stream.draining_portStep _ k _ hk)
  have h2 := h1.trans (State.mapBranch_portStep _ b (f := fun br => { br with pointer := ch })
    (Branch.work_portStep _ _ _ _ ((h1.branch b).link.trans h)))
  exact h2.trans (State.transmit_portStep _ b _ ((h2.branch b).link.trans h))

/-- All that the arbiter can do (R133): nothing, unless the link is UP and the transmitter IDLE; else the head control
frame; else, with no control frame, the DOWN frame of the stream chosen by round robin. -/
theorem State.arbitrate_cases (s : State) (b : Fin 6) :
    (s.arbitrate b = s) ∨
    ((s.branch b).link = .up ∧ (s.branch b).tx = .idle ∧
      ((∃ e rest, (s.branch b).queue = e :: rest ∧ s.arbitrate b = s.beginControl b e rest) ∨
       ((s.branch b).queue = [] ∧ ∃ ch n k, s.nextDown? b = some (ch, n) ∧ (s.stream n).closedHead? = some k ∧
          s.arbitrate b = s.beginDown b ch n k))) := by
  by_cases h : (s.branch b).link = .up ∧ (s.branch b).tx = .idle
  · rw [show s.arbitrate b = _ from rfl]
    unfold State.arbitrate
    simp only [h, and_self, if_true]
    cases hq : (s.branch b).queue with
    | cons e rest => exact .inr ⟨trivial, trivial, .inl ⟨e, rest, rfl, rfl⟩⟩
    | nil =>
      cases hn : s.nextDown? b with
      | none => exact .inl rfl
      | some p =>
        obtain ⟨ch, n⟩ := p
        cases hk : (s.stream n).closedHead? with
        | none => exact .inl (by simp [hk])
        | some k => exact .inr ⟨trivial, trivial, .inr ⟨rfl, ch, n, k, rfl, hk, by simp [hk]⟩⟩
  · exact .inl (by unfold State.arbitrate; rw [if_neg h])

theorem State.arbitrate_portStep (s : State) (b : Fin 6) : s.PortStep (s.arbitrate b) := by
  rcases s.arbitrate_cases b with h | ⟨hl, _, ⟨e, rest, _, h⟩ | ⟨_, ch, n, k, _, hk, h⟩⟩
  · rw [h]; exact .refl s
  · rw [h]; exact s.beginControl_portStep b e rest hl
  · rw [h]; exact s.beginDown_portStep b ch n k hl (Stream.closedHead?_closed hk)

/-- A transmitter that is not IDLE is left as it is. -/
theorem State.arbitrate_busy (s : State) (b : Fin 6) (h : (s.branch b).tx ≠ .idle) : s.arbitrate b = s := by
  unfold State.arbitrate
  rw [if_neg (fun hh => h hh.2)]

/-- A link that is not UP sends nothing. -/
theorem State.arbitrate_down (s : State) (b : Fin 6) (h : (s.branch b).link ≠ .up) : s.arbitrate b = s := by
  unfold State.arbitrate
  rw [if_neg (fun hh => h hh.1)]

theorem State.reportClosed_portStep (s : State) (n : Fin 32) : s.PortStep (s.reportClosed n) := by
  unfold State.reportClosed
  split
  · exact s.arbitrate_portStep _
  · exact .refl s

/-- All that the issue of grants can do (R129). -/
theorem State.issueGrants_cases (s : State) (n : Fin 32) :
    s.issueGrants n = s ∨
    ∃ k, (s.stream n).entry.key? = some k ∧ (s.stream n).entry.enabled = true ∧ k.dir = .up ∧
      (s.branch k.branch).link = .up ∧ 0 < (s.stream n).grantable ∧
      s.issueGrants n =
        ((s.mapStream n (fun st => { st with queued := st.queued + (s.stream n).grantable })).mapBranch k.branch
          (fun br => { br with queue := queueGrant br.queue k.channel (s.stream n).grantable })).arbitrate
            k.branch := by
  unfold State.issueGrants
  cases hk : (s.stream n).entry.key? with
  | none => exact .inl (by simp [hk])
  | some k =>
    simp only [hk]
    split
    · next h => exact .inr ⟨k, rfl, h.1, h.2.1, h.2.2.1, h.2.2.2, rfl⟩
    · exact .inl rfl

theorem State.issueGrants_portStep (s : State) (n : Fin 32) : s.PortStep (s.issueGrants n) := by
  rcases s.issueGrants_cases n with h | ⟨k, _, _, _, hl, _, h⟩
  · rw [h]; exact .refl s
  · rw [h]
    have h1 : s.PortStep (s.mapStream n (fun st => { st with queued := st.queued + (s.stream n).grantable })) :=
      s.mapStream_portStep n (Stream.counts_portStep _ _ _ _ _)
    have h2 := h1.trans (State.mapBranch_portStep _ k.branch
      (f := fun br => { br with queue := queueGrant br.queue k.channel (s.stream n).grantable })
      (Branch.work_portStep _ _ _ _ ((h1.branch _).link.trans hl)))
    exact h2.trans (State.arbitrate_portStep _ _)

theorem State.revokeKey_portStep (s : State) (n : Fin 32) (k : RouteKey) : s.PortStep (s.revokeKey n k) := by
  have h1 : s.PortStep (s.mapStream n Stream.noGrants) :=
    s.mapStream_portStep n (Stream.counts_portStep _ _ _ _ _)
  unfold State.revokeKey
  simp only
  split
  · next hl =>
    have h2 := h1.trans (State.mapBranch_portStep _ k.branch
      (f := fun br => { br with queue := queueRevoke br.queue k.channel k.dir })
      (Branch.work_portStep _ _ _ _ ((h1.branch _).link.trans hl)))
    exact h2.trans (State.arbitrate_portStep _ _)
  · exact h1

theorem State.revokeStream_portStep (s : State) (n : Fin 32) : s.PortStep (s.revokeStream n) := by
  unfold State.revokeStream
  split
  · exact s.revokeKey_portStep n _
  · exact .refl s

theorem State.resetPort_portStep (s : State) (b : Fin 6) : s.PortStep (s.resetPort b) := by
  unfold State.resetPort
  exact (State.overStreams_portStep State.revokeStream_portStep _ s).trans
    (State.overStreams_portStep State.issueGrants_portStep _ _)

end Sys2Proof.Machine
end

