-- ==== Sys2Proof/Tests/Slice0.lean ====
section
/-! SUPPORT. Tests: the check of each ill-formed term, the bytes of cells and frames, one step of each command on a small
state, and for each statement a state and operands that meet its hypotheses. Expected results are the manual's, or
worked by hand from its rules. -/

set_option maxRecDepth 20000

namespace Sys2Proof.Tests

open Sys2Proof Sys2Proof.Machine

/-! ### Small states -/

/-- The state that a command leaves. -/
def after (i : Instr) (s : State) : State :=
  match exec i s with
  | .next t => t
  | .fault _ => s
  | .refused _ => s

/-- A node in state `node` at address `a`, everything else at its power-on defaults. -/
def nodeIn (node : NodeState) (a : BitVec 6) : State :=
  { State.reset with trunk := { line := .present, node := node, addr := a, waiting := none, sending := none } }

/-- A RUNNING node at address 5. -/
def running : State := nodeIn .running 5

/-- An ADDRESSED node at address 5. -/
def addressed : State := nodeIn .addressed 5

/-- A LISTENING node. -/
def listening : State := nodeIn .listening 0

/-- A cell header to the node at address 5. -/
def toNode (stream : Byte) (seq : Bool) : CellHdr := { seq := seq, addr := 5, stream := stream }

/-- A cell header for stream 0 of the node at address 5. -/
def toMgmt : CellHdr := toNode 0 true

/-- The header fields of a request. -/
def fieldsOf (target : Half) (value : Word) (length : Half) : ReqFields :=
  { flags := 0, target := target, value := value, length := length, tag := 0xABCD#16 }

/-- A FLOW DOWN stream with one side of 32 bytes on branch 2, channel 3, in the last block of the pool. -/
def flowDown : Entry :=
  { Entry.default with enabled := true, dir := .down, branch := 2, channel := 3, baseBlock := 1023 }

/-- The same with two continuous sides and a burst count of 2. -/
def burstDown : Entry :=
  { flowDown with continuous := true, twoSides := true, sideSize := 2, baseBlock := 100, burstCount := 2,
                  holdAtEnd := true }

/-- A FLOW UP stream with two sides of 64 bytes on branch 2, channel 3. -/
def flowUp : Entry :=
  { Entry.default with enabled := true, branch := 2, channel := 3, baseBlock := 8, sideSize := 2, twoSides := true,
                       frameLimit := 32 }

/-- A CYCLIC DOWN stream with one side of 32 bytes and period 1. -/
def cyclicDown : Entry := { flowDown with cls := .cyclic, baseBlock := 0 }

/-- A CYCLIC UP stream with one side of 32 bytes and period 1. -/
def cyclicUp : Entry := { cyclicDown with dir := .up, frameLimit := 32 }

/-- The running node with stream 4 set up by an entry, OPEN, its record adjusted by `f`. -/
def withEntry (e : Entry) (f : Stream → Stream) : State :=
  { running with
    streams := running.streams.set 4 (f { Stream.idle e with response := .opened }),
    routes := match e.key? with
      | some k => running.routes.set k.index (some 4)
      | none => running.routes }

/-- The state with branch 2 adjusted by `f`. -/
def withPort (f : Branch → Branch) (s : State) : State := s.withBranch 2 (f (s.branch 2))

/-- A link that is UP, its transmitter IDLE. -/
def linkUp (br : Branch) : Branch := { br with link := .up, line := .present, tx := .idle }

/-- A link in TRAINING. -/
def training (br : Branch) : Branch := { br with link := .training, line := .present }

/-- A timebase LOCKED at count 41 by a marker taken at 1000 µs. -/
def locked : Timebase :=
  { Timebase.reset with state := .locked, count := 41, last := some { time := 16000, kind := .marker },
                        timer := some 20000 }

/-- A timebase COASTING at count 42 since an interpolated boundary at 1250 µs. -/
def coasting : Timebase :=
  { locked with state := .coasting, count := 42, consecutive := 1,
                last := some { time := 20000, kind := .interpolated false }, timer := some 24000 }

/-- The state with the timebase `t`. -/
def withTimebase (t : Timebase) (s : State) : State := { s with timebase := t }

/-- The state with the Management Engine adjusted. -/
def withMgmt (f : Mgmt → Mgmt) (s : State) : State := { s with mgmt := f s.mgmt }

/-- A CLOSED side with `n` bytes, closed by `cause`. -/
def closedSide (n : Nat) (cause : CloseCause) : Side :=
  { state := .closed, fill := n, drain := 0, cause := some cause, marked := false }

/-- The stream with a CLOSED side 0 of 32 bytes at the head of its close order. -/
def oneClosed (st : Stream) : Stream := { st with side0 := closedSide 32 .single, order := [0] }

/-! ### Ill-formed terms, one for each check -/

theorem wf_put_payload : (Instr.put toMgmt (List.replicate 1025 0)).wf = false := by decide
theorem wf_badCode_payload : (Instr.requestBadCode toMgmt (List.replicate 1025 0)).wf = false := by decide
theorem wf_badCode_names : (Instr.requestBadCode toMgmt (0x0F#8 :: List.replicate 11 0)).wf = false := by decide
theorem wf_enable_value : (Instr.branchEnable toMgmt (fieldsOf 0 2 0)).wf = false := by decide
theorem wf_enable_target : (Instr.branchEnable toMgmt (fieldsOf 6 1 0)).wf = false := by decide
theorem wf_disable_value : (Instr.branchDisable toMgmt (fieldsOf 0 1 0)).wf = false := by decide
theorem wf_retrain_value : (Instr.branchRetrain toMgmt (fieldsOf 0 4 0)).wf = false := by decide
theorem wf_control_acts : (Instr.branchControl toMgmt (fieldsOf 5 3 0)).wf = false := by decide
theorem wf_data_payload {p : List Byte} (h : p.length = 65536) : (Instr.data 0 0 p).wf = false := by
  simp [Instr.wf, framePayloadOk, h]
theorem wf_dataLast_payload {p : List Byte} (h : p.length = 65536) : (Instr.dataLast 0 0 p).wf = false := by
  simp [Instr.wf, framePayloadOk, h]
theorem wf_credit_payload {p : List Byte} (h : p.length = 65536) : (Instr.credit 0 0 p).wf = false := by
  simp [Instr.wf, framePayloadOk, h]

/-! ### Bytes (R177, 11.1, 11.2, 11.4), the checks worked outside the model -/

/-- The manual's example: the nine bytes 31h to 39h give 29B1h. -/
theorem test_crc_example :
    crc [0x31, 0x32, 0x33, 0x34, 0x35, 0x36, 0x37, 0x38, 0x39] = 0x29B1#16 := by decide

theorem test_bytes_cycle :
    cellCommand 7 [0x10, 0xAB, 0xCD, 0x00, 0x02, 0x12, 0x34, 0x8B, 0x5B] =
      .cycle { seq := false, addr := 0xAB, stream := 0xCD } 0x1234 7 := by decide
theorem test_bytes_put :
    cellCommand 0 [0x22, 0x05, 0x04, 0x00, 0x03, 0xDE, 0xAD, 0xBF, 0x62, 0xA9] =
      .put (toNode 4 true) [0xDE, 0xAD, 0xBF] := by decide
theorem test_bytes_fetch :
    cellCommand 0 [0x30, 0x05, 0x1F, 0x00, 0x00, 0xCE, 0xF5] = .fetch (toNode 31 false) := by decide
theorem test_bytes_ask :
    cellCommand 0 [0x42, 0x3F, 0x01, 0x00, 0x00, 0x8B, 0xD0] = .ask { seq := true, addr := 63, stream := 1 } := by
  decide
theorem test_bytes_ack :
    cellCommand 0 [0x62, 0x00, 0x00, 0x00, 0x00, 0x4C, 0x53] = .ack { seq := true, addr := 0, stream := 0 } := by
  decide
theorem test_bytes_set_response :
    cellCommand 0 [0x52, 0x05, 0x00, 0x00, 0x0C, 0x08, 0x00, 0x00, 0x04, 0x00, 0x00, 0x01, 0x01, 0x00, 0x00, 0xAB,
      0xCD, 0x07, 0xFF] = .setResponse toMgmt (fieldsOf 4 0x0101 0) := by decide
theorem test_bytes_branch_disable :
    cellCommand 0 [0x50, 0x05, 0x00, 0x00, 0x0C, 0x0A, 0x00, 0x00, 0x05, 0x00, 0x00, 0x00, 0x02, 0x00, 0x00, 0x00,
      0x07, 0xD9, 0x02] = .branchDisable (toNode 0 false) { fieldsOf 5 2 0 with tag := 7 } := by decide
theorem test_bytes_branch_control :
    cellCommand 0 [0x50, 0x05, 0x00, 0x00, 0x0C, 0x0A, 0x00, 0x00, 0x06, 0x00, 0x00, 0x00, 0x02, 0x00, 0x00, 0x00,
      0x07, 0xF4, 0x46] = .branchControl (toNode 0 false) { fieldsOf 6 2 0 with tag := 7 } := by decide
theorem test_bytes_bad_code :
    cellCommand 0 [0x50, 0x05, 0x00, 0x00, 0x01, 0x10, 0x7C, 0xD3] = .requestBadCode (toNode 0 false) [0x10] := by
  decide
theorem test_bytes_unknown_kind :
    cellCommand 0 [0x80, 0x05, 0x00, 0x00, 0x00, 0x8F, 0x99] = .cellUnknownKind := by decide
theorem test_bytes_bad_check :
    cellCommand 0 [0x30, 0x05, 0x1F, 0x00, 0x00, 0xCE, 0xF4] = .cellBadCheck := by decide
theorem test_bytes_align : frameCommand 1 [0x00, 0x00, 0x00, 0xCC, 0x9C] = .align 1 := by decide
theorem test_bytes_data : frameCommand 1 [0x13, 0x00, 0x02, 0x01, 0x02, 0x86, 0x97] = .data 1 3 [1, 2] := by decide
theorem test_bytes_data_last : frameCommand 1 [0x27, 0x00, 0x00, 0xCF, 0xCA] = .dataLast 1 7 [] := by decide
theorem test_bytes_credit : frameCommand 1 [0x42, 0x00, 0x01, 0x09, 0xA5, 0x2C] = .credit 1 2 [9] := by decide
theorem test_bytes_unwanted :
    frameCommand 1 [0x31, 0x00, 0x03, 0x01, 0x00, 0x20, 0xEC, 0xB2] = .unwantedFrame 1 := by decide
theorem test_bytes_frame_bad_check : frameCommand 1 [0x42, 0x00, 0x01, 0x09, 0xA5, 0x2D] = .frameBadCheck 1 := by
  decide
/-- The bytes that the part sends: a GRANT of 2 sides of 2048 bytes, a REVOKE of a DOWN key, a HALT with ATTN. -/
theorem test_bytes_grant :
    (TxFrame.grant 5 2 2048).bytes = [0x35, 0x00, 0x03, 0x02, 0x08, 0x00, 0x1E, 0x88] := by decide
theorem test_bytes_revoke : (TxFrame.revoke 6 .down).bytes = [0x56, 0x00, 0x01, 0x01, 0xF5, 0x72] := by decide
theorem test_bytes_halt :
    ({ answer := { kind := .halt, addr := 5, stream := 4, seq := true, payload := [] }, attn := true } : UpCell).bytes =
      [0xB3, 0x05, 0x04, 0x00, 0x00, 0xB1, 0x65] := by decide
/-- The entry at its power-on defaults reads as 11.5 says. -/
theorem test_entry_default :
    Entry.default.bytes = [0, 0, 0, 0, 0x00, 0x20, 0x01, 0x00, 0, 0, 0x01, 0, 0, 0, 0, 0] := by decide

/-! ### One step of each command -/

theorem test_reset_mask : (after .resetN running).events.mask = 0x0001FFFE#32 := by decide
theorem test_idle_step : step State.reset = .next State.reset := rfl
theorem test_signal_present : (after .trunkSignalPresent State.reset).trunk.node = .listening := by decide
theorem test_signal_lost_event :
    (after .trunkSignalLost running).events.records.map (fun r => (r.kind, r.detail, r.serial)) =
      [(.trunkLost, 3, 1)] := by decide
theorem test_line_reset :
    (after .lineReset addressed).trunk = { line := .present, node := .listening, addr := 0, waiting := none,
                                           sending := none } := by decide
theorem test_bad_check_saturates :
    (after .cellBadCheck { running with trunkCtr := { TrunkCounters.zero with badCheck := 0xFFFF } }).trunkCtr.badCheck =
      0xFFFF#16 := by decide
theorem test_unknown_kind : (after .cellUnknownKind listening).trunkCtr.unknownKind = 1 := by decide
theorem test_cycle_locks :
    (after (.cycle (toNode 9 false) 41 16000) listening).timebase = { locked with markers := 1 } := by decide
theorem test_cycle_measures :
    (after (.cycle (toNode 9 false) 42 19900) (withTimebase locked running)).timebase.measured = some 3900 := by decide
theorem test_timer_interpolates_or_loses :
    (after (.cycleTimerExpiry 20000) (withTimebase locked running)).timebase = { coasting with interpolated := 1 } ∧
    (after (.cycleTimerExpiry 24000) (withTimebase { coasting with consecutive := 3 } running)).timebase.state = .lost := by
  decide
/-- R103, marker first: the marker at the armed time makes the boundary of count 42, and the expiry that waited does not
happen. -/
theorem test_marker_first :
    (fun t : Timebase => (t.state, t.count, t.interpolated, t.timer)) (after (.cycleTimerExpiry 20000)
      (after (.cycle (toNode 9 false) 42 20000) (withTimebase locked running))).timebase = (.locked, 42, 0, some 24000) := by
  decide
theorem test_put_fills :
    (after (.put (toNode 4 false) [1, 2, 3]) (withEntry flowDown id)).pool =
      [(32736, 1), (32737, 2), (32738, 3)] := by decide
theorem test_put_burst_holds :
    ((after (.put (toNode 4 false) (List.replicate 32 7)) (withEntry burstDown fun st => { st with burst := 1 })).stream
      4).response = .hold := by decide
theorem test_fetch_data :
    ((after (.fetch (toNode 4 true)) (withEntry flowUp oneClosed)).trunk.waiting.map (fun a => (a.kind, a.seq))) =
      some (.data, false) := by decide
theorem test_fetch_cyclic_empty :
    ((after (.fetch (toNode 4 true)) (withTimebase locked (withEntry cyclicUp id))).trunk.waiting.map
      (fun a => (a.kind, a.seq))) = some (.empty, false) := by decide
theorem test_ask_room :
    ((after (.ask (toNode 4 true)) (withEntry flowDown id)).trunk.waiting.map (·.kind)) = some .ack := by decide
theorem test_ack_frees :
    ((after (.ack (toNode 4 false)) (after (.fetch (toNode 4 true)) (withEntry flowUp oneClosed))).stream 4).side0 =
      Side.empty := by decide
theorem test_bad_code :
    (after (.requestBadCode toMgmt [0x10]) running).mgmt.result = some { code := .badRequest, detail := 0, tag := 0 } := by
  decide
theorem test_assign_address :
    (after (.assignAddress { toMgmt with addr := 0 } (fieldsOf 0 63 0)) listening).mgmt.deferred =
      some (.address 63) := by decide
theorem test_read_identity :
    (after (.readIdentity toMgmt (fieldsOf 0 0 16)) running).mgmt.buffer =
      [(0, 0x6C), (1, 0x32), (2, 0x01), (3, 32), (4, 6), (5, 32), (6, 0x04)] := by decide
theorem test_start : (after (.start toMgmt (fieldsOf 0 0 0)) addressed).trunk.node = .running := by decide
theorem test_stop_holds :
    ((after (.stop toMgmt (fieldsOf 0 0 0)) (withEntry flowDown id)).stream 4).response = .hold := by decide
theorem test_set_cycle :
    (after (.setCycle toMgmt (fieldsOf 0 0x030F 0)) addressed).timebase.length = .us1000 := by decide
theorem test_write_stream_opens :
    (after (.writeStream toMgmt (fieldsOf 4 0 16)) running).mgmt.exchange = .dataOut := by decide
theorem test_write_stream_commits :
    (after (.put toMgmt flowUp.bytes) (after (.writeStream toMgmt (fieldsOf 4 0 16)) running)).route
      { branch := 2, channel := 3, dir := .up } = some 4 := by decide
theorem test_read_stream :
    ((after (.readStream toMgmt (fieldsOf 4 0 24)) (withEntry flowDown id)).mgmt.buffer.read 16) = 1 := by decide
theorem test_set_response_clears :
    (fun st : Stream => (st.response, st.seqBit)) ((after (.setResponse toMgmt (fieldsOf 4 0x0103 0))
      (withEntry flowDown fun st => { st with seqBit := true })).stream 4) = (.halt, false) := by decide
theorem test_reset_stream_waits :
    (after (.resetStream toMgmt (fieldsOf 4 0 0)) (withEntry flowDown fun st =>
      { st with side0 := { closedSide 32 .single with state := .draining }, order := [0] })).mgmt.exchange =
      .executing := by decide
theorem test_branch_enable :
    ((after (.branchEnable toMgmt (fieldsOf 2 1 0)) (withPort (fun br =>
      { br with link := .disabled, line := .present, tx := .silent }) running)).branch 2).link = .training := by decide
theorem test_branch_disable :
    ((after (.branchDisable toMgmt (fieldsOf 2 2 0)) running).branch 2).tx = .silent := by decide
theorem test_branch_retrain :
    (after (.branchRetrain toMgmt (fieldsOf 2 3 0)) (withPort linkUp running)).events.records.map
      (fun r => (r.kind, r.branch, r.detail)) = [(.branchDown, 2, 5)] := by decide
theorem test_read_events :
    (fun m : Mgmt => (m.snapLen, m.result.map (·.detail), m.deferred))
      (after (.readEvents toMgmt (fieldsOf 0 0 256)) { after .trunkSignalLost running with
        trunk := running.trunk }).mgmt = (8, some 0, some (.removal 1 0)) := by decide
theorem test_set_event_mask :
    (after (.setEventMask toMgmt (fieldsOf 0 0x00020000 0)) running).mgmt.result.map (·.code) = some .range := by decide
theorem test_read_counters :
    (after (.readCounters toMgmt (fieldsOf 0x0105 0 18)) running).mgmt.snapLen = 18 := by decide
theorem test_clear_counters :
    (after (.clearCounters toMgmt (fieldsOf 0x0200 0 0)) (after .cellBadCheck running)).trunkCtr.badCheck = 0 := by
  decide
theorem test_read_timebase :
    (after (.readTimebase toMgmt (fieldsOf 0 0 12)) (withTimebase locked running)).mgmt.buffer =
      [(0, 1), (2, 3), (5, 41), (7, 250)] := by decide
theorem test_answer_begin :
    (after .answerSendBegin (after (.ask (toNode 4 true)) running)).trunk.sending.map (·.attn) = some false := by decide
theorem test_answer_end :
    (after .answerSendEnd (after .answerSendBegin (after (.ask (toNode 4 true)) running))).trunk.sending = none := by
  decide
theorem test_branch_present : ((after (.branchSignalPresent 2) running).branch 2).link = .training := by decide
theorem test_branch_lost :
    ((after (.branchSignalLost 2) (withPort linkUp (withEntry flowUp fun st => { st with delivered := 1 }))).stream
      4).delivered = 0 := by decide
theorem test_frame_bad_check :
    ((after (.frameBadCheck 2) (withPort (fun br => { linkUp br with errors := 2 }) running)).branch 2).link =
      .training := by decide
theorem test_align_up_grants :
    ((after (.align 2) (withPort (fun br => { training br with aligns := 3 }) (withEntry flowUp id))).branch 2).tx =
      .busy (.grant 3 2 64) := by decide
theorem test_data_opens_side :
    (fun st : Stream => (st.side0.state, st.side0.fill, st.delivered)) ((after (.data 2 3 [1, 2]) (withPort linkUp
      (withEntry { flowUp with continuous := true } fun st => { st with delivered := 2 }))).stream 4) =
      (.filling, 2, 1) := by decide
theorem test_data_no_grant :
    ((after (.data 2 3 [1, 2]) (withPort linkUp (withEntry flowUp id))).branch 2).counters.noGrant = 1 := by decide
theorem test_data_last_closes :
    ((after (.dataLast 2 3 []) (withPort linkUp (withEntry flowUp fun st => { st with delivered := 1 }))).stream
      4).side0 = closedSide 0 .last := by decide
theorem test_credit_caps :
    ((after (.credit 2 3 [200]) (withPort linkUp (withEntry flowDown id))).stream 4).credits = 15 := by decide
theorem test_credit_sends :
    ((after (.credit 2 3 [1]) (withPort linkUp (withEntry flowDown fun st =>
      { oneClosed st with side0 := closedSide 0 .short }))).branch 2).tx = .busy (.data true 3 4 0 []) := by decide
theorem test_unwanted : ((after (.unwantedFrame 2) (withPort linkUp running)).branch 2).counters.unrouted = 1 := by decide
theorem test_control_frame_end :
    ((after (.controlFrameEnd 2) (withPort (fun br => { linkUp br with tx := .busy (.grant 3 2 64) })
      (withEntry flowUp fun st => { st with inFlight := 2 }))).stream 4).delivered = 2 := by decide
theorem test_data_frame_end :
    ((after (.dataFrameEnd 2) (withPort (fun br => { linkUp br with tx := .busy (.data false 3 4 0 [7]) })
      (withEntry flowDown fun st => { st with side0 := { closedSide 32 .single with state := .draining },
                                               order := [0] }))).stream 4).side0 =
      { closedSide 32 .single with drain := 1 } := by decide
theorem test_branch_control :
    (after (.branchControl toMgmt (fieldsOf 6 1 0)) running).mgmt.result.map (·.code) = some .range := by decide
/-- A queue that holds 32 records, with the mask and serial of 10.5. -/
def fullQueue : EventQueue :=
  { records := List.replicate 32 { kind := .branchUp, stream := 1, branch := 1, detail := 0, count := 0, serial := 0 },
    serial := 132, lost := 0, mask := 0x0001FBFE#32 }

/-- 10.5, steps 2 and 3: an event that finds the list full takes a serial and is lost; a masked-out one takes none. -/
theorem test_offer_full :
    (fun q : EventQueue => (q.records.length, q.serial, q.lost))
      ((fullQueue.offer 0 .overrun 1 1 6).offer 0 .timebaseCoasting 0xFF 0xFF 0) = (32, 133, 1) := by decide

/-! ### Witnesses: states and operands that meet the hypotheses of each statement, clause by clause -/

/-- A DRAINING side with `n` bytes of which `d` are sent. -/
def drainingSide (n d : Nat) (marked : Bool) : Side :=
  { state := .draining, fill := n, drain := d, cause := some .single, marked := marked }

/-- The stream with the outstanding packet of its DRAINING side 0. -/
def outstanding (cause : CloseCause) (n d len : Nat) (st : Stream) : Stream :=
  { st with side0 := { drainingSide n d false with cause := some cause }, order := [0],
            packet := some { side := 0, offset := d, len := len, seq := false } }

/-- The header of a request with these fields that the Management Engine holds. -/
def holding (r : Request) (f : ReqFields) (m : Mgmt) : Mgmt :=
  { m with header := some { code := r.code, fields := some f } }

/-- A DATA-OUT stage of a WRITE-STREAM for `target` that has taken `n` bytes. -/
def gathering (target : Half) (n : Nat) (m : Mgmt) : Mgmt :=
  { holding .writeStream (fieldsOf target 0 16) m with exchange := .dataOut, outCount := n, seqBit := true }

/-- The bytes that a WRITE-STREAM of entry `e` gathers. -/
def gathered (e : Entry) : Entry := Entry.ofBytes ((Memory.writeBytes Config.bufferBytes [] 0 e.bytes).readBytes 0 16)

theorem wit_StepTakesTheFrontCommand :
    ({ running with pending := [.trunkSignalLost, .resetN] } : State).pending = .trunkSignalLost :: [.resetN] := rfl

/-- A stream on a link that is UP with a frame in transmission, and one on a link that is DOWN. -/
theorem wit_LineReportsByStatus :
    let s := withPort (fun br => { linkUp br with tx := .busy (.revoke 1 .down) }) (withEntry flowUp oneClosed)
    State.reset.trunk.line = .absent ∧ s.trunk.line = .present ∧ s.RouteLaw ∧ s.OnBranch 2 4 ∧ (s.branch 2).link = .up ∧
    (s.branch 2).tx ≠ .idle ∧ (s.stream 4).entry.key? = some { branch := 2, channel := 3, dir := .up } ∧
    ((withEntry flowUp id).branch 2).link ≠ .up := by
  exact ⟨rfl, rfl, ⟨by decide, by decide⟩, by decide, rfl, by decide, by decide, by decide⟩

theorem wit_CellsCountedOrPassedOver :
    running.Receives ∧ ¬ running.Takes { toMgmt with addr := 6 } ∧ ¬ State.reset.Receives ∧
    ¬ (after .answerSendBegin (after (.ask (toNode 4 true)) running)).Receives ∧
    (Instr.start toMgmt (fieldsOf 0 0 0)).request? = some (toMgmt, .start, fieldsOf 0 0 0) := by decide

theorem wit_DispatchChecksAnswerHalt :
    addressed.Takes (toNode 1 true) ∧ addressed.trunk.node ≠ .running ∧
    (running.Takes (toNode 31 true) ∧ ∀ n, (toNode 31 true).stream? = some n → (running.stream n).entry.enabled = false) ∧
    (running.Takes (toNode 32 true) ∧ (toNode 32 true).stream? = none) ∧
    ((withEntry flowUp id).Takes (toNode 4 true) ∧ (toNode 4 true).stream? = some 4 ∧
      ((withEntry flowUp id).stream 4).entry.dir = .up) ∧
    ((withEntry flowDown id).stream 4).entry.dir = .down ∧ ((withEntry cyclicDown id).stream 4).entry.cls = .cyclic := by
  decide

theorem wit_AcksThatCompleteNothing :
    listening.Takes { seq := true, addr := 0, stream := 255 } ∧ ({ seq := true, addr := 0, stream := 255 } : CellHdr).stream? = none ∧
    ((withEntry flowUp id).Takes (toNode 4 true) ∧ ((withEntry flowUp id).stream 4).packet = none) ∧
    ¬ ((withEntry flowDown id).stream 4).entry.Is .flow .up := by decide

theorem wit_AnswerSendBeginAndEnd :
    (after (.ask (toNode 4 true)) running).trunk.waiting =
      some { kind := .halt, addr := 5, stream := 4, seq := true, payload := [] } ∧
    (after (.ask (toNode 4 true)) running).trunk.sending = none := by decide

theorem wit_FlowAskAnswered :
    (withEntry flowDown id).Reaches (toNode 4 true) 4 ∧ ((withEntry flowDown id).stream 4).entry.Is .flow .down ∧
    ((withEntry flowDown id).stream 4).response = .opened ∧ ((withEntry flowDown id).stream 4).room = true ∧
    ((withEntry flowDown oneClosed).stream 4).room = false ∧
    ((withEntry flowDown fun st => { st with response := .hold }).stream 4).response = .hold ∧
    ((withEntry flowDown fun st => { st with response := .halt }).stream 4).response = .halt ∧
    ¬ (((withEntry flowDown id).stream 4).side0.state = .filling ∧ ((withEntry flowDown id).stream 4).side1.state = .filling) := by
  decide

theorem wit_FlowPutRefusedInOrder :
    (withEntry flowDown id).Reaches (toNode 4 false) 4 ∧ ((withEntry flowDown id).stream 4).entry.Is .flow .down ∧
    ((withEntry flowDown id).stream 4).response = .opened ∧
    ((withEntry flowDown id).stream 4).entry.maxPayload.toNat < (List.replicate 33 (0 : Byte)).length ∧
    (List.replicate 32 (0 : Byte)).length ≤ ((withEntry flowDown id).stream 4).entry.maxPayload.toNat ∧
    (toNode 4 true).seq ≠ ((withEntry flowDown id).stream 4).seqBit ∧
    (toNode 4 false).seq = ((withEntry flowDown oneClosed).stream 4).seqBit ∧
    ((withEntry flowDown oneClosed).stream 4).room = false := by decide

/-- A full-size packet that fills the last side of the pool; the link may be UP with an IDLE transmitter and a credit. -/
theorem wit_FlowPutAccepted :
    (withEntry flowDown id).Reaches (toNode 4 false) 4 ∧ ((withEntry flowDown id).stream 4).entry.Is .flow .down ∧
    ((withEntry flowDown id).stream 4).response = .opened ∧ ((withEntry flowDown id).stream 4).room = true ∧
    (toNode 4 false).seq = ((withEntry flowDown id).stream 4).seqBit ∧
    ((withEntry flowDown id).stream 4).FillsInto 0 ∧ 32 ≤ ((withEntry flowDown id).stream 4).entry.capacity - 0 ∧
    (withEntry flowDown id).pool.wf Config.poolBytes = true ∧
    ((withEntry flowDown id).stream 4).entry.byteAddr 0 0 + 32 = Config.poolBytes ∧
    (fun s : State => s.Reaches (toNode 4 false) 4 ∧ (s.branch 2).link = .up ∧ (s.branch 2).tx = .idle ∧
      (s.stream 4).credits = 1) (withPort linkUp (withEntry flowDown fun st => { st with credits := 1 })) := by
  decide

theorem wit_FlowFetchAnswered :
    (withEntry flowUp id).Reaches (toNode 4 true) 4 ∧ ((withEntry flowUp id).stream 4).entry.Is .flow .up ∧
    (∀ k, ¬ ((withEntry flowUp id).stream 4).Drains k) ∧ ((withEntry flowUp oneClosed).stream 4).Drains 0 ∧
    ((withEntry flowUp oneClosed).stream 4).packet = none ∧
    ((withEntry flowUp (outstanding .single 64 32 32)).stream 4).packet =
      some { side := 0, offset := 32, len := 32, seq := false } ∧
    ((withEntry flowUp fun st => { st with response := .hold }).stream 4).response = .hold ∧
    ((withEntry flowUp fun st => { st with response := .halt }).stream 4).response = .halt := by decide

/-- A packet that ends a side, one that leaves bytes, one that leaves an end packet due, and the end packet. -/
theorem wit_FlowAckCompletesPacket :
    (withEntry flowUp (outstanding .single 64 32 32)).Takes (toNode 4 true) ∧ (toNode 4 true).stream? = some 4 ∧
    ((withEntry flowUp id).stream 4).entry.enabled = true ∧
    (fun st : Stream => st.side0.drain + 32 = st.side0.fill ∧ st.side0.cause ≠ some .last)
      ((withEntry flowUp (outstanding .single 64 32 32)).stream 4) ∧
    (fun st : Stream => st.side0.drain + 32 ≠ st.side0.fill) ((withEntry flowUp (outstanding .single 64 0 32)).stream 4) ∧
    (fun st : Stream => st.side0.drain + 32 = st.side0.fill ∧ st.side0.cause = some .last ∧ st.side0.fill % 32 = 0)
      ((withEntry flowUp (outstanding .last 64 32 32)).stream 4) ∧
    ((withEntry flowUp (outstanding .last 64 64 0)).stream 4).packet =
      some { side := 0, offset := 64, len := 0, seq := false } := by decide

theorem wit_DueCyclesRepeatByPeriod :
    ({ cyclicDown with periodExp := 5, phase := 31 } : Entry).periodExp.toNat ≤ 16 := by decide

theorem wit_CyclicPutRefusedInOrder :
    let off : Entry := { cyclicDown with periodExp := 1 }
    let at41 (e : Entry) (f : Stream → Stream) : State := withTimebase locked (withEntry e f)
    (at41 cyclicDown id).Reaches (toNode 4 true) 4 ∧ ((at41 cyclicDown id).stream 4).entry.Is .cyclic .down ∧
    ((withEntry cyclicDown id).timebase.state = .unsynced) ∧ (at41 off id).timebase.state = .locked ∧
    ((at41 off id).stream 4).entry.due 41 = false ∧ ((at41 cyclicDown id).stream 4).entry.due 41 = true ∧
    ((at41 cyclicDown fun st => { st with served := true }).stream 4).served = true ∧
    (∀ k ∈ ((at41 cyclicDown oneClosed).stream 4).entry.sideNos, (((at41 cyclicDown oneClosed).stream 4).side k).state ≠ .free) ∧
    (∃ k ∈ ((at41 cyclicDown id).stream 4).entry.sideNos, (((at41 cyclicDown id).stream 4).side k).state = .free) ∧
    ((at41 cyclicDown id).stream 4).entry.maxPayload.toNat < 33 := by decide

theorem wit_CyclicPutAccepted :
    let s := withTimebase locked (withEntry cyclicDown id)
    s.Reaches (toNode 4 true) 4 ∧ (s.stream 4).entry.Is .cyclic .down ∧ (s.stream 4).response = .opened ∧
    s.timebase.state = .locked ∧ (s.stream 4).entry.due s.timebase.count = true ∧ (s.stream 4).served = false ∧
    0 ∈ (s.stream 4).entry.sideNos ∧ (s.stream 4).side 0 = Side.empty ∧ 32 ≤ (s.stream 4).entry.maxPayload.toNat ∧
    32 ≤ (s.stream 4).entry.capacity ∧ s.pool.wf Config.poolBytes = true ∧
    (s.stream 4).entry.byteAddr 0 0 + 32 ≤ Config.poolBytes := by decide

theorem wit_CyclicFetchAnswered :
    let off : Entry := { cyclicUp with periodExp := 1 }
    let at41 (e : Entry) (f : Stream → Stream) : State := withTimebase locked (withEntry e f)
    (at41 cyclicUp id).Reaches (toNode 4 true) 4 ∧ ((at41 cyclicUp id).stream 4).entry.Is .cyclic .up ∧
    (withEntry cyclicUp id).timebase.state = .unsynced ∧ ((at41 off id).stream 4).entry.due 41 = false ∧
    ((at41 cyclicUp id).stream 4).entry.due 41 = true ∧
    ((at41 cyclicUp fun st => { st with served := true }).stream 4).served = true ∧
    ((at41 cyclicUp oneClosed).stream 4).Drains 0 ∧ (∀ k, ¬ ((at41 cyclicUp id).stream 4).Drains k) := by decide

/-- A locked node whose CYCLIC UP stream is due in count 41, unserved, with stale flush and a CLOSED side. -/
def flushing : State := withTimebase locked (withEntry { cyclicUp with staleFlush := true } oneClosed)

/-- A locked node whose CYCLIC DOWN stream has a HELD side. -/
def releasing : State := withTimebase locked (withEntry cyclicDown fun st =>
  { st with side0 := { closedSide 32 .cyclic with state := .held }, order := [0], served := true })

theorem wit_MarkerLocksTimebase :
    (releasing.stream 4).Releases ∧ listening.Receives ∧ listening.timebase.state = .unsynced ∧
    (withTimebase { locked with state := .lost, consecutive := 3, timer := none } running).timebase.state = .lost := by
  decide

/-- At the end of the capture window, L/8 = 31.25 µs after the boundary. -/
theorem wit_MarkerClaimsBoundary :
    let s := withTimebase coasting running
    s.Receives ∧ s.timebase.state = .coasting ∧ s.timebase.last = some { time := 20000, kind := .interpolated false } ∧
    20500 - 20000 = s.timebase.length.ticks / 8 := by decide

/-- The last moment of a runt, and the first after the capture window of an interpolated boundary. -/
theorem wit_RuntMarkerDiscarded :
    let s := withTimebase locked running
    let r := withTimebase coasting running
    s.Receives ∧ s.timebase.state = .locked ∧ s.timebase.last = some { time := 16000, kind := .marker } ∧
    17999 - 16000 < s.timebase.length.ticks / 2 ∧
    ¬ (20501 - 20000 ≤ r.timebase.length.ticks / 8) ∧ 20501 - 20000 < r.timebase.length.ticks / 2 := by decide

theorem wit_MarkerMakesBoundary :
    let s := withTimebase locked running
    s.Receives ∧ s.timebase.state = .locked ∧ s.timebase.last = some { time := 16000, kind := .marker } ∧
    ¬ (BoundaryKind.marker = .interpolated false) ∧ s.timebase.length.ticks / 2 = 18000 - 16000 ∧
    (flushing.stream 4).Misses 41 ∧ (flushing.stream 4).Flushes 41 0 ∧ (releasing.stream 4).Releases := by decide

theorem wit_TimerMakesInterpolatedBoundary :
    let s := withTimebase { coasting with consecutive := 2 } running
    s.timebase.timer = some 24000 ∧ s.timebase.consecutive < s.timebase.coastLimit ∧
    flushing.timebase.timer = some 20000 ∧ flushing.timebase.consecutive < flushing.timebase.coastLimit ∧
    (flushing.stream 4).Flushes 41 0 ∧ releasing.timebase.timer = some 20000 ∧ (releasing.stream 4).Releases := by decide

theorem wit_TimerLosesTimebase :
    let s := withTimebase { coasting with consecutive := 3 } (withEntry cyclicDown oneClosed)
    s.timebase.timer = some 24000 ∧ s.timebase.coastLimit ≤ s.timebase.consecutive ∧
    (s.stream 4).entry.enabled = true ∧ (s.stream 4).entry.cls = .cyclic ∧
    ¬ ((s.stream 5).entry.enabled = true ∧ (s.stream 5).entry.cls = .cyclic) ∧ running.timebase.timer ≠ some 24000 ∧
    (withTimebase locked running).timebase.timer ≠ some 24000 := by decide

theorem wit_BranchSignalReports :
    (running.branch 2).link = .down ∧ ((withPort training running).branch 2).link = .training ∧
    ((withPort (fun br => { br with link := .disabled, tx := .silent }) running).branch 2).link = .disabled := by decide

theorem wit_LinkLeavesUp :
    let s := withPort (fun br => { linkUp br with errors := 2 }) (withEntry flowUp oneClosed)
    (s.branch 2).link = .up ∧ (s.branch 2).errors = 2 ∧ s.OnBranch 2 4 ∧ s.TakesRequest toMgmt (fieldsOf 2 2 0) ∧
    (fieldsOf 2 3 0).length = 0 ∧ (fieldsOf 2 3 0).target.toNat = (2 : Fin 6).val := by decide

theorem wit_TrainingFramesCounted :
    (fun br : Branch => br.link = .training ∧ br.aligns < 3)
      ((withPort (fun br => { training br with aligns := 2 }) running).branch 2) ∧
    (fun br : Branch => br.link = .up ∧ br.errors < 2) ((withPort (fun br => { linkUp br with errors := 1 }) running).branch 2) ∧
    ((withPort (fun br => { br with link := .disabled, tx := .silent }) running).branch 2).link = .disabled := by decide

theorem wit_FourthAlignBringsLinkUp :
    let s := withPort (fun br => { training br with aligns := 3 }) (withEntry flowUp id)
    (s.branch 2).link = .training ∧ (s.branch 2).aligns = 3 ∧ (s.branch 2).tx = .aligning ∧ s.OnBranch 2 4 ∧
    (s.stream 4).entry.dir = .up ∧ (s.stream 4).grants = 0 ∧ (s.branch 2).queue = [] ∧
    (∀ k ∈ (s.stream 4).entry.key?, s.route k = some 4) ∧
    (∀ m, m ≠ 4 → ∀ k ∈ (s.stream m).entry.key?, s.route k ≠ some 4) := by decide

theorem wit_DataFramesDropped :
    let up (f : Stream → Stream) : State := withPort linkUp (withEntry { flowUp with continuous := true } f)
    ((withPort linkUp running).branch 2).link = .up ∧
    (withPort linkUp running).route { branch := 2, channel := 3, dir := .up } = none ∧ 256 < 257 ∧
    (up id).route { branch := 2, channel := 3, dir := .up } = some 4 ∧
    ((up id).stream 4).entry.frameLimit.toNat < 33 ∧
    (fun st : Stream => (0 : Fin 2) ∈ st.entry.sideNos ∧ (st.side 0).state = .filling ∧
        (∀ j, j ≠ 0 → (st.side j).state ≠ .filling) ∧ st.entry.capacity - (st.side 0).fill < 32)
      ((up fun st => { st with side0 := { state := .filling, fill := 33, drain := 0, cause := none, marked := false } }).stream
        4) ∧
    (fun st : Stream => (∀ k, (st.side k).state ≠ .filling) ∧ st.delivered = 0) ((up id).stream 4) := by decide

theorem wit_DataFramesFillSides :
    let s := withPort linkUp (withEntry flowUp fun st => { st with delivered := 1 })
    (s.branch 2).link = .up ∧ s.route { branch := 2, channel := 3, dir := .up } = some 4 ∧
    32 ≤ (s.stream 4).entry.frameLimit.toNat ∧ (s.stream 4).FillsInto 0 ∧
    32 ≤ (s.stream 4).entry.capacity - ((s.stream 4).side 0).fill ∧ ((s.stream 4).side 0).state = .free ∧
    1 ≤ (s.stream 4).delivered ∧ s.pool.wf Config.poolBytes = true ∧
    (s.stream 4).entry.byteAddr 0 ((s.stream 4).side 0).fill + 32 ≤ Config.poolBytes := by decide

theorem wit_CreditsAndUnwantedFrames :
    let s := withPort linkUp (withEntry flowDown id)
    (s.branch 2).link = .up ∧ s.route { branch := 2, channel := 3, dir := .down } = some 4 ∧
    s.route { branch := 2, channel := 4, dir := .down } = none ∧ ([1, 2] : List Byte).length ≠ 1 := by decide

theorem wit_ControlFrameEnds :
    let s := withPort (fun br => { linkUp br with tx := .busy (.revoke 3 .down) }) running
    let g := withPort (fun br => { linkUp br with tx := .busy (.grant 3 2 64) })
      (withEntry flowUp fun st => { st with inFlight := 2 })
    (s.branch 2).link = .up ∧ (s.branch 2).tx = .busy (.revoke 3 .down) ∧ (g.branch 2).link = .up ∧ (g.branch 2).tx = .busy (.grant 3 2 64) ∧
    g.route { branch := 2, channel := 3, dir := .up } = some 4 := by decide

theorem wit_DataFrameEnds :
    let s (sd : Side) : State := withPort (fun br => { linkUp br with tx := .busy (.data false 3 4 0 [7]) })
      (withEntry flowDown fun st => { st with side0 := sd, order := [0] })
    ((s (drainingSide 32 0 true)).branch 2).tx = .busy (.data false 3 4 0 [7]) ∧
    (((s (drainingSide 32 0 true)).stream 4).side 0).marked = true ∧
    (fun sd : Side => sd.marked = false ∧ sd.drain + [(7 : Byte)].length = sd.fill)
      (((s (drainingSide 32 31 false)).stream 4).side 0) ∧
    (fun sd : Side => sd.marked = false ∧ sd.drain + [(7 : Byte)].length ≠ sd.fill)
      (((s (drainingSide 32 30 false)).stream 4).side 0) := by decide

theorem wit_ArbiterPicksTheNextFrame :
    let q (e : CtlEntry) : State := withPort (fun br => { linkUp br with queue := [e] }) (withEntry flowUp fun st =>
      { st with queued := 2 })
    let s := withPort (fun br => { linkUp br with pointer := 3 }) (withEntry flowDown fun st => { oneClosed st with credits := 1 })
    ((q (.revoke 3 .up)).branch 2).queue = [.revoke 3 .up] ∧ ((q (.grant 3 2)).branch 2).queue = [.grant 3 2] ∧
    (q (.grant 3 2)).route { branch := 2, channel := 3, dir := .up } = some 4 ∧
    (s.branch 2).link = .up ∧ (s.branch 2).tx = .idle ∧ (s.branch 2).queue = [] ∧ (s.branch 2).pointer + 1 + 7 = 3 ∧
    s.route { branch := 2, channel := 3, dir := .down } = some 4 ∧ (s.stream 4).entry.enabled = true ∧
    (s.stream 4).Drains 0 ∧ 1 ≤ (s.stream 4).credits ∧
    (∀ j : Fin 8, j < 7 → s.route { branch := 2, channel := (s.branch 2).pointer + 1 + j, dir := .down } = none) := by decide

theorem wit_ControlQueueKeepsItsLaw :
    let q : List CtlEntry := [.revoke 3 .up, .grant 3 2, .revoke 3 .down]
    let s := withPort linkUp (withEntry flowUp id)
    (linkUp Branch.reset).QueueLaw ∧ ({ linkUp Branch.reset with queue := q } : Branch).QueueLaw ∧
    q = [.revoke 3 .up] ++ .grant 3 2 :: [.revoke 3 .down] ∧ .revoke 3 .up ∈ q ∧
    .revoke 4 .up ∉ q ∧ (s.stream 4).entry.key? = some { branch := 2, channel := 3, dir := .up } ∧
    (s.stream 4).entry.enabled = true ∧ (s.branch 2).link = .up ∧ (s.stream 4).entry.sideCount = 2 ∧
    (s.stream 4).entry.sideNos.filter (fun j => ((s.stream 4).side j).state != .free) = [] ∧
    ((withEntry flowUp id).branch 2).link ≠ .up := by decide

theorem wit_ControlQueueKeepsItsLaw_no_grant :
    ∀ m, CtlEntry.grant 4 m ∉ ([.revoke 3 .up, .grant 3 2, .revoke 3 .down] : List CtlEntry) := by simp

theorem wit_RequestBeginsItsExchange :
    let s := withMgmt (gathering 4 8) running
    (Instr.start toMgmt (fieldsOf 0 0 0)).wf = true ∧
    (Instr.start toMgmt (fieldsOf 0 0 0)).request? = some (toMgmt, .start, fieldsOf 0 0 0) ∧ s.Takes toMgmt ∧
    toMgmt.stream = 0 ∧ s.mgmt.exchange = .dataOut ∧ s.mgmt.exchange ≠ .idle ∧ s.mgmt.exchange ≠ .failed ∧
    running.mgmt.exchange = .idle ∧ namesRequest [0x10] = false := by decide

theorem wit_HeaderChecksRefuse :
    running.Takes toMgmt ∧ toMgmt.stream = 0 ∧ running.mgmt.exchange = .idle ∧
    ({ fieldsOf 0 0 0 with flags := 1 } : ReqFields).flags ≠ 0 ∧ Request.readEvents.lengthOk 257 = false ∧
    Request.readEvents.lengthOk 256 = true ∧ Request.readCounters.lengthOk 19 = false ∧
    Request.start.allowedIn running.trunk.node = false ∧ Request.stop.allowedIn running.trunk.node = true ∧ (Instr.branchEnable toMgmt (fieldsOf 5 1 0)).wf = true := by decide

theorem wit_BadRequestsAndStrayRequests :
    namesRequest [0x10] = false ∧ namesRequest (0x10 :: List.replicate 11 0) = false ∧ running.Takes toMgmt ∧
    running.mgmt.exchange = .idle ∧ running.Takes (toNode 1 true) ∧ (toNode 1 true).stream ≠ 0 ∧
    (Instr.stop (toNode 1 true) (fieldsOf 0 0 0)).request? = some (toNode 1 true, .stop, fieldsOf 0 0 0) := by decide

theorem wit_AssignAddressIsDeferred :
    listening.TakesRequest { toMgmt with addr := 0 } (fieldsOf 0 63 0) ∧ (fieldsOf 0 63 0).length = 0 ∧
    listening.trunk.node = .listening ∧ (fieldsOf 0 63 0).target = 0 ∧ (fieldsOf 0 63 0).value.toNat ≤ 63 ∧
    63 < (fieldsOf 0 64 0).value.toNat ∧ (fieldsOf 1 63 0).target ≠ 0 := by decide

theorem wit_StartAndStopMoveTheNode :
    addressed.TakesRequest toMgmt (fieldsOf 0 0 0) ∧ addressed.trunk.node = .addressed ∧
    running.TakesRequest toMgmt (fieldsOf 0 0 0) ∧ running.trunk.node = .running := by decide

theorem wit_SetCycleRestartsTheTimebase :
    addressed.TakesRequest toMgmt (fieldsOf 0 0x030F 0) ∧ addressed.trunk.node = .addressed ∧
    (fieldsOf 0 0x030F 0).value.toNat / 256 = 3 ∧ (fieldsOf 0 0x030F 0).value.toNat % 256 = 15 ∧
    3 < (fieldsOf 0 0x0401 0).value.toNat / 256 ∧ 3 < (fieldsOf 0 0x00010001 0).value.toNat / 256 ∧
    (fieldsOf 0 0x0300 0).value.toNat % 256 = 0 ∧ 15 < (fieldsOf 0 0x0310 0).value.toNat % 256 := by decide

theorem wit_ReadRequestsTakeSnapshots :
    running.TakesRequest toMgmt (fieldsOf 31 0 24) ∧ (fieldsOf 31 0 24).target.toNat = (31 : Fin 32).val ∧
    31 < (fieldsOf 32 0 24).target.toNat ∧ counterGroupOf? 0x0106 = none ∧ counterGroupOf? 0x0105 = some (.branch 5) ∧
    (fieldsOf 0x0105 0 20).length.toNat ≠ (CounterGroup.branch 5).recordLength ∧
    (fieldsOf 0x0300 0 8).length.toNat = CounterGroup.timebase.recordLength ∧
    (fieldsOf 0 0 256).length.toNat ≤ 256 ∧ (fieldsOf 0 0 256).length.toNat % 8 = 0 := by decide

theorem wit_SetResponseClaims :
    (withEntry flowDown id).TakesRequest toMgmt (fieldsOf 4 0x0101 0) ∧
    (fieldsOf 4 0x0101 0).value.toNat % 256 = 1 ∧ (fieldsOf 4 0x0101 0).value.toNat / 256 = 1 ∧
    (fieldsOf 4 0x0101 0).target.toNat = (4 : Fin 32).val ∧ ((withEntry flowDown id).stream 4).entry.enabled = true ∧
    (withEntry flowDown id).trunk.node = .running ∧ (running.stream 4).entry.enabled = false ∧
    1 < (fieldsOf 4 0x0201 0).value.toNat / 256 ∧ 3 < (fieldsOf 4 4 0).value.toNat % 256 := by decide

theorem wit_ResetStreamEmptiesOne :
    let s := withEntry flowDown fun st => { st with side0 := drainingSide 32 0 false, order := [0] }
    s.TakesRequest toMgmt (fieldsOf 4 0 0) ∧ (fieldsOf 4 0 0).target.toNat = (4 : Fin 32).val ∧
    (s.stream 4).entry.enabled = true ∧ (s.stream 4).entry.dir = .down ∧ (s.stream 4).side0.state = .draining ∧
    s.OnBranch 2 4 ∧ (s.branch 2).link ≠ .up ∧
    (fun u : State => (u.branch 2).link = .up ∧ (u.branch 2).tx ≠ .idle ∧ (u.stream 4).entry.enabled = true ∧
        (u.stream 4).entry.key? = some { branch := 2, channel := 3, dir := .up } ∧ u.TakesRequest toMgmt (fieldsOf 4 0 0))
      (withPort (fun br => { linkUp br with tx := .busy (.revoke 1 .down) }) (withEntry flowUp oneClosed)) ∧
    (running.stream 4).entry.enabled = false ∧ 31 < (fieldsOf 32 0 0).target.toNat := by decide

theorem wit_BranchControlActs :
    running.TakesRequest toMgmt (fieldsOf 5 1 0) ∧ (fieldsOf 5 1 0).target.toNat = (5 : Fin 6).val ∧
    (fieldsOf 5 1 0).value = 1 ∧ (running.branch 5).link = .down ∧
    ((withPort training running).branch 2).link = .training ∧
    ((withPort (fun br => { br with link := .disabled, tx := .silent }) running).branch 2).link = .disabled ∧
    5 < (fieldsOf 6 1 0).target.toNat ∧ 3 < (fieldsOf 0 4 0).value.toNat := by decide

theorem wit_ClearCountersAndSetEventMask :
    running.TakesRequest toMgmt (fieldsOf 31 0 0) ∧ (fieldsOf 31 0 0).target.toNat = (31 : Fin 32).val ∧
    (fieldsOf 0x0105 0 0).target.toNat = 256 + (5 : Fin 6).val ∧ 261 < (fieldsOf 0x0106 0 0).target.toNat ∧
    (fieldsOf 0x0200 0 0).target.toNat = 512 ∧ (fieldsOf 0x0300 0 0).target.toNat = 768 ∧
    (∃ j < 32, (fieldsOf 0 0x00020000 0).value.getLsbD j = true ∧ (j = 0 ∨ 16 < j)) ∧
    (∀ j < 32, (fieldsOf 0 0x0001FFFE 0).value.getLsbD j = true → 1 ≤ j ∧ j ≤ 16) := by decide

theorem wit_OutDataIsGathered :
    let s := withMgmt (gathering 4 0) running
    running.TakesRequest toMgmt (fieldsOf 4 0 16) ∧ running.trunk.node = .running ∧ s.Takes toMgmt ∧
    s.mgmt.exchange = .dataOut ∧ (toNode 0 false).seq ≠ s.mgmt.seqBit ∧ toMgmt.seq = s.mgmt.seqBit ∧
    s.mgmt.outCount + 15 < s.mgmt.declared ∧ s.mgmt.declared ≤ 64 ∧
    s.mgmt.buffer.wf Config.bufferBytes = true := by decide

theorem wit_WriteStreamRefusedWhole :
    let s (target : Half) (st : State) : State := withMgmt (gathering target 0) st
    (s 4 running).Takes toMgmt ∧ (s 4 running).mgmt.exchange = .dataOut ∧ toMgmt.seq = (s 4 running).mgmt.seqBit ∧
    flowUp.bytes.length = 16 ∧ gathered flowUp = flowUp ∧ flowUp.enabled = true ∧
    ({ flowUp with sideSize := 65 } : Entry).rangeOk = false ∧
    ({ flowUp with baseBlock := 1021 } : Entry).rangeOk = true ∧
    ({ flowUp with baseBlock := 1021 } : Entry).geometryOk = false ∧
    flowUp.rangeOk = true ∧ flowUp.geometryOk = true ∧
    (((withEntry flowUp id).stream 4).entry.enabled = true ∧ ((withEntry flowUp id).stream 4).response = .opened) ∧
    ¬ ((running.stream 9).entry.enabled = true) ∧ flowUp.overlaps { flowUp with baseBlock := 11 } = true ∧
    flowUp.overlaps { flowUp with baseBlock := 12 } = false ∧ 1 ≤ flowUp.sideSize.toNat ∧ (fieldsOf 32 0 16).target.toNat = 32 := by decide

theorem wit_WriteStreamAppliesWhole :
    let s := withMgmt (gathering 9 0) (withEntry flowUp id)
    let e : Entry := { flowUp with baseBlock := 12, channel := 4 }
    s.Takes toMgmt ∧ s.mgmt.exchange = .dataOut ∧
    s.mgmt.header = some { code := 0x06#8, fields := some (fieldsOf 9 0 16) } ∧ toMgmt.seq = s.mgmt.seqBit ∧
    e.bytes.length ≤ 32 ∧ s.mgmt.outCount + e.bytes.length = 16 ∧ (fieldsOf 9 0 16).target.toNat = (9 : Fin 32).val ∧
    gathered e = e ∧ e.rangeOk = true ∧ e.geometryOk = true ∧ (s.stream 9).entry.enabled = false ∧
    (fun old : Stream => old.entry.enabled = true ∧ old.entry.key? = some { branch := 2, channel := 3, dir := .up } ∧
        old.response ≠ .opened ∧ old.packet = none ∧ old.side0.state ≠ .draining ∧ old.side1.state ≠ .draining)
      ((withEntry flowUp fun st => { st with response := .hold }).stream 4) ∧
    (∀ m, m ≠ 0 → m ≠ 9 → (s.stream m).entry.enabled = true →
      e.overlaps (s.stream m).entry = false ∧ e.sameKey (s.stream m).entry = false) := by decide

theorem wit_EntryBytesRoundTrip : flowUp.bytes.length = 16 := by decide

theorem wit_InDataStage :
    let s := withMgmt (fun m => { m with exchange := .dataIn, snapLen := 64, snapOff := 32, seqBit := true }) running
    let p := withMgmt (fun m => { m with packet := some (.inData 32 32 true) }) s
    s.Takes toMgmt ∧ s.mgmt.exchange = .dataIn ∧ s.mgmt.packet = none ∧ s.mgmt.snapOff < s.mgmt.snapLen ∧
    (fun m : Mgmt => ¬ m.snapOff < m.snapLen ∧ m.snapLen % 32 = 0 ∧ m.packet = none)
      (withMgmt (fun m => { m with snapOff := 64 }) s).mgmt ∧
    p.mgmt.packet = some (.inData 32 32 true) := by decide

theorem wit_ResultStage :
    let s (node : State) (d : Option Deferred) : State := withMgmt (fun m =>
      { m with exchange := .result, result := some { code := .done, detail := 0, tag := 7 }, packet := some .result,
               deferred := d }) node
    (s addressed none).Takes toMgmt ∧ (s addressed none).mgmt.exchange = .result ∧
    (s addressed none).mgmt.packet = some .result ∧ (s addressed none).mgmt.deferred = none ∧
    (s addressed (some (.address 0))).trunk.node = .addressed ∧
    (s running (some (.removal 2 1))).mgmt.deferred = some (.removal 2 1) := by decide

theorem wit_CellsOutOfPlaceOnStreamZero :
    let s := withMgmt (gathering 4 0) running
    let e (x : Exchange) : State := withMgmt (fun m => { m with exchange := x }) running
    s.Takes toMgmt ∧ toMgmt.stream = 0 ∧ s.mgmt.exchange = .dataOut ∧ toMgmt.seq = s.mgmt.seqBit ∧
    s.mgmt.declared < s.mgmt.outCount + 17 ∧ (e .executing).mgmt.exchange = .executing ∧
    (e .failed).mgmt.exchange = .failed ∧ running.mgmt.exchange = .idle := by decide

theorem wit_OffersTakenWhole :
    let s : State := { running with events := fullQueue }
    running.events.mask.getLsbD EventKind.trunkLost.code = true ∧ running.events.records.length < 32 ∧
    s.events.mask.getLsbD EventKind.overrun.code = true ∧ 32 ≤ s.events.records.length ∧
    s.events.mask.getLsbD EventKind.timebaseCoasting.code = false := by decide

theorem wit_LineCommandsRoundTrip :
    (Instr.data 5 7 []).wf = true ∧ encode (.data 5 7 []) = some (frameBytes 1 7 []) ∧
    (Instr.put toMgmt []).wf = true ∧ encode (.put toMgmt []) = some (downBytes 2 toMgmt []) := by decide

/-- The laws hold of the running node, and a step from there answers a next state. -/
theorem wit_StepsKeepStoresBoundsAndExchange :
    running.StoresLaw ∧ running.BoundsLaw ∧ running.mgmt.Law ∧
    step { running with pending := [.lineReset] } = .next (after .lineReset running) :=
  ⟨by decide, by decide, by decide, rfl⟩
theorem wit_StepsKeepTheNodeLaw : running.NodeLaw := by decide
theorem wit_StepsKeepTheTableLaw :
    (withEntry flowUp id).EntriesLaw ∧ (withEntry flowUp id).DisjointLaw ∧ (withEntry flowUp id).RouteLaw :=
  ⟨by decide, by decide, by decide⟩
theorem wit_StepsKeepTheTimebaseLaw : locked.Law ∧ coasting.Law := by decide
theorem wit_StepsKeepEveryLaw : running.Law :=
  ⟨by decide, by decide, ⟨by decide, by decide, by decide⟩, by decide, by decide, ⟨by decide, by decide, by decide⟩,
    fun n h => ⟨by revert n; decide, by revert n; decide, by revert n; decide⟩,
    fun b => ⟨by revert b; decide, by revert b; decide, by revert b; decide, by revert b; decide, by revert b; decide⟩⟩

end Sys2Proof.Tests
end

