-- ==== Sys2Proof/Proofs/Requests.lean ====
section
/-! What a command is as a request, and what a request does once its header checks have passed; the power-on state, START
and STOP. -/

namespace Sys2Proof.Machine

/-! ### The power-on state -/

theorem State.reset_stream {n : Fin 32} (h : n ≠ 0) : State.reset.stream n = Stream.idle Entry.default := by
  revert n; decide

theorem State.reset_branch (b : Fin 6) : State.reset.branch b = Branch.reset := by
  revert b; decide

theorem State.reset_routes (i : Fin 96) : State.reset.routes[i] = none := by
  revert i; decide

/-- Settles O2: the release of RESET_N is the power-on state with the waiting commands kept. -/
theorem resetNLeavesPowerOnDefaults : Obligations.ResetNLeavesPowerOnDefaults := by
  intro s
  exact ⟨{ State.reset with pending := s.pending }, rfl, rfl, rfl, fun n h => State.reset_stream h,
    fun k => State.reset_routes k.index, rfl, State.reset_branch, rfl, rfl, rfl, rfl, rfl, rfl, rfl, rfl, rfl, rfl, rfl,
    rfl⟩

/-- Settles O55: each law is a closed fact about the power-on state, checked stream by stream and branch by branch. -/
theorem resetKeepsEveryLaw : Obligations.ResetKeepsEveryLaw := by
  have entries : State.reset.EntriesLaw := by decide
  have disjoint : State.reset.DisjointLaw := by decide
  have routes : State.reset.RouteLaw := by decide
  have streams : State.reset.StreamsLaw := by
    intro n h
    rw [State.reset_stream h]
    exact ⟨by decide, by decide, by decide⟩
  have ports : State.reset.PortsLaw := fun b =>
    ⟨by revert b; decide, by revert b; decide, by revert b; decide, by revert b; decide, by revert b; decide⟩
  exact ⟨State.reset_stores_wf, by decide, ⟨entries, disjoint, routes⟩, by decide, by decide,
    ⟨by decide, by decide, by decide⟩, streams, ports⟩

/-! ### Requests -/

/-- The Management Engine after the header of request `r` with the fields `f` has begun its exchange (R140). -/
abbrev State.begun (s : State) (r : Request) (f : ReqFields) : State :=
  s.mapMgmt (fun m => m.begin { code := r.code, fields := some f })

/-- The header checks of steps 3 to 5 of R141, passed. -/
theorem headerRefusal?_none {r : Request} {f : ReqFields} {node : NodeState} (hf : f.flags = 0)
    (hl : r.lengthOk f.length.toNat = true) (hn : r.allowedIn node = true) : headerRefusal? r f node = none := by
  simp [headerRefusal?, hf, hl, hn]

/-- A request that finds no exchange to abandon and passes its header checks does its own work, and its cell is answered
ACK (R140, R141). -/
theorem State.request_runs {s : State} {c : CellHdr} {r : Request} {f : ReqFields} (h : s.TakesRequest c f)
    (hl : r.lengthOk f.length.toNat = true) (hn : r.allowedIn s.trunk.node = true) (body : State → State) :
    s.request c r f body = (body (s.begun r f)).answer c .ack c.seq [] := by
  obtain ⟨htakes, hstream, hidle, hflags⟩ := h
  have hpass : headerRefusal? r f (s.begun r f).trunk.node = none := headerRefusal?_none hflags hl hn
  rw [State.request, State.takeRequest_taken htakes hstream, State.beginExchange_idle hidle,
    State.runRequest_ok hpass]

/-- With an exchange begun, the end with a result code is the RESULT stage of that exchange. -/
theorem State.begun_finish (s : State) (r : Request) (f : ReqFields) (code : ResultCode) :
    (s.begun r f).finish code = { s with mgmt := s.mgmt.resulted r f code } := rfl

/-- HOLD claimed for every stream from 1 to 31 (R22): an enabled stream is in HOLD, and nothing else changes. -/
theorem State.claimHoldAll_stream (s : State) (n : Fin 32) :
    s.claimHoldAll.stream n =
      if n ≠ 0 ∧ (s.stream n).entry.enabled = true then { s.stream n with response := .hold } else s.stream n := by
  have hclaim : ∀ (u : State) (m : Fin 32), u.claim m .hold =
      u.mapStream m (fun st => if st.entry.enabled = true then { st with response := .hold } else st) := by
    intro u m
    have hacc : u.claimAccepted m .hold = (u.stream m).entry.enabled := by simp [State.claimAccepted]
    rw [State.claim, hacc]
    split
    · next h => simp only [State.mapStream, State.stream] at h ⊢; simp only [h, if_true]
    · next h =>
      refine State.ext_parts rfl (fun j => ?_) rfl rfl rfl (fun _ => rfl) rfl rfl rfl rfl
      by_cases hj : j = m
      · subst hj; simp [h]
      · rw [u.mapStream_stream_ne hj]
  rw [State.claimHoldAll, show (fun (u : State) m => u.claim m .hold) = _ from funext₂ hclaim,
    State.overStreams_mapStream _ _ streamNumbers_nodup]
  simp only [mem_streamNumbers]
  by_cases hn : n = 0
  · simp [hn]
  · simp [hn]

/-- The claims of R22 change no part of the state but the streams. -/
theorem State.claimHoldAll_rest (s : State) :
    s.claimHoldAll = { s with streams := s.claimHoldAll.streams } := by
  refine State.overStreams_keeps (P := fun t => t = { s with streams := t.streams }) streamNumbers
    (fun t n _ ht => ?_) s rfl
  rcases t.claim_cases n .hold with ⟨_, _, h⟩ | ⟨_, h⟩
  · rw [h, ht]; rfl
  · rw [h]; exact ht

@[simp] theorem State.claimHoldAll_trunk (s : State) : s.claimHoldAll.trunk = s.trunk := by rw [s.claimHoldAll_rest]
@[simp] theorem State.claimHoldAll_routes (s : State) : s.claimHoldAll.routes = s.routes := by rw [s.claimHoldAll_rest]
@[simp] theorem State.claimHoldAll_pool (s : State) : s.claimHoldAll.pool = s.pool := by rw [s.claimHoldAll_rest]
@[simp] theorem State.claimHoldAll_timebase (s : State) : s.claimHoldAll.timebase = s.timebase := by
  rw [s.claimHoldAll_rest]
@[simp] theorem State.claimHoldAll_branches (s : State) : s.claimHoldAll.branches = s.branches := by
  rw [s.claimHoldAll_rest]
@[simp] theorem State.claimHoldAll_mgmt (s : State) : s.claimHoldAll.mgmt = s.mgmt := by rw [s.claimHoldAll_rest]
@[simp] theorem State.claimHoldAll_events (s : State) : s.claimHoldAll.events = s.events := by rw [s.claimHoldAll_rest]

/-- Settles O38: START sets the node state, and STOP claims HOLD for every stream besides. -/
theorem startAndStopMoveTheNode : Obligations.StartAndStopMoveTheNode := by
  intro s c f h hlen
  have hl : f.length.toNat = 0 := by simp [hlen]
  refine ⟨fun hnode => ?_, fun hnode => ?_⟩
  · have hrun := State.request_runs (r := .start) h (by simp [Request.lengthOk, hl])
      (by simp [Request.allowedIn, hnode]) startBody
    exact congrArg Host.Outcome.next hrun
  · have hrun := State.request_runs (r := .stop) h (by simp [Request.lengthOk, hl])
      (by simp [Request.allowedIn, hnode]) stopBody
    let v : State := (s.begun .stop f).mapTrunk (fun t => { t with node := .addressed })
    have hstop : stopBody (s.begun .stop f) =
        { s with trunk := v.trunk, mgmt := s.mgmt.resulted .stop f .done, streams := v.claimHoldAll.streams } := by
      rw [stopBody, show v.claimHoldAll = _ from v.claimHoldAll_rest]
      rfl
    have hstream : ∀ n, (stopBody (s.begun .stop f)).stream n =
        if n ≠ 0 ∧ (s.stream n).entry.enabled = true then { s.stream n with response := .hold } else s.stream n := by
      intro n
      have hv := v.claimHoldAll_stream n
      have hs : v.stream n = s.stream n := rfl
      rw [hs] at hv
      rw [hstop, ← hv]
      simp only [State.stream]
    refine ⟨_, congrArg Host.Outcome.next hrun, ?_, ?_, ?_, fun n hn => ?_, ?_⟩
    · rw [State.answer_trunk, hstop]; rfl
    · rw [State.answer_mgmt, hstop]
    · rw [State.answer_stream, hstream]; simp
    · rw [State.answer_stream, hstream]; simp [hn]
    · rw [State.answer_eq, hstop]

end Sys2Proof.Machine
end

