-- ==== Sys2Proof/Proofs/Traffic.lean ====
section
/-! What cells, frames, boundaries and the work of the ports leave of the parts that the configuration laws speak of, said
once for every such operation as `State.Traffic`: the trunk's line and node, the entries and the route map, the timebase
and the exchange stay, no stream is opened, and the event queue only grows. -/

namespace Sys2Proof.Machine

/-! ### The relation -/

/-- What traffic may change of a stream, as far as the configuration laws see it: its entry stays, it is not opened, and
its credits do not grow past the bound of R128. -/
structure Stream.Traffic (a b : Stream) : Prop where
  entry : b.entry = a.entry
  response : b.response = a.response ∨ (a.entry.enabled = true ∧ b.response ≠ .opened)
  credits : b.credits ≤ a.credits ∨ b.credits ≤ Config.maxCredits

/-- What traffic may change of the state, as far as the configuration laws see it. -/
structure State.Traffic (s t : State) : Prop where
  line : t.trunk.line = s.trunk.line
  node : t.trunk.node = s.trunk.node
  addr : t.trunk.addr = s.trunk.addr
  routes : t.routes = s.routes
  pool : s.pool.wf Config.poolBytes = true → t.pool.wf Config.poolBytes = true
  timebase : t.timebase = s.timebase
  mgmt : t.mgmt = s.mgmt ∨ (s.mgmt.exchange = .executing ∧ t.mgmt = { s.mgmt with exchange := .result })
  depth : s.events.records.length ≤ Config.eventDepth → t.events.records.length ≤ Config.eventDepth
  records : s.events.records.length ≤ t.events.records.length
  lost : s.events.lost ≤ t.events.lost
  stream : ∀ n, (s.stream n).Traffic (t.stream n)

theorem Stream.Traffic.refl (a : Stream) : a.Traffic a := ⟨rfl, .inl rfl, .inl le_rfl⟩

theorem Stream.Traffic.trans {a b c : Stream} (h : a.Traffic b) (g : b.Traffic c) : a.Traffic c := by
  refine ⟨g.entry.trans h.entry, ?_, ?_⟩
  · rcases g.response with hg | ⟨he, hg⟩
    · rcases h.response with hh | ⟨he, hh⟩
      · exact .inl (hg.trans hh)
      · exact .inr ⟨he, hg ▸ hh⟩
    · exact .inr ⟨h.entry ▸ he, hg⟩
  · rcases g.credits with hg | hg
    · rcases h.credits with hh | hh
      · exact .inl (hg.trans hh)
      · exact .inr (hg.trans hh)
    · exact .inr hg

theorem State.Traffic.refl (s : State) : s.Traffic s :=
  ⟨rfl, rfl, rfl, rfl, id, rfl, .inl rfl, id, le_rfl, BitVec.le_refl _, fun _ => .refl _⟩

theorem State.Traffic.trans {s t u : State} (h : s.Traffic t) (g : t.Traffic u) : s.Traffic u := by
  refine ⟨g.line.trans h.line, g.node.trans h.node, g.addr.trans h.addr, g.routes.trans h.routes, g.pool ∘ h.pool,
    g.timebase.trans h.timebase, ?_, g.depth ∘ h.depth, h.records.trans g.records, BitVec.le_trans h.lost g.lost,
    fun n => (h.stream n).trans (g.stream n)⟩
  rcases h.mgmt with hm | ⟨he, hm⟩
  · rw [← hm]; exact g.mgmt
  · rcases g.mgmt with gm | ⟨ge, _⟩
    · exact .inr ⟨he, gm.trans hm⟩
    · rw [hm] at ge; exact absurd ge (by simp)

/-- A run of traffic over streams is traffic. -/
theorem State.overStreams_traffic {op : State → Fin 32 → State} (h : ∀ (s : State) n, s.Traffic (op s n))
    (ns : List (Fin 32)) (s : State) : s.Traffic (s.overStreams ns op) :=
  State.overStreams_keeps (P := fun t => s.Traffic t) ns (fun t n _ ht => ht.trans (h t n)) s (.refl s)

/-- A run of traffic over the branches is traffic. -/
theorem State.overBranches_traffic {op : State → Fin 6 → State} (h : ∀ (s : State) b, s.Traffic (op s b)) (s : State) :
    s.Traffic (s.overBranches op) :=
  State.overBranches_keeps (P := fun t => s.Traffic t) (fun t b ht => ht.trans (h t b)) s (.refl s)

/-! ### One stream, one port, the counters, the offers and the answers -/

theorem State.mapStream_traffic (s : State) (n : Fin 32) {f : Stream → Stream}
    (h : (s.stream n).Traffic (f (s.stream n))) : s.Traffic (s.mapStream n f) := by
  refine ⟨rfl, rfl, rfl, rfl, id, rfl, .inl rfl, id, le_rfl, BitVec.le_refl _, fun m => ?_⟩
  rw [s.mapStream_stream]
  split
  · next hm => subst hm; exact h
  · exact .refl _

theorem State.mapBranch_traffic (s : State) (b : Fin 6) (f : Branch → Branch) : s.Traffic (s.mapBranch b f) :=
  ⟨rfl, rfl, rfl, rfl, id, rfl, .inl rfl, id, le_rfl, BitVec.le_refl _, fun _ => .refl _⟩

theorem State.countStream_traffic (s : State) (n : Fin 32) (f : StreamCounters → StreamCounters) :
    s.Traffic (s.countStream n f) := s.mapStream_traffic n ⟨rfl, .inl rfl, .inl le_rfl⟩

theorem State.countBranch_traffic (s : State) (b : Fin 6) (f : BranchCounters → BranchCounters) :
    s.Traffic (s.countBranch b f) := s.mapBranch_traffic b _

theorem State.mapTrunkCtr_traffic (s : State) (f : TrunkCounters → TrunkCounters) : s.Traffic (s.mapTrunkCtr f) :=
  ⟨rfl, rfl, rfl, rfl, id, rfl, .inl rfl, id, le_rfl, BitVec.le_refl _, fun _ => .refl _⟩

theorem State.answer_traffic (s : State) (c : CellHdr) (kind : UpKind) (seq : Bool) (p : List Byte) :
    s.Traffic (s.answer c kind seq p) :=
  ⟨rfl, rfl, rfl, rfl, id, rfl, .inl rfl, id, le_rfl, BitVec.le_refl _, fun _ => .refl _⟩

theorem State.offer_traffic (s : State) (kind : EventKind) (st br d : Byte) : s.Traffic (s.offer kind st br d) :=
  ⟨rfl, rfl, rfl, rfl, id, rfl, .inl rfl, fun h => EventQueue.offer_length h _ _ _ _ _,
    (EventQueue.offer_prefix _ _ _ _ _ _).length_le, EventQueue.offer_lost _ _ _ _ _ _, fun _ => .refl _⟩

theorem State.offerStream_traffic (s : State) (n : Fin 32) (kind : EventKind) (d : Byte) :
    s.Traffic (s.offerStream n kind d) := s.offer_traffic _ _ _ _

theorem State.offerBranch_traffic (s : State) (b : Fin 6) (kind : EventKind) (d : Byte) :
    s.Traffic (s.offerBranch b kind d) := s.offer_traffic _ _ _ _

theorem State.offerPlain_traffic (s : State) (kind : EventKind) (d : Byte) : s.Traffic (s.offerPlain kind d) :=
  s.offer_traffic _ _ _ _

/-- A claim of HOLD or HALT opens no stream. -/
theorem State.claim_traffic (s : State) (n : Fin 32) {r : Response} (hr : r ≠ .opened) : s.Traffic (s.claim n r) := by
  rcases s.claim_cases n r with ⟨he, _, h⟩ | ⟨_, h⟩
  · rw [h]; exact s.mapStream_traffic n ⟨rfl, .inr ⟨he, hr⟩, .inl le_rfl⟩
  · rw [h]; exact .refl s

theorem State.resetStreamEnd_traffic (s : State) (n : Fin 32) : s.Traffic (s.resetStreamEnd n) := by
  rcases s.resetStreamEnd_cases n with ⟨he, _, h⟩ | h
  · rw [h]
    exact ⟨rfl, rfl, rfl, rfl, id, rfl, .inr ⟨he, rfl⟩, id, le_rfl, BitVec.le_refl _, fun _ => .refl _⟩
  · rw [h]; exact .refl s

/-! ### Sides -/

@[simp] theorem Stream.setSide_entry (st : Stream) (k : Fin 2) (sd : Side) : (st.setSide k sd).entry = st.entry := by
  unfold Stream.setSide; split <;> rfl
@[simp] theorem Stream.setSide_response (st : Stream) (k : Fin 2) (sd : Side) :
    (st.setSide k sd).response = st.response := by
  unfold Stream.setSide; split <;> rfl
@[simp] theorem Stream.setSide_credits (st : Stream) (k : Fin 2) (sd : Side) :
    (st.setSide k sd).credits = st.credits := by
  unfold Stream.setSide; split <;> rfl

/-- A side replaced, whatever else of the stream the configuration laws do not see. -/
theorem Stream.setSide_traffic (st : Stream) (k : Fin 2) (sd : Side) : st.Traffic (st.setSide k sd) :=
  ⟨by simp, .inl (by simp), .inl (by simp)⟩

theorem Stream.close_traffic (st : Stream) (k : Fin 2) (state : SideState) (cause : CloseCause) :
    st.Traffic (st.close k state cause) := ⟨by simp [Stream.close], .inl (by simp [Stream.close]), .inl (by simp [Stream.close])⟩

theorem Stream.closeBy_traffic (st : Stream) (k : Fin 2) (cause : Option CloseCause) :
    st.Traffic (st.closeBy k cause) := by
  unfold Stream.closeBy
  split
  · exact st.close_traffic k _ _
  · exact .refl st

theorem Stream.free_traffic (st : Stream) (k : Fin 2) : st.Traffic (st.free k) :=
  ⟨by simp [Stream.free], .inl (by simp [Stream.free]), .inl (by simp [Stream.free])⟩

theorem Stream.advance_traffic (st : Stream) (k : Fin 2) (len : Nat) (done : Bool) :
    st.Traffic (st.advance k len done) := by
  unfold Stream.advance
  split
  · exact st.free_traffic k
  · exact st.setSide_traffic k _

theorem State.fillSide_traffic (s : State) (n : Fin 32) (k : Fin 2) (bytes : List Byte) :
    s.Traffic (s.fillSide n k bytes) := by
  by_cases h : bytes.length ≤ (s.stream n).space k
  · rw [State.fillSide_fits h]
    have hpool : s.Traffic (s.setPool (s.pool.writeBytes Config.poolBytes
        ((s.stream n).entry.byteAddr k ((s.stream n).side k).fill) bytes)) :=
      ⟨rfl, rfl, rfl, rfl, Memory.writeBytes_wf bytes _, rfl, .inl rfl, id, le_rfl, BitVec.le_refl _, fun _ => .refl _⟩
    exact hpool.trans (State.mapStream_traffic _ n (Stream.setSide_traffic _ k _))
  · rw [State.fillSide_full h]; exact .refl s

/-! ### The ports -/

/-- A step of the ports is traffic when no stream gains credits. -/
theorem State.PortStep.traffic {s t : State} (h : s.PortStep t)
    (hc : ∀ n, (t.stream n).credits ≤ (s.stream n).credits) : s.Traffic t := by
  refine ⟨?_, ?_, ?_, h.routes, ?_, h.timebase, .inl h.mgmt, ?_, ?_, ?_,
    fun n => ⟨(h.stream n).entry, .inl (h.stream n).response, .inl (hc n)⟩⟩ <;>
    simp [h.trunk, h.pool, h.events]

theorem State.mapUpStream_traffic (s : State) (b : Fin 6) (ch : Fin 8) {f : Stream → Stream}
    (h : ∀ a : Stream, a.Traffic (f a)) : s.Traffic (s.mapUpStream b ch f) := by
  unfold State.mapUpStream
  split
  · exact s.mapStream_traffic _ (h _)
  · exact .refl s

theorem State.transmit_traffic (s : State) (b : Fin 6) (f : TxFrame) : s.Traffic (s.transmit b f) :=
  s.mapBranch_traffic b _

theorem State.beginControl_traffic (s : State) (b : Fin 6) (e : CtlEntry) (rest : List CtlEntry) :
    s.Traffic (s.beginControl b e rest) := by
  have hqueue : s.Traffic (s.mapBranch b (fun br => { br with queue := rest })) := s.mapBranch_traffic b _
  cases e with
  | grant ch count =>
    exact (hqueue.trans (State.mapUpStream_traffic _ b ch (f := fun st =>
      { st with queued := st.queued - count, inFlight := st.inFlight + count })
        fun _ => ⟨rfl, .inl rfl, .inl le_rfl⟩)).trans (State.transmit_traffic _ b _)
  | revoke ch dir => exact hqueue.trans (State.transmit_traffic _ b _)

theorem State.beginDown_traffic (s : State) (b : Fin 6) (ch : Fin 8) (n : Fin 32) (k : Fin 2) :
    s.Traffic (s.beginDown b ch n k) := by
  have hstream : s.Traffic
      (s.mapStream n (fun st => { st.setSideState k .draining with credits := st.credits - 1 })) :=
    s.mapStream_traffic n ⟨by simp [Stream.setSideState], .inl (by simp [Stream.setSideState]), .inl (Nat.sub_le _ _)⟩
  exact (hstream.trans (State.mapBranch_traffic _ b (fun br => { br with pointer := ch }))).trans
    (State.transmit_traffic _ b _)

theorem State.arbitrate_traffic (s : State) (b : Fin 6) : s.Traffic (s.arbitrate b) := by
  rcases s.arbitrate_cases b with h | ⟨_, _, ⟨e, rest, _, h⟩ | ⟨_, ch, n, k, _, _, h⟩⟩
  · rw [h]; exact .refl s
  · rw [h]; exact s.beginControl_traffic b e rest
  · rw [h]; exact s.beginDown_traffic b ch n k

theorem State.reportClosed_traffic (s : State) (n : Fin 32) : s.Traffic (s.reportClosed n) := by
  unfold State.reportClosed
  split
  · exact s.arbitrate_traffic _
  · exact .refl s

theorem State.issueGrants_traffic (s : State) (n : Fin 32) : s.Traffic (s.issueGrants n) := by
  rcases s.issueGrants_cases n with h | ⟨k, _, _, _, _, _, h⟩
  · rw [h]; exact .refl s
  · rw [h]
    have hstream : s.Traffic (s.mapStream n (fun st => { st with queued := st.queued + (s.stream n).grantable })) :=
      s.mapStream_traffic n ⟨rfl, .inl rfl, .inl le_rfl⟩
    exact (hstream.trans (State.mapBranch_traffic _ _ _)).trans (State.arbitrate_traffic _ _)

theorem State.revokeKey_traffic (s : State) (n : Fin 32) (k : RouteKey) : s.Traffic (s.revokeKey n k) := by
  have hstream : s.Traffic (s.mapStream n Stream.noGrants) :=
    s.mapStream_traffic n ⟨rfl, .inl rfl, .inl (Nat.zero_le _)⟩
  unfold State.revokeKey
  simp only
  split
  · exact (hstream.trans (State.mapBranch_traffic _ _ _)).trans (State.arbitrate_traffic _ _)
  · exact hstream

theorem State.revokeStream_traffic (s : State) (n : Fin 32) : s.Traffic (s.revokeStream n) := by
  unfold State.revokeStream
  split
  · exact s.revokeKey_traffic n _
  · exact .refl s

theorem State.resetPort_traffic (s : State) (b : Fin 6) : s.Traffic (s.resetPort b) :=
  (State.overStreams_traffic State.revokeStream_traffic _ s).trans
    (State.overStreams_traffic State.issueGrants_traffic _ _)

/-! ### Links -/

theorem State.linkUp_traffic (s : State) (b : Fin 6) : s.Traffic (s.linkUp b) := by
  unfold State.linkUp
  exact ((((s.mapBranch_traffic b _).trans (State.offerBranch_traffic _ b _ _)).trans
    (State.overStreams_traffic State.issueGrants_traffic _ _)).trans (State.mapBranch_traffic _ b _)).trans
      (State.arbitrate_traffic _ b)

theorem State.loseStream_traffic (s : State) (n : Fin 32) : s.Traffic (s.loseStream n) := by
  have hstream : s.Traffic (s.mapStream n Stream.lose) := s.mapStream_traffic n ⟨rfl, .inl rfl, .inl (Nat.zero_le _)⟩
  unfold State.loseStream
  simp only
  split
  · exact hstream.trans (State.resetStreamEnd_traffic _ n)
  · exact hstream

theorem State.loseLink_traffic (s : State) (b : Fin 6) (link : LinkState) (aligns : Nat) (detail : Byte) :
    s.Traffic (s.loseLink b link aligns detail) := by
  unfold State.loseLink
  exact ((s.mapBranch_traffic b _).trans (State.overStreams_traffic State.loseStream_traffic _ _)).trans
    (State.offerBranch_traffic _ b _ _)

theorem State.branchCommit_traffic (s : State) (b : Fin 6) (a : BranchAction) : s.Traffic (s.branchCommit b a) := by
  unfold State.branchCommit
  split
  any_goals exact .refl s
  any_goals exact s.mapBranch_traffic b _
  any_goals exact s.loseLink_traffic b _ _ _

/-! ### Frames -/

theorem State.goodFrame_traffic (s : State) (b : Fin 6) {handle : State → State} (h : ∀ s : State, s.Traffic (handle s)) :
    s.Traffic (s.goodFrame b handle) := by
  unfold State.goodFrame
  split
  · exact (s.mapBranch_traffic b _).trans (h _)
  · exact s.mapBranch_traffic b _
  · exact .refl s
  · exact .refl s

theorem State.fillUp_traffic (s : State) (n : Fin 32) (k : Fin 2) (last : Bool) (p : List Byte) :
    s.Traffic (s.fillUp n k last p) :=
  (s.fillSide_traffic n k p).trans (State.mapStream_traffic _ n (Stream.closeBy_traffic _ k _))

theorem State.dropOversize_traffic (s : State) (b : Fin 6) (n : Option (Fin 32)) : s.Traffic (s.dropOversize b n) := by
  cases n with
  | some n =>
    exact ((s.countBranch_traffic b _).trans (State.countStream_traffic _ n _)).trans (State.offerStream_traffic _ n _ _)
  | none => exact (s.countBranch_traffic b _).trans (State.offerBranch_traffic _ b _ _)

theorem State.dropNoRoom_traffic (s : State) (b : Fin 6) (n : Fin 32) : s.Traffic (s.dropNoRoom b n) :=
  ((s.countBranch_traffic b _).trans (State.countStream_traffic _ n _)).trans (State.offerStream_traffic _ n _ _)

theorem State.dropNoGrant_traffic (s : State) (b : Fin 6) (n : Fin 32) : s.Traffic (s.dropNoGrant b n) :=
  ((s.countBranch_traffic b _).trans (State.countStream_traffic _ n _)).trans (State.offerStream_traffic _ n _ _)

theorem State.takeData_traffic (s : State) (b : Fin 6) (ch : Fin 8) (last : Bool) (p : List Byte) :
    s.Traffic (s.takeData b ch last p) := by
  unfold State.takeData
  split
  · split
    · exact s.dropOversize_traffic b none
    · exact s.countBranch_traffic b _
  · next n _ =>
    simp only
    split
    · exact s.dropOversize_traffic b (some n)
    · split
      · split
        · exact s.fillUp_traffic n _ last p
        · exact s.dropNoRoom_traffic b n
      · split
        · split
          · refine (s.mapStream_traffic n ?_).trans (State.fillUp_traffic _ n _ last p)
            exact ⟨rfl, .inl rfl, .inl le_rfl⟩
          · exact s.dropNoGrant_traffic b n
        · exact s.dropNoGrant_traffic b n

theorem State.takeCredit_traffic (s : State) (b : Fin 6) (ch : Fin 8) (p : List Byte) :
    s.Traffic (s.takeCredit b ch p) := by
  unfold State.takeCredit
  split
  · refine (s.mapStream_traffic _ ?_).trans (State.arbitrate_traffic _ b)
    exact ⟨rfl, .inl rfl, .inr (Nat.min_le_left _ _)⟩
  · exact s.countBranch_traffic b _

theorem State.txDone_traffic (s : State) (b : Fin 6) : s.Traffic (s.txDone b) :=
  (s.mapBranch_traffic b _).trans (State.arbitrate_traffic _ b)

/-! ### FLOW streams -/

theorem State.flowOversize_traffic (s : State) (c : CellHdr) (n : Fin 32) : s.Traffic (s.flowOversize c n) :=
  (((s.claim_traffic n (by simp)).trans (State.offerStream_traffic _ n _ _)).trans (State.countStream_traffic _ n _)).trans
    (State.answer_traffic _ c _ _ _)

theorem Stream.acceptPut_traffic (st : Stream) (k : Fin 2) (n : Nat) (ends reached : Bool) :
    st.Traffic (st.acceptPut k n ends reached) := by
  have h := st.closeBy_traffic k
    (flowDownCause st.entry n (ends && reached) ((st.side k).fill == st.entry.capacity))
  exact ⟨h.entry, h.response, h.credits⟩

theorem State.burstEnd_traffic (s : State) (n : Fin 32) (reached : Bool) : s.Traffic (s.burstEnd n reached) := by
  unfold State.burstEnd
  simp only
  split
  · exact (s.claim_traffic n (by simp)).trans (State.offerStream_traffic _ n _ _)
  · exact s.offerStream_traffic n _ _

theorem State.acceptPut_traffic (s : State) (c : CellHdr) (n : Fin 32) (k : Fin 2) (p : List Byte) :
    s.Traffic (s.acceptPut c n k p) := by
  have hfill : s.Traffic ((s.fillSide n k p).mapStream n
      (fun st => st.acceptPut k p.length ((s.stream n).burstEnds p.length) (s.stream n).burstReached)) :=
    (s.fillSide_traffic n k p).trans (State.mapStream_traffic _ n (Stream.acceptPut_traffic _ _ _ _ _))
  unfold State.acceptPut
  simp only
  have hburst : ∀ u : State, s.Traffic u → s.Traffic
      (if (s.stream n).burstEnds p.length = true then u.burstEnd n (s.stream n).burstReached else u) := by
    intro u hu
    split
    · exact hu.trans (u.burstEnd_traffic n _)
    · exact hu
  have hanswer := ((hburst _ hfill).trans (State.countStream_traffic _ n StreamCounters.pass)).trans
    (State.answer_traffic _ c (acceptedAnswer (((s.fillSide n k p).mapStream n (fun st =>
      st.acceptPut k p.length ((s.stream n).burstEnds p.length) (s.stream n).burstReached)).stream n) p.length) c.seq [])
  split
  · exact hanswer.trans (State.reportClosed_traffic _ n)
  · exact hanswer

theorem State.flowPut_traffic (s : State) (c : CellHdr) (n : Fin 32) (p : List Byte) : s.Traffic (s.flowPut c n p) := by
  unfold State.flowPut
  simp only
  split
  · exact s.answer_traffic c _ _ _
  · exact s.answer_traffic c _ _ _
  · split
    · exact s.flowOversize_traffic c n
    · split
      · exact (s.countStream_traffic n _).trans (State.answer_traffic _ c _ _ _)
      · split
        · exact s.answer_traffic c _ _ _
        · split
          · exact s.acceptPut_traffic c n _ p
          · exact s.answer_traffic c _ _ _

theorem State.flowAsk_traffic (s : State) (c : CellHdr) (n : Fin 32) : s.Traffic (s.flowAsk c n) := by
  unfold State.flowAsk
  simp only
  split <;> exact s.answer_traffic c _ _ _

theorem State.flowFetch_traffic (s : State) (c : CellHdr) (n : Fin 32) : s.Traffic (s.flowFetch c n) := by
  unfold State.flowFetch
  simp only
  split
  · exact s.answer_traffic c _ _ _
  · exact s.answer_traffic c _ _ _
  · split
    · exact s.answer_traffic c _ _ _
    · split
      · refine (s.mapStream_traffic n ?_).trans (State.answer_traffic _ c _ _ _)
        exact ⟨by simp [Stream.setSideState], .inl (by simp [Stream.setSideState]), .inl (by simp [Stream.setSideState])⟩
      · exact s.answer_traffic c _ _ _

theorem State.flowAck_traffic (s : State) (n : Fin 32) : s.Traffic (s.flowAck n) := by
  unfold State.flowAck
  simp only
  split
  · exact s.mapTrunkCtr_traffic _
  · next p _ =>
    have hadvance := (s.stream n).advance_traffic p.side p.len
      (drainDone ((s.stream n).side p.side) (s.stream n).entry.maxPayload.toNat p.len)
    have hack : s.Traffic ((s.mapStream n (fun st => st.ackPacket p)).countStream n StreamCounters.pass) :=
      (s.mapStream_traffic n ⟨hadvance.entry, hadvance.response, hadvance.credits⟩).trans
        (State.countStream_traffic _ n _)
    split
    · exact hack.trans (State.issueGrants_traffic _ n)
    · exact hack

/-! ### CYCLIC streams -/

theorem State.intervalMiss_traffic (s : State) (n : Fin 32) (d : Byte) : s.Traffic (s.intervalMiss n d) :=
  (s.countStream_traffic n _).trans (State.offerStream_traffic _ n _ _)

theorem State.setServed_traffic (s : State) (n : Fin 32) : s.Traffic (s.setServed n) :=
  s.mapStream_traffic n ⟨rfl, .inl rfl, .inl le_rfl⟩

theorem State.cyclicDuePut_traffic (s : State) (n : Fin 32) (p : List Byte) : s.Traffic (s.cyclicDuePut n p) := by
  have hserved := s.setServed_traffic n
  unfold State.cyclicDuePut
  simp only
  split
  · exact (s.countStream_traffic n _).trans (State.offerStream_traffic _ n _ _)
  · split
    · exact (hserved.trans (State.countStream_traffic _ n _)).trans (State.offerStream_traffic _ n _ _)
    · split
      · exact (hserved.trans (State.countStream_traffic _ n _)).trans (State.offerStream_traffic _ n _ _)
      · exact ((hserved.trans (State.fillSide_traffic _ n _ p)).trans
          (State.mapStream_traffic _ n (Stream.close_traffic _ _ _ _))).trans (State.countStream_traffic _ n _)

theorem State.cyclicPut_traffic (s : State) (c : CellHdr) (n : Fin 32) (p : List Byte) :
    s.Traffic (s.cyclicPut c n p) := by
  unfold State.cyclicPut
  simp only
  split
  · exact s.answer_traffic c _ _ _
  · exact .refl s
  · split
    · exact s.intervalMiss_traffic n _
    · split
      · exact s.intervalMiss_traffic n _
      · exact s.cyclicDuePut_traffic n p

theorem State.cyclicDueFetch_traffic (s : State) (c : CellHdr) (n : Fin 32) : s.Traffic (s.cyclicDueFetch c n) := by
  have hserved := s.setServed_traffic n
  unfold State.cyclicDueFetch
  simp only
  split
  · exact (s.countStream_traffic n _).trans (State.answer_traffic _ c _ _ _)
  · split
    · exact (((hserved.trans (State.mapStream_traffic _ n (Stream.free_traffic _ _))).trans
        (State.countStream_traffic _ n _)).trans (State.answer_traffic _ c _ _ _)).trans (State.issueGrants_traffic _ n)
    · exact ((hserved.trans (State.countStream_traffic _ n _)).trans (State.offerStream_traffic _ n _ _)).trans
        (State.answer_traffic _ c _ _ _)

theorem State.cyclicFetch_traffic (s : State) (c : CellHdr) (n : Fin 32) : s.Traffic (s.cyclicFetch c n) := by
  unfold State.cyclicFetch
  simp only
  split
  · exact s.answer_traffic c _ _ _
  · exact s.answer_traffic c _ _ _
  · split
    · exact (s.intervalMiss_traffic n _).trans (State.answer_traffic _ c _ _ _)
    · split
      · exact (s.intervalMiss_traffic n _).trans (State.answer_traffic _ c _ _ _)
      · exact s.cyclicDueFetch_traffic c n

/-! ### Boundaries and the loss notice -/

theorem State.staleFlush_traffic (s : State) (n : Fin 32) : s.Traffic (s.staleFlush n) := by
  unfold State.staleFlush
  split
  · exact ((s.mapStream_traffic n (Stream.free_traffic _ _)).trans (State.offerStream_traffic _ n _ _)).trans
      (State.issueGrants_traffic _ n)
  · exact .refl s

theorem State.unservedCheck_traffic (e : Half) (s : State) (n : Fin 32) : s.Traffic (State.unservedCheck e s n) := by
  unfold State.unservedCheck
  simp only
  split
  · split
    · exact (s.intervalMiss_traffic n _).trans (State.staleFlush_traffic _ n)
    · exact s.intervalMiss_traffic n _
  · exact .refl s

theorem State.releaseHeld_traffic (s : State) : s.Traffic s.releaseHeld := by
  have hrelease : ∀ (u : State) n, u.Traffic (u.mapStream n Stream.release) :=
    fun u n => u.mapStream_traffic n ⟨rfl, .inl rfl, .inl le_rfl⟩
  exact (State.overStreams_traffic hrelease _ s).trans (State.overStreams_traffic State.reportClosed_traffic _ _)

theorem State.clearServed_traffic (s : State) : s.Traffic s.clearServed :=
  State.overStreams_traffic (fun u n => u.mapStream_traffic n ⟨rfl, .inl rfl, .inl le_rfl⟩) _ s

theorem State.boundaryWork_traffic (s : State) (ending : Option Half) : s.Traffic (s.boundaryWork ending) := by
  cases ending with
  | none => exact s.releaseHeld_traffic.trans (State.clearServed_traffic _)
  | some e =>
    exact ((State.overStreams_traffic (State.unservedCheck_traffic e) _ s).trans (State.releaseHeld_traffic _)).trans
      (State.clearServed_traffic _)

theorem State.loseCyclic_traffic (s : State) (n : Fin 32) : s.Traffic (s.loseCyclic n) := by
  have hdiscard : s.Traffic ((s.mapStream n Stream.discard).countStream n
      (fun k => { k with sidesLost := satIncBy (s.stream n).discardCount k.sidesLost })) :=
    (s.mapStream_traffic n ⟨rfl, .inl rfl, .inl le_rfl⟩).trans (State.countStream_traffic _ n _)
  unfold State.loseCyclic
  simp only
  split
  · split
    · exact hdiscard.trans (State.issueGrants_traffic _ n)
    · exact hdiscard
  · exact .refl s

theorem State.lossNotice_traffic (s : State) : s.Traffic s.lossNotice :=
  (State.overStreams_traffic State.loseCyclic_traffic _ s).trans (State.clearServed_traffic _)

/-! ### Dispatch -/

theorem State.dispatch_traffic (s : State) (c : CellHdr) (fits : Entry → Bool) {serve : State → Fin 32 → State}
    (h : ∀ (s : State) n, s.Traffic (serve s n)) : s.Traffic (s.dispatch c fits serve) := by
  unfold State.dispatch
  split
  · exact s.answer_traffic c _ _ _
  · split
    · exact (s.mapTrunkCtr_traffic _).trans (State.answer_traffic _ c _ _ _)
    · split
      · exact (s.mapTrunkCtr_traffic _).trans (State.answer_traffic _ c _ _ _)
      · split
        · exact (s.countStream_traffic _ _).trans (State.answer_traffic _ c _ _ _)
        · exact h s _

theorem State.servePut_traffic (c : CellHdr) (p : List Byte) (s : State) (n : Fin 32) :
    s.Traffic (State.servePut c p s n) := by
  unfold State.servePut
  split
  · exact s.flowPut_traffic c n p
  · exact s.cyclicPut_traffic c n p

theorem State.serveFetch_traffic (c : CellHdr) (s : State) (n : Fin 32) : s.Traffic (State.serveFetch c s n) := by
  unfold State.serveFetch
  split
  · exact s.flowFetch_traffic c n
  · exact s.cyclicFetch_traffic c n

theorem State.streamAck_traffic (s : State) (c : CellHdr) : s.Traffic (s.streamAck c) := by
  unfold State.streamAck
  split
  · exact s.mapTrunkCtr_traffic _
  · split
    · exact s.mapTrunkCtr_traffic _
    · split
      · exact s.flowAck_traffic _
      · exact s.mapTrunkCtr_traffic _

end Sys2Proof.Machine
end

