-- ==== Sys2Proof/Proofs/Commit.lean ====
section
/-! The route keys of entries, the laws of the Stream Table's configuration as equivalences, and what a WRITE-STREAM commit
leaves of them. -/

namespace Sys2Proof.Machine

/-! ### Route keys (R8, R15) -/

theorem Entry.key?_eq_some_iff (e : Entry) (k : RouteKey) :
    e.key? = some k ↔ e.branch.toNat = k.branch.val ∧ e.channel.toNat = k.channel.val ∧ e.dir = k.dir := by
  obtain ⟨b, ch, d⟩ := k
  unfold Entry.key?
  constructor
  · intro h
    split at h
    · simp only [Option.some.injEq, RouteKey.mk.injEq, Fin.ext_iff] at h
      exact h
    · exact absurd h (by simp)
  · rintro ⟨hb, hch, hd⟩
    simp [hb, hch, hd]

/-- An entry that passes the RANGE check has a key. -/
theorem Entry.key?_isSome_of_rangeOk {e : Entry} (h : e.rangeOk = true) : e.key?.isSome = true := by
  simp only [Entry.rangeOk, Bool.and_eq_true, decide_eq_true_eq] at h
  have hb : e.branch.toNat < 6 := by omega
  have hch : e.channel.toNat < 8 := by omega
  simp [Entry.key?, hb, hch]

/-- Entries with one key are the same in branch, channel and direction. -/
theorem Entry.sameKey_of_key? {a b : Entry} {k : RouteKey} (ha : a.key? = some k) (hb : b.key? = some k) :
    a.sameKey b = true := by
  obtain ⟨hab, hac, had⟩ := (a.key?_eq_some_iff k).mp ha
  obtain ⟨hbb, hbc, hbd⟩ := (b.key?_eq_some_iff k).mp hb
  simp only [Entry.sameKey, Bool.and_eq_true, beq_iff_eq]
  exact ⟨⟨BitVec.eq_of_toNat_eq (hab.trans hbb.symm), BitVec.eq_of_toNat_eq (hac.trans hbc.symm)⟩, had.trans hbd.symm⟩

theorem Entry.overlaps_comm (a b : Entry) : a.overlaps b = b.overlaps a := Bool.and_comm _ _

theorem Entry.sameKey_comm (a b : Entry) : a.sameKey b = b.sameKey a := by
  simp only [Entry.sameKey, Bool.beq_comm]

theorem Entry.activeKey?_eq_some_iff (e : Entry) (k : RouteKey) :
    e.activeKey? = some k ↔ e.enabled = true ∧ e.key? = some k := by
  simp [Entry.activeKey?]

/-- An index of the route table is the place of at most one key. -/
theorem Option.map_index_eq_some_iff {o : Option RouteKey} {k : RouteKey} :
    o.map RouteKey.index = some k.index ↔ o = some k := by
  constructor
  · intro h
    obtain ⟨j, hj, hidx⟩ := Option.map_eq_some_iff.mp h
    rw [hj, RouteKey.index_inj hidx]
  · rintro rfl; rfl

/-- The stream to which a key maps, under the route law (R8): the enabled stream that has the key. -/
theorem State.RouteLaw.route_iff {s : State} (h : s.RouteLaw) (k : RouteKey) (n : Fin 32) :
    s.route k = some n ↔ n ≠ 0 ∧ (s.stream n).entry.enabled = true ∧ (s.stream n).entry.key? = some k := by
  obtain ⟨forward, backward⟩ := h
  constructor
  · intro hk
    obtain ⟨hn, he, hidx⟩ := backward k.index n hk
    exact ⟨hn, he, Option.map_index_eq_some_iff.mp hidx⟩
  · rintro ⟨hn, he, hk⟩
    exact forward n hn he k hk

/-- The configuration laws read the entries and the route map only. -/
theorem State.TableLaw.of_same {s t : State} (hr : t.routes = s.routes)
    (he : ∀ n, (t.stream n).entry = (s.stream n).entry) (h : s.TableLaw) : t.TableLaw := by
  have hroute : ∀ k, t.route k = s.route k := fun k => by simp only [State.route, hr]
  simpa only [State.TableLaw, State.EntriesLaw, State.DisjointLaw, State.RouteLaw, he, hroute, hr] using h

/-! ### The checks of a commit (R10 to R15) -/

/-- The entries of the other enabled streams, one by one. -/
theorem State.mem_otherEntries (s : State) (n : Fin 32) (e : Entry) :
    e ∈ s.otherEntries n ↔ ∃ m, m ≠ 0 ∧ m ≠ n ∧ (s.stream m).entry.enabled = true ∧ (s.stream m).entry = e := by
  simp [State.otherEntries, and_assoc]

/-- A check against the entries of the other enabled streams. -/
theorem State.any_otherEntries (s : State) (n : Fin 32) (f : Entry → Bool) : (s.otherEntries n).any f = true ↔
    ∃ m, m ≠ 0 ∧ m ≠ n ∧ (s.stream m).entry.enabled = true ∧ f (s.stream m).entry = true := by
  simp only [List.any_eq_true, State.mem_otherEntries]
  constructor
  · rintro ⟨x, ⟨m, h0, hn, he, rfl⟩, hf⟩; exact ⟨m, h0, hn, he, hf⟩
  · rintro ⟨m, h0, hn, he, hf⟩; exact ⟨_, ⟨m, h0, hn, he, rfl⟩, hf⟩

/-- A commit that no check refuses. -/
structure State.CommitOk (s : State) (n : Fin 32) (e : Entry) : Prop where
  range : e.enabled = true → e.rangeOk = true
  geometry : e.enabled = true → e.geometryOk = true
  idle : (s.stream n).isIdle = true
  apart : e.enabled = true → ∀ m, m ≠ 0 → m ≠ n → (s.stream m).entry.enabled = true →
    e.overlaps (s.stream m).entry = false ∧ e.sameKey (s.stream m).entry = false

theorem State.commitRefusal?_none_iff (s : State) (n : Fin 32) (e : Entry) :
    s.commitRefusal? n e = none ↔ s.CommitOk n e := by
  unfold State.commitRefusal?
  constructor
  · intro h
    split at h
    · exact absurd h (by simp)
    next hrange =>
    split at h
    · exact absurd h (by simp)
    next hgeometry =>
    split at h
    · exact absurd h (by simp)
    next hidle =>
    split at h
    · exact absurd h (by simp)
    next hoverlap =>
    split at h
    · exact absurd h (by simp)
    next hclash =>
    simp only [Bool.and_eq_true, Bool.not_eq_true', not_and, Bool.not_eq_false, State.any_otherEntries,
      not_exists] at hrange hgeometry hidle hoverlap hclash
    exact ⟨hrange, hgeometry, hidle, fun he m h0 hn hm =>
      ⟨by simpa using hoverlap he m h0 hn hm, by simpa using hclash he m h0 hn hm⟩⟩
  · rintro ⟨hrange, hgeometry, hidle, hapart⟩
    have hoverlap : ¬ (e.enabled = true ∧ (s.otherEntries n).any e.overlaps = true) := by
      rintro ⟨he, ho⟩
      obtain ⟨m, h0, hn, hm, hf⟩ := (s.any_otherEntries n _).mp ho
      simp [(hapart he m h0 hn hm).1] at hf
    have hclash : ¬ (e.enabled = true ∧ (s.otherEntries n).any e.sameKey = true) := by
      rintro ⟨he, ho⟩
      obtain ⟨m, h0, hn, hm, hf⟩ := (s.any_otherEntries n _).mp ho
      simp [(hapart he m h0 hn hm).2] at hf
    simp only [Bool.and_eq_true, Bool.not_eq_true', hoverlap, hclash, hidle, if_false, Bool.true_eq_false]
    rw [if_neg (fun h => by simp [hrange h.1] at h), if_neg (fun h => by simp [hgeometry h.1] at h)]

/-! ### The effects of a commit (R16 to R18) -/

/-- The record and the route map of a successful commit, before the ports act. -/
def State.commitTable (s : State) (n : Fin 32) (e : Entry) : State :=
  (s.mapStream n (fun st => st.commit e)).commitRoutes n (s.stream n).entry e

/-- A commit is the change of the table, then the REVOKE of the old key, then the grants of the new entry. -/
theorem State.commitEntry_eq (s : State) (n : Fin 32) (e : Entry) :
    s.commitEntry n e = State.issueGrants (match (s.stream n).entry.activeKey? with
      | some k => (s.commitTable n e).revokeKey n k
      | none => s.commitTable n e) n := rfl

/-- The change of the table is one of the streams and the route map. -/
theorem State.commitTable_rest (s : State) (n : Fin 32) (e : Entry) :
    s.commitTable n e =
      { s with streams := (s.commitTable n e).streams, routes := (s.commitTable n e).routes } := by
  unfold State.commitTable State.commitRoutes
  simp only
  split <;> split <;> rfl

theorem State.commitTable_stream (s : State) (n m : Fin 32) (e : Entry) :
    (s.commitTable n e).stream m = if m = n then (s.stream n).commit e else s.stream m := by
  have hroutes : ∀ (u : State) (old : Entry), (u.commitRoutes n old e).stream m = u.stream m := by
    intro u old
    unfold State.commitRoutes
    simp only
    split <;> split <;> simp
  rw [State.commitTable, hroutes, s.mapStream_stream]

theorem State.commitTable_stream_self (s : State) (n : Fin 32) (e : Entry) :
    (s.commitTable n e).stream n = (s.stream n).commit e := by simp [State.commitTable_stream]

theorem State.commitTable_stream_ne (s : State) {n m : Fin 32} (h : m ≠ n) (e : Entry) :
    (s.commitTable n e).stream m = s.stream m := by simp [State.commitTable_stream, h]

@[simp] theorem State.commitTable_branch (s : State) (n : Fin 32) (e : Entry) (b : Fin 6) :
    (s.commitTable n e).branch b = s.branch b := by rw [s.commitTable_rest]; rfl

/-- The route map after a commit (R8): the new key maps to the stream, the old key to none. -/
theorem State.commitTable_routes (s : State) (n : Fin 32) (e : Entry) (i : Fin 96) :
    (s.commitTable n e).routes[i] =
      if e.activeKey?.map RouteKey.index = some i then some n
      else if (s.stream n).entry.activeKey?.map RouteKey.index = some i then none
      else s.routes[i] := by
  have hset : ∀ (v : Vector (Option (Fin 32)) 96) (k : RouteKey) (x : Option (Fin 32)),
      (v.set k.index x)[i] = if k.index = i then x else v[i] := by
    intro v k x
    split
    · next h => subst h; simp
    · next h =>
      have : (k.index : Nat) ≠ i := fun hv => h (Fin.ext hv)
      simp [this]
  unfold State.commitTable State.commitRoutes
  cases e.activeKey? <;> cases (s.stream n).entry.activeKey? <;> simp [hset]

theorem State.commitTable_route (s : State) (n : Fin 32) (e : Entry) (k : RouteKey) :
    (s.commitTable n e).route k =
      if e.activeKey? = some k then some n
      else if (s.stream n).entry.activeKey? = some k then none
      else s.route k := by
  simp only [State.route, s.commitTable_routes, Option.map_index_eq_some_iff]

/-- A commit that passes its checks keeps the laws of the Stream Table's configuration (R2, R8, R14, R15). -/
theorem State.commitTable_table {s : State} {n : Fin 32} {e : Entry} (hn : n ≠ 0) (hok : s.CommitOk n e)
    (h : s.TableLaw) : (s.commitTable n e).TableLaw := by
  obtain ⟨⟨hzero, hentries⟩, hdisjoint, hroute⟩ := h
  obtain ⟨hrange, hgeometry, -, hapart⟩ := hok
  have hentry : ∀ m, ((s.commitTable n e).stream m).entry = if m = n then e else (s.stream m).entry := by
    intro m
    rw [State.commitTable_stream]
    split <;> rfl
  refine ⟨⟨?_, fun m hm hen => ?_⟩, fun m j hm hj hmj hem hej => ?_, fun m hm hen k hk => ?_, fun i m hi => ?_⟩
  · rw [hentry, if_neg (Ne.symm hn)]; exact hzero
  · rw [hentry] at hen ⊢
    split at hen
    · next heq => simp only [heq, if_true]; exact ⟨hrange hen, hgeometry hen⟩
    · next hne => simp only [hne, if_false]; exact hentries m hm hen
  · rw [hentry] at hem hej ⊢
    rw [hentry j]
    by_cases hmn : m = n
    · have hjn : j ≠ n := fun hjn => hmj (hmn.trans hjn.symm)
      simp only [hmn, hjn, if_true, if_false] at hem hej ⊢
      exact hapart hem j hj hjn hej
    · by_cases hjn : j = n
      · simp only [hmn, hjn, if_true, if_false] at hem hej ⊢
        rw [Entry.overlaps_comm, Entry.sameKey_comm]
        exact hapart hej m hm hmn hem
      · simp only [hmn, hjn, if_false] at hem hej ⊢
        exact hdisjoint m j hm hj hmj hem hej
  · rw [hentry] at hen hk
    rw [State.commitTable_route]
    by_cases hmn : m = n
    · simp only [hmn, if_true] at hen hk ⊢
      rw [if_pos ((e.activeKey?_eq_some_iff k).mpr ⟨hen, hk⟩)]
    · simp only [hmn, if_false] at hen hk
      have hnew : e.activeKey? ≠ some k := fun hk' => by
        obtain ⟨he, hek⟩ := (e.activeKey?_eq_some_iff k).mp hk'
        have hclash := Entry.sameKey_of_key? hek hk
        simp [(hapart he m hm hmn hen).2] at hclash
      have hold : (s.stream n).entry.activeKey? ≠ some k := fun hk' => by
        obtain ⟨he, hek⟩ := (Entry.activeKey?_eq_some_iff _ k).mp hk'
        have hclash := Entry.sameKey_of_key? hek hk
        simp [(hdisjoint n m hn hm (Ne.symm hmn) he hen).2] at hclash
      rw [if_neg hnew, if_neg hold]
      exact (hroute.route_iff k m).mpr ⟨hm, hen, hk⟩
  · rw [State.commitTable_routes] at hi
    rw [hentry]
    split at hi
    · next hnew =>
      simp only [Option.mem_def, Option.some.injEq] at hi
      subst hi
      obtain ⟨k, hk, hidx⟩ := Option.map_eq_some_iff.mp hnew
      obtain ⟨he, hek⟩ := (e.activeKey?_eq_some_iff k).mp hk
      simp only [if_true]
      exact ⟨hn, he, by rw [hek, Option.map_some, hidx]⟩
    · split at hi
      · exact absurd hi (by simp)
      · next hold =>
        obtain ⟨hm, hen, hidx⟩ := hroute.2 i m hi
        have hmn : m ≠ n := by
          rintro rfl
          apply hold
          obtain ⟨k, hk, hki⟩ := Option.map_eq_some_iff.mp hidx
          rw [(Entry.activeKey?_eq_some_iff _ k).mpr ⟨hen, hk⟩, Option.map_some, hki]
        simp only [hmn, if_false]
        exact ⟨hm, hen, hidx⟩

end Sys2Proof.Machine
end

