-- ==== Sys2Proof/Proofs/Keeps.lean ====
section
/-! Every command keeps each of the configuration laws by itself: the stores, the node, the table, the timebase, the bounds
and the exchange with its deferred action. `State.Keeps` says so of two states; it is proved operation by operation. -/

namespace Sys2Proof.Machine

/-! ### The relation -/

/-- Each law of a block other than the Management Engine that holds before holds after. -/
structure State.KeepsBlocks (s t : State) : Prop where
  pool : s.pool.wf Config.poolBytes = true → t.pool.wf Config.poolBytes = true
  buffer : s.mgmt.buffer.wf Config.bufferBytes = true → t.mgmt.buffer.wf Config.bufferBytes = true
  node : s.NodeLaw → t.NodeLaw
  table : s.TableLaw → t.TableLaw
  timebase : s.timebase.Law → t.timebase.Law
  bounds : s.BoundsLaw → t.BoundsLaw

/-- Each configuration law that holds before holds after. -/
structure State.Keeps (s t : State) : Prop extends s.KeepsBlocks t where
  mgmt : s.mgmt.Law → t.mgmt.Law
  deferred : s.deferredOk = true → t.deferredOk = true

theorem State.KeepsBlocks.trans {s t u : State} (h : s.KeepsBlocks t) (g : t.KeepsBlocks u) : s.KeepsBlocks u :=
  ⟨g.pool ∘ h.pool, g.buffer ∘ h.buffer, g.node ∘ h.node, g.table ∘ h.table, g.timebase ∘ h.timebase,
    g.bounds ∘ h.bounds⟩

theorem State.Keeps.refl (s : State) : s.Keeps s := ⟨⟨id, id, id, id, id, id⟩, id, id⟩

theorem State.Keeps.trans {s t u : State} (h : s.Keeps t) (g : t.Keeps u) : s.Keeps u :=
  ⟨h.toKeepsBlocks.trans g.toKeepsBlocks, g.mgmt ∘ h.mgmt, g.deferred ∘ h.deferred⟩

/-- The end report of a RESET-STREAM keeps the law of the exchange (R147). -/
theorem Mgmt.Law.executing_result {m : Mgmt} (h : m.Law) (he : m.exchange = .executing) :
    Mgmt.Law { m with exchange := .result } := by
  obtain ⟨hoff, hlen, hout, hhalt, -, hresult, hpacket, -, hdeferred⟩ := h
  have hnone : m.packet = none := by
    cases hp : m.packet with
    | none => rfl
    | some p =>
      rcases hpacket p hp with ⟨-, hr⟩ | ⟨hr, -⟩ <;> rw [he] at hr <;> exact absurd hr (by simp)
  refine ⟨hoff, hlen, hout, ?_, by simp, fun _ => hresult (.inr (.inl he)), by simp [hnone], by simp, fun _ => .inr rfl⟩
  simpa [he] using hhalt

/-- Traffic keeps every configuration law. -/
theorem State.Traffic.keeps {s t : State} (h : s.Traffic t) : s.Keeps t := by
  have hentry : ∀ n, (t.stream n).entry = (s.stream n).entry := fun n => (h.stream n).entry
  have hmgmt : t.mgmt.buffer = s.mgmt.buffer ∧ t.mgmt.deferred = s.mgmt.deferred := by
    rcases h.mgmt with hm | ⟨_, hm⟩ <;> rw [hm] <;> exact ⟨rfl, rfl⟩
  refine ⟨⟨h.pool, fun hb => hmgmt.1 ▸ hb, fun ⟨htrunk, hresponse⟩ => ⟨?_, fun n hn => ?_⟩, .of_same h.routes hentry,
    fun ht => h.timebase ▸ ht, fun ⟨hcredits, hdepth⟩ => ⟨fun n => ?_, h.depth hdepth⟩⟩, fun hm => ?_, fun hd => ?_⟩
  · simpa only [Trunk.Law, h.line, h.node, h.addr] using htrunk
  · obtain ⟨hhold, hopen⟩ := hresponse n hn
    rw [hentry, h.node]
    rcases (h.stream n).response with hr | ⟨he, hr⟩
    · rw [hr]; exact ⟨hhold, hopen⟩
    · exact ⟨fun hd => absurd he (by simp [hd]), fun ho => absurd ho hr⟩
  · rcases (h.stream n).credits with hc | hc
    · exact hc.trans (hcredits n)
    · exact hc
  · rcases h.mgmt with hm' | ⟨he, hm'⟩
    · rw [hm']; exact hm
    · rw [hm']; exact hm.executing_result he
  · have hrecords := h.records
    have hlost := h.lost
    unfold State.deferredOk at hd ⊢
    rw [hmgmt.2, h.node]
    split
    · rfl
    · next heq => simpa [heq] using hd
    · next heq =>
      simp only [heq, Bool.and_eq_true, decide_eq_true_eq] at hd ⊢
      exact ⟨hd.1.trans hrecords, BitVec.le_trans hd.2 hlost⟩

/-! ### Changes of one block -/

/-- The Trunk Port's answers and sending changed. -/
theorem State.mapTrunk_traffic (s : State) (f : Trunk → Trunk) (hl : (f s.trunk).line = s.trunk.line)
    (hn : (f s.trunk).node = s.trunk.node) (ha : (f s.trunk).addr = s.trunk.addr) : s.Traffic (s.mapTrunk f) :=
  ⟨hl, hn, ha, rfl, id, rfl, .inl rfl, id, le_rfl, BitVec.le_refl _, fun _ => .refl _⟩

/-- The commands that wait do not matter to any law. -/
theorem State.pending_traffic (s : State) (rest : List Instr) : s.Traffic { s with pending := rest } :=
  ⟨rfl, rfl, rfl, rfl, id, rfl, .inl rfl, id, le_rfl, BitVec.le_refl _, fun _ => .refl _⟩

theorem State.mapTimebase_keeps (s : State) {f : Timebase → Timebase} (h : s.timebase.Law → (f s.timebase).Law) :
    s.Keeps (s.mapTimebase f) := ⟨⟨id, id, id, id, h, id⟩, id, id⟩

theorem State.mapMgmt_keepsBlocks (s : State) {f : Mgmt → Mgmt}
    (h : s.mgmt.buffer.wf Config.bufferBytes = true → (f s.mgmt).buffer.wf Config.bufferBytes = true) :
    s.KeepsBlocks (s.mapMgmt f) := ⟨id, h, id, id, id, id⟩

/-- The Management Engine changed, its deferred action kept or dropped. -/
theorem State.mapMgmt_keeps (s : State) {f : Mgmt → Mgmt}
    (hb : s.mgmt.buffer.wf Config.bufferBytes = true → (f s.mgmt).buffer.wf Config.bufferBytes = true)
    (hm : s.mgmt.Law → (f s.mgmt).Law) (hd : (f s.mgmt).deferred = none ∨ (f s.mgmt).deferred = s.mgmt.deferred) :
    s.Keeps (s.mapMgmt f) := by
  refine ⟨s.mapMgmt_keepsBlocks hb, hm, fun h => ?_⟩
  unfold State.deferredOk at h ⊢
  rcases hd with hd | hd
  · rw [State.mapMgmt_mgmt, hd]
  · rw [State.mapMgmt_mgmt, hd]; exact h

/-- With no action deferred there is nothing to rest on. -/
theorem State.deferredOk_of_none {s : State} (h : s.mgmt.deferred = none) : s.deferredOk = true := by
  simp [State.deferredOk, h]

/-- A claim keeps the node law: a stream is opened only while the node is RUNNING (R19). -/
theorem State.claim_keeps (s : State) (n : Fin 32) (r : Response) : s.Keeps (s.claim n r) := by
  rcases s.claim_cases n r with ⟨he, hrun, h⟩ | ⟨_, h⟩
  · rw [h]
    have hsame : ∀ m, ((s.mapStream n fun st => { st with response := r }).stream m).entry = (s.stream m).entry := by
      intro m
      rw [s.mapStream_stream]
      split
      · next hm => rw [hm]
      · rfl
    refine ⟨⟨id, id, fun ⟨htrunk, hresponse⟩ => ⟨htrunk, fun m hm => ?_⟩, .of_same rfl hsame, id,
      fun ⟨hcredits, hdepth⟩ => ⟨fun m => ?_, hdepth⟩⟩, id, id⟩
    · rw [hsame]
      obtain ⟨hhold, hopen⟩ := hresponse m hm
      rw [s.mapStream_stream]
      split
      · next heq => subst heq; exact ⟨fun hd => absurd he (by simp [hd]), hrun⟩
      · exact ⟨hhold, hopen⟩
    · rw [s.mapStream_stream]
      split
      · next heq => subst heq; exact hcredits m
      · exact hcredits m
  · rw [h]; exact .refl s

/-! ### The timebase (Chapter 5) -/

/-- A first boundary, from UNSYNCED or LOST (R94). -/
theorem Timebase.Law.lock {t : Timebase} (h : t.Law) (hs : t.state = .unsynced ∨ t.state = .lost) (k : Half)
    (time : Ticks) : (t.lock k time).Law := by
  obtain ⟨hlow, hhigh, -, -, -, hunsynced, hlost, -, -⟩ := h
  have hmeasured : t.measured = none := hs.elim (fun e => (hunsynced e).1) (fun e => (hlost e).1)
  simp [Timebase.Law, Timebase.lock, hlow, hhigh, hmeasured]

/-- A claimed boundary (R95). -/
theorem Timebase.Law.claim {t : Timebase} (h : t.Law) (k : Half) (time : Ticks) : (t.claim k time).Law := by
  obtain ⟨hlow, hhigh, -, hmeasured, -⟩ := h
  simp only [Timebase.Law, Timebase.claim, hlow, hhigh]
  simpa using hmeasured

/-- A measured interval that a marker leaves is within tolerance (R97). -/
theorem Timebase.Law.adopt {t : Timebase} (h : t.Law) (span : Option Ticks) :
    ∀ m ∈ t.adopt span, t.length.tolerates m = true := by
  obtain ⟨-, -, -, hmeasured, -⟩ := h
  unfold Timebase.adopt
  split
  · split
    · next hok => intro m hm; simp only [Option.mem_def, Option.some.injEq] at hm; exact hm ▸ hok
    · exact hmeasured
  · exact hmeasured

/-- A boundary that a marker makes (R97). -/
theorem Timebase.Law.boundary {t : Timebase} (h : t.Law) (k : Half) (time : Ticks) : (t.boundary k time).Law := by
  have hadopt := h.adopt (t.measure time)
  obtain ⟨hlow, hhigh, -⟩ := h
  simp only [Timebase.Law, Timebase.boundary, hlow, hhigh]
  simpa using hadopt

/-- An interpolated boundary, below the coast limit (R99, R100). -/
theorem Timebase.Law.interpolate {t : Timebase} (h : t.Law) (hc : t.consecutive < t.coastLimit) (time : Ticks) :
    (t.interpolate time).Law := by
  obtain ⟨hlow, hhigh, -, hmeasured, -⟩ := h
  simp only [Timebase.Law, Timebase.interpolate, hlow, hhigh]
  simpa using ⟨hc, hmeasured⟩

/-- The loss, at the coast limit (R100). -/
theorem Timebase.Law.lose {t : Timebase} (h : t.Law) (hc : t.coastLimit ≤ t.consecutive) :
    Timebase.Law { t with state := .lost, measured := none, timer := none } := by
  obtain ⟨hlow, hhigh, hle, -⟩ := h
  simp [Timebase.Law, hlow, hhigh, le_antisymm hle hc]

/-- The return to UNSYNCED (R101, R102). -/
theorem Timebase.Law.unsync {t : Timebase} (h : t.Law) : t.unsync.Law := by
  obtain ⟨hlow, hhigh, -⟩ := h
  simp [Timebase.Law, Timebase.unsync, hlow, hhigh]

/-- A SET-CYCLE whose C is in its range (R102, R158). -/
theorem Timebase.setCycle_law (t : Timebase) (l : CycleLength) {c : Nat} (hlow : 1 ≤ c) (hhigh : c ≤ 15) :
    Timebase.Law { t.unsync with length := l, coastLimit := c } := by
  simp [Timebase.Law, Timebase.unsync, hlow, hhigh]

theorem State.returnFrom_traffic (s : State) (before : TimebaseState) : s.Traffic (s.returnFrom before) := by
  unfold State.returnFrom
  split
  · exact s.offerPlain_traffic _ _
  · exact .refl s

theorem State.markerLock_keeps (s : State) (k : Half) (time : Ticks) (d : Byte)
    (hs : s.timebase.state = .unsynced ∨ s.timebase.state = .lost) : s.Keeps (s.markerLock k time d) :=
  (s.mapTimebase_keeps (f := fun t => t.lock k time) fun h => h.lock hs k time).trans
    ((State.offerPlain_traffic _ _ _).trans (State.boundaryWork_traffic _ _)).keeps

theorem State.markerClaim_keeps (s : State) (k : Half) (time : Ticks) : s.Keeps (s.markerClaim k time) := by
  have hclaim := s.mapTimebase_keeps (f := fun t => t.claim k time) fun h => h.claim k time
  unfold State.markerClaim
  simp only
  split
  · exact hclaim.trans ((State.offerPlain_traffic _ _ _).trans (State.returnFrom_traffic _ _)).keeps
  · exact hclaim.trans (State.returnFrom_traffic _ _).keeps

theorem State.markerBoundary_keeps (s : State) (k : Half) (time : Ticks) : s.Keeps (s.markerBoundary k time) := by
  have hboundary := s.mapTimebase_keeps (f := fun t => t.boundary k time) fun h => h.boundary k time
  unfold State.markerBoundary
  simp only
  split
  · exact hboundary.trans (((State.offerPlain_traffic _ _ _).trans (State.returnFrom_traffic _ _)).trans
      (State.boundaryWork_traffic _ _)).keeps
  · exact hboundary.trans ((State.returnFrom_traffic _ _).trans (State.boundaryWork_traffic _ _)).keeps

theorem State.takeMarker_keeps (s : State) (k : Half) (time : Ticks) : s.Keeps (s.takeMarker k time) := by
  have hcount : s.Keeps (s.mapTimebase (fun t => { t with markers := t.markers + 1 })) := s.mapTimebase_keeps id
  unfold State.takeMarker
  simp only
  split
  · next hs => exact hcount.trans (State.markerLock_keeps _ k time 1 (.inl hs))
  · next hs => exact hcount.trans (State.markerLock_keeps _ k time 2 (.inr hs))
  all_goals
    split
    · exact hcount.trans (State.markerClaim_keeps _ k time)
    · split
      · exact hcount.trans (State.offerPlain_traffic _ _ _).keeps
      · exact hcount.trans (State.markerBoundary_keeps _ k time)

theorem State.timerBoundary_keeps (s : State) (time : Ticks) (hc : s.timebase.consecutive < s.timebase.coastLimit) :
    s.Keeps (s.timerBoundary time) := by
  have hboundary := s.mapTimebase_keeps (f := fun t => t.interpolate time) fun h => h.interpolate hc time
  unfold State.timerBoundary
  simp only
  split
  · exact hboundary.trans ((State.offerPlain_traffic _ _ _).trans (State.boundaryWork_traffic _ _)).keeps
  · exact hboundary.trans (State.boundaryWork_traffic _ _).keeps

theorem State.timerExpires_keeps (s : State) (time : Ticks) : s.Keeps (s.timerExpires time) := by
  rcases s.timerExpires_cases time with ⟨_, hc, h⟩ | ⟨_, hc, h⟩ | ⟨_, h⟩
  · rw [h]; exact s.timerBoundary_keeps time hc
  · rw [h]
    have hlost := s.mapTimebase_keeps (f := fun t => { t with state := .lost, measured := none, timer := none })
      fun h => h.lose hc
    exact hlost.trans ((State.offerPlain_traffic _ _ _).trans (State.lossNotice_traffic _)).keeps
  · rw [h]; exact .refl s

/-! ### The Trunk Port (Chapter 3) -/

/-- A reset stream is as it was in entry and credits, and in HOLD. -/
theorem Stream.trunkReset_traffic {st : Stream} (h : st.entry.enabled = true ∨ st.response = .hold) :
    st.Traffic st.trunkReset := by
  refine ⟨rfl, ?_, .inl le_rfl⟩
  rcases h with h | h
  · exact .inr ⟨h, by simp [Stream.trunkReset]⟩
  · exact .inl h.symm

/-- The trunk reset effects before the ports act (R62). -/
def State.trunkCleared (s : State) (line : LineStatus) (node : NodeState) : State :=
  (((s.mapTrunk (fun _ => { line := line, node := node, addr := 0, waiting := none, sending := none })).overStreams
    streamNumbers (fun s n => s.mapStream n Stream.trunkReset)).mapMgmt Mgmt.trunkReset).mapTimebase Timebase.unsync

theorem State.trunkReset_eq (s : State) (line : LineStatus) (node : NodeState) (kind : EventKind) :
    s.trunkReset line node kind =
      ((s.trunkCleared line node).overBranches State.resetPort).offerPlain kind s.trunk.node.detail := rfl

/-- The streams are reset one by one, and the ports and the store of bytes stay. -/
theorem State.trunkCleared_eq (s : State) (line : LineStatus) (node : NodeState) :
    s.trunkCleared line node =
      { s with trunk := { line := line, node := node, addr := 0, waiting := none, sending := none },
               streams := (s.trunkCleared line node).streams, mgmt := s.mgmt.trunkReset,
               timebase := s.timebase.unsync } := by
  unfold State.trunkCleared
  rw [State.overStreams_mapStream_rest]
  rfl

theorem State.trunkCleared_stream (s : State) (line : LineStatus) (node : NodeState) (n : Fin 32) :
    (s.trunkCleared line node).stream n = if n ≠ 0 then (s.stream n).trunkReset else s.stream n := by
  rw [State.trunkCleared, State.mapTimebase_stream, State.mapMgmt_stream,
    State.overStreams_mapStream _ _ streamNumbers_nodup, State.mapTrunk_stream]
  simp only [mem_streamNumbers]

theorem State.trunkCleared_keeps (s : State) (line : LineStatus) (node : NodeState)
    (hline : line = .absent ↔ node = .detached) (hnode : node = .listening ∨ node = .detached) :
    s.Keeps (s.trunkCleared line node) := by
  have heq := s.trunkCleared_eq line node
  have htrunk : (s.trunkCleared line node).trunk =
      { line := line, node := node, addr := 0, waiting := none, sending := none } := by rw [heq]
  have hmgmt : (s.trunkCleared line node).mgmt = s.mgmt.trunkReset := by rw [heq]
  have hentry : ∀ n, ((s.trunkCleared line node).stream n).entry = (s.stream n).entry := by
    intro n
    rw [State.trunkCleared_stream]
    split <;> rfl
  refine ⟨⟨?_, ?_, fun _ => ⟨?_, fun n hn => ?_⟩, ?_, ?_, fun ⟨hcredits, hdepth⟩ => ⟨fun n => ?_, ?_⟩⟩, fun _ => ?_,
    fun _ => State.deferredOk_of_none ?_⟩
  · rw [heq]; exact id
  · rw [hmgmt]; exact id
  · rw [htrunk]; exact ⟨by simpa using hnode, hline⟩
  · rw [State.trunkCleared_stream, if_pos hn]
    simp [Stream.trunkReset]
  · exact .of_same (by rw [heq]) hentry
  · intro ht
    rw [heq]
    exact ht.unsync
  · rw [State.trunkCleared_stream]
    split <;> exact hcredits n
  · rw [heq]; exact hdepth
  · rw [hmgmt]; simp [Mgmt.Law, Mgmt.trunkReset, Mgmt.reset]
  · rw [hmgmt]; rfl

theorem State.trunkReset_keeps (s : State) (line : LineStatus) (node : NodeState) (kind : EventKind)
    (hline : line = .absent ↔ node = .detached) (hnode : node = .listening ∨ node = .detached) :
    s.Keeps (s.trunkReset line node kind) := by
  rw [State.trunkReset_eq]
  exact (s.trunkCleared_keeps line node hline hnode).trans
    ((State.overBranches_traffic State.resetPort_traffic _).trans (State.offerPlain_traffic _ _ _)).keeps

/-- SIGNAL-PRESENT finds the node DETACHED, with no stream OPEN (R51). -/
theorem State.attach_keeps (s : State) (h : s.trunk.line = .absent) :
    s.Keeps (s.mapTrunk (fun t => { t with line := .present, node := .listening, addr := 0 })) := by
  refine ⟨⟨id, id, fun ⟨⟨_, hdetached⟩, hresponse⟩ => ⟨by simp [Trunk.Law], fun n hn => ?_⟩, id, id, id⟩, id, fun hd => ?_⟩
  · have hnode := hdetached.mp h
    obtain ⟨hhold, hopen⟩ := hresponse n hn
    exact ⟨hhold, fun ho => absurd (hopen ho) (by simp [hnode])⟩
  · unfold State.deferredOk at hd ⊢
    simp only [State.mapTrunk_mgmt, State.mapTrunk_trunk, State.mapTrunk_events]
    split
    · rfl
    · rfl
    · next heq =>
      simp only [heq] at hd
      exact hd

/-! ### The WRITE-STREAM commit (Chapter 1) -/

theorem State.commitEntry_mgmt (s : State) (n : Fin 32) (e : Entry) : (s.commitEntry n e).mgmt = s.mgmt := by
  rw [State.commitEntry_eq, (State.issueGrants_portStep _ n).mgmt]
  split
  · rw [(State.revokeKey_portStep _ n _).mgmt, s.commitTable_rest]
  · rw [s.commitTable_rest]

/-- The change of the table keeps every configuration law. -/
theorem State.commitTable_keeps {s : State} {n : Fin 32} {e : Entry} (hn : n ≠ 0) (hok : s.CommitOk n e) :
    s.Keeps (s.commitTable n e) := by
  have hrest := s.commitTable_rest n e
  refine ⟨⟨?_, ?_, fun ⟨htrunk, hresponse⟩ => ⟨?_, fun m hm => ?_⟩, State.commitTable_table hn hok, ?_,
    fun ⟨hcredits, hdepth⟩ => ⟨fun m => ?_, ?_⟩⟩, ?_, ?_⟩
  · rw [hrest]; exact id
  · rw [hrest]; exact id
  · rw [hrest]; exact htrunk
  · have hnode : (s.commitTable n e).trunk = s.trunk := by rw [hrest]
    rw [State.commitTable_stream, hnode]
    split
    · simp [Stream.commit, Stream.idle]
    · exact hresponse m hm
  · rw [hrest]; exact id
  · rw [State.commitTable_stream]
    split
    · exact Nat.zero_le _
    · exact hcredits m
  · rw [hrest]; exact hdepth
  · rw [hrest]; exact id
  · rw [hrest]; exact id

theorem State.commitEntry_keeps {s : State} {n : Fin 32} {e : Entry} (hn : n ≠ 0) (hok : s.CommitOk n e) :
    s.Keeps (s.commitEntry n e) := by
  rw [State.commitEntry_eq]
  refine State.Keeps.trans ?_ (State.issueGrants_traffic _ n).keeps
  split
  · exact (State.commitTable_keeps hn hok).trans (State.revokeKey_traffic _ n _).keeps
  · exact State.commitTable_keeps hn hok

/-- All that a commit can do: the entry applied whole after every check, or nothing (R10). -/
theorem State.commitStream_cases (s : State) (target : Option (Fin 32)) (e : Entry) :
    (∃ n, target = some n ∧ s.CommitOk n e ∧ s.commitStream target e = (s.commitEntry n e, .done)) ∨
    (∃ code, s.commitStream target e = (s, code)) := by
  unfold State.commitStream
  cases target with
  | none => exact .inr ⟨.range, rfl⟩
  | some n =>
    cases hr : s.commitRefusal? n e with
    | some code => exact .inr ⟨code, by simp [hr]⟩
    | none => exact .inl ⟨n, rfl, (s.commitRefusal?_none_iff n e).mp hr, by simp [hr]⟩

theorem ReqFields.stream?_ne_zero {f : ReqFields} {n : Fin 32} (h : f.stream? = some n) : n ≠ 0 :=
  (streamOfNat?_ne_zero h).1

/-- The commit of an OUT request ends in its RESULT stage, and changes nothing else of the Management Engine. -/
theorem State.commitOut_cases (s : State) :
    (∃ n e, n ≠ 0 ∧ s.CommitOk n e ∧ s.commitOut = (s.commitEntry n e).finish .done) ∨
    (∃ code, s.commitOut = s.finish code) := by
  unfold State.commitOut
  rcases s.commitStream_cases (s.mgmt.fields?.bind ReqFields.stream?)
    (Entry.ofBytes (s.mgmt.buffer.readBytes 0 s.mgmt.declared)) with ⟨n, htarget, hok, h⟩ | ⟨code, h⟩
  · obtain ⟨f, -, hf⟩ := Option.bind_eq_some_iff.mp htarget
    exact .inl ⟨n, _, ReqFields.stream?_ne_zero hf, hok, by simp only [h]⟩
  · exact .inr ⟨code, by simp only [h]⟩

/-! ### The exchange (Chapter 8) -/

/-- In DATA-OUT no packet is outstanding, and stream 0 is not halted. -/
theorem Mgmt.Law.dataOut_clear {m : Mgmt} (h : m.Law) (he : m.exchange = .dataOut) :
    m.packet = none ∧ m.response ≠ .halt := by
  obtain ⟨-, -, -, hhalt, -, -, hpacket, -⟩ := h
  refine ⟨?_, fun hr => ?_⟩
  · cases hp : m.packet with
    | none => rfl
    | some p =>
      rcases hpacket p hp with ⟨-, hr⟩ | ⟨hr, -⟩ <;> rw [he] at hr <;> exact absurd hr (by simp)
  · have := hhalt.mp hr
    rw [he] at this
    exact absurd this (by simp)

theorem State.sequenceError_keeps (s : State) (c : CellHdr) : s.Keeps (s.sequenceError c) := by
  have hfail : s.Keeps (s.mapMgmt Mgmt.fail) :=
    s.mapMgmt_keeps id (fun _ => by simp [Mgmt.Law, Mgmt.fail]) (.inl rfl)
  exact hfail.trans ((State.offerPlain_traffic _ _ _).trans (State.answer_traffic _ c _ _ _)).keeps

/-- The end of an exchange with a result, as far as the blocks see it. -/
theorem State.finish_keepsBlocks (s : State) (code : ResultCode) : s.KeepsBlocks (s.finish code) :=
  s.mapMgmt_keepsBlocks id

theorem State.commitOut_keepsBlocks (s : State) : s.KeepsBlocks s.commitOut := by
  rcases s.commitOut_cases with ⟨n, e, hn, hok, h⟩ | ⟨code, h⟩
  · rw [h]; exact (State.commitEntry_keeps hn hok).toKeepsBlocks.trans (State.finish_keepsBlocks _ _)
  · rw [h]; exact s.finish_keepsBlocks code

/-- What a commit leaves of the Management Engine: the RESULT stage with some result. -/
theorem State.commitOut_mgmt (s : State) :
    ∃ r, s.commitOut.mgmt = { s.mgmt with exchange := .result, result := some r } := by
  rcases s.commitOut_cases with ⟨n, e, _, _, h⟩ | ⟨code, h⟩
  · rw [h]
    simp only [State.finish, State.mapMgmt_mgmt, State.commitEntry_mgmt]
    exact ⟨_, rfl⟩
  · rw [h]; exact ⟨_, rfl⟩

/-- An OUT packet taken keeps the canonical form of the buffer. -/
theorem State.take_keepsBlocks (s : State) (p : List Byte) : s.KeepsBlocks (s.mapMgmt (fun m => m.take p)) :=
  s.mapMgmt_keepsBlocks (fun h => Memory.writeBytes_wf p _ h)

theorem State.deferredOk_of_same {s t : State} (hd : t.mgmt.deferred = s.mgmt.deferred) (hn : t.trunk.node = s.trunk.node)
    (he : t.events = s.events) (h : s.deferredOk = true) : t.deferredOk = true := by
  simpa only [State.deferredOk, hd, hn, he] using h

/-- A commit does not move the node and offers no event. -/
theorem State.commitEntry_rest (s : State) (n : Fin 32) (e : Entry) :
    (s.commitEntry n e).trunk = s.trunk ∧ (s.commitEntry n e).events = s.events := by
  rw [State.commitEntry_eq, (State.issueGrants_portStep _ n).trunk, (State.issueGrants_portStep _ n).events]
  split
  · rw [(State.revokeKey_portStep _ n _).trunk, (State.revokeKey_portStep _ n _).events, s.commitTable_rest]
    exact ⟨rfl, rfl⟩
  · rw [s.commitTable_rest]; exact ⟨rfl, rfl⟩

theorem State.commitOut_rest (s : State) : s.commitOut.trunk = s.trunk ∧ s.commitOut.events = s.events := by
  rcases s.commitOut_cases with ⟨n, e, _, _, h⟩ | ⟨code, h⟩
  · rw [h]; exact s.commitEntry_rest n e
  · rw [h]; exact ⟨rfl, rfl⟩

theorem State.mgmtOut_keeps (s : State) (c : CellHdr) (p : List Byte) (he : s.mgmt.exchange = .dataOut) :
    s.Keeps (s.mgmtOut c p) := by
  unfold State.mgmtOut
  split
  · exact (s.answer_traffic c _ _ _).keeps
  · split
    · exact s.sequenceError_keeps c
    · next hfit =>
      simp only [not_or, Nat.not_lt] at hfit
      let v := s.mapMgmt (fun m => m.take p)
      have hv : v.mgmt = s.mgmt.take p := rfl
      have hdeclared : (s.mgmt.take p).declared = s.mgmt.declared := rfl
      refine State.Keeps.trans ?_ (State.answer_traffic _ c _ _ _).keeps
      show s.Keeps (if v.mgmt.outCount = v.mgmt.declared then v.commitOut else v)
      split
      · obtain ⟨r, hr⟩ := v.commitOut_mgmt
        refine ⟨(s.take_keepsBlocks p).trans v.commitOut_keepsBlocks, fun hm => ?_, fun hd => ?_⟩
        · obtain ⟨hnone, hresponse⟩ := hm.dataOut_clear he
          obtain ⟨hoff, hlen, -, -, hout, -⟩ := hm
          obtain ⟨-, hdecl, -⟩ := hout he
          rw [hr]
          have hcount : s.mgmt.outCount + p.length ≤ 64 := by omega
          exact ⟨hoff, hlen, hcount, by simp [hv, Mgmt.take, hresponse], by simp, by simp, by simp [hv, Mgmt.take, hnone],
            by simp, by simp⟩
        · refine State.deferredOk_of_same ?_ (congrArg Trunk.node v.commitOut_rest.1) v.commitOut_rest.2 hd
          rw [hr]
      · next hne =>
        refine s.mapMgmt_keeps (Memory.writeBytes_wf p _) (fun hm => ?_) (.inr rfl)
        have hmore : s.mgmt.outCount + p.length < s.mgmt.declared := lt_of_le_of_ne hfit.2 hne
        obtain ⟨hnone, -⟩ := hm.dataOut_clear he
        obtain ⟨hoff, hlen, -, hhalt, hout, hresult, hpacket, hdrained, hdeferred⟩ := hm
        obtain ⟨-, hdecl, hcode⟩ := hout he
        have hcount : s.mgmt.outCount + p.length ≤ 64 := by omega
        exact ⟨hoff, hlen, hcount, hhalt, fun _ => ⟨hmore, hdecl, hcode⟩, hresult, by simp [Mgmt.take, hnone], hdrained,
          hdeferred⟩

theorem State.mgmtPut_keeps (s : State) (c : CellHdr) (p : List Byte) : s.Keeps (s.mgmtPut c p) := by
  unfold State.mgmtPut
  split
  any_goals exact (s.answer_traffic c _ _ _).keeps
  any_goals exact s.sequenceError_keeps c
  next he => exact s.mgmtOut_keeps c p he

theorem State.mgmtAsk_keeps (s : State) (c : CellHdr) : s.Keeps (s.mgmtAsk c) := by
  unfold State.mgmtAsk
  split
  any_goals exact (s.answer_traffic c _ _ _).keeps
  all_goals exact s.sequenceError_keeps c

theorem State.mgmtIn_keeps (s : State) (c : CellHdr) (he : s.mgmt.exchange = .dataIn) : s.Keeps (s.mgmtIn c) := by
  unfold State.mgmtIn
  split
  · exact (s.answer_traffic c _ _ _).keeps
  · refine State.Keeps.trans (s.mapMgmt_keeps (f := fun m => { m with packet := some (.inData s.mgmt.snapOff
      (min Config.mgmtPacket (s.mgmt.snapLen - s.mgmt.snapOff)) s.mgmt.seqBit) }) id (fun hm => ?_) (.inr rfl))
      (State.answer_traffic _ c _ _ _).keeps
    obtain ⟨hoff, hlen, hcount, hhalt, hout, hresult, -, hdrained, hdeferred⟩ := hm
    exact ⟨hoff, hlen, hcount, hhalt, hout, hresult, by simp [he], hdrained, hdeferred⟩

theorem State.mgmtFetch_keeps (s : State) (c : CellHdr) : s.Keeps (s.mgmtFetch c) := by
  unfold State.mgmtFetch
  split
  any_goals exact (s.answer_traffic c _ _ _).keeps
  · exact s.sequenceError_keeps c
  · next he => exact s.mgmtIn_keeps c he
  · next he =>
    refine State.Keeps.trans (s.mapMgmt_keeps (f := fun m => { m with packet := some .result }) id (fun hm => ?_)
      (.inr rfl)) (State.answer_traffic _ c _ _ _).keeps
    obtain ⟨hoff, hlen, hcount, hhalt, hout, hresult, -, hdrained, hdeferred⟩ := hm
    exact ⟨hoff, hlen, hcount, hhalt, hout, hresult, by simp [he], hdrained, hdeferred⟩

/-- The ACK of an IN packet keeps the law of the exchange: the snapshot is drained up to the packet's end (R146). -/
theorem Mgmt.Law.ackIn {m : Mgmt} (h : m.Law) (he : m.exchange = .dataIn) {off len : Nat} {seq : Bool}
    (hp : m.packet = some (.inData off len seq)) : (m.ackIn len).Law := by
  obtain ⟨hoff, hlen, hcount, hhalt, -, hresult, hpacket, -, hdeferred⟩ := h
  have hcut : len = min Config.mgmtPacket (m.snapLen - m.snapOff) := by
    rcases hpacket _ hp with ⟨hr, -⟩ | ⟨-, hr⟩
    · exact absurd hr (by simp)
    · injection hr
  have hdrain : m.snapOff + len ≤ m.snapLen := by omega
  have hopen : m.response ≠ .halt := fun hr => by simp [he] at hhalt; exact hhalt hr
  refine ⟨hdrain, hlen, hcount, ?_, ?_, ?_, by simp [Mgmt.ackIn], ?_, ?_⟩
  · simp only [Mgmt.ackIn, hopen, false_iff]; split <;> simp
  · simp only [Mgmt.ackIn]; split <;> simp
  · intro _; exact hresult (.inl he)
  · intro hstay
    have hmore : m.inDone len ≠ true := fun hdone => by simp [Mgmt.ackIn, hdone] at hstay
    simp only [Mgmt.inDone, Bool.or_eq_true, Bool.and_eq_true, beq_iff_eq, bne_iff_ne, ne_eq, not_or, not_and,
      not_not] at hmore
    by_cases hall : m.snapOff + len = m.snapLen
    · exact .inr (hmore.2 hall)
    · exact .inl (lt_of_le_of_ne hdrain hall)
  · intro _
    simp only [Mgmt.ackIn]
    split <;> simp

/-- The RESULT acknowledged: the exchange is IDLE with nothing outstanding or deferred (R149). -/
theorem Mgmt.Law.resultDone {m : Mgmt} (h : m.Law) (he : m.exchange = .result) :
    Mgmt.Law { m with exchange := .idle, packet := none, deferred := none } := by
  obtain ⟨hoff, hlen, hcount, hhalt, -⟩ := h
  exact ⟨hoff, hlen, hcount, by simpa [he] using hhalt, by simp, by simp, by simp, by simp, by simp⟩

/-- An address change keeps the node law: address 0 is LISTENING (R53). -/
theorem Trunk.Law.applyAddress {t : Trunk} (h : t.Law) (a : BitVec 6) : (t.applyAddress a).Law := by
  obtain ⟨haddr, hline⟩ := h
  unfold Trunk.applyAddress
  split
  · next hnode => split <;> simp_all [Trunk.Law]
  · next hnode => split <;> simp_all [Trunk.Law]
  all_goals exact ⟨haddr, hline⟩

theorem Trunk.applyAddress_running {t : Trunk} (a : BitVec 6) (h : t.node = .running) : t.applyAddress a = t := by
  simp [Trunk.applyAddress, h]

/-- A deferred action carried out, with no action left deferred (R149). -/
theorem State.carryOut_keeps (s : State) (d : Option Deferred) (hnone : s.mgmt.deferred = none) :
    s.Keeps (s.carryOut d) := by
  unfold State.carryOut
  split
  · exact .refl s
  · next a =>
    refine ⟨⟨id, id, fun ⟨htrunk, hresponse⟩ => ⟨htrunk.applyAddress a, fun n hn => ?_⟩, id, id, id⟩, id,
      fun _ => State.deferredOk_of_none hnone⟩
    obtain ⟨hhold, hopen⟩ := hresponse n hn
    refine ⟨hhold, fun ho => ?_⟩
    rw [State.mapTrunk_trunk, Trunk.applyAddress_running a (hopen ho)]
    exact hopen ho
  · next k v =>
    refine ⟨⟨id, id, id, id, id, fun ⟨hcredits, hdepth⟩ => ⟨hcredits, ?_⟩⟩, id, fun _ => State.deferredOk_of_none hnone⟩
    have hdrop := List.length_drop (i := k) (l := s.events.records)
    simp only [State.setEvents_events, EventQueue.remove]
    omega

theorem State.mgmtAck_keeps (s : State) : s.Keeps s.mgmtAck := by
  unfold State.mgmtAck
  split
  · next he hp => exact s.mapMgmt_keeps id (fun hm => hm.ackIn he hp) (.inr rfl)
  · next he _ =>
    exact (s.mapMgmt_keeps id (fun hm => hm.resultDone he) (.inl rfl)).trans (State.carryOut_keeps _ _ rfl)
  · exact (s.mapTrunkCtr_traffic _).keeps

end Sys2Proof.Machine
end

