-- ==== Sys2Proof/Proofs/Configuration.lean ====
section
/-! Requests and the whole command set: what a command is (`exec_request`), and that every step keeps the configuration
laws, from which the node law and the table law of the part are settled. -/

namespace Sys2Proof.Machine

/-! ### The Management Engine with an exchange begun -/

/-- The Management Engine in which the exchange of a REQUEST with header `hd` has just begun (R140). -/
def Mgmt.Fresh (m : Mgmt) (hd : ReqHeader) : Prop := ∃ m₀ : Mgmt, m = m₀.begin hd

/-- What a request's own work leaves: the blocks' laws kept, and the exchange law as it must be. -/
structure State.Ends (s t : State) : Prop where
  blocks : s.KeepsBlocks t
  mgmt : t.mgmt.Law
  deferred : t.deferredOk = true

theorem Mgmt.Fresh.idle {m : Mgmt} {hd : ReqHeader} (h : m.Fresh hd) : m.exchange = .idle := by
  obtain ⟨m₀, rfl⟩ := h; rfl

/-- Traffic does not touch an exchange that has just begun. -/
theorem State.Traffic.fresh {s t : State} (h : s.Traffic t) {hd : ReqHeader} (hf : s.mgmt.Fresh hd) :
    t.mgmt.Fresh hd := by
  rcases h.mgmt with hm | ⟨he, _⟩
  · exact hm ▸ hf
  · rw [hf.idle] at he; exact absurd he (by simp)

theorem State.finish_ends {s t : State} (h : s.KeepsBlocks t) {hd : ReqHeader} (hf : t.mgmt.Fresh hd)
    (code : ResultCode) : s.Ends (t.finish code) := by
  obtain ⟨m₀, hm⟩ := hf
  refine ⟨h.trans (t.finish_keepsBlocks code), ?_, State.deferredOk_of_none ?_⟩
  · simp [State.finish, hm, Mgmt.Law, Mgmt.begin]
  · simp [State.finish, hm, Mgmt.begin]

theorem State.execute_ends {s t : State} (h : s.KeepsBlocks t) {hd : ReqHeader} (hf : t.mgmt.Fresh hd) :
    s.Ends t.execute := by
  obtain ⟨m₀, hm⟩ := hf
  refine ⟨h.trans (t.mapMgmt_keepsBlocks id), ?_, State.deferredOk_of_none ?_⟩
  · simp [State.execute, hm, Mgmt.Law, Mgmt.begin]
  · simp [State.execute, hm, Mgmt.begin]

/-- A snapshot of at most 256 bytes (R142, R145). -/
theorem State.snapshot_keepsBlocks (s : State) (bytes : List Byte) (d : Byte) (a : Option Deferred) :
    s.KeepsBlocks (s.snapshot bytes d a) := s.mapMgmt_keepsBlocks (Memory.writeBytes_wf bytes _)

theorem State.snapshot_law {s : State} {hd : ReqHeader} (hf : s.mgmt.Fresh hd) {bytes : List Byte}
    (hl : bytes.length ≤ 256) (d : Byte) (a : Option Deferred) : (s.snapshot bytes d a).mgmt.Law := by
  obtain ⟨m₀, hm⟩ := hf
  have hdrained : 0 < bytes.length ∨ bytes.length % Config.mgmtPacket = 0 := by
    rcases Nat.eq_zero_or_pos bytes.length with h | h
    · exact .inr (by simp [h])
    · exact .inl h
  simpa [State.snapshot, hm, Mgmt.Law, Mgmt.begin, hl] using hdrained

theorem State.snapshot_ends {s : State} {hd : ReqHeader} (hf : s.mgmt.Fresh hd) {bytes : List Byte}
    (hl : bytes.length ≤ 256) (d : Byte) : s.Ends (s.snapshot bytes d none) :=
  ⟨s.snapshot_keepsBlocks bytes d none, s.snapshot_law hf hl d none, State.deferredOk_of_none rfl⟩

/-! ### The lengths of the records (11.4 to 11.7) -/

@[simp] theorem halfBytes_length (h : Half) : (halfBytes h).length = 2 := rfl
@[simp] theorem wordBytes_length (w : Word) : (wordBytes w).length = 4 := rfl
@[simp] theorem Entry.bytes_length (e : Entry) : e.bytes.length = 16 := rfl
@[simp] theorem identityRecord_length : identityRecord.length = 16 := by decide
@[simp] theorem Timebase.record_length (t : Timebase) : t.record.length = 12 := rfl
@[simp] theorem EventRec.bytes_length (r : EventRec) : r.bytes.length = 8 := rfl

theorem Stream.record_length (st : Stream) : st.record.length = 24 := by
  unfold Stream.record
  split <;> simp

theorem State.counterRecord_length (s : State) (g : CounterGroup) : (s.counterRecord g).length = g.recordLength := by
  cases g <;> rfl

/-- `n` event records take 8 bytes each (R166). -/
theorem eventBytes_length (rs : List EventRec) : (rs.flatMap EventRec.bytes).length = 8 * rs.length := by
  induction rs with
  | nil => rfl
  | cons r rs ih => simp only [List.flatMap_cons, List.length_append, EventRec.bytes_length, ih, List.length_cons]; omega

/-! ### The fifteen requests (Chapter 9) -/

section Bodies

variable {s : State} {f : ReqFields} {hd : ReqHeader}

/-- The checks of R141 that a request has passed when its own work begins. -/
theorem headerRefusal?_none_iff (r : Request) (f : ReqFields) (node : NodeState) :
    headerRefusal? r f node = none ↔
      f.flags = 0 ∧ r.lengthOk f.length.toNat = true ∧ r.allowedIn node = true := by
  unfold headerRefusal?
  split_ifs with hflags hlength hnode <;> simp_all

theorem assignAddressBody_ends (hf : s.mgmt.Fresh hd)
    (hnode : s.trunk.node = .listening ∨ s.trunk.node = .addressed) : s.Ends (assignAddressBody f s) := by
  unfold assignAddressBody
  split
  · exact State.finish_ends (State.Keeps.refl s).toKeepsBlocks hf _
  · split
    · exact State.finish_ends (State.Keeps.refl s).toKeepsBlocks hf _
    · obtain ⟨m₀, hm⟩ := hf
      refine ⟨(s.finish_keepsBlocks .done).trans (State.mapMgmt_keepsBlocks _ id), ?_, ?_⟩
      · simp [State.finish, hm, Mgmt.Law, Mgmt.begin]
      · simpa [State.deferredOk, State.finish] using hnode

/-- START finds the node ADDRESSED, at an address other than 0 (R54, R157). -/
theorem startBody_ends (hf : s.mgmt.Fresh hd) (hnode : s.trunk.node = .addressed) : s.Ends (startBody s) := by
  have hrun : s.KeepsBlocks (s.mapTrunk (fun t => { t with node := .running })) := by
    refine ⟨id, id, fun ⟨⟨haddr, hline⟩, hresponse⟩ => ⟨?_, fun n hn => ⟨(hresponse n hn).1, fun _ => rfl⟩⟩, id, id, id⟩
    simpa [Trunk.Law, hnode] using And.intro haddr hline
  exact State.finish_ends hrun hf .done

/-- STOP leaves no stream OPEN (R22, R54, R157). -/
theorem stopBody_ends (hf : s.mgmt.Fresh hd) (hnode : s.trunk.node = .running) : s.Ends (stopBody s) := by
  have hstop : ∀ u : State, u = s.mapTrunk (fun t => { t with node := .addressed }) →
      s.KeepsBlocks u.claimHoldAll ∧ u.claimHoldAll.mgmt.Fresh hd := by
    rintro u rfl
    refine ⟨⟨by simp, by simp, fun ⟨⟨haddr, hline⟩, hresponse⟩ => ⟨?_, fun n hn => ?_⟩, .of_same (by simp) fun n => ?_,
      by simp, fun ⟨hcredits, hdepth⟩ => ⟨fun n => ?_, by simpa using hdepth⟩⟩, by simpa using hf⟩
    · simpa [Trunk.Law, hnode] using And.intro haddr hline
    · have hhold : (s.stream n).response = .hold ∨ (s.stream n).entry.enabled = true := by
        cases he : (s.stream n).entry.enabled
        · exact .inl ((hresponse n hn).1 he)
        · exact .inr rfl
      rw [State.claimHoldAll_stream]
      rcases hhold with h | h <;> split <;> simp_all
    · rw [State.claimHoldAll_stream]; split <;> rfl
    · rw [State.claimHoldAll_stream]; split <;> exact hcredits n
  obtain ⟨hblocks, hfresh⟩ := hstop _ rfl
  exact State.finish_ends hblocks hfresh .done

theorem setCycleBody_ends (hf : s.mgmt.Fresh hd) : s.Ends (setCycleBody f s) := by
  have hsame := (State.Keeps.refl s).toKeepsBlocks
  unfold setCycleBody
  split
  · exact State.finish_ends hsame hf _
  · next l _ =>
    split
    · exact State.finish_ends hsame hf _
    · next hrange =>
      split
      · exact State.finish_ends hsame hf _
      · refine State.finish_ends (t := s.mapTimebase _) (s.mapTimebase_keeps fun _ => ?_).toKeepsBlocks hf _
        exact Timebase.setCycle_law _ l (by omega) (by omega)

theorem writeStreamBody_ends (hf : s.mgmt.Fresh { code := Request.writeStream.code, fields := some f })
    (hl : f.length.toNat = 16) : s.Ends (writeStreamBody s) := by
  obtain ⟨m₀, hm⟩ := hf
  refine ⟨s.mapMgmt_keepsBlocks id, ?_, State.deferredOk_of_none (by simp [writeStreamBody, hm, Mgmt.begin])⟩
  simp [writeStreamBody, hm, Mgmt.Law, Mgmt.begin, Mgmt.declared, Mgmt.fields?, Mgmt.headerCode, hl]

theorem setResponseBody_ends (hf : s.mgmt.Fresh hd) : s.Ends (setResponseBody f s) := by
  have hsame := (State.Keeps.refl s).toKeepsBlocks
  unfold setResponseBody
  split
  · exact State.finish_ends hsame hf _
  · next n _ =>
    split
    · exact State.finish_ends hsame hf _
    · next r _ =>
      split
      · exact State.finish_ends hsame hf _
      · split
        · exact State.finish_ends hsame hf _
        · have hclaim := s.claim_keeps n r
          have hfresh : (s.claim n r).mgmt.Fresh hd := by
            rcases s.claim_cases n r with ⟨_, _, h⟩ | ⟨_, h⟩ <;> rw [h] <;> exact hf
          simp only
          split
          · have hclear : (s.claim n r).Traffic ((s.claim n r).mapStream n Stream.clearSeq) :=
              State.mapStream_traffic _ n ⟨rfl, .inl rfl, .inl le_rfl⟩
            exact State.finish_ends (hclaim.trans hclear.keeps).toKeepsBlocks (hclear.fresh hfresh) _
          · exact State.finish_ends hclaim.toKeepsBlocks hfresh _

/-- What a RESET-STREAM does to the streams and the ports is traffic (R161). -/
theorem resetStream_traffic (s : State) (n : Fin 32) :
    s.Traffic (((s.mapStream n Stream.resetStream).revokeStream n).issueGrants n) :=
  ((s.mapStream_traffic n ⟨rfl, .inl rfl, .inl le_rfl⟩).trans (State.revokeStream_traffic _ n)).trans
    (State.issueGrants_traffic _ n)

theorem resetStreamBody_ends (hf : s.mgmt.Fresh hd) : s.Ends (resetStreamBody f s) := by
  have hsame := (State.Keeps.refl s).toKeepsBlocks
  unfold resetStreamBody
  split
  · exact State.finish_ends hsame hf _
  · next n _ =>
    split
    · exact State.finish_ends hsame hf _
    · have hreset := resetStream_traffic s n
      simp only
      split
      · exact State.execute_ends hreset.keeps.toKeepsBlocks (hreset.fresh hf)
      · exact State.finish_ends hreset.keeps.toKeepsBlocks (hreset.fresh hf) _

theorem branchControlBody_ends (hf : s.mgmt.Fresh hd) : s.Ends (branchControlBody f s) := by
  have hsame := (State.Keeps.refl s).toKeepsBlocks
  unfold branchControlBody
  split
  · exact State.finish_ends hsame hf _
  · split
    · exact State.finish_ends hsame hf _
    · have hcommit := s.branchCommit_traffic
      exact State.finish_ends (hcommit _ _).keeps.toKeepsBlocks ((hcommit _ _).fresh hf) _

/-- READ-EVENTS takes at most 32 records, and defers the removal of as many as stand (R166, R174). -/
theorem readEventsBody_ends (hf : s.mgmt.Fresh hd) (hl : f.length.toNat ≤ 256) : s.Ends (readEventsBody f s) := by
  have hcount : s.events.readCount f.length.toNat ≤ f.length.toNat / 8 := Nat.min_le_left _ _
  have hrecords : s.events.readCount f.length.toNat ≤ s.events.records.length := Nat.min_le_right _ _
  refine ⟨s.snapshot_keepsBlocks _ _ _, s.snapshot_law hf ?_ _ _, ?_⟩
  · rw [eventBytes_length, List.length_take]; omega
  · simp only [State.deferredOk, readEventsBody, State.snapshot, State.mapMgmt_mgmt, State.mapMgmt_events,
      Bool.and_eq_true]
    exact ⟨decide_eq_true hrecords, decide_eq_true (BitVec.le_refl _)⟩

theorem setEventMaskBody_ends (hf : s.mgmt.Fresh hd) : s.Ends (setEventMaskBody f s) := by
  unfold setEventMaskBody
  split
  · exact State.finish_ends (State.Keeps.refl s).toKeepsBlocks hf _
  · have hmask : s.KeepsBlocks (s.setEvents { s.events with mask := f.value }) := ⟨id, id, id, id, id, id⟩
    exact State.finish_ends hmask hf _

theorem readCountersBody_ends (hf : s.mgmt.Fresh hd) : s.Ends (readCountersBody f s) := by
  unfold readCountersBody
  split
  · exact State.finish_ends (State.Keeps.refl s).toKeepsBlocks hf _
  · next g _ =>
    split
    · exact State.finish_ends (State.Keeps.refl s).toKeepsBlocks hf _
    · refine State.snapshot_ends hf ?_ _
      rw [State.counterRecord_length]
      cases g <;> simp [CounterGroup.recordLength]

theorem clearGroup_keepsBlocks (s : State) (g : CounterGroup) :
    s.KeepsBlocks (s.clearGroup g) ∧ (s.clearGroup g).mgmt = s.mgmt := by
  cases g with
  | stream n => exact ⟨(s.countStream_traffic n fun _ => StreamCounters.zero).keeps.toKeepsBlocks, rfl⟩
  | branch b => exact ⟨(s.countBranch_traffic b fun _ => BranchCounters.zero).keeps.toKeepsBlocks, rfl⟩
  | trunk => exact ⟨(s.mapTrunkCtr_traffic fun _ => TrunkCounters.zero).keeps.toKeepsBlocks, rfl⟩
  | timebase =>
    exact ⟨(s.mapTimebase_keeps (f := fun t => { t with markers := 0, interpolated := 0 }) id).toKeepsBlocks, rfl⟩

theorem clearCountersBody_ends (hf : s.mgmt.Fresh hd) : s.Ends (clearCountersBody f s) := by
  unfold clearCountersBody
  split
  · exact State.finish_ends (State.Keeps.refl s).toKeepsBlocks hf _
  · next g _ =>
    obtain ⟨hkeeps, hmgmt⟩ := clearGroup_keepsBlocks s g
    exact State.finish_ends hkeeps (hmgmt ▸ hf) _

/-- Every request that passes its header checks ends as it must. -/
theorem Request.body_ends (r : Request) (hf : s.mgmt.Fresh { code := r.code, fields := some f })
    (hok : headerRefusal? r f s.trunk.node = none) : s.Ends (r.body f s) := by
  obtain ⟨-, hlength, hnode⟩ := (headerRefusal?_none_iff r f s.trunk.node).mp hok
  cases r with
  | assignAddress => exact assignAddressBody_ends hf (by simpa [Request.allowedIn] using hnode)
  | readIdentity => exact State.snapshot_ends hf (by simp) _
  | start => exact startBody_ends hf (by simpa [Request.allowedIn] using hnode)
  | stop => exact stopBody_ends hf (by simpa [Request.allowedIn] using hnode)
  | setCycle => exact setCycleBody_ends hf
  | writeStream => exact writeStreamBody_ends hf (by simpa [Request.lengthOk] using hlength)
  | readStream =>
    unfold Request.body readStreamBody
    simp only
    split
    · exact State.finish_ends (State.Keeps.refl s).toKeepsBlocks hf _
    · exact State.snapshot_ends hf (by simp [Stream.record_length]) _
  | setResponse => exact setResponseBody_ends hf
  | resetStream => exact resetStreamBody_ends hf
  | branchControl => exact branchControlBody_ends hf
  | readEvents =>
    simp only [Request.lengthOk, Bool.and_eq_true, decide_eq_true_eq] at hlength
    exact readEventsBody_ends hf hlength.1
  | setEventMask => exact setEventMaskBody_ends hf
  | readCounters => exact readCountersBody_ends hf
  | clearCounters => exact clearCountersBody_ends hf
  | readTimebase => exact State.snapshot_ends hf (by simp) _

end Bodies

/-! ### A REQUEST cell (R58, R140, R141) -/

theorem Mgmt.begin_law (m : Mgmt) (hd : ReqHeader) : (m.begin hd).Law := by simp [Mgmt.Law, Mgmt.begin]

/-- A REQUEST that begins its exchange: the blocks keep their laws, and the exchange is fresh. -/
theorem State.beginExchange_keeps (s : State) (hd : ReqHeader) :
    s.Keeps (s.beginExchange hd) ∧ (s.beginExchange hd).mgmt.Fresh hd := by
  have hbegin : ∀ u : State, u.Keeps (u.mapMgmt (fun m => m.begin hd)) :=
    fun u => u.mapMgmt_keeps id (fun _ => Mgmt.begin_law _ hd) (.inl rfl)
  unfold State.beginExchange
  split
  · exact ⟨(s.offerPlain_traffic _ _).keeps.trans (hbegin _), _, rfl⟩
  · exact ⟨hbegin s, _, rfl⟩

theorem State.Ends.keeps {s t u : State} (h : s.Keeps t) (g : t.Ends u) : s.Keeps u :=
  ⟨h.toKeepsBlocks.trans g.blocks, fun _ => g.mgmt, fun _ => g.deferred⟩

theorem State.takeCell_keeps (s : State) (c : CellHdr) {f : State → State} (h : s.Keeps (f s)) :
    s.Keeps (s.takeCell c f) := by
  rcases s.takeCell_cases c f with ⟨_, ht⟩ | ⟨_, ht⟩
  · rw [ht]; exact h
  · rw [ht]; exact .refl s

theorem State.takeRequest_keeps (s : State) (c : CellHdr) (hd : ReqHeader) {run : State → State}
    (h : ∀ u : State, u.mgmt.Fresh hd → u.Ends (run u)) : s.Keeps (s.takeRequest c hd run) := by
  refine s.takeCell_keeps c ?_
  split
  · exact ((s.mapTrunkCtr_traffic _).trans (State.answer_traffic _ c _ _ _)).keeps
  · obtain ⟨hbegin, hfresh⟩ := s.beginExchange_keeps hd
    exact (State.Ends.keeps hbegin (h _ hfresh)).trans (State.answer_traffic _ c _ _ _).keeps

theorem State.request_keeps (s : State) (c : CellHdr) (r : Request) (f : ReqFields) :
    s.Keeps (s.request c r f (r.body f)) := by
  refine s.takeRequest_keeps c _ fun u hu => ?_
  cases hr : headerRefusal? r f u.trunk.node with
  | none => rw [State.runRequest_ok hr]; exact r.body_ends hu hr
  | some code => rw [State.runRequest_refused hr]; exact State.finish_ends (State.Keeps.refl u).toKeepsBlocks hu code

/-- All that a REQUEST cell can be, whatever its payload (R141, R178): a request that its code names, or a BAD-REQUEST. -/
theorem State.requestPayload_cases (s : State) (c : CellHdr) (p : List Byte) :
    (∃ r f, s.requestPayload c p = s.request c r f (r.body f)) ∨
    (∃ hd, s.requestPayload c p = s.takeRequest c hd (fun u => u.finish .badRequest)) := by
  unfold State.requestPayload
  split
  · exact .inr ⟨_, rfl⟩
  · split
    · exact .inr ⟨_, rfl⟩
    · exact .inl ⟨_, _, rfl⟩

theorem State.requestPayload_keeps (s : State) (c : CellHdr) (p : List Byte) : s.Keeps (s.requestPayload c p) := by
  rcases s.requestPayload_cases c p with ⟨r, f, h⟩ | ⟨hd, h⟩
  · rw [h]; exact s.request_keeps c r f
  · rw [h]
    exact s.takeRequest_keeps c hd fun u hu => State.finish_ends (State.Keeps.refl u).toKeepsBlocks hu _

/-! ### The commands -/

/-- A command that is a request does what its row's request does (11.4); a BRANCH row carries the value of its row. -/
theorem exec_request {i : Instr} {c : CellHdr} {r : Request} {f : ReqFields} (h : i.request? = some (c, r, f))
    (s : State) : ∃ g, exec i s = .next (s.request c r g (r.body g)) := by
  cases i <;> simp only [Instr.request?, Option.some.injEq, Prod.mk.injEq, reduceCtorEq] at h
  all_goals
    obtain ⟨rfl, rfl, rfl⟩ := h
    exact ⟨_, rfl⟩

theorem State.next_inj {s t : State} (h : (.next s : Host.Outcome State Fault Refusal) = .next t) : s = t := by
  injection h

theorem execPut_keeps (c : CellHdr) (p : List Byte) (s : State) : s.Keeps (s.takeCell c (fun s =>
    if c.stream = 0 then s.mgmtPut c p
    else s.dispatch c (fun e => e.dir == .down) (State.servePut c p))) := by
  refine s.takeCell_keeps c ?_
  split
  · exact s.mgmtPut_keeps c p
  · exact (s.dispatch_traffic c _ (State.servePut_traffic c p)).keeps

theorem execFetch_keeps (c : CellHdr) (s : State) : s.Keeps (s.takeCell c (fun s =>
    if c.stream = 0 then s.mgmtFetch c
    else s.dispatch c (fun e => e.dir == .up) (State.serveFetch c))) := by
  refine s.takeCell_keeps c ?_
  split
  · exact s.mgmtFetch_keeps c
  · exact (s.dispatch_traffic c _ (State.serveFetch_traffic c)).keeps

theorem execAsk_keeps (c : CellHdr) (s : State) : s.Keeps (s.takeCell c (fun s =>
    if c.stream = 0 then s.mgmtAsk c
    else s.dispatch c (fun e => e.dir == .down && e.cls == .flow) (fun s n => s.flowAsk c n))) := by
  refine s.takeCell_keeps c ?_
  split
  · exact s.mgmtAsk_keeps c
  · exact (s.dispatch_traffic c _ (fun s n => s.flowAsk_traffic c n)).keeps

theorem execAck_keeps (c : CellHdr) (s : State) : s.Keeps (s.takeCell c (fun s =>
    if c.stream = 0 then s.mgmtAck else s.streamAck c)) := by
  refine s.takeCell_keeps c ?_
  split
  · exact s.mgmtAck_keeps
  · exact (s.streamAck_traffic c).keeps

/-- Every command keeps each of the configuration laws. -/
theorem exec_keeps {i : Instr} {s t : State} (h : exec i s = .next t) : s.Keeps t := by
  cases hr : i.request? with
  | some x =>
    obtain ⟨c, r, f⟩ := x
    obtain ⟨g, hg⟩ := exec_request hr s
    rw [← State.next_inj (hg.symm.trans h)]
    exact s.request_keeps c r g
  | none =>
    cases i <;> simp only [Instr.request?, reduceCtorEq] at hr <;> refine State.next_inj h ▸ ?_
    case resetN =>
      have hlaw : State.Law { State.reset with pending := s.pending } := resetKeepsEveryLaw
      obtain ⟨⟨hpool, hbuffer⟩, hnode, htable, htimebase, hbounds, ⟨hmgmt, hdeferred, -⟩, -, -⟩ := hlaw
      exact ⟨⟨fun _ => hpool, fun _ => hbuffer, fun _ => hnode, fun _ => htable, fun _ => htimebase, fun _ => hbounds⟩,
        fun _ => hmgmt, fun _ => hdeferred⟩
    case trunkSignalPresent =>
      split
      · next hline => exact s.attach_keeps hline
      · exact .refl s
    case trunkSignalLost =>
      split
      · exact s.trunkReset_keeps _ _ _ (by simp) (.inr rfl)
      · exact .refl s
    case lineReset =>
      split
      · exact s.trunkReset_keeps _ _ _ (by simp) (.inl rfl)
      · exact .refl s
    case cellBadCheck => split <;> [exact (s.mapTrunkCtr_traffic _).keeps; exact .refl s]
    case cellUnknownKind => split <;> [exact (s.mapTrunkCtr_traffic _).keeps; exact .refl s]
    case cycle c k time => split <;> [exact s.takeMarker_keeps k time; exact .refl s]
    case cycleTimerExpiry time => exact s.timerExpires_keeps time
    case put c p => exact execPut_keeps c p s
    case fetch c => exact execFetch_keeps c s
    case ask c => exact execAsk_keeps c s
    case ack c => exact execAck_keeps c s
    case requestBadCode c p => exact s.requestPayload_keeps c p
    case answerSendBegin =>
      split
      · exact (s.mapTrunk_traffic _ rfl rfl rfl).keeps
      · exact .refl s
    case answerSendEnd => exact (s.mapTrunk_traffic _ rfl rfl rfl).keeps
    case branchSignalPresent b => exact (s.mapBranch_traffic b _).keeps
    case branchSignalLost b =>
      have hline := s.mapBranch_traffic b (fun br => { br with line := .absent })
      split
      · exact (hline.trans (State.loseLink_traffic _ b _ _ _)).keeps
      · exact (hline.trans (State.mapBranch_traffic _ b _)).keeps
      · exact hline.keeps
      · exact hline.keeps
    case frameBadCheck b =>
      split
      · simp only
        split
        · exact ((s.mapBranch_traffic b _).trans (State.loseLink_traffic _ b _ _ _)).keeps
        · exact (s.mapBranch_traffic b _).keeps
      · exact (s.mapBranch_traffic b _).keeps
      · exact .refl s
      · exact .refl s
    case align b =>
      split
      · simp only
        split
        · exact ((s.mapBranch_traffic b _).trans (State.linkUp_traffic _ b)).keeps
        · exact (s.mapBranch_traffic b _).keeps
      · exact (s.goodFrame_traffic b fun u => u.loseLink_traffic b _ _ _).keeps
      · exact .refl s
      · exact .refl s
    case data b ch p => exact (s.goodFrame_traffic b fun u => u.takeData_traffic b ch false p).keeps
    case dataLast b ch p => exact (s.goodFrame_traffic b fun u => u.takeData_traffic b ch true p).keeps
    case credit b ch p => exact (s.goodFrame_traffic b fun u => u.takeCredit_traffic b ch p).keeps
    case unwantedFrame b => exact (s.goodFrame_traffic b fun u => u.countBranch_traffic b _).keeps
    case controlFrameEnd b =>
      split
      · exact ((s.mapUpStream_traffic b _ (f := fun st =>
          { st with delivered := st.delivered + st.inFlight, inFlight := 0 }) fun _ => ⟨rfl, .inl rfl, .inl le_rfl⟩).trans
            (State.txDone_traffic _ b)).keeps
      · exact (s.txDone_traffic b).keeps
      all_goals exact .refl s
    case dataFrameEnd b =>
      split
      · next n k p _ =>
        have hend : s.Traffic (s.mapStream n (fun st => st.endFrame k p.length)) :=
          s.mapStream_traffic n (Stream.advance_traffic _ k _ _)
        simp only
        split
        · exact ((hend.trans (State.resetStreamEnd_traffic _ n)).trans (State.txDone_traffic _ b)).keeps
        · exact (hend.trans (State.txDone_traffic _ b)).keeps
      all_goals exact .refl s

/-- Every step keeps each of the configuration laws. -/
theorem step_keeps {s t : State} (h : step s = .next t) : s.Keeps t := by
  unfold step at h
  split at h
  · rw [← State.next_inj h]; exact .refl s
  · exact (s.pending_traffic _).keeps.trans (exec_keeps h)

/-- Settles O57: no command moves the node law (`exec_keeps`). -/
theorem stepsKeepTheNodeLaw : Obligations.StepsKeepTheNodeLaw := fun _ _ hs h => (step_keeps h).node hs

/-- Settles O58: only a commit that passes its checks changes the table (`State.commitTable_table`). -/
theorem stepsKeepTheTableLaw : Obligations.StepsKeepTheTableLaw := fun _ _ hs h => (step_keeps h).table hs

end Sys2Proof.Machine
end

