-- ==== Sys2Proof/Proofs/Sides.lean ====
section
/-! The laws of one stream's sides, close order and live fields (R25 to R27, R66, R129), and how the operations on a side
keep them: a side filled, closed, freed, drained from, and the discards and losses of both sides. -/

namespace Sys2Proof.Machine

/-! ### Sides by their number -/

/-- The laws of a stream from 1 to 31 together. -/
abbrev Stream.Lawful (st : Stream) : Prop := st.SidesLaw ∧ st.OrderLaw ∧ st.LiveLaw

theorem Side.lawful_iff (sd : Side) (e : Entry) : sd.lawful e = true ↔ sd.CountLaw e ∧ sd.StateLaw e := by
  simp only [Side.lawful, Bool.and_eq_true, decide_eq_true_eq]

@[simp] theorem Side.empty_lawful (e : Entry) : Side.empty.lawful e = true := by
  simp [Side.lawful, Side.CountLaw, Side.StateLaw, Side.empty]

@[simp] theorem Side.empty_state : Side.empty.state = .free := rfl

theorem mem_sideNos (e : Entry) (k : Fin 2) : k ∈ e.sideNos ↔ k = 0 ∨ e.twoSides = true := by
  unfold Entry.sideNos
  rcases k with ⟨_ | _ | k, hk⟩
  · split <;> simp_all
  · split <;> simp_all
  · omega

theorem fin_two_ne_iff {j k : Fin 2} : j ≠ k ↔ j = 1 - k := by revert j k; decide

/-- The law of the side records, side by side: each keeps its own laws, a side that the stream does not have is at its
FREE values, and at most one is FILLING. -/
theorem Stream.sidesLaw_iff (st : Stream) :
    st.SidesLaw ↔ (∀ k, (st.side k).lawful st.entry = true) ∧
      (∀ k, st.entry.enabled = false ∨ k ∉ st.entry.sideNos → st.side k = Side.empty) ∧
      ∀ j k, (st.side j).state = .filling → (st.side k).state = .filling → j = k := by
  simp only [Fin.forall_fin_two, mem_sideNos, Stream.side]
  constructor
  · rintro ⟨h0, h1, hoff, hone, hboth⟩
    refine ⟨⟨h0, h1⟩, ⟨fun h => hoff (by simpa using h), fun h => hone (by simpa using h)⟩, ⟨fun _ _ => trivial, fun a b => ?_⟩,
      fun a b => ?_, fun _ _ => trivial⟩
    · exact absurd ⟨a, b⟩ hboth
    · exact absurd ⟨b, a⟩ hboth
  · rintro ⟨⟨h0, h1⟩, ⟨hoff, hone⟩, ⟨-, hboth⟩, -⟩
    exact ⟨h0, h1, fun h => hoff (.inl h), fun h => hone (by simpa using h), fun ⟨a, b⟩ => by simpa using hboth a b⟩

/-- A side that is not FREE is one that its enabled stream has. -/
theorem Stream.SidesLaw.place {st : Stream} (h : st.SidesLaw) {k : Fin 2} (hk : (st.side k).state ≠ .free) :
    st.entry.enabled = true ∧ k ∈ st.entry.sideNos := by
  obtain ⟨-, habsent, -⟩ := st.sidesLaw_iff.mp h
  by_contra hno
  have hempty : st.side k = Side.empty := habsent k (by
    by_cases he : st.entry.enabled = true
    · exact .inr fun hk => hno ⟨he, hk⟩
    · exact .inl (by simpa using he))
  exact hk (by rw [hempty]; rfl)

/-- How many sides are not FREE, side by side. -/
theorem Stream.notFree_eq (st : Stream) :
    st.notFree = (if st.side0.state = .free then 0 else 1) +
      (if st.entry.twoSides = true ∧ st.side1.state ≠ .free then 1 else 0) := by
  unfold Stream.notFree Entry.sideNos
  split <;> by_cases h0 : st.side0.state = .free <;> by_cases h1 : st.side1.state = .free <;>
    simp_all [Stream.side]

/-- Sides that stay FREE leave no more sides that are not. -/
theorem Stream.notFree_mono {a b : Stream} (he : b.entry = a.entry)
    (h : ∀ k, (a.side k).state = .free → (b.side k).state = .free) : b.notFree ≤ a.notFree := by
  obtain ⟨h0, h1⟩ := Fin.forall_fin_two.mp h
  simp only [Stream.side, if_true, one_ne_zero, if_false] at h0 h1
  rw [a.notFree_eq, b.notFree_eq, he]
  split_ifs <;> simp_all

/-- A side that leaves FREE makes at most one more side that is not. -/
theorem Stream.notFree_succ {a b : Stream} (he : b.entry = a.entry) (k : Fin 2)
    (h : ∀ j, j ≠ k → (a.side j).state = .free → (b.side j).state = .free) : b.notFree ≤ a.notFree + 1 := by
  rw [a.notFree_eq, b.notFree_eq, he]
  rcases k with ⟨_ | _ | k, hk⟩
  · have h1 := h 1 (by simp)
    simp only [Stream.side, one_ne_zero, if_false] at h1
    split_ifs <;> simp_all
  · have h0 := h 0 (by simp)
    simp only [Stream.side, if_true] at h0
    split_ifs <;> simp_all
  · omega

/-! ### One side replaced, with a new close order -/

/-- The stream with side `k` replaced and the close order `o`: the shape of every operation on one side. -/
def Stream.put (st : Stream) (k : Fin 2) (sd : Side) (o : List (Fin 2)) : Stream :=
  { st.setSide k sd with order := o }

theorem Stream.setSide_eq_put (st : Stream) (k : Fin 2) (sd : Side) : st.setSide k sd = st.put k sd st.order := by
  unfold Stream.put Stream.setSide
  split <;> rfl

theorem Stream.put_put (st : Stream) (k : Fin 2) (a b : Side) (o o' : List (Fin 2)) :
    (st.put k a o).put k b o' = st.put k b o' := by
  unfold Stream.put Stream.setSide
  split <;> rfl

section Put

variable (st : Stream) (k : Fin 2) (sd : Side) (o : List (Fin 2))

@[simp] theorem Stream.put_entry : (st.put k sd o).entry = st.entry := by simp [Stream.put]
@[simp] theorem Stream.put_order : (st.put k sd o).order = o := rfl
@[simp] theorem Stream.put_packet : (st.put k sd o).packet = st.packet := by
  unfold Stream.put Stream.setSide; split <;> rfl
@[simp] theorem Stream.put_seqBit : (st.put k sd o).seqBit = st.seqBit := by
  unfold Stream.put Stream.setSide; split <;> rfl
@[simp] theorem Stream.put_burst : (st.put k sd o).burst = st.burst := by
  unfold Stream.put Stream.setSide; split <;> rfl
@[simp] theorem Stream.put_served : (st.put k sd o).served = st.served := by
  unfold Stream.put Stream.setSide; split <;> rfl
@[simp] theorem Stream.put_queued : (st.put k sd o).queued = st.queued := by
  unfold Stream.put Stream.setSide; split <;> rfl
@[simp] theorem Stream.put_inFlight : (st.put k sd o).inFlight = st.inFlight := by
  unfold Stream.put Stream.setSide; split <;> rfl
@[simp] theorem Stream.put_delivered : (st.put k sd o).delivered = st.delivered := by
  unfold Stream.put Stream.setSide; split <;> rfl
@[simp] theorem Stream.put_credits : (st.put k sd o).credits = st.credits := by
  unfold Stream.put Stream.setSide; split <;> rfl
@[simp] theorem Stream.put_response : (st.put k sd o).response = st.response := by
  unfold Stream.put Stream.setSide; split <;> rfl
@[simp] theorem Stream.put_counters : (st.put k sd o).counters = st.counters := by
  unfold Stream.put Stream.setSide; split <;> rfl
@[simp] theorem Stream.put_grants : (st.put k sd o).grants = st.grants := by simp [Stream.grants]
@[simp] theorem Stream.put_side_self : (st.put k sd o).side k = sd := by
  unfold Stream.put Stream.setSide Stream.side; split <;> rfl

theorem Stream.put_side_ne {j k : Fin 2} (h : j ≠ k) : (st.put k sd o).side j = st.side j :=
  st.setSide_side_ne h sd

theorem Stream.put_side (j : Fin 2) : (st.put k sd o).side j = if j = k then sd else st.side j := by
  split
  · next h => subst h; simp
  · next h => exact st.put_side_ne sd o h

end Put

/-- The side records after one is replaced. -/
theorem Stream.SidesLaw.put {st : Stream} (h : st.SidesLaw) {k : Fin 2} {sd : Side} (o : List (Fin 2))
    (hsd : sd.lawful st.entry = true) (hplace : sd = Side.empty ∨ (st.entry.enabled = true ∧ k ∈ st.entry.sideNos))
    (hfilling : sd.state = .filling → ∀ j, j ≠ k → (st.side j).state ≠ .filling) : (st.put k sd o).SidesLaw := by
  obtain ⟨hlawful, habsent, hone⟩ := st.sidesLaw_iff.mp h
  refine (Stream.sidesLaw_iff _).mpr ⟨fun j => ?_, fun j hj => ?_, fun i j hi hj => ?_⟩
  · rw [Stream.put_side, Stream.put_entry]
    split
    · exact hsd
    · exact hlawful j
  · rw [Stream.put_side]
    rw [Stream.put_entry] at hj
    split
    · next heq =>
      subst heq
      rcases hplace with h | ⟨hen, hk⟩
      · exact h
      · rcases hj with hj | hj
        · rw [hen] at hj; exact absurd hj (by simp)
        · exact absurd hk hj
    · exact habsent j hj
  · rw [Stream.put_side] at hi hj
    split at hi <;> split at hj
    · next h1 h2 => exact h1.trans h2.symm
    · next h1 h2 => exact absurd hj (hfilling hi j h2)
    · next h1 h2 => exact absurd hi (hfilling hj i h1)
    · exact hone i j hi hj

/-- The close order and the outstanding record after one side is replaced. -/
theorem Stream.OrderLaw.put {st : Stream} (h : st.OrderLaw) {k : Fin 2} {sd : Side} {o : List (Fin 2)} (hnodup : o.Nodup)
    (hself : k ∈ o ↔ sd.Ordered) (hother : ∀ j, j ≠ k → (j ∈ o ↔ j ∈ st.order))
    (hhead : ∀ j, j ≠ k → (st.side j).state = .draining → o.head? = some j)
    (hdrains : sd.state = .draining → o.head? = some k ∧ (st.entry.dir = .up → st.packet ≠ none))
    (hpacket : ∀ p ∈ st.packet, p.side ≠ k) : (st.put k sd o).OrderLaw := by
  obtain ⟨-, hmem, -, hup, hpackets⟩ := h
  refine ⟨hnodup, fun j => ?_, fun j hj => ?_, fun j hj hdir => ?_, fun p hp => ?_⟩
  · rw [Stream.put_side, Stream.put_order]
    split
    · next heq => subst heq; exact hself
    · next hne => exact (hother j hne).trans (hmem j)
  · rw [Stream.put_side] at hj
    rw [Stream.put_order]
    split at hj
    · next heq => subst heq; exact (hdrains hj).1
    · next hne => exact hhead j hne hj
  · rw [Stream.put_side] at hj
    rw [Stream.put_entry] at hdir
    rw [Stream.put_packet]
    split at hj
    · exact (hdrains hj).2 hdir
    · exact hup j hj hdir
  · rw [Stream.put_packet] at hp
    obtain ⟨hen, hclass, hdraining, hoffset, hlen⟩ := hpackets p hp
    have hside : (st.put k sd o).side p.side = st.side p.side := st.put_side_ne sd o (hpacket p hp)
    rw [Stream.PacketLaw, Stream.put_entry, hside]
    exact ⟨hen, hclass, hdraining, hoffset, hlen⟩

/-- The live fields after one side is replaced. -/
theorem Stream.LiveLaw.put {st : Stream} (h : st.LiveLaw) {k : Fin 2} {sd : Side} {o : List (Fin 2)}
    (hroom : st.entry.dir = .up → st.entry.enabled = true → st.grants + (st.put k sd o).notFree ≤ st.entry.sideCount) :
    (st.put k sd o).LiveLaw := by
  obtain ⟨hseq, hburst, hserved, hoff, hup, hdown, -⟩ := h
  simp only [Stream.LiveLaw, Stream.put_entry, Stream.put_seqBit, Stream.put_burst, Stream.put_served, Stream.put_queued,
    Stream.put_inFlight, Stream.put_delivered, Stream.put_credits, Stream.put_grants]
  exact ⟨hseq, hburst, hserved, hoff, hup, hdown, hroom⟩

/-! ### The close order -/

/-- A side that waits in no close order. -/
theorem Stream.OrderLaw.not_mem {st : Stream} (h : st.OrderLaw) {k : Fin 2} (hk : ¬ (st.side k).Ordered) :
    k ∉ st.order := fun hm => hk ((h.2.1 k).mp hm)

/-- An outstanding packet is of a DRAINING side. -/
theorem Stream.OrderLaw.packet_side {st : Stream} (h : st.OrderLaw) {k : Fin 2} (hk : (st.side k).state ≠ .draining) :
    ∀ p ∈ st.packet, p.side ≠ k := by
  obtain ⟨-, -, -, -, hpackets⟩ := h
  rintro p hp rfl
  exact hk (hpackets p hp).2.2.1

/-- At most one side is DRAINING: the head of the close order (R26). -/
theorem Stream.OrderLaw.draining_unique {st : Stream} (h : st.OrderLaw) {j k : Fin 2}
    (hj : (st.side j).state = .draining) (hk : (st.side k).state = .draining) : j = k := by
  obtain ⟨-, -, hhead, -⟩ := h
  have := (hhead j hj).symm.trans (hhead k hk)
  injection this

/-- The head of the close order that a drain takes is CLOSED, and no side is DRAINING then. -/
theorem Stream.OrderLaw.closedHead {st : Stream} (h : st.OrderLaw) {k : Fin 2} (hk : st.closedHead? = some k) :
    st.order.head? = some k ∧ (st.side k).state = .closed ∧ ∀ j, (st.side j).state ≠ .draining := by
  have hclosed := Stream.closedHead?_closed hk
  have hfirst : st.order.head? = some k := by
    unfold Stream.closedHead? at hk
    split at hk
    · exact absurd hk (by simp)
    · next j rest heq =>
      split at hk
      · rw [heq]; exact hk
      · exact absurd hk (by simp)
  refine ⟨hfirst, hclosed, fun j hj => ?_⟩
  obtain ⟨-, -, hhead, -⟩ := h
  have : j = k := by
    have := (hhead j hj).symm.trans hfirst
    injection this
  rw [this, hclosed] at hj
  exact absurd hj (by simp)

theorem Stream.closedHead?_eq_some_iff (st : Stream) (k : Fin 2) :
    st.closedHead? = some k ↔ st.order.head? = some k ∧ (st.side k).state = .closed := by
  unfold Stream.closedHead?
  cases st.order with
  | nil => simp
  | cons j rest =>
    simp only [List.head?_cons, Option.some.injEq]
    constructor
    · intro h
      split at h
      · next hc => injection h with h; subst h; exact ⟨rfl, hc⟩
      · exact absurd h (by simp)
    · rintro ⟨rfl, hc⟩; simp [hc]

/-! ### A side filled and closed (R28 to R32) -/

/-- A side that a fill can go into: one that the stream has, FILLING with no other, or FREE with none FILLING. -/
structure Stream.Fillable (st : Stream) (k : Fin 2) : Prop where
  enabled : st.entry.enabled = true
  place : k ∈ st.entry.sideNos
  state : (st.side k).state = .filling ∨ (st.side k).state = .free
  alone : ∀ j, j ≠ k → (st.side j).state ≠ .filling

theorem Stream.Fillable.not_ordered {st : Stream} {k : Fin 2} (h : st.Fillable k) : ¬ (st.side k).Ordered := by
  rcases h.state with hs | hs <;> simp [Side.Ordered, hs]

theorem Stream.Fillable.not_draining {st : Stream} {k : Fin 2} (h : st.Fillable k) : (st.side k).state ≠ .draining := by
  rcases h.state with hs | hs <;> simp [hs]

/-- A side that can be filled has no cause, no mark and nothing drained. -/
theorem Stream.Fillable.fresh {st : Stream} {k : Fin 2} (h : st.Fillable k) (hsides : st.SidesLaw) :
    (st.side k).cause = none ∧ (st.side k).marked = false ∧ (st.side k).drain = 0 := by
  obtain ⟨hlawful, -, -⟩ := st.sidesLaw_iff.mp hsides
  obtain ⟨⟨-, -, hdrain, -⟩, hfree, hcause, -, -, -, hmark⟩ := ((st.side k).lawful_iff _).mp (hlawful k)
  rcases h.state with hs | hs
  · refine ⟨hcause.mpr (.inr hs), ?_, hdrain (.inl hs)⟩
    cases hm : (st.side k).marked
    · rfl
    · exact absurd (hmark hm).1 (by simp [hs])
  · rw [hfree hs]; exact ⟨rfl, rfl, rfl⟩

theorem Stream.fill_eq_put (st : Stream) (k : Fin 2) (len : Nat) :
    st.fill k len = st.put k { st.side k with state := .filling, fill := (st.side k).fill + len } st.order :=
  st.setSide_eq_put k _

theorem Stream.close_eq_put (st : Stream) (k : Fin 2) (state : SideState) (cause : CloseCause) :
    st.close k state cause = st.put k { st.side k with state := state, cause := some cause } (st.order ++ [k]) := rfl

/-- The side that a fill has closed. -/
theorem Stream.fill_close_eq_put (st : Stream) (k : Fin 2) (len : Nat) (state : SideState) (cause : CloseCause) :
    (st.fill k len).close k state cause =
      st.put k { st.side k with state := state, fill := (st.side k).fill + len, cause := some cause }
        (st.order ++ [k]) := by
  rw [Stream.fill_eq_put, Stream.close_eq_put, Stream.put_put, Stream.put_side_self, Stream.put_order]

/-- A fill that leaves the side FILLING (R28, R29): the entry is continuous, and on a DOWN stream the side holds full
packets and has room. -/
theorem Stream.Lawful.fill {st : Stream} (h : st.Lawful) {k : Fin 2} (hk : st.Fillable k) {len : Nat}
    (hfit : (st.side k).fill + len ≤ st.entry.capacity) (hcont : st.entry.continuous = true)
    (hdown : st.entry.dir = .down → (st.side k).fill + len < st.entry.capacity ∧
      ((st.side k).fill + len) % st.entry.maxPayload.toNat = 0)
    (hroom : st.entry.dir = .up → st.grants + (st.fill k len).notFree ≤ st.entry.sideCount) :
    (st.fill k len).Lawful := by
  obtain ⟨hsides, horder, hlive⟩ := h
  obtain ⟨hcause, hmark, hdrain⟩ := hk.fresh hsides
  rw [Stream.fill_eq_put] at hroom ⊢
  refine ⟨hsides.put _ ?_ (.inr ⟨hk.enabled, hk.place⟩) (fun _ => hk.alone), horder.put horder.1 ?_ (fun _ _ => Iff.rfl) ?_
    (by simp) (horder.packet_side hk.not_draining), hlive.put fun hd _ => hroom hd⟩
  · rw [Side.lawful_iff]
    simp only [Side.CountLaw, Side.StateLaw, hcause, hmark, hdrain]
    exact ⟨⟨hfit, by omega, by simp, fun _ => hdown⟩, by simp, by simp, fun _ => hcont, by simp, by simp, by simp⟩
  · simp only [Side.Ordered, reduceCtorEq, or_self, iff_false]
    exact horder.not_mem hk.not_ordered
  · exact fun j _ hj => horder.2.2.1 j hj

/-- A fill that closes the side (R30, R31, R32): CLOSED, or HELD on a CYCLIC DOWN stream, at the tail of the order. -/
theorem Stream.Lawful.fill_close {st : Stream} (h : st.Lawful) {k : Fin 2} (hk : st.Fillable k) {len : Nat}
    (hfit : (st.side k).fill + len ≤ st.entry.capacity) {state : SideState}
    (hstate : state = .closed ∨ (state = .held ∧ st.entry.Is .cyclic .down)) (cause : CloseCause)
    (hroom : st.entry.dir = .up → st.grants + (st.fill k len).notFree ≤ st.entry.sideCount) :
    ((st.fill k len).close k state cause).Lawful := by
  obtain ⟨hsides, horder, hlive⟩ := h
  obtain ⟨hcause, hmark, hdrain⟩ := hk.fresh hsides
  have hnotin := horder.not_mem hk.not_ordered
  have hnotFree : ((st.fill k len).close k state cause).notFree ≤ (st.fill k len).notFree := by
    refine Stream.notFree_mono (by simp [Stream.close]) fun j hj => ?_
    rw [Stream.fill_eq_put, Stream.put_side] at hj
    rw [Stream.fill_close_eq_put, Stream.put_side]
    split at hj
    · exact absurd hj (by simp)
    · next hne => rw [if_neg hne]; exact hj
  rw [Stream.fill_close_eq_put] at hnotFree ⊢
  refine ⟨hsides.put _ ?_ (.inr ⟨hk.enabled, hk.place⟩) ?_, horder.put ?_ ?_ ?_ ?_ ?_ (horder.packet_side hk.not_draining),
    hlive.put fun hd _ => le_trans (Nat.add_le_add_left hnotFree _) (hroom hd)⟩
  · rw [Side.lawful_iff]
    simp only [Side.CountLaw, Side.StateLaw, hmark, hdrain]
    rcases hstate with rfl | ⟨rfl, hcyclic⟩
    · exact ⟨⟨hfit, by omega, by simp, by simp⟩, by simp, by simp, by simp, by simp, by simp, by simp⟩
    · exact ⟨⟨hfit, by omega, by simp, by simp⟩, by simp, by simp, by simp, fun _ => hcyclic, by simp, by simp⟩
  · rcases hstate with rfl | ⟨rfl, -⟩ <;> simp
  · rw [← List.concat_eq_append]; exact horder.1.concat hnotin
  · rcases hstate with rfl | ⟨rfl, -⟩ <;> simp [Side.Ordered]
  · intro j hj; simp [hj]
  · intro j _ hj
    have := horder.2.2.1 j hj
    cases hord : st.order with
    | nil => rw [hord] at this; exact absurd this (by simp)
    | cons a rest => rw [hord] at this; exact this
  · rcases hstate with rfl | ⟨rfl, -⟩ <;> simp

/-! ### A side freed or drained from (R25, R35, R38) -/

theorem Stream.free_eq_put (st : Stream) (k : Fin 2) :
    st.free k = st.put k Side.empty (st.order.filter (fun j => j != k)) := rfl

theorem Stream.SidesLaw.free {st : Stream} (h : st.SidesLaw) (k : Fin 2) : (st.free k).SidesLaw := by
  rw [Stream.free_eq_put]
  exact h.put _ (by simp) (.inl rfl) (by simp)

theorem Stream.LiveLaw.free {st : Stream} (h : st.LiveLaw) (k : Fin 2) : (st.free k).LiveLaw := by
  have hnotFree : (st.free k).notFree ≤ st.notFree := by
    refine Stream.notFree_mono (by simp [Stream.free]) fun j hj => ?_
    rw [Stream.free_eq_put, Stream.put_side]
    split
    · rfl
    · exact hj
  rw [Stream.free_eq_put] at hnotFree ⊢
  exact h.put fun hd he => le_trans (Nat.add_le_add_left hnotFree _) (h.2.2.2.2.2.2 hd he)

/-- The head of the close order freed, its packet gone. -/
theorem Stream.Lawful.free {st : Stream} (h : st.Lawful) {k : Fin 2} (hhead : st.order.head? = some k)
    (hpacket : st.packet = none) : (st.free k).Lawful := by
  obtain ⟨hsides, horder, hlive⟩ := h
  refine ⟨hsides.free k, ?_, hlive.free k⟩
  rw [Stream.free_eq_put]
  refine horder.put (horder.1.filter _) ?_ ?_ ?_ (by simp) (by simp [hpacket])
  · simp [Side.Ordered]
  · intro j hj; simp [hj]
  · intro j hj hdr
    exact absurd (Option.some.inj ((horder.2.2.1 j hdr).symm.trans hhead)) hj

/-- The side records when a DRAINING side becomes CLOSED again, more of it drained. -/
theorem Stream.SidesLaw.drained {st : Stream} (h : st.SidesLaw) {k : Fin 2} (hk : (st.side k).state = .draining) {d : Nat}
    (hd : d ≤ (st.side k).fill) (hmark : (st.side k).marked = false) :
    (st.setSide k { st.side k with state := .closed, drain := d }).SidesLaw := by
  obtain ⟨hlawful, -, -⟩ := st.sidesLaw_iff.mp h
  obtain ⟨⟨hfill, -, -⟩, -, hcause, -, -, hnotUp, -⟩ := ((st.side k).lawful_iff _).mp (hlawful k)
  have hcyclic : ¬ st.entry.Is .cyclic .up := hnotUp hk
  have hc : (st.side k).cause ≠ none := fun hc => by simpa [hk] using hcause.mp hc
  rw [Stream.setSide_eq_put]
  refine h.put _ ?_ (.inr (h.place (k := k) (by simp [hk]))) (by simp)
  rw [Side.lawful_iff]
  simp only [Side.CountLaw, Side.StateLaw, hmark]
  exact ⟨⟨hfill, hd, fun h => by simpa using absurd (h.resolve_left (by simp)) (by simpa using hcyclic), by simp⟩, by simp,
    by simpa using hc, by simp, by simp, by simp, by simp⟩

theorem Stream.LiveLaw.drained {st : Stream} (h : st.LiveLaw) {k : Fin 2} (hk : (st.side k).state = .draining) (d : Nat) :
    (st.setSide k { st.side k with state := .closed, drain := d }).LiveLaw := by
  have hnotFree : (st.setSide k { st.side k with state := .closed, drain := d }).notFree ≤ st.notFree := by
    refine Stream.notFree_mono (by simp) fun j hj => ?_
    rw [Stream.setSide_eq_put, Stream.put_side]
    split
    · next heq => subst heq; rw [hk] at hj; exact absurd hj (by simp)
    · exact hj
  rw [Stream.setSide_eq_put] at hnotFree ⊢
  exact h.put fun hd he => le_trans (Nat.add_le_add_left hnotFree _) (h.2.2.2.2.2.2 hd he)

/-- A DRAINING head of the close order that keeps its place as CLOSED, more of it drained. -/
theorem Stream.Lawful.drained {st : Stream} (h : st.Lawful) {k : Fin 2} (hk : (st.side k).state = .draining)
    (hpacket : st.packet = none) {d : Nat} (hd : d ≤ (st.side k).fill) (hmark : (st.side k).marked = false) :
    (st.setSide k { st.side k with state := .closed, drain := d }).Lawful := by
  obtain ⟨hsides, horder, hlive⟩ := h
  have hmem : k ∈ st.order := (horder.2.1 k).mpr (.inr (.inr hk))
  refine ⟨hsides.drained hk hd hmark, ?_, hlive.drained hk d⟩
  rw [Stream.setSide_eq_put]
  exact horder.put horder.1 (by simp [Side.Ordered, hmem]) (fun _ _ => Iff.rfl) (fun j _ hj => horder.2.2.1 j hj) (by simp)
    (by simp [hpacket])

/-- While the head of the close order is CLOSED, no packet is outstanding. -/
theorem Stream.OrderLaw.packet_none {st : Stream} (h : st.OrderLaw) {k : Fin 2} (hk : st.closedHead? = some k) :
    st.packet = none := by
  obtain ⟨-, -, hnone⟩ := h.closedHead hk
  cases hp : st.packet with
  | none => rfl
  | some p => exact absurd (h.2.2.2.2 p hp).2.2.1 (hnone _)

/-- The side records when the CLOSED head begins to drain, on a stream that drains (R36). -/
theorem Stream.SidesLaw.begin {st : Stream} (h : st.SidesLaw) {k : Fin 2} (hk : (st.side k).state = .closed)
    (hdrains : ¬ st.entry.Is .cyclic .up) : (st.setSideState k .draining).SidesLaw := by
  obtain ⟨hlawful, -, -⟩ := st.sidesLaw_iff.mp h
  obtain ⟨⟨hfill, hle, hzero, -⟩, -, hcause, -, -, -, hmark⟩ := ((st.side k).lawful_iff _).mp (hlawful k)
  have hc : (st.side k).cause ≠ none := fun hc => by simpa [hk] using hcause.mp hc
  have hm : (st.side k).marked = false := by
    cases hm : (st.side k).marked
    · rfl
    · exact absurd (hmark hm).1 (by simp [hk])
  rw [Stream.setSideState, Stream.setSide_eq_put]
  refine h.put _ ?_ (.inr (h.place (by simp [hk]))) (by simp)
  rw [Side.lawful_iff]
  simp only [Side.CountLaw, Side.StateLaw, hm]
  exact ⟨⟨hfill, hle, fun h => hzero (.inr (.inr (by simpa using h))), by simp⟩, by simp, by simpa using hc, by simp,
    by simp, fun _ => hdrains, by simp⟩

/-- The beginning of a frame on a DOWN stream keeps the stream's laws (R33, R135). -/
theorem Stream.Lawful.beginFrame {st : Stream} (h : st.Lawful) {k : Fin 2} (hk : st.closedHead? = some k)
    (hdown : st.entry.dir = .down) :
    Stream.Lawful { st.setSideState k .draining with credits := st.credits - 1 } := by
  obtain ⟨hsides, horder, hlive⟩ := h
  obtain ⟨hhead, hclosed, hnone⟩ := horder.closedHead hk
  have hpacket := horder.packet_none hk
  have hmem : k ∈ st.order := (horder.2.1 k).mpr (.inr (.inl hclosed))
  have hsides' := hsides.begin hclosed (fun hc => absurd (hdown.symm.trans hc.2) (by simp))
  have horder' : (st.setSideState k .draining).OrderLaw := by
    rw [Stream.setSideState, Stream.setSide_eq_put]
    exact horder.put horder.1 (by simp [Side.Ordered, hmem]) (fun _ _ => Iff.rfl) (fun j _ hj => absurd hj (hnone j))
      (fun _ => ⟨hhead, by simp [hdown]⟩) (by simp [hpacket])
  have hlive' : (st.setSideState k .draining).LiveLaw := by
    rw [Stream.setSideState, Stream.setSide_eq_put]
    exact hlive.put (by simp [hdown])
  refine ⟨hsides', horder', ?_⟩
  obtain ⟨hseq, hburst, hserved, hoff, hup, hdown', hroom⟩ := hlive'
  refine ⟨hseq, hburst, hserved, fun he => ?_, fun hd => ?_, hdown', hroom⟩
  · obtain ⟨hq, hi, hdl, -⟩ := hoff he
    have hen := (hsides.place (k := k) (by simp [hclosed])).1
    rw [Stream.setSideState, Stream.setSide_entry, hen] at he
    exact absurd he (by simp)
  · rw [show ({ st.setSideState k .draining with credits := st.credits - 1 } : Stream).entry = st.entry from
      st.setSide_entry _ _, hdown] at hd
    exact absurd hd (by simp)

/-- The cut of a packet from a FLOW UP stream keeps the stream's laws (R33, R34, R66, R79). -/
theorem Stream.Lawful.beginPacket {st : Stream} (h : st.Lawful) {k : Fin 2} (hk : st.closedHead? = some k)
    (hflow : st.entry.Is .flow .up) :
    Stream.Lawful { st.setSideState k .draining with packet := some (st.cutPacket k) } := by
  obtain ⟨hsides, horder, hlive⟩ := h
  obtain ⟨hhead, hclosed, hnone⟩ := horder.closedHead hk
  obtain ⟨hen, hplace⟩ := hsides.place (k := k) (by simp [hclosed])
  have hmem : k ∈ st.order := (horder.2.1 k).mpr (.inr (.inl hclosed))
  have hsides' := hsides.begin hclosed (fun hc => absurd (hflow.1.symm.trans hc.1) (by simp))
  have hside : ∀ j, (st.setSideState k .draining).side j =
      if j = k then { st.side k with state := .draining } else st.side j := by
    intro j
    rw [Stream.setSideState, Stream.setSide_eq_put, Stream.put_side]
  have hentry : (st.setSideState k .draining).entry = st.entry := st.setSide_entry _ _
  have hord : (st.setSideState k .draining).order = st.order := by
    rw [Stream.setSideState, Stream.setSide_eq_put]; rfl
  have hlive' : (st.setSideState k .draining).LiveLaw := by
    have hnotFree : (st.setSideState k .draining).notFree ≤ st.notFree := by
      refine Stream.notFree_mono hentry fun j hj => ?_
      rw [hside]
      split
      · next heq => subst heq; rw [hclosed] at hj; exact absurd hj (by simp)
      · exact hj
    rw [Stream.setSideState, Stream.setSide_eq_put] at hnotFree ⊢
    exact hlive.put fun hd he => le_trans (Nat.add_le_add_left hnotFree _) (hlive.2.2.2.2.2.2 hd he)
  refine ⟨hsides', ⟨?_, fun j => ?_, fun j hj => ?_, fun _ _ _ => by simp, ?_⟩, hlive'⟩
  · show (st.setSideState k .draining).order.Nodup
    rw [hord]; exact horder.1
  · show j ∈ (st.setSideState k .draining).order ↔ ((st.setSideState k .draining).side j).Ordered
    rw [hord, hside]
    split
    · next heq => subst heq; simp [Side.Ordered, hmem]
    · exact horder.2.1 j
  · show (st.setSideState k .draining).order.head? = some j
    have hj' : ((st.setSideState k .draining).side j).state = .draining := hj
    rw [hside] at hj'
    rw [hord]
    split at hj'
    · next heq => rw [heq]; exact hhead
    · exact absurd hj' (hnone j)
  · intro p hp
    obtain rfl : st.cutPacket k = p := by simpa using hp
    refine ⟨hentry ▸ hen, hentry ▸ hflow, ?_⟩
    show ((st.setSideState k .draining).side k).state = .draining ∧
      (st.side k).drain = ((st.setSideState k .draining).side k).drain ∧
      min st.entry.maxPayload.toNat ((st.side k).fill - (st.side k).drain) =
        min (st.setSideState k .draining).entry.maxPayload.toNat
          (((st.setSideState k .draining).side k).fill - ((st.setSideState k .draining).side k).drain)
    rw [hside, if_pos rfl, hentry]
    exact ⟨rfl, rfl, rfl⟩

/-! ### The ends of packets and frames (R35, R38) -/

/-- A DRAINING head that a packet or frame of length `len` leaves: FREE when it is done, else CLOSED in its place. -/
theorem Stream.Lawful.advance {st : Stream} (h : st.Lawful) {k : Fin 2} (hk : (st.side k).state = .draining)
    (hpacket : st.packet = none) {len : Nat} (hlen : (st.side k).drain + len ≤ (st.side k).fill) {done : Bool}
    (hmark : done = false → (st.side k).marked = false) : (st.advance k len done).Lawful := by
  unfold Stream.advance
  split
  · exact h.free (h.2.1.2.2.1 k hk) hpacket
  · next hdone => exact h.drained hk hpacket hlen (hmark (by simpa using hdone))

/-- The ACK of the outstanding packet (R35, R81): the packet is gone, and its side FREE or CLOSED in its place. -/
theorem Stream.Lawful.acked {st : Stream} (h : st.Lawful) {p : Packet} (hp : st.packet = some p) (done : Bool) :
    Stream.Lawful { st.advance p.side p.len done with packet := none, seqBit := !st.seqBit } := by
  obtain ⟨hsides, horder, hlive⟩ := h
  obtain ⟨-, hflow, hdraining, -, hlen⟩ := horder.2.2.2.2 p hp
  obtain ⟨hlawful, -, -⟩ := st.sidesLaw_iff.mp hsides
  obtain ⟨⟨-, hle, -⟩, -, -, -, -, -, hmark⟩ := ((st.side p.side).lawful_iff _).mp (hlawful p.side)
  have hunmarked : (st.side p.side).marked = false := by
    cases hm : (st.side p.side).marked
    · rfl
    · exact absurd ((hmark hm).2.symm.trans hflow.2) (by simp)
  have hfit : (st.side p.side).drain + p.len ≤ (st.side p.side).fill := by rw [hlen]; omega
  have hmem : p.side ∈ st.order := (horder.2.1 _).mpr (.inr (.inr hdraining))
  obtain ⟨sd, o, heq, hstate, hnodup, hself, hother⟩ : ∃ sd o, st.advance p.side p.len done = st.put p.side sd o ∧
      sd.state ≠ .draining ∧ o.Nodup ∧ (p.side ∈ o ↔ sd.Ordered) ∧ ∀ j, j ≠ p.side → (j ∈ o ↔ j ∈ st.order) := by
    unfold Stream.advance
    split
    · exact ⟨_, _, rfl, by simp, horder.1.filter _, by simp [Side.Ordered], fun j hj => by simp [hj]⟩
    · exact ⟨_, _, Stream.setSide_eq_put _ _ _, by simp, horder.1, by simp [Side.Ordered, hmem], fun _ _ => Iff.rfl⟩
  have hsides' : (st.advance p.side p.len done).SidesLaw := by
    unfold Stream.advance
    split
    · exact hsides.free _
    · exact hsides.drained hdraining hfit hunmarked
  have hlive' : (st.advance p.side p.len done).LiveLaw := by
    unfold Stream.advance
    split
    · exact hlive.free _
    · exact hlive.drained hdraining _
  rw [heq] at hsides' hlive' ⊢
  have hnone : ∀ j, ((st.put p.side sd o).side j).state ≠ .draining := by
    intro j
    rw [Stream.put_side]
    split
    · exact hstate
    · next hne => exact fun hj => hne (horder.draining_unique hj hdraining)
  obtain ⟨-, hburst, hserved, hoff, hup, hdown, hroom⟩ := hlive'
  refine ⟨hsides', ⟨hnodup, fun j => ?_, fun j hj => absurd hj (hnone j), fun j hj => absurd hj (hnone j), by simp⟩,
    fun hc => ?_, hburst, hserved, hoff, hup, hdown, hroom⟩
  · show j ∈ o ↔ ((st.put p.side sd o).side j).Ordered
    rw [Stream.put_side]
    split
    · next hj => rw [hj]; exact hself
    · next hne => exact (hother j hne).trans (horder.2.1 j)
  · rw [show ({ st.put p.side sd o with packet := none, seqBit := !st.seqBit } : Stream).entry = st.entry by simp,
      hflow.1] at hc
    exact absurd hc (by simp)

/-! ### Discards, losses and releases: both sides at once (R31, R39, R45) -/

/-- A change of both sides that may free sides, and reorders none. -/
structure SideMap (e : Entry) (g : Side → Side) : Prop where
  lawful : ∀ sd, sd.lawful e = true → (g sd).lawful e = true
  empty : g Side.empty = Side.empty
  filling : ∀ sd, (g sd).state = .filling → sd.state = .filling
  draining : ∀ sd, (g sd).state = .draining → sd.state = .draining
  ordered : ∀ sd, sd.lawful e = true → ((g sd).Ordered ↔ sd.Ordered ∧ (g sd).state ≠ .free)

theorem SideMap.free {e : Entry} {g : Side → Side} (hg : SideMap e g) {sd : Side} (hsd : sd.lawful e = true)
    (h : sd.state = .free) : (g sd).state = .free := by
  obtain ⟨-, hfree, -⟩ := (sd.lawful_iff e).mp hsd
  rw [hfree h, hg.empty]; rfl

/-- The stream with both sides changed, and the freed sides out of the close order. -/
def Stream.mapSides (st : Stream) (g : Side → Side) : Stream :=
  { st with side0 := g st.side0, side1 := g st.side1, order := st.order.filter (fun k => (g (st.side k)).state != .free) }

theorem Stream.mapSides_side (st : Stream) (g : Side → Side) (k : Fin 2) : (st.mapSides g).side k = g (st.side k) := by
  unfold Stream.mapSides Stream.side
  split <;> rfl

theorem Stream.SidesLaw.mapSides {st : Stream} (h : st.SidesLaw) {g : Side → Side} (hg : SideMap st.entry g) :
    (st.mapSides g).SidesLaw := by
  obtain ⟨hlawful, habsent, hone⟩ := st.sidesLaw_iff.mp h
  refine (Stream.sidesLaw_iff _).mpr ⟨fun k => ?_, fun k hk => ?_, fun j k hj hk => ?_⟩
  · rw [Stream.mapSides_side]; exact hg.lawful _ (hlawful k)
  · rw [Stream.mapSides_side, habsent k hk]; exact hg.empty
  · rw [Stream.mapSides_side] at hj hk
    exact hone j k (hg.filling _ hj) (hg.filling _ hk)

theorem head?_filter_of_head? {α : Type} {l : List α} {p : α → Bool} {a : α} (h : l.head? = some a) (hp : p a = true) :
    (l.filter p).head? = some a := by
  cases l with
  | nil => exact absurd h (by simp)
  | cons x rest =>
    obtain rfl : x = a := by simpa using h
    rw [List.filter_cons_of_pos hp]; rfl

/-- The close order after both sides have changed: the sides that are not freed keep their places. -/
theorem Stream.OrderLaw.mapSides_order {st : Stream} (h : st.OrderLaw) (hsides : st.SidesLaw) {g : Side → Side}
    (hg : SideMap st.entry g) :
    (st.mapSides g).order.Nodup ∧ (∀ k, k ∈ (st.mapSides g).order ↔ ((st.mapSides g).side k).Ordered) ∧
      ∀ k, ((st.mapSides g).side k).state = .draining → (st.mapSides g).order.head? = some k := by
  obtain ⟨hlawful, -, -⟩ := st.sidesLaw_iff.mp hsides
  obtain ⟨hnodup, hmem, hhead, -, -⟩ := h
  refine ⟨hnodup.filter _, fun k => ?_, fun k hk => ?_⟩
  · rw [Stream.mapSides_side, hg.ordered _ (hlawful k), ← hmem k]
    simp [Stream.mapSides]
  · rw [Stream.mapSides_side] at hk
    exact head?_filter_of_head? (hhead k (hg.draining _ hk)) (by rw [hk]; rfl)

/-- The close order and the outstanding record of a stream with both sides changed, when no DRAINING UP side has changed. -/
theorem Stream.OrderLaw.mapSides {st : Stream} (h : st.OrderLaw) (hsides : st.SidesLaw) {g : Side → Side}
    (hg : SideMap st.entry g) (hpacket : st.entry.dir = .up →
      ∀ k, (st.side k).state = .draining → g (st.side k) = st.side k) : (st.mapSides g).OrderLaw := by
  obtain ⟨hnodup, hmem, hhead⟩ := h.mapSides_order hsides hg
  obtain ⟨-, -, -, hup, hpackets⟩ := h
  refine ⟨hnodup, hmem, hhead, fun k hk hdir => ?_, fun p hp => ?_⟩
  · rw [Stream.mapSides_side] at hk
    exact hup k (hg.draining _ hk) hdir
  · obtain ⟨hen, hclass, hdraining, hoffset, hlen⟩ := hpackets p hp
    have hsame : (st.mapSides g).side p.side = st.side p.side := by
      rw [Stream.mapSides_side]; exact hpacket hclass.2 _ hdraining
    rw [Stream.PacketLaw, hsame]
    exact ⟨hen, hclass, hdraining, hoffset, hlen⟩

theorem Stream.mapSides_notFree {st : Stream} (hsides : st.SidesLaw) {g : Side → Side} (hg : SideMap st.entry g) :
    (st.mapSides g).notFree ≤ st.notFree := by
  obtain ⟨hlawful, -, -⟩ := st.sidesLaw_iff.mp hsides
  refine Stream.notFree_mono rfl fun k hk => ?_
  rw [Stream.mapSides_side]
  exact hg.free (hlawful k) hk

/-- Both sides changed, the live fields kept. -/
theorem Stream.LiveLaw.mapSides {st : Stream} (h : st.LiveLaw) (hsides : st.SidesLaw) {g : Side → Side}
    (hg : SideMap st.entry g) : (st.mapSides g).LiveLaw := by
  obtain ⟨hseq, hburst, hserved, hoff, hup, hdown, hroom⟩ := h
  exact ⟨hseq, hburst, hserved, hoff, hup, hdown, fun hd he =>
    le_trans (Nat.add_le_add_left (Stream.mapSides_notFree hsides hg) _) (hroom hd he)⟩

/-- The same with the packet dropped, when no UP side is left DRAINING. -/
theorem Stream.OrderLaw.mapSides_dropPacket {st : Stream} (h : st.OrderLaw) (hsides : st.SidesLaw) {g : Side → Side}
    (hg : SideMap st.entry g) (hfree : st.entry.dir = .up → ∀ sd, (g sd).state ≠ .draining) :
    Stream.OrderLaw { st.mapSides g with packet := none } := by
  obtain ⟨hnodup, hmem, hhead⟩ := h.mapSides_order hsides hg
  refine ⟨hnodup, hmem, hhead, fun k hk hdir => ?_, by simp⟩
  have hk' : ((st.mapSides g).side k).state = .draining := hk
  rw [Stream.mapSides_side] at hk'
  exact absurd hk' (hfree hdir _)

/-- A discard is a change of both sides (R39, R42). -/
theorem Side.discard_sideMap (e : Entry) : SideMap e (fun sd => sd.discard e.dir) where
  lawful sd h := by
    unfold Side.discard
    split
    · next hd =>
      obtain ⟨⟨hfill, hle, hzero, -⟩, -, hcause, -, -, hup, -⟩ := (sd.lawful_iff e).mp h
      rw [Side.lawful_iff]
      simp only [Side.CountLaw, Side.StateLaw, hd.1]
      rw [hd.1] at hzero hcause hup
      exact ⟨⟨hfill, hle, hzero, by simp⟩, by simp, hcause, by simp, by simp, fun _ => hup rfl, fun _ => ⟨trivial, hd.2⟩⟩
    · simp
  empty := by simp [Side.discard]
  filling sd h := by
    unfold Side.discard at h
    split at h
    · exact h
    · exact absurd h (by simp)
  draining sd h := by
    unfold Side.discard at h
    split at h
    · exact h
    · exact absurd h (by simp)
  ordered sd _ := by
    unfold Side.discard
    split
    · next hd => simp [Side.Ordered, hd.1]
    · simp [Side.Ordered]

theorem Stream.discard_eq (st : Stream) : st.discard = st.mapSides (fun sd => sd.discard st.entry.dir) := rfl

/-- A loss of the branch is a change of both sides (R45). -/
theorem Side.lose_sideMap (e : Entry) : SideMap e (fun sd => sd.lose e.dir) where
  lawful sd h := by
    obtain ⟨⟨hfill, hle, hzero, -⟩, -, hcause, -, -, -, hmark⟩ := (sd.lawful_iff e).mp h
    unfold Side.lose
    split
    · split
      · simp
      · exact h
    · next hdir =>
      split
      · next hdr =>
        split
        · simp
        · next hm =>
          rw [Side.lawful_iff]
          have hm' : sd.marked = false := by simpa using hm
          have hc : sd.cause ≠ none := fun hc => by simpa [hdr] using hcause.mp hc
          simp only [Side.CountLaw, Side.StateLaw, hm']
          exact ⟨⟨hfill, by omega, by simp, by simp⟩, by simp, by simpa using hc, by simp, by simp, by simp, by simp⟩
      · split
        · next hcl =>
          rw [Side.lawful_iff]
          have hc : sd.cause ≠ none := fun hc => by simpa [hcl] using hcause.mp hc
          have hm' : sd.marked = false := by
            cases hm : sd.marked
            · rfl
            · exact absurd (hmark hm).1 (by simp [hcl])
          simp only [Side.CountLaw, Side.StateLaw, hm', hcl]
          exact ⟨⟨hfill, by omega, by simp, by simp⟩, by simp, by simpa using hc, by simp, by simp, by simp, by simp⟩
        · exact h
  empty := by cases hd : e.dir <;> simp [Side.lose]
  filling sd h := by
    cases hd : e.dir <;> simp only [hd, Side.lose] at h
    · split at h
      · exact absurd h (by simp)
      · exact h
    · split at h
      · split at h <;> exact absurd h (by simp)
      · split at h <;> exact h
  draining sd h := by
    cases hd : e.dir <;> simp only [hd, Side.lose] at h
    · split at h
      · exact absurd h (by simp)
      · exact h
    · split at h
      · assumption
      · split at h <;> exact h
  ordered sd _ := by
    cases hd : e.dir <;> simp only [Side.lose]
    · split
      · simp [Side.Ordered]
      · cases hs : sd.state <;> simp_all [Side.Ordered]
    · split
      · next hdr => split <;> simp [Side.Ordered, hdr]
      · split
        · next hcl => simp [Side.Ordered, hcl]
        · cases hs : sd.state <;> simp_all [Side.Ordered]

/-- A release closes the HELD sides (R113). -/
theorem Side.release_sideMap {e : Entry} : SideMap e Side.release where
  lawful sd h := by
    obtain ⟨⟨hfill, hle, hzero, -⟩, -, hcause, -, -, -, hmark⟩ := (sd.lawful_iff e).mp h
    unfold Side.release
    split
    · next hheld =>
      rw [Side.lawful_iff]
      have hc : sd.cause ≠ none := fun hc => by simpa [hheld] using hcause.mp hc
      have hm' : sd.marked = false := by
        cases hm : sd.marked
        · rfl
        · exact absurd (hmark hm).1 (by simp [hheld])
      simp only [Side.CountLaw, Side.StateLaw, hm']
      exact ⟨⟨hfill, hle, fun _ => hzero (.inr (.inl hheld)), by simp⟩, by simp, by simpa using hc, by simp, by simp,
        by simp, by simp⟩
    · exact h
  empty := by simp [Side.release]
  filling sd h := by
    unfold Side.release at h
    split at h
    · exact absurd h (by simp)
    · exact h
  draining sd h := by
    unfold Side.release at h
    split at h
    · exact absurd h (by simp)
    · exact h
  ordered sd _ := by
    unfold Side.release
    split
    · next hheld => simp [Side.Ordered, hheld]
    · cases hs : sd.state <;> simp_all [Side.Ordered]

/-- No side that waits in the close order is FREE, so a release leaves the order as it is. -/
theorem Stream.release_eq {st : Stream} (h : st.OrderLaw) : st.release = st.mapSides Side.release := by
  have hall : st.order.filter (fun k => (Side.release (st.side k)).state != .free) = st.order := by
    rw [List.filter_eq_self]
    intro k hk
    have := (h.2.1 k).mp hk
    unfold Side.release
    split
    · rfl
    · cases hs : (st.side k).state <;> simp_all [Side.Ordered]
  rw [Stream.mapSides, hall]
  rfl

end Sys2Proof.Machine
end

