-- ==== Sys2Proof/Proofs/Queue.lean ====
section
/-! The control-frame queue (R132): what GRANT and REVOKE requests leave of its tags and of the grants it holds. -/

namespace Sys2Proof.Machine

/-! ### Tags -/

/-- Every tag that an entry can have: a GRANT for each UP key, a REVOKE for each key. -/
def allTags : List (Bool × Fin 8 × Dir) :=
  (List.finRange 8).flatMap (fun ch => [(true, ch, .up), (false, ch, .up), (false, ch, .down)])

theorem CtlEntry.tag_mem (e : CtlEntry) : e.tag ∈ allTags := by
  have hall : ∀ ch : Fin 8, (true, ch, Dir.up) ∈ allTags ∧ ∀ dir, (false, ch, dir) ∈ allTags := by
    intro ch
    refine ⟨by revert ch; decide, fun dir => ?_⟩
    cases dir <;> revert ch <;> decide
  cases e with
  | grant ch n => exact (hall ch).1
  | revoke ch dir => exact (hall ch).2 dir

/-- A queue without a repeated tag has at most 24 entries. -/
theorem queue_length_le {q : List CtlEntry} (h : (q.map CtlEntry.tag).Nodup) : q.length ≤ 24 := by
  have hsub : q.map CtlEntry.tag ⊆ allTags := by
    intro x hx
    obtain ⟨e, -, rfl⟩ := List.mem_map.mp hx
    exact e.tag_mem
  have hlen : allTags.length = 24 := by decide
  have := (List.subperm_of_subset h hsub).length_le
  rwa [List.length_map, hlen] at this

theorem CtlEntry.isGrant_iff (e : CtlEntry) (ch : Fin 8) : e.isGrant ch = true ↔ e.tag = (true, ch, .up) := by
  cases e <;> simp [CtlEntry.isGrant]

@[simp] theorem CtlEntry.addGrant_tag (e : CtlEntry) (ch : Fin 8) (d : Nat) : (e.addGrant ch d).tag = e.tag := by
  cases e with
  | grant c n => simp only [CtlEntry.addGrant]; split <;> rfl
  | revoke c dir => rfl

/-- The order that R132 asks of two entries: no GRANT ahead of a REVOKE for the same key. -/
def CtlEntry.Before (a b : CtlEntry) : Prop := ¬ (a.tag.1 = true ∧ b.tag = (false, a.tag.2.1, .up))

/-- The queue law, without the length that follows from it. -/
theorem Branch.queueLaw_iff (br : Branch) :
    br.QueueLaw ↔ (br.queue.map CtlEntry.tag).Nodup ∧ br.queue.Pairwise CtlEntry.Before :=
  ⟨fun ⟨hn, _, hp⟩ => ⟨hn, hp⟩, fun ⟨hn, hp⟩ => ⟨hn, queue_length_le hn, hp⟩⟩

/-! ### GRANT requests -/

/-- The tags after a GRANT request: as before, or with the new GRANT at the tail. -/
theorem queueGrant_tags (q : List CtlEntry) (ch : Fin 8) (d : Nat) :
    (queueGrant q ch d).map CtlEntry.tag =
      if (true, ch, Dir.up) ∈ q.map CtlEntry.tag then q.map CtlEntry.tag
      else q.map CtlEntry.tag ++ [(true, ch, .up)] := by
  have hany : q.any (CtlEntry.isGrant ch) = true ↔ (true, ch, Dir.up) ∈ q.map CtlEntry.tag := by
    simp [CtlEntry.isGrant_iff]
  unfold queueGrant
  by_cases h : q.any (CtlEntry.isGrant ch) = true
  · rw [if_pos h, if_pos (hany.mp h), List.map_map]
    congr 1
    funext e
    exact e.addGrant_tag ch d
  · rw [if_neg h, if_neg (fun hm => h (hany.mpr hm))]
    simp

theorem queueGrant_nodup {q : List CtlEntry} (h : (q.map CtlEntry.tag).Nodup) (ch : Fin 8) (d : Nat) :
    ((queueGrant q ch d).map CtlEntry.tag).Nodup := by
  rw [queueGrant_tags]
  split
  · exact h
  · next hnot => rw [← List.concat_eq_append]; exact h.concat hnot

theorem queueGrant_before {q : List CtlEntry} (h : q.Pairwise CtlEntry.Before) (ch : Fin 8) (d : Nat) :
    (queueGrant q ch d).Pairwise CtlEntry.Before := by
  unfold queueGrant
  split
  · rw [List.pairwise_map]
    exact h.imp (fun hab => by simpa only [CtlEntry.Before, CtlEntry.addGrant_tag] using hab)
  · refine List.pairwise_append.mpr ⟨h, List.pairwise_singleton _ _, fun a _ b hb => ?_⟩
    obtain rfl : b = .grant ch d := by simpa using hb
    simp [CtlEntry.Before]

/-- The channels that the GRANTs of the queue name after a GRANT request. -/
theorem queueGrant_isGrant {q : List CtlEntry} {ch c : Fin 8} {d : Nat}
    (h : ∃ e ∈ queueGrant q ch d, e.isGrant c = true) : c = ch ∨ ∃ e ∈ q, e.isGrant c = true := by
  obtain ⟨e, he, hg⟩ := h
  have hmem : (true, c, Dir.up) ∈ (queueGrant q ch d).map CtlEntry.tag :=
    List.mem_map.mpr ⟨e, he, (e.isGrant_iff c).mp hg⟩
  have hback : (true, c, Dir.up) ∈ q.map CtlEntry.tag → ∃ e ∈ q, e.isGrant c = true := by
    intro hm
    obtain ⟨e, he, ht⟩ := List.mem_map.mp hm
    exact ⟨e, he, (e.isGrant_iff c).mpr ht⟩
  rw [queueGrant_tags] at hmem
  split at hmem
  · exact .inr (hback hmem)
  · rcases List.mem_append.mp hmem with hm | hm
    · exact .inr (hback hm)
    · exact .inl (by simpa using hm)

/-! ### The grants that a queue holds -/

@[simp] theorem queuedFor_nil (ch : Fin 8) : queuedFor [] ch = 0 := rfl

@[simp] theorem queuedFor_grant (c ch : Fin 8) (n : Nat) (q : List CtlEntry) :
    queuedFor (.grant c n :: q) ch = (if c = ch then n else 0) + queuedFor q ch := by
  simp [queuedFor]

@[simp] theorem queuedFor_revoke (c ch : Fin 8) (dir : Dir) (q : List CtlEntry) :
    queuedFor (.revoke c dir :: q) ch = queuedFor q ch := by
  simp [queuedFor]

theorem queuedFor_append (q r : List CtlEntry) (ch : Fin 8) :
    queuedFor (q ++ r) ch = queuedFor q ch + queuedFor r ch := by
  simp [queuedFor]

/-- A queue with no GRANT for a channel holds no grants for it. -/
theorem queuedFor_eq_zero {q : List CtlEntry} {ch : Fin 8} (h : ∀ e ∈ q, e.isGrant ch = false) : queuedFor q ch = 0 := by
  induction q with
  | nil => rfl
  | cons e q ih =>
    have hq := ih fun x hx => h x (List.mem_cons_of_mem e hx)
    have he := h e List.mem_cons_self
    cases e with
    | grant c n =>
      have hc : c ≠ ch := by simpa [CtlEntry.isGrant] using he
      simp [hc, hq]
    | revoke c dir => simp [hq]

/-- An addition to the GRANT of one channel, which the queue holds once. -/
theorem queuedFor_map_addGrant {q : List CtlEntry} (hn : (q.map CtlEntry.tag).Nodup) (ch c : Fin 8) (d : Nat) :
    queuedFor (q.map (CtlEntry.addGrant ch d)) c =
      queuedFor q c + if c = ch ∧ q.any (CtlEntry.isGrant ch) = true then d else 0 := by
  induction q with
  | nil => simp
  | cons e q ih =>
    rw [List.map_cons, List.nodup_cons] at hn
    obtain ⟨hfresh, hn⟩ := hn
    have ih := ih hn
    cases e with
    | grant a n =>
      by_cases ha : a = ch
      · subst ha
        have hany : q.any (CtlEntry.isGrant a) = false := by
          rw [List.any_eq_false]
          intro x hx hg
          exact hfresh (List.mem_map.mpr ⟨x, hx, (x.isGrant_iff a).mp hg⟩)
        have hself : CtlEntry.isGrant a (.grant a n) = true := by simp [CtlEntry.isGrant]
        simp only [hany, Bool.false_eq_true, and_false, if_false, Nat.add_zero] at ih
        by_cases hc : c = a
        · subst hc
          simp only [List.map_cons, CtlEntry.addGrant, if_true, queuedFor_grant, ih, List.any_cons, hself, Bool.true_or,
            and_self]
          omega
        · simp [CtlEntry.addGrant, queuedFor_grant, ih, hc, Ne.symm hc]
      · have hself : CtlEntry.isGrant ch (.grant a n) = false := by simp [CtlEntry.isGrant, ha]
        simp only [List.map_cons, CtlEntry.addGrant, ha, if_false, queuedFor_grant, ih, List.any_cons, hself, Bool.false_or]
        omega
    | revoke a dir =>
      have hself : CtlEntry.isGrant ch (.revoke a dir) = false := rfl
      simp only [List.map_cons, CtlEntry.addGrant, queuedFor_revoke, ih, List.any_cons, hself, Bool.false_or]

/-- A GRANT request adds its count for its channel and nothing for any other. -/
theorem queuedFor_queueGrant {q : List CtlEntry} (hn : (q.map CtlEntry.tag).Nodup) (ch c : Fin 8) (d : Nat) :
    queuedFor (queueGrant q ch d) c = queuedFor q c + if c = ch then d else 0 := by
  unfold queueGrant
  split
  · next h => rw [queuedFor_map_addGrant hn]; simp [h]
  · rw [queuedFor_append]
    by_cases hc : c = ch
    · simp [hc]
    · simp [hc, Ne.symm hc]

/-! ### REVOKE requests -/

/-- The queue of a REVOKE request before the REVOKE joins: the GRANT for the key removed. -/
def queueWithout (q : List CtlEntry) (ch : Fin 8) (dir : Dir) : List CtlEntry :=
  if dir = .up then q.filter (fun e => !e.isGrant ch) else q

theorem queueRevoke_eq (q : List CtlEntry) (ch : Fin 8) (dir : Dir) :
    queueRevoke q ch dir = if (queueWithout q ch dir).contains (.revoke ch dir) then queueWithout q ch dir
      else queueWithout q ch dir ++ [.revoke ch dir] := rfl

theorem queueWithout_sublist (q : List CtlEntry) (ch : Fin 8) (dir : Dir) : (queueWithout q ch dir).Sublist q := by
  unfold queueWithout
  split
  · exact List.filter_sublist
  · exact List.Sublist.refl q

theorem queueWithout_isGrant {q : List CtlEntry} {ch : Fin 8} {e : CtlEntry} (h : e ∈ queueWithout q ch .up) :
    e.isGrant ch = false := by
  simp only [queueWithout, if_true, List.mem_filter] at h
  simpa using h.2

/-- Whether the entry is the REVOKE is known by its tag. -/
theorem CtlEntry.eq_revoke_of_tag {e : CtlEntry} {ch : Fin 8} {dir : Dir} (h : e.tag = (false, ch, dir)) :
    e = .revoke ch dir := by
  cases e with
  | grant c n => simp at h
  | revoke c d => simp at h; rw [h.1, h.2]

theorem queueRevoke_nodup {q : List CtlEntry} (h : (q.map CtlEntry.tag).Nodup) (ch : Fin 8) (dir : Dir) :
    ((queueRevoke q ch dir).map CtlEntry.tag).Nodup := by
  have hsub := h.sublist ((queueWithout_sublist q ch dir).map CtlEntry.tag)
  rw [queueRevoke_eq]
  split
  · exact hsub
  · next hnot =>
    rw [List.map_append, List.map_singleton, ← List.concat_eq_append]
    refine hsub.concat fun hm => hnot ?_
    obtain ⟨e, he, ht⟩ := List.mem_map.mp hm
    rw [CtlEntry.eq_revoke_of_tag ht] at he
    simpa using he

theorem queueRevoke_before {q : List CtlEntry} (h : q.Pairwise CtlEntry.Before) (ch : Fin 8) (dir : Dir) :
    (queueRevoke q ch dir).Pairwise CtlEntry.Before := by
  have hsub := h.sublist (queueWithout_sublist q ch dir)
  rw [queueRevoke_eq]
  split
  · exact hsub
  · refine List.pairwise_append.mpr ⟨hsub, List.pairwise_singleton _ _, fun a ha b hb => ?_⟩
    obtain rfl : b = .revoke ch dir := by simpa using hb
    rintro ⟨hgrant, htag⟩
    obtain ⟨hch, rfl⟩ : ch = a.tag.2.1 ∧ dir = .up := by simpa using htag
    have hnot := queueWithout_isGrant ha
    cases a with
    | grant c n =>
      have hc : ch = c := hch
      simp [CtlEntry.isGrant, hc] at hnot
    | revoke c d => simp at hgrant

/-- The entries that a REVOKE request leaves: those without the GRANT, and the REVOKE. -/
theorem mem_queueRevoke {q : List CtlEntry} {ch : Fin 8} {dir : Dir} {e : CtlEntry} (h : e ∈ queueRevoke q ch dir) :
    e ∈ queueWithout q ch dir ∨ e = .revoke ch dir := by
  rw [queueRevoke_eq] at h
  split at h
  · exact .inl h
  · rcases List.mem_append.mp h with h | h
    · exact .inl h
    · exact .inr (by simpa using h)

/-- No GRANT for an UP key is left by a REVOKE of it. -/
theorem queueRevoke_isGrant {q : List CtlEntry} {ch : Fin 8} {e : CtlEntry} (h : e ∈ queueRevoke q ch .up) :
    e.isGrant ch = false := by
  rcases mem_queueRevoke h with h | rfl
  · exact queueWithout_isGrant h
  · rfl

/-- A REVOKE of a key leaves the grants for every other UP key. -/
theorem queuedFor_queueRevoke (q : List CtlEntry) {ch c : Fin 8} {dir : Dir} (h : dir = .up → c ≠ ch) :
    queuedFor (queueRevoke q ch dir) c = queuedFor q c := by
  have hwithout : queuedFor (queueWithout q ch dir) c = queuedFor q c := by
    unfold queueWithout
    split
    · next hdir =>
      have hne := h hdir
      induction q with
      | nil => rfl
      | cons e q ih =>
        cases e with
        | grant a n =>
          by_cases ha : a = ch
          · subst ha
            rw [List.filter_cons_of_neg (by simp [CtlEntry.isGrant]), ih, queuedFor_grant, if_neg (Ne.symm hne),
              Nat.zero_add]
          · rw [List.filter_cons_of_pos (by simp [CtlEntry.isGrant, ha]), queuedFor_grant, queuedFor_grant, ih]
        | revoke a d =>
          rw [List.filter_cons_of_pos (by simp [CtlEntry.isGrant]), queuedFor_revoke, queuedFor_revoke, ih]
    · rfl
  rw [queueRevoke_eq]
  split
  · exact hwithout
  · rw [queuedFor_append, hwithout, queuedFor_revoke, queuedFor_nil, Nat.add_zero]

end Sys2Proof.Machine
end

