-- ==== Sys2Proof/Proofs/Live.lean ====
section
/-! The laws that streams, ports and exchange keep together, as they stand between the parts of one happening: `State.Live`
holds of every state on the way, but for the ports in `rising`, whose transmitter does not fit the link yet (R121), and
the ports in `restless`, which have not picked since something became sendable (R133). What the ports see of a stream is
`Stream.View`. -/

namespace Sys2Proof.Machine

/-! ### The laws of a port in parts -/

/-- The fields of a port in each link state, but for its queue (R119). -/
abbrev Branch.Status (br : Branch) : Prop :=
  (br.link = .disabled ↔ br.tx = .silent) ∧ (br.link = .down ∨ br.link = .training ↔ br.tx = .aligning) ∧
  (br.link ≠ .training → br.aligns = 0) ∧ br.aligns < Config.alignsToUp ∧ (br.link ≠ .up → br.errors = 0) ∧
  br.errors < Config.badChecksToLoss ∧ (br.link = .down → br.line = .absent) ∧
  (br.link = .training ∨ br.link = .up → br.line = .present)

/-- The key of an UP stream on channel `ch` of branch `b`. -/
abbrev upKey (b : Fin 6) (ch : Fin 8) : RouteKey := { branch := b, channel := ch, dir := .up }

/-- The key of a DOWN stream on channel `ch` of branch `b`. -/
abbrev downKey (b : Fin 6) (ch : Fin 8) : RouteKey := { branch := b, channel := ch, dir := .down }

/-- The grants of the UP stream on channel `ch` of branch `b`, as R129 counts them. -/
structure State.GrantsAt (s : State) (b : Fin 6) (ch : Fin 8) : Prop where
  mapped : (∃ e ∈ (s.branch b).queue, e.isGrant ch = true) → (s.route (upKey b ch)).isSome = true
  queued : ∀ n ∈ s.route (upKey b ch), (s.stream n).queued = queuedFor (s.branch b).queue ch
  down : ∀ n ∈ s.route (upKey b ch), (s.branch b).link ≠ .up → (s.stream n).grants = 0
  inFlight : ∀ n ∈ s.route (upKey b ch), 0 < (s.stream n).inFlight →
    (s.branch b).tx.grants ch = some (s.stream n).inFlight

/-- The credits and the DRAINING sides of the DOWN stream on channel `ch` of branch `b` (R121, R123, R26). -/
structure State.SendsAt (s : State) (b : Fin 6) (ch : Fin 8) : Prop where
  credits : ∀ n ∈ s.route (downKey b ch), (s.branch b).link ≠ .up → (s.stream n).credits = 0
  draining : ∀ n ∈ s.route (downKey b ch), ∀ k : Fin 2, ((s.stream n).side k).state = .draining →
    ∃ f ∈ (s.branch b).tx.frame?, f.1 = ch ∧ f.2.1 = n ∧ f.2.2.1 = k

/-- The laws of the port of branch `b` with its streams, but for the grants of the key `x`. -/
structure State.PortBut (x : Option RouteKey) (s : State) (b : Fin 6) : Prop where
  queue : (s.branch b).QueueLaw
  empty : (s.branch b).link ≠ .up → (s.branch b).queue = []
  grants : ∀ ch, x ≠ some (upKey b ch) → s.GrantsAt b ch
  frame : s.FrameLaw b
  sends : ∀ ch, s.SendsAt b ch

/-- An IDLE transmitter leaves no control frame and no stream that it could send (R133). -/
def State.Settled (s : State) (b : Fin 6) : Prop :=
  (s.branch b).tx = .idle → (s.branch b).queue = [] ∧ ∀ ch, s.sendable? b ch = none

/-- The laws of the ports, part by part. -/
theorem State.portsLaw_iff (s : State) :
    s.PortsLaw ↔ ∀ b, (s.branch b).Status ∧ s.PortBut none b ∧ s.Settled b := by
  refine forall_congr' fun b => ⟨?_, ?_⟩
  · rintro ⟨⟨hsilent, haligning, haligns, hfour, hdown, hthree, habsent, hpresent, hidle⟩, hqueue, ⟨hmapped, hgrants⟩, hframe,
      hsend⟩
    refine ⟨⟨hsilent, haligning, haligns, hfour, fun h => (hdown h).1, hthree, habsent, hpresent⟩,
      ⟨hqueue, fun h => (hdown h).2, fun ch _ => ⟨?_, fun n hn => (hgrants ch n hn).1, fun n hn => (hgrants ch n hn).2.1,
        fun n hn => (hgrants ch n hn).2.2⟩, hframe, fun ch => ⟨fun n hn => ((hsend ch).2 n hn).1,
          fun n hn => ((hsend ch).2 n hn).2⟩⟩, fun h => ⟨hidle h, fun ch => (hsend ch).1 h⟩⟩
    rintro ⟨e, he, hg⟩
    have htag := (e.isGrant_iff ch).mp hg
    have := hmapped e he (by rw [htag])
    rwa [htag] at this
  · rintro ⟨⟨hsilent, haligning, haligns, hfour, herrors, hthree, habsent, hpresent⟩, ⟨hqueue, hempty, hgrants, hframe, hsends⟩,
      hsettled⟩
    refine ⟨⟨hsilent, haligning, haligns, hfour, fun h => ⟨herrors h, hempty h⟩, hthree, habsent, hpresent,
      fun h => (hsettled h).1⟩, hqueue, ⟨fun e he hg => ?_, fun ch n hn => ?_⟩, hframe, fun ch => ⟨fun h => (hsettled h).2 ch,
        fun n hn => ⟨(hsends ch).credits n hn, (hsends ch).draining n hn⟩⟩⟩
    · cases e with
      | grant c d => exact (hgrants c (by simp)).mapped ⟨_, he, by simp [CtlEntry.isGrant]⟩
      | revoke c dir => exact absurd hg (by simp)
    · have h := hgrants ch (by simp)
      exact ⟨h.queued n hn, h.down n hn, h.inFlight n hn⟩

/-! ### The laws on the way -/

/-- The laws of the table, the exchange, the streams and the ports, as they stand between the parts of a happening, but
for the grants of the key `x`. -/
structure State.LiveBut (x : Option RouteKey) (rising restless : Set (Fin 6)) (s : State) : Prop where
  table : s.TableLaw
  executing : s.ExecutingLaw
  streams : ∀ n, n ≠ 0 → (s.stream n).Lawful
  ports : ∀ b, s.PortBut x b
  status : ∀ b, b ∉ rising → (s.branch b).Status
  settled : ∀ b, b ∉ restless → s.Settled b

/-- The same with the grants of every key. -/
abbrev State.Live (rising restless : Set (Fin 6)) (s : State) : Prop := s.LiveBut none rising restless

theorem State.Live.mono {R Q R' Q' : Set (Fin 6)} {s : State} (h : s.Live R Q) (hR : R ⊆ R') (hQ : Q ⊆ Q') :
    s.Live R' Q' :=
  ⟨h.table, h.executing, h.streams, h.ports, fun b hb => h.status b fun hb' => hb (hR hb'),
    fun b hb => h.settled b fun hb' => hb (hQ hb')⟩

/-- The configuration laws with `State.Live` at rest are all the laws of the part. -/
theorem State.law_iff (s : State) :
    s.Law ↔ s.StoresLaw ∧ s.NodeLaw ∧ s.timebase.Law ∧ s.BoundsLaw ∧ s.mgmt.Law ∧ s.deferredOk = true ∧ s.Live ∅ ∅ := by
  constructor
  · rintro ⟨hstores, hnode, htable, htimebase, hbounds, ⟨hmgmt, hdeferred, hexecuting⟩, hstreams, hports⟩
    have hports := s.portsLaw_iff.mp hports
    exact ⟨hstores, hnode, htimebase, hbounds, hmgmt, hdeferred, htable, hexecuting, hstreams, fun b => (hports b).2.1,
      fun b _ => (hports b).1, fun b _ => (hports b).2.2⟩
  · rintro ⟨hstores, hnode, htimebase, hbounds, hmgmt, hdeferred, htable, hexecuting, hstreams, hports, hstatus, hsettled⟩
    exact ⟨hstores, hnode, htable, htimebase, hbounds, ⟨hmgmt, hdeferred, hexecuting⟩, hstreams,
      s.portsLaw_iff.mpr fun b => ⟨hstatus b (by simp), hports b, hsettled b (by simp)⟩⟩

/-! ### What the ports see of a stream -/

/-- The part of a stream that the laws of the ports speak of is kept: the entry, the counts, and on a DOWN stream the side
from which a frame is in transmission. -/
structure Stream.View (a b : Stream) : Prop where
  entry : b.entry = a.entry
  queued : b.queued = a.queued
  inFlight : b.inFlight = a.inFlight
  delivered : b.delivered ≤ a.delivered
  credits : b.credits = a.credits
  draining : a.entry.dir = .down → ∀ k, (b.side k).state = .draining ↔ (a.side k).state = .draining
  frame : a.entry.dir = .down → ∀ k, (a.side k).state = .draining →
    (b.side k).fill = (a.side k).fill ∧ (b.side k).drain = (a.side k).drain ∧
      ((a.side k).marked = true → (b.side k).marked = true)

/-- No side of a DOWN stream has become the one that its port could send next. -/
def Stream.NoNewHead (a b : Stream) : Prop :=
  a.entry.dir = .down → b.closedHead?.isSome = true → a.closedHead?.isSome = true

theorem Stream.View.refl (a : Stream) : a.View a :=
  ⟨rfl, rfl, rfl, le_rfl, rfl, fun _ _ => Iff.rfl, fun _ _ _ => ⟨rfl, rfl, id⟩⟩

theorem Stream.NoNewHead.refl (a : Stream) : a.NoNewHead a := fun _ h => h

theorem Stream.View.grants_le {a b : Stream} (h : a.View b) : b.grants ≤ a.grants := by
  have := h.delivered
  simp only [Stream.grants, h.queued, h.inFlight]
  omega

theorem Stream.View.marked {a b : Stream} (h : a.View b) (hd : a.entry.dir = .down) (hm : a.marked = true) :
    b.marked = true := by
  have hkey : ∀ st : Stream, st.marked = true ↔ ∃ k : Fin 2, (st.side k).state = .draining ∧ (st.side k).marked = true := by
    intro st
    simp [Stream.marked, Fin.exists_fin_two, Stream.side]
  obtain ⟨k, hk, hmk⟩ := (hkey a).mp hm
  exact (hkey b).mpr ⟨k, (h.draining hd k).mpr hk, (h.frame hd k hk).2.2 hmk⟩

/-- Stream `n` is routed to branch `b`. -/
def State.Routed (s : State) (b : Fin 6) (n : Fin 32) : Prop := ∃ k, s.route k = some n ∧ k.branch = b

theorem State.routed_of_route {s : State} {k : RouteKey} {n : Fin 32} (h : s.route k = some n) : s.Routed k.branch n :=
  ⟨k, h, rfl⟩

theorem State.RouteLaw.dir {s : State} (h : s.RouteLaw) {k : RouteKey} {n : Fin 32} (hk : s.route k = some n) :
    (s.stream n).entry.dir = k.dir :=
  ((Entry.key?_eq_some_iff _ k).mp ((h.route_iff k n).mp hk).2.2).2.2

/-- One key per stream (R8). -/
theorem State.RouteLaw.key_unique {s : State} (h : s.RouteLaw) {j k : RouteKey} {n : Fin 32} (hj : s.route j = some n)
    (hk : s.route k = some n) : j = k := by
  have hj' := ((h.route_iff j n).mp hj).2.2
  rw [((h.route_iff k n).mp hk).2.2] at hj'
  exact (Option.some.inj hj').symm

theorem State.RouteLaw.routed_unique {s : State} (h : s.RouteLaw) {b c : Fin 6} {n : Fin 32} (hb : s.Routed b n)
    (hc : s.Routed c n) : b = c := by
  obtain ⟨j, hj, rfl⟩ := hb
  obtain ⟨k, hk, rfl⟩ := hc
  rw [h.key_unique hj hk]

/-- The part of a port that its laws with the streams speak of is kept. -/
structure Branch.Same (a b : Branch) : Prop where
  link : b.link = a.link
  tx : b.tx = a.tx
  queue : b.queue = a.queue

/-- A port whose own state and whose streams' view are kept, keeps its laws. -/
theorem State.PortBut.of_view {s t : State} {b : Fin 6} {x : Option RouteKey} (h : s.PortBut x b) (hr : s.RouteLaw)
    (hroutes : t.routes = s.routes) (hb : (s.branch b).Same (t.branch b))
    (hview : ∀ n, s.Routed b n → (s.stream n).View (t.stream n)) : t.PortBut x b := by
  have hroute : ∀ k, t.route k = s.route k := fun k => by simp only [State.route, hroutes]
  obtain ⟨hlink, htx, hq⟩ := hb
  refine ⟨?_, ?_, fun ch hch => ?_, fun f hf => ?_, fun ch => ?_⟩
  · simpa only [Branch.QueueLaw, hq] using h.queue
  · rw [hlink, hq]; exact h.empty
  · obtain ⟨hmapped, hqueued, hdown, hinFlight⟩ := h.grants ch hch
    have view : ∀ n ∈ s.route (upKey b ch), (s.stream n).View (t.stream n) :=
      fun n hn => hview n (State.routed_of_route hn)
    refine ⟨?_, fun n hn => ?_, fun n hn hl => ?_, fun n hn hpos => ?_⟩ <;> rw [hroute] at *
    · rw [hq]; exact hmapped
    · rw [(view n hn).queued, hq]; exact hqueued n hn
    · rw [hlink] at hl
      exact Nat.le_zero.mp ((view n hn).grants_le.trans (hdown n hn hl).le)
    · rw [(view n hn).inFlight] at hpos ⊢
      rw [htx]; exact hinFlight n hn hpos
  · rw [htx] at hf
    obtain ⟨hkey, hdraining, hlen⟩ := h.frame f hf
    have view := hview f.2.1 (State.routed_of_route hkey)
    have hdir := hr.dir hkey
    obtain ⟨hfill, hdrain, -⟩ := view.frame hdir _ hdraining
    rw [hroute, view.entry, hfill, hdrain]
    exact ⟨hkey, (view.draining hdir _).mpr hdraining, hlen⟩
  · obtain ⟨hcredits, hdraining⟩ := h.sends ch
    refine ⟨fun n hn hl => ?_, fun n hn k hk => ?_⟩ <;> rw [hroute] at hn
    · rw [(hview n (State.routed_of_route hn)).credits]
      exact hcredits n hn (hlink ▸ hl)
    · rw [htx]
      exact hdraining n hn k (((hview n (State.routed_of_route hn)).draining (hr.dir hn) k).mp hk)

/-- Which stream the arbiter can send on a channel. -/
theorem State.sendable?_eq_some_iff (s : State) (b : Fin 6) (ch : Fin 8) (n : Fin 32) :
    s.sendable? b ch = some n ↔ s.route (downKey b ch) = some n ∧ (s.stream n).entry.enabled = true ∧
      (s.stream n).closedHead?.isSome = true ∧ 1 ≤ (s.stream n).credits := by
  unfold State.sendable?
  split
  · next m hm =>
    simp only [hm, Option.some.injEq]
    split
    · next h =>
      simp only [Bool.and_eq_true, decide_eq_true_eq] at h
      constructor
      · intro hmn
        obtain rfl := Option.some.inj hmn
        exact ⟨rfl, h.1.1, h.1.2, h.2⟩
      · rintro ⟨rfl, -⟩; rfl
    · next h =>
      simp only [Bool.and_eq_true, decide_eq_true_eq] at h
      constructor
      · intro hmn; exact absurd hmn (by simp)
      · rintro ⟨rfl, he, hc, h1⟩; exact absurd ⟨⟨he, hc⟩, h1⟩ h
  · next hm => simp [hm]

/-- Nothing to send on a channel: its stream has no side to send, or no credit. -/
theorem State.sendable?_eq_none {s : State} {b : Fin 6} {ch : Fin 8}
    (h : ∀ n, s.route (downKey b ch) = some n → (s.stream n).closedHead?.isSome = true → (s.stream n).credits = 0) :
    s.sendable? b ch = none := by
  rw [Option.eq_none_iff_forall_not_mem]
  intro n hn
  obtain ⟨hroute, -, hhead, hcredit⟩ := (s.sendable?_eq_some_iff b ch n).mp hn
  rw [h n hroute hhead] at hcredit
  exact absurd hcredit (by simp)

theorem State.Settled.of_view {s t : State} {b : Fin 6} (h : s.Settled b) (hr : s.RouteLaw) (hroutes : t.routes = s.routes)
    (hb : (s.branch b).Same (t.branch b))
    (hview : ∀ n, s.Routed b n → (s.stream n).View (t.stream n) ∧ (s.stream n).NoNewHead (t.stream n)) :
    t.Settled b := by
  have hroute : ∀ k, t.route k = s.route k := fun k => by simp only [State.route, hroutes]
  intro hidle
  obtain ⟨hqueue, hnone⟩ := h (hb.tx ▸ hidle)
  refine ⟨hb.queue.trans hqueue, fun ch => ?_⟩
  rw [Option.eq_none_iff_forall_not_mem]
  intro n hn
  obtain ⟨hkey, hen, hhead, hcredit⟩ := (t.sendable?_eq_some_iff b ch n).mp hn
  rw [hroute] at hkey
  obtain ⟨view, head⟩ := hview n (State.routed_of_route hkey)
  have := (s.sendable?_eq_some_iff b ch n).mpr
    ⟨hkey, view.entry ▸ hen, head (hr.dir hkey) hhead, view.credits ▸ hcredit⟩
  rw [hnone ch] at this
  exact absurd this (by simp)

/-- A link that is not UP has nothing to send. -/
theorem State.PortBut.settled_of_not_up {s : State} {b : Fin 6} {x : Option RouteKey} (h : s.PortBut x b)
    (hl : (s.branch b).link ≠ .up) : s.Settled b :=
  fun _ => ⟨h.empty hl, fun ch => State.sendable?_eq_none fun n hn _ => (h.sends ch).credits n hn hl⟩

/-- The exchange that waits for a marked side goes on waiting while the view of the streams is kept (R147). -/
theorem State.ExecutingLaw.of_view {s t : State} (h : s.ExecutingLaw) (hm : t.mgmt.exchange = .executing → t.mgmt = s.mgmt)
    (hview : ∀ n, n ≠ 0 → (t.stream n).entry = (s.stream n).entry ∧
      ((s.stream n).entry.dir = .down → (s.stream n).marked = true → (t.stream n).marked = true)) : t.ExecutingLaw := by
  intro he
  have hsame := hm he
  rw [hsame] at he
  obtain ⟨n, hn, htarget, hen, hdir, hmark⟩ := h he
  obtain ⟨hentry, hmarked⟩ := hview n hn
  exact ⟨n, hn, hsame ▸ htarget, hentry ▸ hen, hentry ▸ hdir, hmarked hdir hmark⟩

/-- A change of one port and of streams routed to it, and of the exchange. -/
theorem State.LiveBut.at_port_exec {x : Option RouteKey} {R R' Q Q' : Set (Fin 6)} {s t : State} (h : s.LiveBut x R Q)
    (b : Fin 6) (hx : ∀ k ∈ x, k.branch = b) (hroutes : t.routes = s.routes) (hexecuting : t.ExecutingLaw)
    (hentry : ∀ n, (t.stream n).entry = (s.stream n).entry)
    (hbranch : ∀ c, c ≠ b → t.branch c = s.branch c) (hstream : ∀ n, ¬ s.Routed b n → t.stream n = s.stream n)
    (hlawful : ∀ n, n ≠ 0 → s.Routed b n → (t.stream n).Lawful) (hport : t.PortBut none b) (hR : R ⊆ R' ∪ {b})
    (hstatus : b ∉ R' → (t.branch b).Status) (hQ : Q ⊆ Q' ∪ {b}) (hsettled : b ∉ Q' → t.Settled b) : t.Live R' Q' := by
  have hr := h.table.2.2
  have hview : ∀ c, c ≠ b → ∀ n, s.Routed c n → t.stream n = s.stream n :=
    fun c hc n hn => hstream n fun hb => hc (hr.routed_unique hn hb)
  refine ⟨.of_same hroutes hentry h.table, hexecuting, fun n hn => ?_, fun c => ?_, fun c hc => ?_, fun c hc => ?_⟩
  · by_cases hrt : s.Routed b n
    · exact hlawful n hn hrt
    · rw [hstream n hrt]; exact h.streams n hn
  · by_cases hcb : c = b
    · rw [hcb]; exact hport
    · have hold : s.PortBut none c := by
        obtain ⟨hqueue, hempty, hgrants, hframe, hsends⟩ := h.ports c
        refine ⟨hqueue, hempty, fun ch _ => hgrants ch fun hxk => hcb (hx _ hxk), hframe, hsends⟩
      exact hold.of_view hr hroutes (by rw [hbranch c hcb]; exact ⟨rfl, rfl, rfl⟩)
        fun n hn => by rw [hview c hcb n hn]; exact .refl _
  · by_cases hcb : c = b
    · subst hcb; exact hstatus hc
    · rw [hbranch c hcb]; exact h.status c fun hcR => (hR hcR).elim hc hcb
  · by_cases hcb : c = b
    · subst hcb; exact hsettled hc
    · refine (h.settled c fun hq => (hQ hq).elim hc hcb).of_view hr hroutes (by rw [hbranch c hcb]; exact ⟨rfl, rfl, rfl⟩)
        fun n hn => ?_
      rw [hview c hcb n hn]
      exact ⟨.refl _, .refl _⟩

/-- A change of one port and of streams routed to it. -/
theorem State.LiveBut.at_port {x : Option RouteKey} {R Q Q' : Set (Fin 6)} {s t : State} (h : s.LiveBut x R Q) (b : Fin 6)
    (hx : ∀ k ∈ x, k.branch = b) (hroutes : t.routes = s.routes) (hm : t.mgmt = s.mgmt)
    (hentry : ∀ n, (t.stream n).entry = (s.stream n).entry)
    (hmarked : ∀ n, (s.stream n).marked = true → (t.stream n).marked = true)
    (hbranch : ∀ c, c ≠ b → t.branch c = s.branch c) (hstream : ∀ n, ¬ s.Routed b n → t.stream n = s.stream n)
    (hlawful : ∀ n, n ≠ 0 → s.Routed b n → (t.stream n).Lawful) (hport : t.PortBut none b)
    (hstatus : b ∉ R → (t.branch b).Status) (hQ : Q ⊆ Q' ∪ {b}) (hsettled : b ∉ Q' → t.Settled b) : t.Live R Q' :=
  h.at_port_exec b hx hroutes (h.executing.of_view (fun _ => hm) fun n _ => ⟨hentry n, fun _ => hmarked n⟩) hentry hbranch
    hstream hlawful hport Set.subset_union_left hstatus hQ hsettled

/-! ### Changes that the ports do not see -/

/-- The status of a port is kept: its error count may fall. -/
structure Branch.Calm (a b : Branch) : Prop extends Branch.Same a b where
  line : b.line = a.line
  aligns : b.aligns = a.aligns
  errors : b.errors ≤ a.errors

theorem Branch.Calm.refl (a : Branch) : a.Calm a := ⟨⟨rfl, rfl, rfl⟩, rfl, rfl, le_rfl⟩

theorem Branch.Status.calm {a b : Branch} (h : a.Status) (hc : a.Calm b) : b.Status := by
  obtain ⟨hsilent, haligning, haligns, hfour, herrors, hthree, habsent, hpresent⟩ := h
  have hle := hc.errors
  simp only [Branch.Status, hc.link, hc.tx, hc.line, hc.aligns]
  exact ⟨hsilent, haligning, haligns, hfour, fun hl => Nat.le_zero.mp (hle.trans (herrors hl).le), by omega, habsent,
    hpresent⟩

/-- A change that keeps the view of every stream and the state of every port keeps the laws; ports of which a stream has a
new head of its close order have to pick. -/
theorem State.LiveBut.of_view {x : Option RouteKey} {R Q Q' : Set (Fin 6)} {s t : State} (h : s.LiveBut x R Q) (hroutes : t.routes = s.routes)
    (hzero : (t.stream 0).entry = (s.stream 0).entry) (hm : t.mgmt.exchange = .executing → t.mgmt = s.mgmt)
    (hbranch : ∀ b, (s.branch b).Calm (t.branch b)) (hview : ∀ n, n ≠ 0 → (s.stream n).View (t.stream n))
    (hlawful : ∀ n, n ≠ 0 → (t.stream n).Lawful) (hQ : Q ⊆ Q')
    (hhead : ∀ b, b ∉ Q' → ∀ n, s.Routed b n → (s.stream n).NoNewHead (t.stream n)) : t.LiveBut x R Q' := by
  have hr := h.table.2.2
  have hne : ∀ b n, s.Routed b n → n ≠ 0 := fun b n ⟨k, hk, _⟩ => ((hr.route_iff k n).mp hk).1
  refine ⟨.of_same hroutes (fun n => ?_) h.table, h.executing.of_view hm fun n hn => ⟨(hview n hn).entry, (hview n hn).marked⟩,
    hlawful, fun b => (h.ports b).of_view hr hroutes (hbranch b).toSame fun n hn => hview n (hne b n hn),
    fun b hb => (h.status b hb).calm (hbranch b), fun b hb => ?_⟩
  · by_cases hn : n = 0
    · subst hn; exact hzero
    · exact (hview n hn).entry
  · exact (h.settled b fun hb' => hb (hQ hb')).of_view hr hroutes (hbranch b).toSame
      fun n hn => ⟨hview n (hne b n hn), hhead b hb n hn⟩

/-- A change of one stream that keeps its view. -/
theorem State.Live.mapStream {R Q : Set (Fin 6)} {s : State} (h : s.Live R Q) {n : Fin 32} {f : Stream → Stream}
    (hview : (s.stream n).View (f (s.stream n))) (hlawful : n ≠ 0 → (f (s.stream n)).Lawful)
    (hhead : (s.stream n).NoNewHead (f (s.stream n))) : (s.mapStream n f).Live R Q := by
  refine LiveBut.of_view h rfl ?_ (fun _ => rfl) (fun b => .refl _) (fun m hm => ?_) (fun m hm => ?_) le_rfl fun b _ m _ => ?_
  all_goals rw [s.mapStream_stream]; split
  · next heq => subst heq; exact hview.entry
  · rfl
  · next heq => subst heq; exact hview
  · exact .refl _
  · next heq => subst heq; exact hlawful hm
  · exact h.streams m hm
  · next heq => subst heq; exact hhead
  · exact .refl _

/-- The same with a new head of the close order: the port of the stream has to pick. -/
theorem State.Live.mapStream_head {R Q : Set (Fin 6)} {s : State} (h : s.Live R Q) {n : Fin 32} {f : Stream → Stream}
    (hview : (s.stream n).View (f (s.stream n))) (hlawful : n ≠ 0 → (f (s.stream n)).Lawful) :
    (s.mapStream n f).Live R (Q ∪ {b | s.Routed b n}) := by
  refine LiveBut.of_view h rfl ?_ (fun _ => rfl) (fun b => .refl _) (fun m hm => ?_) (fun m hm => ?_) Set.subset_union_left
    fun b hb m hm => ?_
  all_goals rw [s.mapStream_stream]; split
  · next heq => subst heq; exact hview.entry
  · rfl
  · next heq => subst heq; exact hview
  · exact .refl _
  · next heq => subst heq; exact hlawful hm
  · exact h.streams m hm
  · next heq => subst heq; exact absurd (Or.inr hm) hb
  · exact .refl _

/-- A change of one port that the laws do not see. -/
theorem State.Live.mapBranch {R Q : Set (Fin 6)} {s : State} (h : s.Live R Q) {b : Fin 6} {f : Branch → Branch}
    (hf : (s.branch b).Calm (f (s.branch b))) : (s.mapBranch b f).Live R Q := by
  refine LiveBut.of_view h rfl rfl (fun _ => rfl) (fun c => ?_) (fun m _ => .refl _) (fun m hm => h.streams m hm) le_rfl
    fun _ _ m _ => .refl _
  rw [s.mapBranch_branch]
  split
  · next heq => subst heq; exact hf
  · exact .refl _

/-- A change of the parts that are neither streams nor ports: the trunk, the timebase, the pool, the events and counters,
and the exchange when it does not come to wait. -/
theorem State.Live.rest {R Q : Set (Fin 6)} {s t : State} (h : s.Live R Q) (hs : t.streams = s.streams)
    (hr : t.routes = s.routes) (hb : t.branches = s.branches) (hm : t.mgmt.exchange = .executing → t.mgmt = s.mgmt) :
    t.Live R Q := by
  have hstream : ∀ n, t.stream n = s.stream n := fun n => by simp only [State.stream, hs]
  have hbranch : ∀ b, t.branch b = s.branch b := fun b => by simp only [State.branch, hb]
  refine LiveBut.of_view h hr (by rw [hstream]) hm (fun b => by rw [hbranch]; exact .refl _) (fun n _ => by rw [hstream]; exact .refl _)
    (fun n hn => by rw [hstream]; exact h.streams n hn) le_rfl fun _ _ n _ => by rw [hstream]; exact .refl _

section Aside

variable {R Q : Set (Fin 6)} {s : State}

theorem State.Live.answer (h : s.Live R Q) (c : CellHdr) (kind : UpKind) (seq : Bool) (p : List Byte) :
    (s.answer c kind seq p).Live R Q := h.rest rfl rfl rfl fun _ => rfl

theorem State.Live.offer (h : s.Live R Q) (kind : EventKind) (st br d : Byte) : (s.offer kind st br d).Live R Q :=
  h.rest rfl rfl rfl fun _ => rfl

theorem State.Live.offerStream (h : s.Live R Q) (n : Fin 32) (kind : EventKind) (d : Byte) :
    (s.offerStream n kind d).Live R Q := h.offer _ _ _ _

theorem State.Live.offerBranch (h : s.Live R Q) (b : Fin 6) (kind : EventKind) (d : Byte) :
    (s.offerBranch b kind d).Live R Q := h.offer _ _ _ _

theorem State.Live.offerPlain (h : s.Live R Q) (kind : EventKind) (d : Byte) : (s.offerPlain kind d).Live R Q :=
  h.offer _ _ _ _

theorem State.Live.mapTrunkCtr (h : s.Live R Q) (f : TrunkCounters → TrunkCounters) : (s.mapTrunkCtr f).Live R Q :=
  h.rest rfl rfl rfl fun _ => rfl

theorem State.Live.mapTimebase (h : s.Live R Q) (f : Timebase → Timebase) : (s.mapTimebase f).Live R Q :=
  h.rest rfl rfl rfl fun _ => rfl

theorem State.Live.mapTrunk (h : s.Live R Q) (f : Trunk → Trunk) : (s.mapTrunk f).Live R Q :=
  h.rest rfl rfl rfl fun _ => rfl

theorem State.Live.mapMgmt (h : s.Live R Q) {f : Mgmt → Mgmt} (hf : (f s.mgmt).exchange ≠ .executing) :
    (s.mapMgmt f).Live R Q := h.rest rfl rfl rfl fun he => absurd he hf

theorem State.Live.resetStreamEnd (h : s.Live R Q) (n : Fin 32) : (s.resetStreamEnd n).Live R Q := by
  rcases s.resetStreamEnd_cases n with ⟨_, _, he⟩ | he <;> rw [he]
  · exact h.mapMgmt (by simp)
  · exact h

/-- A change of what no law of the streams and ports speaks of: the response and the counters. -/
theorem State.Live.countStream (h : s.Live R Q) (n : Fin 32) (f : StreamCounters → StreamCounters) :
    (s.countStream n f).Live R Q :=
  h.mapStream ⟨rfl, rfl, rfl, le_rfl, rfl, fun _ _ => Iff.rfl, fun _ _ _ => ⟨rfl, rfl, id⟩⟩ (fun hn => h.streams n hn)
    fun _ hh => hh

theorem State.Live.countBranch (h : s.Live R Q) (b : Fin 6) (f : BranchCounters → BranchCounters) :
    (s.countBranch b f).Live R Q := h.mapBranch ⟨⟨rfl, rfl, rfl⟩, rfl, rfl, le_rfl⟩

theorem State.Live.claim (h : s.Live R Q) (n : Fin 32) (r : Response) : (s.claim n r).Live R Q := by
  rcases s.claim_cases n r with ⟨_, _, he⟩ | ⟨_, he⟩ <;> rw [he]
  · exact h.mapStream ⟨rfl, rfl, rfl, le_rfl, rfl, fun _ _ => Iff.rfl, fun _ _ _ => ⟨rfl, rfl, id⟩⟩
      (fun hn => h.streams n hn) fun _ hh => hh
  · exact h

end Aside

/-- What every operation of a run keeps, the run keeps. -/
theorem State.Live.overStreams {R Q : Set (Fin 6)} {s : State} (h : s.Live R Q) {op : State → Fin 32 → State}
    (ns : List (Fin 32)) (hop : ∀ (u : State) n, n ∈ ns → u.Live R Q → (op u n).Live R Q) :
    (s.overStreams ns op).Live R Q :=
  State.overStreams_keeps (P := State.Live R Q) ns (fun u n hn hu => hop u n hn hu) s h

end Sys2Proof.Machine
end

