-- ==== Sys2Proof/Proofs/Arbiter.lean ====
section
/-! What the ports do by themselves keeps the laws: a frame begins, the arbiter picks (R133 to R135), grants are issued
(R129), keys are revoked (R130). -/

namespace Sys2Proof.Machine

/-! ### Counts -/

/-- The grants and the credits of a stream changed. -/
theorem Stream.Lawful.counts {st : Stream} (h : st.Lawful) {q i d c : Nat}
    (hoff : st.entry.enabled = false → q = 0 ∧ i = 0 ∧ d = 0 ∧ c = 0) (hup : st.entry.dir = .up → c = 0)
    (hdown : st.entry.dir = .down → q = 0 ∧ i = 0 ∧ d = 0)
    (hroom : st.entry.dir = .up → st.entry.enabled = true → q + i + d + st.notFree ≤ st.entry.sideCount) :
    Stream.Lawful { st with queued := q, inFlight := i, delivered := d, credits := c } := by
  obtain ⟨hsides, horder, hseq, hburst, hserved, -⟩ := h
  exact ⟨hsides, horder, hseq, hburst, hserved, hoff, hup, hdown, hroom⟩

/-- The grants and the credits of a stream set to 0 (R130). -/
theorem Stream.Lawful.noGrants {st : Stream} (h : st.Lawful) : st.noGrants.Lawful := by
  refine h.counts (fun _ => ⟨rfl, rfl, rfl, rfl⟩) (fun _ => rfl) (fun _ => ⟨rfl, rfl, rfl⟩) fun hd he => ?_
  have := h.2.2.2.2.2.2.2.2 hd he
  omega

theorem Stream.LiveLaw.room {st : Stream} (h : st.LiveLaw) (hd : st.entry.dir = .up) (he : st.entry.enabled = true) :
    st.grants + st.notFree ≤ st.entry.sideCount := h.2.2.2.2.2.2 hd he

/-! ### A port with an IDLE transmitter -/

theorem State.PortBut.idle_inFlight {s : State} {b : Fin 6} (h : s.PortBut none b) (hidle : (s.branch b).tx = .idle)
    {ch : Fin 8} {n : Fin 32} (hn : s.route (upKey b ch) = some n) : (s.stream n).inFlight = 0 := by
  by_contra hne
  have := (h.grants ch (by simp)).inFlight n hn (Nat.pos_of_ne_zero hne)
  rw [hidle] at this
  exact absurd this (by simp [Transmitter.grants])

theorem State.PortBut.idle_draining {s : State} {b : Fin 6} {x : Option RouteKey} (h : s.PortBut x b)
    (hidle : (s.branch b).tx = .idle) {ch : Fin 8} {n : Fin 32} (hn : s.route (downKey b ch) = some n) (k : Fin 2) :
    ((s.stream n).side k).state ≠ .draining := by
  intro hk
  obtain ⟨f, hf, -⟩ := (h.sends ch).draining n hn k hk
  rw [hidle] at hf
  exact absurd hf (by simp [Transmitter.frame?])

/-- The status of a port that is UP and goes from IDLE to BUSY. -/
theorem Branch.Status.busy {br : Branch} (h : br.Status) (hl : br.link = .up) (p : Fin 8) (q : List CtlEntry)
    (f : TxFrame) : Branch.Status { br with pointer := p, queue := q, tx := .busy f } := by
  obtain ⟨-, -, haligns, hfour, herrors, hthree, habsent, hpresent⟩ := h
  exact ⟨by simp [hl], by simp [hl], haligns, hfour, herrors, hthree, habsent, hpresent⟩

theorem Branch.QueueLaw.tail {br : Branch} (h : br.QueueLaw) {e : CtlEntry} {rest : List CtlEntry}
    (hq : br.queue = e :: rest) : (rest.map CtlEntry.tag).Nodup ∧ rest.Pairwise CtlEntry.Before := by
  obtain ⟨hn, hp⟩ := br.queueLaw_iff.mp h
  rw [hq] at hn hp
  exact ⟨(List.nodup_cons.mp hn).2, (List.pairwise_cons.mp hp).2⟩

/-- A frame's transmission begins on a port that is UP with an IDLE transmitter (R134, R135): what is left to show of the
queue that remains, of the grants, and of the DRAINING sides. -/
theorem State.Live.frameBegins {R Q : Set (Fin 6)} {s t : State} (h : s.Live R Q) {b : Fin 6}
    (hl : (s.branch b).link = .up) {p : Fin 8} {q : List CtlEntry} {f : TxFrame}
    (hbr : t.branch b = { s.branch b with pointer := p, queue := q, tx := .busy f }) (hroutes : t.routes = s.routes)
    (hm : t.mgmt = s.mgmt) (hbranch : ∀ c, c ≠ b → t.branch c = s.branch c)
    (hentry : ∀ n, (t.stream n).entry = (s.stream n).entry)
    (hmarked : ∀ n, (s.stream n).marked = true → (t.stream n).marked = true)
    (hstream : ∀ n, ¬ s.Routed b n → t.stream n = s.stream n) (hlawful : ∀ n, n ≠ 0 → (t.stream n).Lawful)
    (hqueue : (q.map CtlEntry.tag).Nodup ∧ q.Pairwise CtlEntry.Before) (hrest : ∀ e ∈ q, e ∈ (s.branch b).queue)
    (hqueued : ∀ ch n, s.route (upKey b ch) = some n → (t.stream n).queued = queuedFor q ch)
    (hinFlight : ∀ ch n, s.route (upKey b ch) = some n → 0 < (t.stream n).inFlight →
      Transmitter.grants (.busy f) ch = some (t.stream n).inFlight)
    (hframe : t.FrameLaw b)
    (hdraining : ∀ ch n, s.route (downKey b ch) = some n → ∀ k, ((t.stream n).side k).state = .draining →
      ∃ g ∈ Transmitter.frame? (.busy f), g.1 = ch ∧ g.2.1 = n ∧ g.2.2.1 = k) : t.Live R (Q \ {b}) := by
  have hroute : ∀ k, t.route k = s.route k := fun k => by simp only [State.route, hroutes]
  have hport : t.PortBut none b := by
    refine ⟨?_, ?_, fun ch _ => ⟨?_, fun n hn => ?_, ?_, fun n hn hpos => ?_⟩, hframe, fun ch => ⟨?_, fun n hn k hk => ?_⟩⟩
    · rw [hbr]; exact (Branch.queueLaw_iff _).mpr hqueue
    · rw [hbr]; exact fun hne => absurd hl hne
    · rw [hbr, hroute]
      rintro ⟨e, he, hg⟩
      exact ((h.ports b).grants ch (by simp)).mapped ⟨e, hrest e he, hg⟩
    · rw [hbr]; exact hqueued ch n (hroute _ ▸ hn)
    · rw [hbr]; exact fun n _ hne => absurd hl hne
    · rw [hbr]; exact hinFlight ch n (hroute _ ▸ hn) hpos
    · rw [hbr]; exact fun n _ hne => absurd hl hne
    · rw [hbr]; exact hdraining ch n (hroute _ ▸ hn) k hk
  refine LiveBut.at_port h b (by simp) hroutes hm hentry hmarked hbranch hstream (fun n hn _ => hlawful n hn) hport
    (fun hb => ?_) (fun x hx => ?_) fun _ ht => ?_
  · rw [hbr]; exact (h.status b hb).busy hl p q f
  · by_cases hxb : x = b
    · exact .inr hxb
    · exact .inl ⟨hx, hxb⟩
  · rw [hbr] at ht; exact absurd ht (by simp)

/-! ### Control frames (R134) -/

/-- The beginning of a REVOKE frame. -/
theorem State.Live.beginRevoke {R Q : Set (Fin 6)} {s : State} (h : s.Live R Q) {b : Fin 6}
    (hl : (s.branch b).link = .up) (hidle : (s.branch b).tx = .idle) {c : Fin 8} {dir : Dir} {rest : List CtlEntry}
    (hq : (s.branch b).queue = .revoke c dir :: rest) : (s.beginControl b (.revoke c dir) rest).Live R (Q \ {b}) := by
  have hp := h.ports b
  have hbr : (s.beginControl b (.revoke c dir) rest).branch b =
      { s.branch b with queue := rest, tx := .busy (.revoke c dir) } := by
    simp [State.beginControl, State.transmit]
  refine h.frameBegins hl hbr rfl rfl (fun d hd => ?_) (fun _ => rfl) (fun _ => id) (fun _ _ => rfl) h.streams
    (hp.queue.tail hq) (fun e he => by rw [hq]; exact List.mem_cons_of_mem _ he) (fun ch n hn => ?_) (fun ch n hn hpos => ?_)
    ?_ (fun ch n hn k hk => absurd hk (hp.idle_draining hidle hn k))
  · simp [State.beginControl, State.transmit, State.mapBranch_branch_ne _ hd]
  · have := (hp.grants ch (by simp)).queued n hn
    rw [hq, queuedFor_revoke] at this
    exact this
  · exact absurd (hp.idle_inFlight hidle hn) (Nat.pos_iff_ne_zero.mp hpos)
  · rw [State.FrameLaw, hbr]; simp [Transmitter.frame?]

/-- The beginning of a GRANT frame for the UP stream `n`, whose whole queued count it takes. -/
theorem State.beginGrant_eq {s : State} {b : Fin 6} {c : Fin 8} {count : Nat} (rest : List CtlEntry) {n : Fin 32}
    (hn : s.route (upKey b c) = some n) (hqueued : (s.stream n).queued = count) (hinFlight : (s.stream n).inFlight = 0) :
    s.beginControl b (.grant c count) rest =
      (s.mapStream n (fun st => { st with queued := 0, inFlight := count })).mapBranch b
        (fun br => { br with queue := rest, tx := .busy (.grant c count (s.grantCapacity b c)) }) := by
  have hmap : ∀ f, (s.mapBranch b (fun br => { br with queue := rest })).mapUpStream b c f =
      (s.mapBranch b (fun br => { br with queue := rest })).mapStream n f := by
    intro f; simp only [State.mapUpStream, State.mapBranch_route, hn]
  simp only [State.beginControl, hmap]
  refine State.ext_parts rfl (fun m => ?_) rfl rfl rfl (fun d => ?_) rfl rfl rfl rfl
  · simp only [State.transmit, State.mapBranch_stream, State.mapStream_stream]
    split
    · rw [hqueued, hinFlight, Nat.sub_self, Nat.zero_add]
    · rfl
  · by_cases hd : d = b
    · subst hd; simp [State.transmit]
    · simp [State.transmit, State.mapBranch_branch_ne _ hd]

/-- The beginning of a GRANT frame: its count moves from queued to in flight. -/
theorem State.Live.beginGrant {R Q : Set (Fin 6)} {s : State} (h : s.Live R Q) {b : Fin 6}
    (hl : (s.branch b).link = .up) (hidle : (s.branch b).tx = .idle) {c : Fin 8} {count : Nat} {rest : List CtlEntry}
    (hq : (s.branch b).queue = .grant c count :: rest) : (s.beginControl b (.grant c count) rest).Live R (Q \ {b}) := by
  have hp := h.ports b
  have hr := h.table.2.2
  obtain ⟨n, hn⟩ := Option.isSome_iff_exists.mp ((hp.grants c (by simp)).mapped
    ⟨_, by rw [hq]; exact List.mem_cons_self, by simp [CtlEntry.isGrant]⟩)
  obtain ⟨hn0, hen, -⟩ := (hr.route_iff _ n).mp hn
  have hdir : (s.stream n).entry.dir = .up := hr.dir hn
  have hfresh : ∀ e ∈ rest, e.isGrant c = false := by
    intro e he
    have hnodup := ((Branch.queueLaw_iff _).mp hp.queue).1
    rw [hq, List.map_cons, List.nodup_cons] at hnodup
    cases hg : e.isGrant c
    · rfl
    · exact absurd (List.mem_map.mpr ⟨e, he, (e.isGrant_iff c).mp hg⟩) hnodup.1
  have hqueued : (s.stream n).queued = count := by
    rw [(hp.grants c (by simp)).queued n hn, hq, queuedFor_grant, if_pos rfl, queuedFor_eq_zero hfresh, Nat.add_zero]
  have hinFlight := hp.idle_inFlight hidle hn
  rw [State.beginGrant_eq rest hn hqueued hinFlight]
  generalize hf : (.grant c count (s.grantCapacity b c) : TxFrame) = f
  have hst : ∀ m, ((s.mapStream n (fun st => { st with queued := 0, inFlight := count })).mapBranch b
      (fun br => { br with queue := rest, tx := .busy f })).stream m =
        if m = n then { s.stream n with queued := 0, inFlight := count } else s.stream m := by
    intro m; simp [State.mapStream_stream]
  have hother : ∀ ch m, s.route (upKey b ch) = some m → ch ≠ c → m ≠ n := by
    rintro ch m hm hne rfl
    exact hne (congrArg RouteKey.channel (hr.key_unique hm hn))
  refine h.frameBegins hl (f := f) (by simp; rfl) rfl rfl (fun d hd => ?_) (fun m => ?_) (fun m hm => ?_) (fun m hm => ?_)
    (fun m hm0 => ?_) (hp.queue.tail hq) (fun e he => by rw [hq]; exact List.mem_cons_of_mem _ he) (fun ch m hm => ?_)
    (fun ch m hm hpos => ?_) ?_ (fun ch m hm k hk => ?_)
  · rw [State.mapBranch_branch_ne _ hd]; rfl
  · rw [hst]; split
    · next hmn => rw [hmn]
    · rfl
  · rw [hst]; split
    · next hmn => rw [← hmn]; exact hm
    · exact hm
  · rw [hst, if_neg]
    rintro rfl
    exact hm (State.routed_of_route hn)
  · rw [hst]; split
    · have hlaw := h.streams n hn0
      have hroom := hlaw.2.2.room hdir hen
      simp only [Stream.grants] at hroom
      exact hlaw.counts (fun he => absurd hen (by simp [he])) hlaw.2.2.2.2.2.2.1 (fun hd => absurd hdir (by simp [hd]))
        (fun _ _ => by omega)
    · exact h.streams m hm0
  · rw [hst]
    by_cases hch : ch = c
    · subst hch
      obtain rfl : m = n := Option.some.inj (hm.symm.trans hn)
      rw [if_pos rfl]
      exact (queuedFor_eq_zero hfresh).symm
    · rw [if_neg (hother ch m hm hch)]
      have := (hp.grants ch (by simp)).queued m hm
      rw [hq, queuedFor_grant, if_neg (Ne.symm hch), Nat.zero_add] at this
      exact this
  · rw [hst] at hpos ⊢
    by_cases hch : ch = c
    · subst hch
      obtain rfl : m = n := Option.some.inj (hm.symm.trans hn)
      rw [if_pos rfl, ← hf]
      simp [Transmitter.grants]
    · rw [if_neg (hother ch m hm hch), hp.idle_inFlight hidle hm] at hpos
      exact absurd hpos (by simp)
  · simp [State.FrameLaw, ← hf, Transmitter.frame?]
  · rw [hst, if_neg] at hk
    · exact absurd hk (hp.idle_draining hidle hm k)
    · rintro rfl
      exact absurd ((hr.dir hm).symm.trans hdir) (by simp)

/-! ### DOWN frames (R135) -/

/-- The beginning of a DOWN frame: the side is DRAINING, and the frame carries what its end will advance over. -/
theorem State.Live.beginDown {R Q : Set (Fin 6)} {s : State} (h : s.Live R Q) {b : Fin 6}
    (hl : (s.branch b).link = .up) (hidle : (s.branch b).tx = .idle) {ch : Fin 8} {n : Fin 32} {k : Fin 2}
    (hn : s.route (downKey b ch) = some n) (hk : (s.stream n).closedHead? = some k) :
    (s.beginDown b ch n k).Live R (Q \ {b}) := by
  have hp := h.ports b
  have hr := h.table.2.2
  obtain ⟨hn0, hen, -⟩ := (hr.route_iff _ n).mp hn
  have hdir : (s.stream n).entry.dir = .down := hr.dir hn
  let st' : Stream := { (s.stream n).setSideState k .draining with credits := (s.stream n).credits - 1 }
  have hentry : st'.entry = (s.stream n).entry := (s.stream n).setSide_entry k _
  have hside : ∀ j, st'.side j = if j = k then { (s.stream n).side k with state := .draining } else (s.stream n).side j := by
    intro j
    show ((s.stream n).setSide k { (s.stream n).side k with state := .draining }).side j = _
    rw [Stream.setSide_eq_put, Stream.put_side]
  obtain ⟨_, -, hnone⟩ := (h.streams n hn0).2.1.closedHead hk
  have hst : ∀ m, (s.beginDown b ch n k).stream m = if m = n then st' else s.stream m := by
    intro m
    simp [State.beginDown, State.transmit, State.mapStream_stream, st']
  have hbr : (s.beginDown b ch n k).branch b =
      { s.branch b with pointer := ch, tx := .busy (s.cutFrame n k ch) } := by
    simp [State.beginDown, State.transmit]
  obtain ⟨p, hf, hlen⟩ : ∃ p, Transmitter.frame? (.busy (s.cutFrame n k ch)) = some (ch, n, k, p) ∧
      p.length = min (s.stream n).entry.frameLimit.toNat (((s.stream n).side k).fill - ((s.stream n).side k).drain) :=
    ⟨_, rfl, by simp [State.readSide]⟩
  have hup : ∀ c m, s.route (upKey b c) = some m → (s.beginDown b ch n k).stream m = s.stream m := by
    intro c m hm
    rw [hst, if_neg]
    rintro rfl
    exact absurd ((hr.dir hm).symm.trans hdir) (by simp)
  refine h.frameBegins hl hbr rfl rfl (fun d hd => ?_) (fun m => ?_) (fun m hm => ?_) (fun m hm => ?_) (fun m hm0 => ?_)
    ((Branch.queueLaw_iff _).mp hp.queue) (fun _ => id) (fun c m hm => ?_) (fun c m hm hpos => ?_) (fun f hfm => ?_)
    (fun c m hm j hj => ?_)
  · simp [State.beginDown, State.transmit, State.mapBranch_branch_ne _ hd]
  · rw [hst]; split
    · next hmn => rw [hmn]; exact hentry
    · rfl
  · rw [hst]; split
    · next hmn =>
      subst hmn
      have h0 := hnone 0
      have h1 := hnone 1
      simp only [Stream.side, if_true, one_ne_zero, if_false] at h0 h1
      simp [Stream.marked, h0, h1] at hm
    · exact hm
  · rw [hst, if_neg]
    rintro rfl
    exact hm (State.routed_of_route hn)
  · rw [hst]; split
    · exact (h.streams n hn0).beginFrame hk hdir
    · exact h.streams m hm0
  · rw [hup c m hm]
    exact (hp.grants c (by simp)).queued m hm
  · rw [hup c m hm, hp.idle_inFlight hidle hm] at hpos
    exact absurd hpos (by simp)
  · rw [hbr] at hfm
    obtain rfl : (ch, n, k, p) = f := by
      simp only [hf, Option.mem_def, Option.some.injEq] at hfm
      exact hfm
    refine ⟨hn, ?_, ?_⟩ <;> simp only [hst, if_true, hside, hentry]
    exact hlen
  · rw [hst] at hj
    split at hj
    · next hmn =>
      subst hmn
      have hkey := hr.key_unique hm hn
      rw [hside] at hj
      split at hj
      · next hjk => exact ⟨_, hf, (congrArg RouteKey.channel hkey).symm, rfl, hjk.symm⟩
      · exact absurd hj (hnone j)
    · exact absurd hj (hp.idle_draining hidle hm j)

/-! ### The arbiter (R133) -/

/-- A port that the arbiter finds with nothing to do: not UP, or not IDLE, or with nothing to send. -/
theorem State.arbitrate_rest {R Q : Set (Fin 6)} {s : State} (h : s.Live R Q) (b : Fin 6) :
    (s.arbitrate b = s ∧ s.Settled b) ∨
    ((s.branch b).link = .up ∧ (s.branch b).tx = .idle ∧
      ((∃ e rest, (s.branch b).queue = e :: rest ∧ s.arbitrate b = s.beginControl b e rest) ∨
       ∃ ch n k, s.sendable? b ch = some n ∧ (s.stream n).closedHead? = some k ∧
         s.arbitrate b = s.beginDown b ch n k)) := by
  by_cases hl : (s.branch b).link = .up
  swap
  · exact .inl ⟨s.arbitrate_down b hl, (h.ports b).settled_of_not_up hl⟩
  by_cases hidle : (s.branch b).tx = .idle
  swap
  · exact .inl ⟨s.arbitrate_busy b hidle, fun ht => absurd ht hidle⟩
  rw [State.arbitrate, if_pos ⟨hl, hidle⟩]
  cases hq : (s.branch b).queue with
  | cons e rest => exact .inr ⟨hl, hidle, .inl ⟨e, rest, rfl, rfl⟩⟩
  | nil =>
    cases hd : s.nextDown? b with
    | none =>
      refine .inl ⟨rfl, fun _ => ⟨hq, fun ch => ?_⟩⟩
      have hmem : ch ∈ channelsAfter (s.branch b).pointer := by
        generalize (s.branch b).pointer = p
        revert p ch; decide
      have := List.findSome?_eq_none_iff.mp hd ch hmem
      simpa using this
    | some x =>
      obtain ⟨ch, n⟩ := x
      obtain ⟨c, -, hc⟩ := List.exists_of_findSome?_eq_some hd
      obtain ⟨m, hm, heq⟩ := Option.map_eq_some_iff.mp hc
      obtain ⟨rfl, rfl⟩ := Prod.mk.inj heq
      obtain ⟨k, hk⟩ := Option.isSome_iff_exists.mp ((s.sendable?_eq_some_iff b c m).mp hm).2.2.1
      exact .inr ⟨hl, hidle, .inr ⟨c, m, k, hm, hk, by simp [hk]⟩⟩

/-- The arbiter's pick leaves its port at rest, and keeps the laws. -/
theorem State.Live.arbitrate {R Q : Set (Fin 6)} {s : State} (h : s.Live R Q) (b : Fin 6) :
    (s.arbitrate b).Live R (Q \ {b}) := by
  rcases State.arbitrate_rest h b with ⟨heq, hsettled⟩ | ⟨hl, hidle, ⟨e, rest, hq, heq⟩ | ⟨ch, n, k, hn, hk, heq⟩⟩ <;> rw [heq]
  · refine ⟨h.table, h.executing, h.streams, h.ports, h.status, fun c hc => ?_⟩
    by_cases hcb : c = b
    · rw [hcb]; exact hsettled
    · exact h.settled c fun hq => hc ⟨hq, hcb⟩
  · cases e with
    | grant c count => exact h.beginGrant hl hidle hq
    | revoke c dir => exact h.beginRevoke hl hidle hq
  · exact h.beginDown hl hidle ((s.sendable?_eq_some_iff b ch n).mp hn).1 hk

theorem State.Live.arbitrate_keeps {R Q : Set (Fin 6)} {s : State} (h : s.Live R Q) (b : Fin 6) :
    (s.arbitrate b).Live R Q := (h.arbitrate b).mono le_rfl Set.sdiff_subset

/-- A report of a CLOSED side lets the port of the stream pick (R41, R133). -/
theorem State.Live.reportClosed {R Q : Set (Fin 6)} {s : State} (h : s.Live R Q) (n : Fin 32) :
    (s.reportClosed n).Live R (Q \ {b | s.Routed b n}) := by
  unfold State.reportClosed
  split
  · next k hk =>
    refine (h.arbitrate k.branch).mono le_rfl fun b ⟨hb, hne⟩ => ⟨hb, fun ⟨j, hj, hjb⟩ => hne ?_⟩
    have hj' := ((h.table.2.2.route_iff j n).mp hj).2.2
    rw [hk] at hj'
    rw [Set.mem_singleton_iff, ← hjb, Option.some.inj hj']
  · next hk =>
    refine h.mono le_rfl fun b hb => ⟨hb, fun ⟨j, hj, _⟩ => ?_⟩
    rw [((h.table.2.2.route_iff j n).mp hj).2.2] at hk
    exact absurd hk (by simp)

/-! ### Grants (R129) -/

/-- A GRANT request on a port that is UP: the stream may have `d` more grants. -/
theorem State.Live.queueGrant {R Q : Set (Fin 6)} {s : State} (h : s.Live R Q) {n : Fin 32} {k : RouteKey}
    (hn : s.route k = some n) (hup : k.dir = .up) (hl : (s.branch k.branch).link = .up) {d : Nat}
    (hd : d ≤ (s.stream n).grantable) :
    ((s.mapStream n (fun st => { st with queued := st.queued + d })).mapBranch k.branch
      (fun br => { br with queue := queueGrant br.queue k.channel d })).Live R (Q ∪ {k.branch}) := by
  obtain ⟨b, c, dir⟩ := k
  obtain rfl : dir = .up := hup
  have hp := h.ports b
  have hr := h.table.2.2
  obtain ⟨hn0, hen, -⟩ := (hr.route_iff _ n).mp hn
  have hdir : (s.stream n).entry.dir = .up := hr.dir hn
  obtain ⟨hnodup, hbefore⟩ := (Branch.queueLaw_iff _).mp hp.queue
  simp only at hl ⊢
  have hbr : ((s.mapStream n (fun st => { st with queued := st.queued + d })).mapBranch b
      (fun br => { br with queue := Machine.queueGrant br.queue c d })).branch b =
        { s.branch b with queue := Machine.queueGrant (s.branch b).queue c d } := by simp
  have hst : ∀ m, ((s.mapStream n (fun st => { st with queued := st.queued + d })).mapBranch b
      (fun br => { br with queue := Machine.queueGrant br.queue c d })).stream m =
        if m = n then { s.stream n with queued := (s.stream n).queued + d } else s.stream m := by
    intro m; simp [State.mapStream_stream]
  have hside : ∀ m j, (((s.mapStream n (fun st => { st with queued := st.queued + d })).mapBranch b
      (fun br => { br with queue := Machine.queueGrant br.queue c d })).stream m).side j = (s.stream m).side j := by
    intro m j
    rw [hst]; split
    · next hmn => rw [hmn]; rfl
    · rfl
  refine LiveBut.at_port h b (by simp) rfl rfl (fun m => ?_) (fun m hm => ?_) (fun e he => ?_) (fun m hm => ?_)
    (fun m hm0 _ => ?_) ⟨?_, ?_, fun ch _ => ⟨fun hg => ?_, fun m hm => ?_, ?_, fun m hm hpos => ?_⟩, ?_, fun ch =>
      ⟨?_, fun m hm j hj => ?_⟩⟩ (fun hb => ?_) (Set.subset_union_left.trans Set.subset_union_left) (fun hb => ?_)
  · rw [hst]; split
    · next hmn => rw [hmn]
    · rfl
  · rw [hst]; split
    · next hmn => rw [← hmn]; exact hm
    · exact hm
  · rw [State.mapBranch_branch_ne _ he]; rfl
  · rw [hst, if_neg]
    rintro rfl
    exact hm (State.routed_of_route hn)
  · rw [hst]; split
    · have hlaw := h.streams n hn0
      have hroom := hlaw.2.2.room hdir hen
      simp only [Stream.grantable, Stream.grants] at hd hroom
      exact hlaw.counts (fun he => absurd hen (by simp [he])) hlaw.2.2.2.2.2.2.1 (fun hd => absurd hdir (by simp [hd]))
        (fun _ _ => by omega)
    · exact h.streams m hm0
  · rw [hbr]; exact (Branch.queueLaw_iff _).mpr ⟨queueGrant_nodup hnodup c d, queueGrant_before hbefore c d⟩
  · rw [hbr]; exact fun hne => absurd hl hne
  · rw [hbr] at hg
    rcases queueGrant_isGrant hg with rfl | hg
    · exact Option.isSome_iff_exists.mpr ⟨n, hn⟩
    · exact (hp.grants ch (by simp)).mapped hg
  · have hm' : s.route (upKey b ch) = some m := hm
    rw [hbr, hst, queuedFor_queueGrant hnodup]
    have hold := (hp.grants ch (by simp)).queued m hm'
    by_cases hch : ch = c
    · subst hch
      obtain rfl : m = n := Option.some.inj (hm'.symm.trans hn)
      simp only [if_true, hold]
    · have hmn : m ≠ n := by
        rintro rfl
        exact hch (congrArg RouteKey.channel (hr.key_unique hm' hn))
      rw [if_neg hmn, if_neg hch, hold, Nat.add_zero]
  · rw [hbr]; exact fun m _ hne => absurd hl hne
  · have hm' : s.route (upKey b ch) = some m := hm
    have hsame : (((s.mapStream n (fun st => { st with queued := st.queued + d })).mapBranch b
        (fun br => { br with queue := Machine.queueGrant br.queue c d })).stream m).inFlight = (s.stream m).inFlight := by
      rw [hst]; split
      · next hmn => rw [hmn]
      · rfl
    rw [hsame] at hpos ⊢
    rw [hbr]
    exact (hp.grants ch (by simp)).inFlight m hm' hpos
  · rw [State.FrameLaw, hbr]
    intro f hf
    obtain ⟨hkey, hdraining, hlen⟩ := hp.frame f hf
    have hentry : (((s.mapStream n (fun st => { st with queued := st.queued + d })).mapBranch b
        (fun br => { br with queue := Machine.queueGrant br.queue c d })).stream f.2.1).entry = (s.stream f.2.1).entry := by
      rw [hst]; split
      · next hmn => rw [hmn]
      · rfl
    rw [hside, hentry]
    exact ⟨hkey, hdraining, hlen⟩
  · rw [hbr]; exact fun m _ hne => absurd hl hne
  · rw [hside] at hj
    rw [hbr]
    exact (hp.sends ch).draining m hm j hj
  · rw [hbr]; exact h.status b hb
  · exact absurd (Or.inr rfl) hb

theorem State.Live.issueGrants {R Q : Set (Fin 6)} {s : State} (h : s.Live R Q) (n : Fin 32) (hn : n ≠ 0) :
    (s.issueGrants n).Live R Q := by
  rcases s.issueGrants_cases n with heq | ⟨k, hk, hen, hup, hl, _, heq⟩ <;> rw [heq]
  · exact h
  · have hroute := (h.table.2.2.route_iff k n).mpr ⟨hn, hen, hk⟩
    refine ((h.queueGrant hroute hup hl le_rfl).arbitrate k.branch).mono le_rfl ?_
    rintro b ⟨hb | hb, hne⟩
    · exact hb
    · exact absurd hb hne

end Sys2Proof.Machine
end

