-- ==== Sys2Proof/Proofs/Revokes.lean ====
section
/-! Keys revoked (R130), the ports after a trunk reset (R131), and the WRITE-STREAM commit (R16 to R18) keep the laws. -/

namespace Sys2Proof.Machine

/-! ### REVOKE requests (R130, R132) -/

/-- A port after a REVOKE request for key `k`, when the stream that has the key, if one, holds no grants: the queue holds
no GRANT for the key any more, and every other key is as it was. -/
theorem State.PortBut.queueRevoke {s t : State} {k : RouteKey} (h : s.PortBut (some k) k.branch)
    (hstreams : t.streams = s.streams) (hroutes : t.routes = s.routes)
    (hbr : t.branch k.branch = { s.branch k.branch with
      queue := Machine.queueRevoke (s.branch k.branch).queue k.channel k.dir })
    (hl : (s.branch k.branch).link = .up)
    (hzero : ∀ n, s.route k = some n → (s.stream n).queued = 0 ∧ (s.stream n).inFlight = 0) : t.PortBut none k.branch := by
  obtain ⟨b, c, dir⟩ := k
  have hroute : ∀ j, t.route j = s.route j := fun j => by simp only [State.route, hroutes]
  have hstream : ∀ n, t.stream n = s.stream n := fun n => by simp only [State.stream, hstreams]
  obtain ⟨hnodup, hbefore⟩ := (Branch.queueLaw_iff _).mp h.queue
  refine ⟨?_, ?_, fun ch _ => ?_, ?_, fun ch => ?_⟩
  · rw [hbr]; exact (Branch.queueLaw_iff _).mpr ⟨queueRevoke_nodup hnodup c dir, queueRevoke_before hbefore c dir⟩
  · rw [hbr]; exact fun hne => absurd hl hne
  · by_cases hkey : (⟨b, c, dir⟩ : RouteKey) = upKey b ch
    · obtain ⟨rfl, rfl⟩ : c = ch ∧ dir = .up := by simpa using hkey
      have hnone : ∀ e ∈ Machine.queueRevoke (s.branch b).queue c .up, e.isGrant c = false :=
        fun e he => queueRevoke_isGrant he
      refine ⟨?_, fun n hn => ?_, ?_, fun n hn hpos => ?_⟩
      · rw [hbr]
        rintro ⟨e, he, hg⟩
        rw [hnone e he] at hg
        exact absurd hg (by simp)
      · rw [hbr, hstream, queuedFor_eq_zero hnone]
        exact (hzero n (hroute _ ▸ hn)).1
      · rw [hbr]; exact fun n _ hne => absurd hl hne
      · rw [hstream, (hzero n (hroute _ ▸ hn)).2] at hpos
        exact absurd hpos (by simp)
    · have hne : dir = .up → ch ≠ c := by
        rintro rfl rfl; exact hkey rfl
      obtain ⟨hmapped, hqueued, hdown, hinFlight⟩ := h.grants ch (by simpa using hkey)
      refine ⟨?_, fun n hn => ?_, ?_, fun n hn hpos => ?_⟩
      · rw [hbr, hroute]
        rintro ⟨e, he, hg⟩
        rcases mem_queueRevoke he with he | rfl
        · exact hmapped ⟨e, (queueWithout_sublist _ _ _).subset he, hg⟩
        · exact absurd hg (by simp [CtlEntry.isGrant])
      · rw [hbr, hstream, queuedFor_queueRevoke _ hne]
        exact hqueued n (hroute _ ▸ hn)
      · rw [hbr]; exact fun n _ hne => absurd hl hne
      · rw [hstream] at hpos ⊢
        rw [hbr]
        exact hinFlight n (hroute _ ▸ hn) hpos
  · rw [State.FrameLaw, hbr]
    intro f hf
    rw [hroute, hstream]
    exact h.frame f hf
  · obtain ⟨hcredits, hdraining⟩ := h.sends ch
    refine ⟨?_, fun n hn j hj => ?_⟩
    · rw [hbr]; exact fun n _ hne => absurd hl hne
    · rw [hbr]
      exact hdraining n (hroute _ ▸ hn) j (hstream n ▸ hj)

/-- A port that is not UP has no queue, so a key whose stream holds no grants is in order without a REVOKE. -/
theorem State.PortBut.noRevoke {s : State} {k : RouteKey} (h : s.PortBut (some k) k.branch)
    (hl : (s.branch k.branch).link ≠ .up)
    (hzero : ∀ n, s.route k = some n → (s.stream n).queued = 0 ∧ (s.stream n).inFlight = 0 ∧ (s.stream n).delivered = 0) :
    s.PortBut none k.branch := by
  obtain ⟨b, c, dir⟩ := k
  refine ⟨h.queue, h.empty, fun ch _ => ?_, h.frame, h.sends⟩
  by_cases hkey : (⟨b, c, dir⟩ : RouteKey) = upKey b ch
  · obtain ⟨rfl, rfl⟩ : c = ch ∧ dir = .up := by simpa using hkey
    have hempty := h.empty hl
    refine ⟨?_, fun n hn => ?_, fun n hn _ => ?_, fun n hn hpos => ?_⟩
    · rw [hempty]; simp
    · rw [hempty]; exact (hzero n hn).1
    · obtain ⟨h1, h2, h3⟩ := hzero n hn
      simp [Stream.grants, h1, h2, h3]
    · rw [(hzero n hn).2.1] at hpos
      exact absurd hpos (by simp)
  · exact h.grants ch (by simpa using hkey)

/-- A REVOKE of key `k` puts the grants of the key in order, when the stream that has it, if one, holds none. -/
theorem State.LiveBut.revoke {R Q : Set (Fin 6)} {s : State} {k : RouteKey} (h : s.LiveBut (some k) R Q)
    (hzero : ∀ n, s.route k = some n →
      (s.stream n).queued = 0 ∧ (s.stream n).inFlight = 0 ∧ (s.stream n).delivered = 0) :
    (if (s.branch k.branch).link = .up then
      (s.mapBranch k.branch (fun br => { br with queue := Machine.queueRevoke br.queue k.channel k.dir })).arbitrate k.branch
    else s).Live R Q := by
  split
  · next hl =>
    have hrevoked : (s.mapBranch k.branch (fun br =>
        { br with queue := Machine.queueRevoke br.queue k.channel k.dir })).Live R (Q ∪ {k.branch}) := by
      refine h.at_port k.branch (fun j hj => by rw [Option.some.inj hj]) rfl rfl (fun _ => rfl) (fun _ => id)
        (fun c hc => s.mapBranch_branch_ne hc _) (fun _ _ => rfl) (fun n hn _ => h.streams n hn)
        ((h.ports k.branch).queueRevoke rfl rfl (by simp) hl fun n hn => ⟨(hzero n hn).1, (hzero n hn).2.1⟩)
        (fun hb => ?_) (Set.subset_union_left.trans Set.subset_union_left) fun hb => absurd (Or.inr rfl) hb
      rw [s.mapBranch_branch_self]
      exact h.status k.branch hb
    refine (hrevoked.arbitrate k.branch).mono le_rfl ?_
    rintro b ⟨hb | hb, hne⟩
    · exact hb
    · exact absurd hb hne
  · next hl =>
    exact h.at_port k.branch (fun j hj => by rw [Option.some.inj hj]) rfl rfl (fun _ => rfl) (fun _ => id)
      (fun _ _ => rfl) (fun _ _ => rfl) (fun n hn _ => h.streams n hn) ((h.ports k.branch).noRevoke hl hzero)
      (h.status k.branch) Set.subset_union_left fun _ => (h.ports k.branch).settled_of_not_up hl

/-- The counts of a stream set to 0 leave only the grants of its own key out of order. -/
theorem State.Live.noGrants {R Q : Set (Fin 6)} {s : State} (h : s.Live R Q) {n : Fin 32} {k : RouteKey}
    (hn : s.route k = some n) : (s.mapStream n Stream.noGrants).LiveBut (some k) R Q := by
  have hr := h.table.2.2
  obtain ⟨hn0, -, -⟩ := (hr.route_iff k n).mp hn
  have hst : ∀ m, (s.mapStream n Stream.noGrants).stream m = if m = n then (s.stream n).noGrants else s.stream m :=
    fun m => s.mapStream_stream n m _
  have hentry : ∀ m, ((s.mapStream n Stream.noGrants).stream m).entry = (s.stream m).entry := by
    intro m; rw [hst]; split
    · next hmn => rw [hmn]; rfl
    · rfl
  have hside : ∀ m j, ((s.mapStream n Stream.noGrants).stream m).side j = (s.stream m).side j := by
    intro m j; rw [hst]; split
    · next hmn => rw [hmn]; rfl
    · rfl
  have hcredits : ∀ m, ((s.mapStream n Stream.noGrants).stream m).credits ≤ (s.stream m).credits := by
    intro m; rw [hst]; split
    · exact Nat.zero_le _
    · exact le_rfl
  refine ⟨State.TableLaw.of_same (s := s) rfl hentry h.table, h.executing.of_view (fun _ => rfl) fun m _ => ⟨hentry m, fun _ hm => ?_⟩,
    fun m hm => ?_, fun b => ⟨(h.ports b).queue, (h.ports b).empty, fun ch hch => ?_, fun f hf => ?_, fun ch => ⟨fun m hm hl => ?_,
      fun m hm j hj => ?_⟩⟩, h.status, fun b hb hidle => ?_⟩
  · rw [hst]; split
    · next hmn => rw [← hmn]; exact hm
    · exact hm
  · rw [hst]; split
    · exact (h.streams n hn0).noGrants
    · exact h.streams m hm
  · obtain ⟨hmapped, hqueued, hdown, hinFlight⟩ := (h.ports b).grants ch (by simp)
    have hsame : ∀ m ∈ s.route (upKey b ch), (s.mapStream n Stream.noGrants).stream m = s.stream m := by
      intro m hm
      rw [hst, if_neg]
      rintro rfl
      exact hch (congrArg some (hr.key_unique hn hm))
    refine ⟨hmapped, fun m hm => ?_, fun m hm => ?_, fun m hm => ?_⟩ <;> rw [hsame m hm]
    · exact hqueued m hm
    · exact hdown m hm
    · exact hinFlight m hm
  · rw [hside, hentry]
    exact (h.ports b).frame f hf
  · exact Nat.le_zero.mp ((hcredits m).trans (((h.ports b).sends ch).credits m hm hl).le)
  · exact ((h.ports b).sends ch).draining m hm j (hside m j ▸ hj)
  · obtain ⟨hqueue, hnone⟩ := h.settled b hb hidle
    refine ⟨hqueue, fun ch => ?_⟩
    rw [Option.eq_none_iff_forall_not_mem]
    intro m hm
    obtain ⟨hkey, hen, hhead, hcredit⟩ := (State.sendable?_eq_some_iff _ b ch m).mp hm
    have hclosed : ((s.mapStream n Stream.noGrants).stream m).closedHead? = (s.stream m).closedHead? := by
      rw [hst]; split
      · next hmn => rw [hmn]; rfl
      · rfl
    have := (s.sendable?_eq_some_iff b ch m).mpr ⟨hkey, hentry m ▸ hen, hclosed ▸ hhead, hcredit.trans (hcredits m)⟩
    rw [hnone ch] at this
    exact absurd this (by simp)

/-- The revoking of the key that a stream holds (R130). -/
theorem State.Live.revokeKey {R Q : Set (Fin 6)} {s : State} (h : s.Live R Q) {n : Fin 32} {k : RouteKey}
    (hn : s.route k = some n) : (s.revokeKey n k).Live R Q := by
  refine (h.noGrants hn).revoke fun m hm => ?_
  obtain rfl : n = m := Option.some.inj (hn.symm.trans hm)
  rw [s.mapStream_stream_self]
  exact ⟨rfl, rfl, rfl⟩

theorem State.Live.revokeStream {R Q : Set (Fin 6)} {s : State} (h : s.Live R Q) {n : Fin 32} (hn : n ≠ 0)
    (hen : (s.stream n).entry.enabled = true) : (s.revokeStream n).Live R Q := by
  unfold State.revokeStream
  split
  · next k hk => exact h.revokeKey ((h.table.2.2.route_iff k n).mpr ⟨hn, hen, hk⟩)
  · exact h

/-! ### The streams of a branch -/

theorem State.mem_streamsOf (s : State) (b : Fin 6) (n : Fin 32) :
    n ∈ s.streamsOf b ↔ n ≠ 0 ∧ (s.stream n).entry.enabled = true ∧
      ∃ k, (s.stream n).entry.key? = some k ∧ k.branch = b := by
  rw [State.streamsOf, List.mem_filter, mem_streamNumbers, State.servedBy, Bool.and_eq_true]
  refine and_congr_right fun _ => and_congr_right fun _ => ?_
  cases (s.stream n).entry.key? <;> simp

theorem State.streamsOf_nodup (s : State) (b : Fin 6) : (s.streamsOf b).Nodup := streamNumbers_nodup.filter _

/-- The streams of a branch are those routed to it (R8). -/
theorem State.RouteLaw.mem_streamsOf {s : State} (h : s.RouteLaw) (b : Fin 6) (n : Fin 32) :
    n ∈ s.streamsOf b ↔ s.Routed b n := by
  rw [State.mem_streamsOf]
  constructor
  · rintro ⟨hn, hen, k, hk, hb⟩; exact ⟨k, (h.route_iff k n).mpr ⟨hn, hen, hk⟩, hb⟩
  · rintro ⟨k, hk, hb⟩
    obtain ⟨hn, hen, hkey⟩ := (h.route_iff k n).mp hk
    exact ⟨hn, hen, k, hkey, hb⟩

/-- What a trunk reset does at a port: every key of its streams revoked, then the grants (R131). -/
theorem State.Live.resetPort {R Q : Set (Fin 6)} {s : State} (h : s.Live R Q) (b : Fin 6) : (s.resetPort b).Live R Q := by
  have hmem := s.mem_streamsOf b
  have hrevoked : ((s.overStreams (s.streamsOf b) State.revokeStream).Live R Q) := by
    refine (State.overStreams_keeps (P := fun u => s.Traffic u ∧ u.Live R Q) _ (fun u n hn hu => ?_) s ⟨.refl s, h⟩).2
    obtain ⟨hn0, hen, -⟩ := (hmem n).mp hn
    exact ⟨hu.1.trans (u.revokeStream_traffic n), hu.2.revokeStream hn0 ((hu.1.stream n).entry ▸ hen)⟩
  exact State.Live.overStreams hrevoked _ fun u n hn hu => State.Live.issueGrants hu n ((hmem n).mp hn).1

/-! ### The WRITE-STREAM commit (R16 to R18) -/

/-- A stream as a commit leaves it is lawful, whatever its entry. -/
theorem Stream.commit_lawful (st : Stream) (e : Entry) : (st.commit e).Lawful := by
  have hnone : (st.commit e).notFree = 0 := by
    rw [Stream.notFree_eq]; simp [Stream.commit, Stream.idle]
  have hside : ∀ k, (st.commit e).side k = Side.empty := by
    intro k; unfold Stream.side; split <;> rfl
  have hsides : (st.commit e).SidesLaw :=
    (Stream.sidesLaw_iff _).mpr ⟨fun k => by simp [hside], fun k _ => hside k, fun j k hj => by simp [hside] at hj⟩
  have horder : (st.commit e).OrderLaw :=
    ⟨List.nodup_nil, fun k => by rw [hside]; simp [Side.Ordered, Stream.commit, Stream.idle], fun k hk => by simp [hside] at hk,
      fun k hk => by simp [hside] at hk, by simp [Stream.commit, Stream.idle]⟩
  exact ⟨hsides, horder, fun _ => rfl, .inl rfl, by simp [Stream.commit, Stream.idle], fun _ => ⟨rfl, rfl, rfl, rfl⟩,
    fun _ => rfl, fun _ => ⟨rfl, rfl, rfl⟩, fun _ _ => by rw [hnone]; exact Nat.zero_le _⟩

/-- An idle stream drains nothing while it is enabled (R13). -/
theorem Stream.isIdle_draining {st : Stream} (h : st.isIdle = true) (hen : st.entry.enabled = true) (k : Fin 2) :
    (st.side k).state ≠ .draining := by
  have hdrain : st.draining = false := by simp [Stream.isIdle, hen] at h; exact h.2
  simp only [Stream.draining, Bool.or_eq_false_iff, beq_eq_false_iff_ne] at hdrain
  unfold Stream.side
  split
  · exact hdrain.1
  · exact hdrain.2

theorem Stream.marked_draining {st : Stream} (h : st.marked = true) : ∃ k, (st.side k).state = .draining := by
  simp only [Stream.marked, Bool.or_eq_true, Bool.and_eq_true, beq_iff_eq] at h
  rcases h with h | h
  · exact ⟨0, h.1⟩
  · exact ⟨1, h.1⟩

section Commit

variable {s : State} {n : Fin 32} {e : Entry}

/-- A key that maps to another stream than `n` keeps it across a commit on `n`. -/
theorem State.CommitOk.route_ne (hok : s.CommitOk n e) (hn : n ≠ 0) (hr : s.RouteLaw) {j : RouteKey} {m : Fin 32}
    (hm : m ≠ n) : (s.commitTable n e).route j = some m ↔ s.route j = some m := by
  rw [State.commitTable_route]
  constructor
  · intro h
    split at h
    · exact absurd (Option.some.inj h).symm hm
    · split at h
      · exact absurd h (by simp)
      · exact h
  · intro h
    obtain ⟨hm0, hen, hkey⟩ := (hr.route_iff j m).mp h
    rw [if_neg, if_neg]
    · exact h
    · intro hold
      obtain ⟨hne, hnk⟩ := (Entry.activeKey?_eq_some_iff _ j).mp hold
      exact hm (Option.some.inj (h.symm.trans ((hr.route_iff j n).mpr ⟨hn, hne, hnk⟩)))
    · intro hnew
      obtain ⟨hee, hek⟩ := (Entry.activeKey?_eq_some_iff e j).mp hnew
      have := (hok.apart hee m hm0 hm hen).2
      rw [Entry.sameKey_of_key? hek hkey] at this
      exact absurd this (by simp)

/-- A key that maps to `n` after a commit was free before, or was the key of `n`. -/
theorem State.CommitOk.route_self (hok : s.CommitOk n e) (hn : n ≠ 0) (hr : s.RouteLaw) {j : RouteKey}
    (hj : (s.commitTable n e).route j = some n) : s.route j = none ∨ (s.stream n).entry.activeKey? = some j := by
  cases h : s.route j with
  | none => exact .inl rfl
  | some m =>
    by_cases hm : m = n
    · obtain ⟨-, hen, hkey⟩ := (hr.route_iff j m).mp h
      exact .inr ((Entry.activeKey?_eq_some_iff _ j).mpr (hm ▸ ⟨hen, hkey⟩))
    · rw [(hok.route_ne hn hr hm).mpr h] at hj
      exact absurd (Option.some.inj hj) hm

/-- The change of the table leaves only the grants of the old key out of order. -/
theorem State.Live.commitTable {R Q : Set (Fin 6)} (h : s.Live R Q) (hok : s.CommitOk n e) (hn : n ≠ 0) :
    (s.commitTable n e).LiveBut (s.stream n).entry.activeKey? R Q := by
  have hr := h.table.2.2
  have hself := s.commitTable_stream_self n e
  have hne : ∀ {m}, m ≠ n → (s.commitTable n e).stream m = s.stream m := fun hm => s.commitTable_stream_ne hm e
  have hdrain : ∀ {j}, s.route j = some n → ∀ k, ((s.stream n).side k).state ≠ .draining :=
    fun hj => Stream.isIdle_draining hok.idle ((hr.route_iff _ n).mp hj).2.1
  have hempty : ∀ k, ((s.commitTable n e).stream n).side k = Side.empty := by
    intro k; rw [hself]; unfold Stream.side; split <;> rfl
  refine ⟨State.commitTable_table hn hok h.table, fun he => ?_, fun m hm => ?_, fun b => ⟨?_, ?_, fun ch hch => ?_, ?_,
    fun ch => ⟨fun m hm hl => ?_, fun m hm k hk => ?_⟩⟩, fun b hb => ?_, fun b hb hidle => ?_⟩
  · have hmgmt : (s.commitTable n e).mgmt = s.mgmt := by rw [s.commitTable_rest]
    rw [hmgmt] at he ⊢
    obtain ⟨m, hm0, htarget, hen, hdir, hmark⟩ := h.executing he
    have hmn : m ≠ n := by
      rintro rfl
      obtain ⟨k, hk⟩ := Stream.marked_draining hmark
      exact Stream.isIdle_draining hok.idle hen k hk
    exact ⟨m, hm0, htarget, by rw [hne hmn]; exact ⟨hen, hdir, hmark⟩⟩
  · by_cases hmn : m = n
    · rw [hmn, hself]; exact Stream.commit_lawful _ e
    · rw [hne hmn]; exact h.streams m hm
  · rw [s.commitTable_branch]; exact (h.ports b).queue
  · rw [s.commitTable_branch]; exact (h.ports b).empty
  · obtain ⟨hmapped, hqueued, hdown, hinFlight⟩ := (h.ports b).grants ch (by simp)
    have hfree : (s.commitTable n e).route (upKey b ch) = some n → s.route (upKey b ch) = none :=
      fun hj => (hok.route_self hn hr hj).resolve_right hch
    refine ⟨fun hg => ?_, fun m hm => ?_, fun m hm => ?_, fun m hm => ?_⟩
    · obtain ⟨m, hm⟩ := Option.isSome_iff_exists.mp (hmapped (by simpa using hg))
      by_cases hmn : m = n
      · obtain ⟨-, hen, hkey⟩ := (hr.route_iff _ m).mp hm
        exact absurd ((Entry.activeKey?_eq_some_iff _ _).mpr (hmn ▸ ⟨hen, hkey⟩)) hch
      · rw [(hok.route_ne hn hr hmn).mpr hm]; rfl
    · rw [s.commitTable_branch]
      by_cases hmn : m = n
      · subst hmn
        rw [hself, queuedFor_eq_zero fun x hx => ?_]
        · rfl
        · cases hg : x.isGrant ch
          · rfl
          · have := hmapped ⟨x, hx, hg⟩
            rw [hfree hm] at this
            exact absurd this (by simp)
      · rw [hne hmn]; exact hqueued m ((hok.route_ne hn hr hmn).mp hm)
    · rw [s.commitTable_branch]
      by_cases hmn : m = n
      · subst hmn; rw [hself]; exact fun _ => rfl
      · rw [hne hmn]; exact hdown m ((hok.route_ne hn hr hmn).mp hm)
    · rw [s.commitTable_branch]
      by_cases hmn : m = n
      · subst hmn; rw [hself]; exact fun hpos => absurd hpos (Nat.lt_irrefl 0)
      · rw [hne hmn]; exact hinFlight m ((hok.route_ne hn hr hmn).mp hm)
  · rw [State.FrameLaw, s.commitTable_branch]
    intro f hf
    obtain ⟨hkey, hdraining, hlen⟩ := (h.ports b).frame f hf
    have hmn : f.2.1 ≠ n := fun hfn => hdrain (hfn ▸ hkey) _ (hfn ▸ hdraining)
    rw [hok.route_ne hn hr hmn, hne hmn]
    exact ⟨hkey, hdraining, hlen⟩
  · rw [s.commitTable_branch] at hl
    by_cases hmn : m = n
    · subst hmn; rw [hself]; rfl
    · rw [hne hmn]; exact ((h.ports b).sends ch).credits m ((hok.route_ne hn hr hmn).mp hm) hl
  · rw [s.commitTable_branch]
    by_cases hmn : m = n
    · subst hmn; rw [hempty] at hk; exact absurd hk (by simp)
    · exact ((h.ports b).sends ch).draining m ((hok.route_ne hn hr hmn).mp hm) k (hne hmn ▸ hk)
  · rw [s.commitTable_branch]; exact h.status b hb
  · rw [s.commitTable_branch] at hidle ⊢
    obtain ⟨hqueue, hnone⟩ := h.settled b hb hidle
    refine ⟨hqueue, fun ch => State.sendable?_eq_none fun m hm hhead => ?_⟩
    by_cases hmn : m = n
    · subst hmn; rw [hself]; rfl
    · rw [hne hmn] at hhead ⊢
      have hm' := (hok.route_ne hn hr hmn).mp hm
      by_contra hcredit
      have := (s.sendable?_eq_some_iff b ch m).mpr
        ⟨hm', ((hr.route_iff _ m).mp hm').2.1, hhead, Nat.one_le_iff_ne_zero.mpr hcredit⟩
      rw [hnone ch] at this
      exact absurd this (by simp)

/-- A commit that passes its checks keeps the laws, with the old key revoked and the grants of the new one issued. -/
theorem State.Live.commitEntry {R Q : Set (Fin 6)} (h : s.Live R Q) (hok : s.CommitOk n e) (hn : n ≠ 0) :
    (s.commitEntry n e).Live R Q := by
  have htable := h.commitTable hok hn
  rw [State.commitEntry_eq]
  refine State.Live.issueGrants ?_ n hn
  cases hold : (s.stream n).entry.activeKey? with
  | none => rw [hold] at htable; exact htable
  | some k =>
    rw [hold] at htable
    have hsame : (s.commitTable n e).mapStream n Stream.noGrants = s.commitTable n e := by
      refine State.ext_parts rfl (fun m => ?_) rfl rfl rfl (fun _ => rfl) rfl rfl rfl rfl
      rw [State.mapStream_stream]
      split
      · next hmn => rw [hmn, State.commitTable_stream_self]; rfl
      · rfl
    have hzero : ∀ m, (s.commitTable n e).route k = some m →
        ((s.commitTable n e).stream m).queued = 0 ∧ ((s.commitTable n e).stream m).inFlight = 0 ∧
          ((s.commitTable n e).stream m).delivered = 0 := by
      intro m hm
      rw [State.commitTable_route, if_pos hold] at hm
      split at hm
      · obtain rfl := Option.some.inj hm
        rw [State.commitTable_stream_self]
        exact ⟨rfl, rfl, rfl⟩
      · exact absurd hm (by simp)
    have hrevoke := htable.revoke hzero
    simp only [State.revokeKey, hsame]
    exact hrevoke

end Commit

end Sys2Proof.Machine
end

