-- ==== Sys2Proof/Proofs/FlowCells.lean ====
section
/-! The cells of FLOW streams keep the laws: an accepted PUT (R72 to R75), the cut of a packet (R79) and its ACK (R81). What
the ports see of a stream whose side is filled or freed comes first; it serves the CYCLIC streams and the frames as well. -/

namespace Sys2Proof.Machine

/-! ### What the ports see of an operation on one side -/

theorem Stream.View.trans {a b c : Stream} (h : a.View b) (g : b.View c) : a.View c := by
  refine ⟨g.entry.trans h.entry, g.queued.trans h.queued, g.inFlight.trans h.inFlight, g.delivered.trans h.delivered,
    g.credits.trans h.credits, fun hd k => ?_, fun hd k hk => ?_⟩
  · exact (g.draining (h.entry ▸ hd) k).trans (h.draining hd k)
  · obtain ⟨hfill, hdrain, hmark⟩ := h.frame hd k hk
    obtain ⟨gfill, gdrain, gmark⟩ := g.frame (h.entry ▸ hd) k ((h.draining hd k).mpr hk)
    exact ⟨gfill.trans hfill, gdrain.trans hdrain, gmark ∘ hmark⟩

/-- The ports do not see the sides of an UP stream. -/
theorem Stream.View.of_up {a b : Stream} (hup : a.entry.dir = .up) (hentry : b.entry = a.entry) (hqueued : b.queued = a.queued)
    (hinFlight : b.inFlight = a.inFlight) (hdelivered : b.delivered ≤ a.delivered) (hcredits : b.credits = a.credits) :
    a.View b :=
  ⟨hentry, hqueued, hinFlight, hdelivered, hcredits, fun hd => absurd (hup.symm.trans hd) (by simp),
    fun hd => absurd (hup.symm.trans hd) (by simp)⟩

theorem Stream.NoNewHead.of_up {a b : Stream} (hup : a.entry.dir = .up) : a.NoNewHead b :=
  fun hd => absurd (hup.symm.trans hd) (by simp)

theorem Stream.View.put_up {st : Stream} (hup : st.entry.dir = .up) (k : Fin 2) (sd : Side) (o : List (Fin 2)) :
    st.View (st.put k sd o) :=
  .of_up hup (by simp) (by simp) (by simp) (by simp) (by simp)

/-- The ports do not see the response, the packet and the live fields. -/
theorem Stream.View.live {a b : Stream} (h : a.View b) (r : Response) (p : Option Packet) (q : Bool) (u : Half) (v : Bool) :
    a.View { b with response := r, packet := p, seqBit := q, burst := u, served := v } :=
  ⟨h.entry, h.queued, h.inFlight, h.delivered, h.credits, h.draining, h.frame⟩

/-- The ports do not see a side that is not DRAINING and does not become so. -/
theorem Stream.View.put {st : Stream} {k : Fin 2} {sd : Side} (o : List (Fin 2)) (hk : (st.side k).state ≠ .draining)
    (hsd : sd.state ≠ .draining) : st.View (st.put k sd o) := by
  refine ⟨by simp, by simp, by simp, by simp, by simp, fun _ j => ?_, fun _ j hj => ?_⟩
  · rw [Stream.put_side]
    split
    · next hjk => subst hjk; exact ⟨fun h => absurd h hsd, fun h => absurd h hk⟩
    · exact Iff.rfl
  · rw [Stream.put_side, if_neg]
    · exact ⟨rfl, rfl, id⟩
    · rintro rfl; exact hk hj

/-- A side that does not become CLOSED is no new head of the close order, whether or not it joins its tail. -/
theorem Stream.NoNewHead.put {st : Stream} {k : Fin 2} {sd : Side} {o : List (Fin 2)} (hsd : sd.state ≠ .closed)
    (ho : o = st.order ∨ o = st.order ++ [k]) : st.NoNewHead (st.put k sd o) := by
  intro _ hb
  obtain ⟨j, hj⟩ := Option.isSome_iff_exists.mp hb
  obtain ⟨hhead, hclosed⟩ := (Stream.closedHead?_eq_some_iff _ j).mp hj
  rw [Stream.put_side] at hclosed
  rw [Stream.put_order] at hhead
  split at hclosed
  · exact absurd hclosed hsd
  · next hjk =>
    refine Option.isSome_iff_exists.mpr ⟨j, (Stream.closedHead?_eq_some_iff _ j).mpr ⟨?_, hclosed⟩⟩
    rcases ho with rfl | rfl
    · exact hhead
    · cases hord : st.order with
      | nil =>
        rw [hord] at hhead
        exact absurd (Option.some.inj hhead).symm hjk
      | cons x rest => rw [hord] at hhead; exact hhead

/-! ### Changes of one stream after another -/

theorem State.mapStream_mapStream (s : State) (n : Fin 32) (f g : Stream → Stream) :
    (s.mapStream n f).mapStream n g = s.mapStream n (fun st => g (f st)) := by
  refine State.ext_parts rfl (fun m => ?_) rfl rfl rfl (fun _ => rfl) rfl rfl rfl rfl
  by_cases hm : m = n
  · subst hm; simp
  · simp [State.mapStream_stream_ne _ hm]

/-- The bytes of the pool are of no law of the streams and ports. -/
theorem State.Live.setPool {R Q : Set (Fin 6)} {s : State} (h : s.Live R Q) (m : Memory) : (s.setPool m).Live R Q :=
  h.rest rfl rfl rfl fun _ => rfl

/-- The live fields of a stream changed (R5, R6). -/
theorem Stream.Lawful.live {st : Stream} (h : st.Lawful) {q : Bool} {u : Half} (hq : st.entry.cls = .cyclic → q = false)
    (hu : u = 0 ∨ u < st.entry.burstCount) : Stream.Lawful { st with seqBit := q, burst := u } := by
  obtain ⟨hsides, horder, -, -, hserved, hrest⟩ := h
  exact ⟨hsides, horder, hq, hu, hserved, hrest⟩

/-! ### Which side a fill goes into (R28, R29) -/

theorem Stream.fillingSide?_eq_some {st : Stream} {k : Fin 2} (h : st.fillingSide? = some k) :
    k ∈ st.entry.sideNos ∧ (st.side k).state = .filling :=
  ⟨List.mem_of_find?_eq_some h, by simpa using List.find?_some h⟩

theorem Stream.freeSide?_eq_some {st : Stream} {k : Fin 2} (h : st.freeSide? = some k) :
    k ∈ st.entry.sideNos ∧ (st.side k).state = .free :=
  ⟨List.mem_of_find?_eq_some h, by simpa using List.find?_some h⟩

/-- With no FILLING side among those of the entry, there is none at all. -/
theorem Stream.SidesLaw.none_filling {st : Stream} (h : st.SidesLaw) (hnone : st.fillingSide? = none) (k : Fin 2) :
    (st.side k).state ≠ .filling := by
  intro hk
  have := List.find?_eq_none.mp hnone k (h.place (k := k) (by simp [hk])).2
  simp [hk] at this

theorem Stream.SidesLaw.fillable_filling {st : Stream} (h : st.SidesLaw) {k : Fin 2} (hk : st.fillingSide? = some k) :
    st.Fillable k := by
  obtain ⟨hplace, hfilling⟩ := Stream.fillingSide?_eq_some hk
  obtain ⟨-, -, hone⟩ := st.sidesLaw_iff.mp h
  exact ⟨(h.place (k := k) (by simp [hfilling])).1, hplace, .inl hfilling, fun j hj hj' => hj (hone j k hj' hfilling)⟩

theorem Stream.fillable_free {st : Stream} (hen : st.entry.enabled = true) {k : Fin 2}
    (hnone : ∀ j, (st.side j).state ≠ .filling) (hk : st.freeSide? = some k) : st.Fillable k := by
  obtain ⟨hplace, hfree⟩ := Stream.freeSide?_eq_some hk
  exact ⟨hen, hplace, .inr hfree, fun j _ => hnone j⟩

/-- The records of a side that a fill goes into. -/
theorem Stream.SidesLaw.free_fill {st : Stream} (h : st.SidesLaw) {k : Fin 2} (hk : (st.side k).state = .free) :
    (st.side k).fill = 0 := by
  obtain ⟨hlawful, -, -⟩ := st.sidesLaw_iff.mp h
  obtain ⟨-, hfree, -⟩ := ((st.side k).lawful_iff _).mp (hlawful k)
  rw [hfree hk]; rfl

theorem Stream.SidesLaw.filling_down {st : Stream} (h : st.SidesLaw) {k : Fin 2} (hk : (st.side k).state = .filling) :
    st.entry.continuous = true ∧ (st.entry.dir = .down →
      (st.side k).fill < st.entry.capacity ∧ (st.side k).fill % st.entry.maxPayload.toNat = 0) := by
  obtain ⟨hlawful, -, -⟩ := st.sidesLaw_iff.mp h
  obtain ⟨⟨-, -, -, hdown⟩, -, -, hcont, -⟩ := ((st.side k).lawful_iff _).mp (hlawful k)
  exact ⟨hcont hk, hdown hk⟩

/-! ### A fill with the close rules (R30, R32) -/

/-- A fill closed when a rule gives a cause, else left FILLING. -/
theorem Stream.Lawful.fill_closeBy {st : Stream} (h : st.Lawful) {k : Fin 2} (hk : st.Fillable k) {len : Nat}
    (hfit : (st.side k).fill + len ≤ st.entry.capacity) {cause : Option CloseCause}
    (hopen : cause = none → st.entry.continuous = true ∧ (st.entry.dir = .down →
      (st.side k).fill + len < st.entry.capacity ∧ ((st.side k).fill + len) % st.entry.maxPayload.toNat = 0))
    (hroom : st.entry.dir = .up → st.grants + (st.fill k len).notFree ≤ st.entry.sideCount) :
    ((st.fill k len).closeBy k cause).Lawful := by
  cases cause with
  | none => exact h.fill hk hfit (hopen rfl).1 (hopen rfl).2 hroom
  | some c => exact h.fill_close hk hfit (.inl rfl) c hroom

theorem Stream.Fillable.view {st : Stream} {k : Fin 2} (hk : st.Fillable k) (len : Nat) (cause : Option CloseCause) :
    st.View ((st.fill k len).closeBy k cause) := by
  cases cause with
  | none => rw [Stream.closeBy, Stream.fill_eq_put]; exact .put _ hk.not_draining (by simp)
  | some c => rw [Stream.closeBy, Stream.fill_close_eq_put]; exact .put _ hk.not_draining (by simp)

/-- A fill that leaves the side FILLING gives the port nothing new to send. -/
theorem Stream.fill_noNewHead (st : Stream) (k : Fin 2) (len : Nat) : st.NoNewHead ((st.fill k len).closeBy k none) := by
  rw [Stream.closeBy, Stream.fill_eq_put]
  exact .put (by simp) (.inl rfl)

/-- Whether a side closes is known by its state. -/
theorem Stream.fill_closeBy_closed (st : Stream) (k : Fin 2) (len : Nat) (cause : Option CloseCause) :
    (((st.fill k len).closeBy k cause).side k).state = .closed ↔ cause.isSome = true := by
  cases cause with
  | none => rw [Stream.closeBy, Stream.fill_eq_put]; simp
  | some c => rw [Stream.closeBy, Stream.fill_close_eq_put]; simp

/-! ### An accepted PUT (R72 to R75) -/

/-- The geometry of an enabled FLOW DOWN stream (R12): whole packets fit. -/
theorem Entry.geometry_flow_down {e : Entry} (h : e.geometryOk = true) (hflow : e.Is .flow .down) :
    e.maxPayload.toNat ≤ e.capacity ∧ (e.continuous = true → e.capacity % e.maxPayload.toNat = 0) := by
  simp only [Entry.geometryOk, hflow.1, hflow.2, Bool.and_eq_true, decide_eq_true_eq, Bool.or_eq_true, Bool.not_eq_true',
    beq_iff_eq] at h
  exact ⟨h.2.1, fun hc => h.2.2.resolve_left (by simp [hc])⟩

/-- A side that a packet is accepted into has room for a full one (R40). -/
theorem Stream.SidesLaw.put_room {st : Stream} (h : st.SidesLaw) (hgeo : st.entry.geometryOk = true)
    (hflow : st.entry.Is .flow .down) {k : Fin 2} (hk : st.Fillable k) :
    (st.side k).fill + st.entry.maxPayload.toNat ≤ st.entry.capacity ∧
      (st.side k).fill % st.entry.maxPayload.toNat = 0 := by
  obtain ⟨hmax, hwhole⟩ := Entry.geometry_flow_down hgeo hflow
  rcases hk.state with hs | hs
  · obtain ⟨hcont, hdown⟩ := h.filling_down hs
    obtain ⟨hlt, hmod⟩ := hdown hflow.2
    refine ⟨?_, hmod⟩
    have hcap := hwhole hcont
    obtain ⟨a, ha⟩ := Nat.dvd_of_mod_eq_zero hmod
    obtain ⟨c, hc⟩ := Nat.dvd_of_mod_eq_zero hcap
    rw [ha, hc] at hlt ⊢
    have hac : a < c := lt_of_mul_lt_mul_left hlt (Nat.zero_le _)
    calc st.entry.maxPayload.toNat * a + st.entry.maxPayload.toNat
        = st.entry.maxPayload.toNat * (a + 1) := by ring
      _ ≤ st.entry.maxPayload.toNat * c := Nat.mul_le_mul_left _ hac
  · rw [h.free_fill hs]
    exact ⟨by omega, Nat.zero_mod _⟩

/-- The side that a PUT goes into. -/
theorem Stream.SidesLaw.fillable_target {st : Stream} (h : st.SidesLaw) (hen : st.entry.enabled = true) {k : Fin 2}
    (hk : st.fillTarget? = some k) : st.Fillable k := by
  unfold Stream.fillTarget? at hk
  split at hk
  · next j hj =>
    obtain rfl : j = k := Option.some.inj hk
    exact h.fillable_filling hj
  · next hnone => exact Stream.fillable_free hen (h.none_filling hnone) hk

/-- No cause to close: a full packet of a continuous stream that ends no burst and leaves room (R30). -/
theorem flowDownCause_eq_none {e : Entry} {n : Nat} {burst full : Bool} (h : flowDownCause e n burst full = none) :
    e.continuous = true ∧ e.maxPayload.toNat ≤ n ∧ full = false := by
  unfold flowDownCause at h
  split_ifs at h with hc hn hb hf
  exact ⟨by simpa using hc, by omega, by simpa using hf⟩

/-- The burst progress of an accepted PUT stays below the burst count (R6, R73). -/
theorem Stream.LiveLaw.nextBurst {st : Stream} (h : st.LiveLaw) {ends : Bool} (hends : st.burstReached = true → ends = true) :
    (if st.entry.burstCount = 0 then st.burst else if ends then 0 else st.burst + 1) = 0 ∨
      (if st.entry.burstCount = 0 then st.burst else if ends then 0 else st.burst + 1) < st.entry.burstCount := by
  obtain ⟨-, hburst, -⟩ := h
  split
  · exact hburst
  · next hcount =>
    split
    · exact .inl rfl
    · next hnot =>
      have hreached : st.burstReached = false := by
        cases hr : st.burstReached
        · rfl
        · exact absurd (hends hr) hnot
      simp only [Stream.burstReached, Stream.nextBurst, Bool.and_eq_false_iff, decide_eq_false_iff_not] at hreached
      have hpos : 0 < st.entry.burstCount.toNat := by
        rcases Nat.eq_zero_or_pos st.entry.burstCount.toNat with h0 | h0
        · exact absurd (BitVec.eq_of_toNat_eq h0) hcount
        · exact h0
      have hlt : st.burst.toNat + 1 < st.entry.burstCount.toNat := by
        rcases hreached with h0 | h1
        · exact absurd hpos h0
        · have := of_decide_eq_false h1
          omega
      refine .inr (BitVec.lt_def.mpr ?_)
      have := st.entry.burstCount.isLt
      rw [BitVec.toNat_add, show (1 : Half).toNat = 1 from rfl]
      omega

/-- Why the side of an accepted PUT of `len` bytes closes, if it does (R30). -/
def Stream.putCause (st : Stream) (k : Fin 2) (len : Nat) : Option CloseCause :=
  flowDownCause st.entry len (st.burstEnds len && st.burstReached) ((st.side k).fill + len == st.entry.capacity)

/-- The stream that an accepted PUT of `len` bytes leaves. -/
def Stream.accepted (st : Stream) (k : Fin 2) (len : Nat) : Stream :=
  (st.fill k len).acceptPut k len (st.burstEnds len) st.burstReached

theorem Stream.accepted_eq (st : Stream) (k : Fin 2) (len : Nat) :
    st.accepted k len = { (st.fill k len).closeBy k (st.putCause k len) with
      seqBit := !st.seqBit,
      burst := if st.entry.burstCount = 0 then st.burst else if st.burstEnds len then 0 else st.burst + 1 } := by
  have hfilled : (st.fill k len).entry = st.entry ∧ (st.fill k len).burst = st.burst ∧
      (st.fill k len).seqBit = st.seqBit ∧ ((st.fill k len).side k).fill = (st.side k).fill + len := by
    rw [Stream.fill_eq_put]; simp
  obtain ⟨hentry, hburst, hseq, hfill⟩ := hfilled
  simp only [Stream.accepted, Stream.acceptPut, Stream.putCause, hentry, hburst, hseq, hfill]

/-- What an accepted PUT leaves of the stream keeps its laws. -/
theorem Stream.Lawful.accepted {st : Stream} (h : st.Lawful) (hgeo : st.entry.geometryOk = true)
    (hflow : st.entry.Is .flow .down) {k : Fin 2} (hk : st.Fillable k) {len : Nat} (hlen : len ≤ st.entry.maxPayload.toNat) :
    (st.accepted k len).Lawful := by
  obtain ⟨hroom, hmod⟩ := h.1.put_room hgeo hflow hk
  have hends : st.burstReached = true → st.burstEnds len = true := by
    intro hr
    have hpos := hr
    simp only [Stream.burstReached, Bool.and_eq_true] at hpos
    simp [Stream.burstEnds, hr, hpos.1]
  have hentry : ((st.fill k len).closeBy k (st.putCause k len)).entry = st.entry := (hk.view len _).entry
  rw [Stream.accepted_eq]
  refine Stream.Lawful.live (h.fill_closeBy hk (by omega) (fun hnone => ?_)
    (fun hup => absurd (hup.symm.trans hflow.2) (by simp))) (fun hc => ?_) ?_
  · obtain ⟨hcont, hfull, hcap⟩ := flowDownCause_eq_none hnone
    have hlenEq : len = st.entry.maxPayload.toNat := le_antisymm hlen hfull
    refine ⟨hcont, fun _ => ⟨lt_of_le_of_ne (by omega) (by simpa using hcap), ?_⟩⟩
    rw [hlenEq, Nat.add_mod_right]
    exact hmod
  · rw [hentry, hflow.1] at hc
    exact absurd hc (by simp)
  · rw [hentry]; exact h.2.2.nextBurst hends

theorem Stream.Fillable.accepted_view {st : Stream} {k : Fin 2} (hk : st.Fillable k) (len : Nat) :
    st.View (st.accepted k len) := by
  rw [Stream.accepted_eq]
  exact (hk.view len (st.putCause k len)).live _ _ _ _ _

theorem Stream.accepted_closed (st : Stream) (k : Fin 2) (len : Nat) :
    ((st.accepted k len).side k).state = .closed ↔ (st.putCause k len).isSome = true := by
  rw [Stream.accepted_eq]
  exact st.fill_closeBy_closed k len _

theorem Stream.accepted_noNewHead {st : Stream} {k : Fin 2} {len : Nat} (h : st.putCause k len = none) :
    st.NoNewHead (st.accepted k len) := by
  rw [Stream.accepted_eq, h]
  exact st.fill_noNewHead k len

/-- The bytes and the stream's record after an accepted PUT (R28, R72 steps 2 to 5). -/
def State.putStored (s : State) (n : Fin 32) (k : Fin 2) (p : List Byte) : State :=
  (s.setPool (s.pool.writeBytes Config.poolBytes ((s.stream n).entry.byteAddr k ((s.stream n).side k).fill) p)).mapStream n
    (fun st => st.accepted k p.length)

/-- An accepted PUT counted and answered, with its burst-end work done (R73 to R75), before the arbiter learns of it. -/
def State.putAnswered (s : State) (c : CellHdr) (n : Fin 32) (k : Fin 2) (p : List Byte) : State :=
  ((if (s.stream n).burstEnds p.length then (s.putStored n k p).burstEnd n (s.stream n).burstReached
    else s.putStored n k p).countStream n StreamCounters.pass).answer c
      (acceptedAnswer ((s.stream n).accepted k p.length) p.length) c.seq []

/-- An accepted PUT ends with the report of a side that it closed (R41). -/
theorem State.acceptPut_eq {s : State} {n : Fin 32} {k : Fin 2} {p : List Byte} (h : p.length ≤ (s.stream n).space k)
    (c : CellHdr) : s.acceptPut c n k p =
      if ((s.stream n).putCause k p.length).isSome then (s.putAnswered c n k p).reportClosed n
      else s.putAnswered c n k p := by
  have hstored : (s.fillSide n k p).mapStream n (fun st => st.acceptPut k p.length ((s.stream n).burstEnds p.length)
      (s.stream n).burstReached) = s.putStored n k p := by
    rw [State.fillSide_fits h, State.mapStream_mapStream]
    refine State.ext_parts rfl (fun m => ?_) rfl rfl rfl (fun _ => rfl) rfl rfl rfl rfl
    by_cases hm : m = n
    · subst hm; simp [State.putStored, Stream.accepted]
    · simp [State.putStored, State.mapStream_stream_ne _ hm]
  have hstream : (s.putStored n k p).stream n = (s.stream n).accepted k p.length := by simp [State.putStored]
  simp only [State.acceptPut, hstored, hstream, Stream.accepted_closed]
  rfl

section Cells

variable {R Q : Set (Fin 6)} {s : State} {n : Fin 32} {k : Fin 2} {p : List Byte}

/-- The geometry and range of an enabled stream's entry (R11, R12). -/
theorem State.Live.entryOk (h : s.Live R Q) (hn : n ≠ 0) (hen : (s.stream n).entry.enabled = true) :
    (s.stream n).entry.rangeOk = true ∧ (s.stream n).entry.geometryOk = true := h.table.1.2 n hn hen

theorem State.Live.burstEnd (h : s.Live R Q) (n : Fin 32) (reached : Bool) : (s.burstEnd n reached).Live R Q := by
  unfold State.burstEnd
  refine State.Live.offerStream ?_ n _ _
  split
  · exact State.Live.claim h n _
  · exact h

theorem State.Live.putAnswered (h : (s.putStored n k p).Live R Q) (c : CellHdr) : (s.putAnswered c n k p).Live R Q := by
  unfold State.putAnswered
  refine State.Live.answer (State.Live.countStream ?_ n _) c _ _ _
  split
  · exact State.Live.burstEnd h n _
  · exact h

theorem State.putAnswered_routes (s : State) (c : CellHdr) (n : Fin 32) (k : Fin 2) (p : List Byte) :
    (s.putAnswered c n k p).routes = s.routes := by
  have hstored := (s.putStored n k p).burstEnd_traffic n (s.stream n).burstReached
  unfold State.putAnswered
  split
  · exact hstored.routes
  · rfl

/-- A PUT accepted into a side that closes leaves a report for the arbiter (R41); without one nothing new can be sent. -/
theorem State.Live.acceptPut (h : s.Live R Q) (c : CellHdr) (hn : n ≠ 0) (hflow : (s.stream n).entry.Is .flow .down)
    (hk : (s.stream n).Fillable k) (hp : p.length ≤ (s.stream n).entry.maxPayload.toNat) :
    (s.acceptPut c n k p).Live R Q := by
  have hlaw := h.streams n hn
  obtain ⟨-, hgeo⟩ := h.entryOk hn hk.enabled
  have hfits : p.length ≤ (s.stream n).space k := by
    have := (hlaw.1.put_room hgeo hflow hk).1
    rw [Stream.space]; omega
  have hpool := State.Live.setPool h
    (s.pool.writeBytes Config.poolBytes ((s.stream n).entry.byteAddr k ((s.stream n).side k).fill) p)
  have hview := hk.accepted_view p.length
  have hlawful := hlaw.accepted hgeo hflow hk hp
  rw [State.acceptPut_eq hfits]
  split
  · have hstored : (s.putStored n k p).Live R (Q ∪ {b | s.Routed b n}) := hpool.mapStream_head hview fun _ => hlawful
    refine ((hstored.putAnswered c).reportClosed n).mono le_rfl ?_
    rintro b ⟨hb | hb, hne⟩
    · exact hb
    · refine absurd ?_ hne
      obtain ⟨j, hj, hjb⟩ := hb
      exact ⟨j, by rw [State.route, s.putAnswered_routes]; exact hj, hjb⟩
  · next hnone =>
    have hcause : (s.stream n).putCause k p.length = none := by simpa using hnone
    exact State.Live.putAnswered (hpool.mapStream hview (fun _ => hlawful) (Stream.accepted_noNewHead hcause)) c

/-- A PUT on a FLOW DOWN stream, whichever check stops it (R68). -/
theorem State.Live.flowPut (h : s.Live R Q) (c : CellHdr) (hn : n ≠ 0) (hen : (s.stream n).entry.enabled = true)
    (hflow : (s.stream n).entry.Is .flow .down) (p : List Byte) : (s.flowPut c n p).Live R Q := by
  unfold State.flowPut
  simp only
  split
  · exact h.answer c _ _ _
  · exact h.answer c _ _ _
  · split
    · exact State.Live.answer (State.Live.countStream (State.Live.offerStream (State.Live.claim h n _) n _ _) n _) c _ _ _
    · next hlen =>
      split
      · exact State.Live.answer (State.Live.countStream h n _) c _ _ _
      · split
        · exact h.answer c _ _ _
        · split
          · next k hk => exact h.acceptPut c hn hflow ((h.streams n hn).1.fillable_target hen hk) (Nat.le_of_not_lt hlen)
          · exact h.answer c _ _ _

theorem State.Live.flowAsk (h : s.Live R Q) (c : CellHdr) (n : Fin 32) : (s.flowAsk c n).Live R Q := by
  unfold State.flowAsk
  simp only
  split <;> exact h.answer c _ _ _

/-! ### Packets of FLOW UP streams (R77 to R82) -/

theorem State.Live.flowFetch (h : s.Live R Q) (c : CellHdr) (hn : n ≠ 0) (hflow : (s.stream n).entry.Is .flow .up) :
    (s.flowFetch c n).Live R Q := by
  unfold State.flowFetch
  simp only
  split
  · exact h.answer c _ _ _
  · exact h.answer c _ _ _
  · split
    · exact h.answer c _ _ _
    · split
      · next k hk =>
        refine State.Live.answer (h.mapStream ?_ (fun _ => (h.streams n hn).beginPacket hk hflow) (.of_up hflow.2)) c _ _ _
        rw [Stream.setSideState, Stream.setSide_eq_put]
        exact (Stream.View.put_up hflow.2 k _ _).live _ _ _ _ _
      · exact h.answer c _ _ _

/-- What the ports see of a side that a packet or frame advances. -/
theorem Stream.advance_eq_put (st : Stream) (k : Fin 2) (len : Nat) (done : Bool) :
    ∃ sd o, st.advance k len done = st.put k sd o := by
  unfold Stream.advance
  split
  · exact ⟨_, _, rfl⟩
  · exact ⟨_, _, Stream.setSide_eq_put _ _ _⟩

theorem State.Live.flowAck (h : s.Live R Q) (hn : n ≠ 0) : (s.flowAck n).Live R Q := by
  unfold State.flowAck
  simp only
  split
  · exact h.mapTrunkCtr _
  · next p hp =>
    have hlaw := h.streams n hn
    have hup : (s.stream n).entry.dir = .up := (hlaw.2.1.2.2.2.2 p hp).2.1.2
    have hacked : (s.mapStream n (fun st => st.ackPacket p)).Live R Q := by
      refine h.mapStream ?_ (fun _ => hlaw.acked hp _) (.of_up hup)
      obtain ⟨sd, o, heq⟩ := (s.stream n).advance_eq_put p.side p.len
        (drainDone ((s.stream n).side p.side) (s.stream n).entry.maxPayload.toNat p.len)
      rw [Stream.ackPacket, heq]
      exact (Stream.View.put_up hup _ _ _).live _ _ _ _ _
    split
    · exact State.Live.issueGrants (State.Live.countStream hacked n _) n hn
    · exact State.Live.countStream hacked n _

end Cells

end Sys2Proof.Machine
end

