-- ==== Sys2Proof/Proofs/CyclicCells.lean ====
section
/-! The cells of CYCLIC streams, the boundary work (R112 to R114), the loss notice (R115) and the timebase that hands them
keep the laws. -/

namespace Sys2Proof.Machine

/-! ### One CYCLIC stream -/

/-- The served flag of an enabled CYCLIC stream set, or cleared (R107). -/
theorem Stream.Lawful.serve {st : Stream} (h : st.Lawful) {v : Bool}
    (hv : v = true → st.entry.enabled = true ∧ st.entry.cls = .cyclic) : Stream.Lawful { st with served := v } := by
  obtain ⟨hsides, horder, hseq, hburst, -, hrest⟩ := h
  exact ⟨hsides, horder, hseq, hburst, hv, hrest⟩

/-- A CYCLIC stream has no packet outstanding (R66). -/
theorem Stream.OrderLaw.cyclic_packet {st : Stream} (h : st.OrderLaw) (hc : st.entry.cls = .cyclic) : st.packet = none := by
  cases hp : st.packet with
  | none => rfl
  | some p => exact absurd ((h.2.2.2.2 p hp).2.1.1.symm.trans hc) (by simp)

/-- An enabled CYCLIC DOWN stream is not continuous, and its side holds one packet (R11, R12). -/
theorem Entry.geometry_cyclic_down {e : Entry} (hr : e.rangeOk = true) (hg : e.geometryOk = true) (hc : e.Is .cyclic .down) :
    e.continuous = false ∧ e.capacity = e.maxPayload.toNat := by
  simp only [Entry.rangeOk, hc.1, hc.2, Bool.and_eq_true] at hr
  simp only [Entry.geometryOk, hc.1, hc.2, Bool.and_eq_true, beq_iff_eq] at hg
  obtain ⟨⟨-, hcont⟩, -⟩ := hr
  exact ⟨by simpa using hcont, hg.2⟩

/-- A CYCLIC UP stream drains none of its sides: they go whole (R36). -/
theorem Stream.SidesLaw.cyclic_up {st : Stream} (h : st.SidesLaw) (hc : st.entry.Is .cyclic .up) (k : Fin 2) :
    (st.side k).state ≠ .draining := by
  obtain ⟨hlawful, -, -⟩ := st.sidesLaw_iff.mp h
  obtain ⟨-, -, -, -, -, hdrains, -⟩ := ((st.side k).lawful_iff _).mp (hlawful k)
  exact fun hk => hdrains hk hc

/-- The oldest CLOSED side freed. -/
theorem Stream.Lawful.free_head {st : Stream} (h : st.Lawful) {k : Fin 2} (hk : st.closedHead? = some k) :
    (st.free k).Lawful := h.free (h.2.1.closedHead hk).1 (h.2.1.packet_none hk)

/-- What the ports see of a discard: a DRAINING DOWN side stays, with its mark. -/
theorem Stream.View.discard (st : Stream) : st.View st.discard := by
  have hside : ∀ k, st.discard.side k = (st.side k).discard st.entry.dir := fun k => by
    rw [Stream.discard_eq, Stream.mapSides_side]
  refine ⟨rfl, rfl, rfl, le_rfl, rfl, fun hd k => ?_, fun hd k hk => ?_⟩ <;> rw [hside, Side.discard, hd]
  · split
    · exact Iff.rfl
    · next hk => exact ⟨fun h => absurd h (by simp), fun h => absurd ⟨h, rfl⟩ hk⟩
  · rw [if_pos ⟨hk, rfl⟩]
    exact ⟨rfl, rfl, fun _ => rfl⟩

/-- A discard leaves no CLOSED side. -/
theorem Stream.NoNewHead.discard (st : Stream) : st.NoNewHead st.discard := by
  intro _ hb
  obtain ⟨k, hk⟩ := Option.isSome_iff_exists.mp hb
  have hclosed := Stream.closedHead?_closed hk
  rw [Stream.discard_eq, Stream.mapSides_side, Side.discard] at hclosed
  split at hclosed
  · next hd => exact absurd (hclosed.symm.trans hd.1) (by simp)
  · exact absurd hclosed (by simp)

/-- A discard of a CYCLIC stream (R44). -/
theorem Stream.Lawful.discard_cyclic {st : Stream} (h : st.Lawful) (hc : st.entry.cls = .cyclic) : st.discard.Lawful := by
  obtain ⟨hsides, horder, hlive⟩ := h
  have hmap := Side.discard_sideMap st.entry
  rw [Stream.discard_eq]
  exact ⟨hsides.mapSides hmap, horder.mapSides hsides hmap fun hup k hk => absurd hk (hsides.cyclic_up ⟨hc, hup⟩ k),
    hlive.mapSides hsides hmap⟩

/-- A release of the HELD sides (R113): the ports see no DRAINING side change. -/
theorem Stream.View.release (st : Stream) : st.View st.release := by
  have hside : ∀ k, st.release.side k = (st.side k).release := by
    intro k; unfold Stream.side; split <;> rfl
  refine ⟨rfl, rfl, rfl, le_rfl, rfl, fun _ k => ?_, fun _ k hk => ?_⟩ <;> rw [hside, Side.release]
  · split
    · next hheld => simp [hheld]
    · exact Iff.rfl
  · rw [if_neg (by simp [hk])]
    exact ⟨rfl, rfl, id⟩

theorem Stream.Lawful.release {st : Stream} (h : st.Lawful) : st.release.Lawful := by
  obtain ⟨hsides, horder, hlive⟩ := h
  rw [Stream.release_eq horder]
  exact ⟨hsides.mapSides Side.release_sideMap, horder.mapSides hsides Side.release_sideMap fun _ k hk => by
      rw [Side.release, if_neg (by simp [hk])], hlive.mapSides hsides Side.release_sideMap⟩

section Cells

variable {R Q : Set (Fin 6)} {s : State} {n : Fin 32}

/-! ### Cells (R108 to R111) -/

theorem State.Live.intervalMiss (h : s.Live R Q) (n : Fin 32) (d : Byte) : (s.intervalMiss n d).Live R Q :=
  State.Live.offerStream (State.Live.countStream h n _) n _ _

/-- The served flag changed: the ports do not see it. -/
theorem State.Live.mapServed (h : s.Live R Q) {v : Bool}
    (hv : n ≠ 0 → v = true → (s.stream n).entry.enabled = true ∧ (s.stream n).entry.cls = .cyclic) :
    (s.mapStream n (fun st => { st with served := v })).Live R Q :=
  h.mapStream ((Stream.View.refl _).live _ _ _ _ v) (fun hn => (h.streams n hn).serve (hv hn)) fun _ hh => hh

theorem State.Live.setServed (h : s.Live R Q) (hen : (s.stream n).entry.enabled = true)
    (hc : (s.stream n).entry.cls = .cyclic) : (s.setServed n).Live R Q := h.mapServed fun _ _ => ⟨hen, hc⟩

/-- A due PUT that R109 accepts fills a FREE side, which is HELD until the boundary. -/
theorem State.Live.fillHeld (h : s.Live R Q) (hn : n ≠ 0) (hen : (s.stream n).entry.enabled = true)
    (hc : (s.stream n).entry.Is .cyclic .down) {k : Fin 2} (hk : (s.stream n).freeSide? = some k) {p : List Byte}
    (hp : p.length ≤ (s.stream n).entry.maxPayload.toNat) :
    ((s.fillSide n k p).mapStream n (fun st => st.close k .held .cyclic)).Live R Q := by
  obtain ⟨hrange, hgeo⟩ := h.entryOk hn hen
  obtain ⟨hcont, hcap⟩ := Entry.geometry_cyclic_down hrange hgeo hc
  have hlaw := h.streams n hn
  have hfillable : (s.stream n).Fillable k := by
    refine Stream.fillable_free hen (fun j hj => ?_) hk
    rw [(hlaw.1.filling_down hj).1] at hcont
    exact absurd hcont (by simp)
  have hfill : ((s.stream n).side k).fill = 0 := hlaw.1.free_fill (Stream.freeSide?_eq_some hk).2
  have hfits : p.length ≤ (s.stream n).space k := by rw [Stream.space, hfill]; omega
  rw [State.fillSide_fits hfits, State.mapStream_mapStream]
  refine State.Live.mapStream (State.Live.setPool h _) ?_ (fun _ => ?_) ?_ <;> rw [State.setPool_stream]
  · rw [Stream.fill_close_eq_put]
    exact .put _ hfillable.not_draining (by simp)
  · exact hlaw.fill_close hfillable (by omega) (.inr ⟨rfl, hc⟩) _
      fun hup => absurd (hup.symm.trans hc.2) (by simp)
  · rw [Stream.fill_close_eq_put]
    exact .put (by simp) (.inr rfl)

theorem State.Live.cyclicDuePut (h : s.Live R Q) (hn : n ≠ 0) (hen : (s.stream n).entry.enabled = true)
    (hc : (s.stream n).entry.Is .cyclic .down) (p : List Byte) : (s.cyclicDuePut n p).Live R Q := by
  have hserved := h.setServed hen hc.1
  have hsame : (s.setServed n).stream n = { s.stream n with served := true } := by simp [State.setServed]
  unfold State.cyclicDuePut
  simp only
  split
  · exact State.Live.offerStream (State.Live.countStream h n _) n _ _
  · split
    · exact State.Live.offerStream (State.Live.countStream hserved n _) n _ _
    · next k hk =>
      split
      · exact State.Live.offerStream (State.Live.countStream hserved n _) n _ _
      · next hlen =>
        refine State.Live.countStream (hserved.fillHeld hn ?_ ?_ (k := k) ?_ ?_) n _ <;> rw [hsame]
        · exact hen
        · exact hc
        · exact hk
        · exact Nat.le_of_not_lt hlen

theorem State.Live.cyclicPut (h : s.Live R Q) (c : CellHdr) (hn : n ≠ 0) (hen : (s.stream n).entry.enabled = true)
    (hc : (s.stream n).entry.Is .cyclic .down) (p : List Byte) : (s.cyclicPut c n p).Live R Q := by
  unfold State.cyclicPut
  simp only
  split
  · exact h.answer c _ _ _
  · exact h
  · split
    · exact h.intervalMiss n _
    · split
      · exact h.intervalMiss n _
      · exact h.cyclicDuePut hn hen hc p

/-- The head of the close order of an UP stream freed, with the grant that follows (R129) still to come. -/
theorem State.Live.freeHead (h : s.Live R Q) (hn : n ≠ 0) (hup : (s.stream n).entry.dir = .up) {k : Fin 2}
    (hk : (s.stream n).closedHead? = some k) : (s.mapStream n (fun st => st.free k)).Live R Q :=
  h.mapStream (Stream.View.put_up hup k _ _) (fun _ => (h.streams n hn).free_head hk) (.of_up hup)

theorem State.Live.cyclicDueFetch (h : s.Live R Q) (c : CellHdr) (hn : n ≠ 0) (hen : (s.stream n).entry.enabled = true)
    (hc : (s.stream n).entry.Is .cyclic .up) : (s.cyclicDueFetch c n).Live R Q := by
  have hserved := h.setServed hen hc.1
  have hsame : (s.setServed n).stream n = { s.stream n with served := true } := by simp [State.setServed]
  unfold State.cyclicDueFetch
  simp only
  split
  · exact State.Live.answer (State.Live.countStream h n _) c _ _ _
  · split
    · next k hk =>
      have hfreed : ((s.setServed n).mapStream n (fun st => st.free k)).Live R Q :=
        hserved.freeHead hn (by rw [hsame]; exact hc.2) (by rw [hsame]; exact hk)
      exact State.Live.issueGrants (State.Live.answer (State.Live.countStream hfreed n _) c _ _ _) n hn
    · exact State.Live.answer (State.Live.offerStream (State.Live.countStream hserved n _) n _ _) c _ _ _

theorem State.Live.cyclicFetch (h : s.Live R Q) (c : CellHdr) (hn : n ≠ 0) (hen : (s.stream n).entry.enabled = true)
    (hc : (s.stream n).entry.Is .cyclic .up) : (s.cyclicFetch c n).Live R Q := by
  unfold State.cyclicFetch
  simp only
  split
  · exact h.answer c _ _ _
  · exact h.answer c _ _ _
  · split
    · exact State.Live.answer (h.intervalMiss n _) c _ _ _
    · split
      · exact State.Live.answer (h.intervalMiss n _) c _ _ _
      · exact h.cyclicDueFetch c hn hen hc

/-! ### The boundary work (R112 to R114) -/

theorem State.Live.staleFlush (h : s.Live R Q) (hn : n ≠ 0) (hup : (s.stream n).entry.dir = .up) :
    (s.staleFlush n).Live R Q := by
  unfold State.staleFlush
  split
  · next k hk => exact State.Live.issueGrants (State.Live.offerStream (h.freeHead hn hup hk) n _ _) n hn
  · exact h

theorem State.Live.unservedCheck (h : s.Live R Q) (e : Half) (hn : n ≠ 0) : (State.unservedCheck e s n).Live R Q := by
  unfold State.unservedCheck
  simp only
  split
  · split
    · next hup =>
      simp only [Bool.and_eq_true, beq_iff_eq] at hup
      refine (h.intervalMiss n 3).staleFlush hn ?_
      rw [((s.intervalMiss_traffic n 3).stream n).entry]
      exact hup.1
    · exact h.intervalMiss n 3
  · exact h

/-- The reports of the CLOSED sides of several streams: in the end each port has picked. -/
theorem State.Live.reportAll (ns : List (Fin 32)) : ∀ {s : State}, s.Live R (Q ∪ {b | ∃ n ∈ ns, s.Routed b n}) →
    (s.overStreams ns State.reportClosed).Live R Q := by
  induction ns with
  | nil => intro s h; exact h.mono le_rfl (by simp)
  | cons n ns ih =>
    intro s h
    have hroutes := (s.reportClosed_portStep n).routes
    refine ih ((h.reportClosed n).mono le_rfl ?_)
    rintro b ⟨hb | ⟨m, hm, hr⟩, hne⟩
    · exact .inl hb
    · rcases List.mem_cons.mp hm with rfl | hm
      · exact absurd hr hne
      · obtain ⟨j, hj, hjb⟩ := hr
        exact .inr ⟨m, hm, j, by rw [State.route, hroutes]; exact hj, hjb⟩

/-- The releases, after which every port with a released stream has to pick, and then the reports (R113). -/
theorem State.Live.releaseHeld (h : s.Live R Q) : s.releaseHeld.Live R Q := by
  have hreleased : ((s.overStreams s.heldStreams (fun s n => s.mapStream n Stream.release)).routes = s.routes) ∧
      (s.overStreams s.heldStreams (fun s n => s.mapStream n Stream.release)).Live R
        (Q ∪ {b | ∃ n ∈ s.heldStreams, s.Routed b n}) := by
    refine State.overStreams_keeps (op := fun s n => s.mapStream n Stream.release) (P := fun u => u.routes = s.routes ∧
      u.Live R (Q ∪ {b | ∃ n ∈ s.heldStreams, s.Routed b n})) _ (fun u n hn hu => ⟨hu.1, ?_⟩) s
        ⟨rfl, h.mono le_rfl Set.subset_union_left⟩
    refine (hu.2.mapStream_head (Stream.View.release _) fun hn0 => (hu.2.streams n hn0).release).mono le_rfl ?_
    rintro b (hb | ⟨j, hj, hjb⟩)
    · exact hb
    · exact .inr ⟨n, hn, j, by rw [State.route, ← hu.1]; exact hj, hjb⟩
  refine State.Live.reportAll _ (hreleased.2.mono le_rfl ?_)
  rintro b (hb | ⟨n, hn, j, hj, hjb⟩)
  · exact .inl hb
  · exact .inr ⟨n, hn, j, by rw [State.route, hreleased.1]; exact hj, hjb⟩

theorem State.Live.clearServed (h : s.Live R Q) : s.clearServed.Live R Q :=
  State.Live.overStreams h _ fun u n _ hu => State.Live.mapServed hu (n := n) fun _ hv => absurd hv (by simp)

theorem State.Live.boundaryWork (h : s.Live R Q) (ending : Option Half) : (s.boundaryWork ending).Live R Q := by
  unfold State.boundaryWork
  refine State.Live.clearServed (State.Live.releaseHeld ?_)
  cases ending with
  | none => exact h
  | some e => exact State.Live.overStreams h _ fun u n hn hu => State.Live.unservedCheck hu e (by simpa using hn)

/-! ### The loss notice (R115) -/

theorem State.Live.loseCyclic (h : s.Live R Q) (hn : n ≠ 0) : (s.loseCyclic n).Live R Q := by
  unfold State.loseCyclic
  simp only
  split
  · next hcyclic =>
    have hc : (s.stream n).entry.cls = .cyclic := by
      simp only [Stream.isCyclic, Bool.and_eq_true, beq_iff_eq] at hcyclic
      exact hcyclic.2
    have hdiscard : (s.mapStream n Stream.discard).Live R Q :=
      h.mapStream (.discard _) (fun _ => (h.streams n hn).discard_cyclic hc) (.discard _)
    split
    · exact State.Live.issueGrants (State.Live.countStream hdiscard n _) n hn
    · exact State.Live.countStream hdiscard n _
  · exact h

theorem State.Live.lossNotice (h : s.Live R Q) : s.lossNotice.Live R Q :=
  State.Live.clearServed (State.Live.overStreams h _ fun _ _ hn hu => State.Live.loseCyclic hu (by simpa using hn))

/-! ### The timebase (Chapter 5) -/

theorem State.Live.returnFrom (h : s.Live R Q) (before : TimebaseState) : (s.returnFrom before).Live R Q := by
  unfold State.returnFrom
  split
  · exact h.offerPlain _ _
  · exact h

theorem State.Live.takeMarker (h : s.Live R Q) (k : Half) (time : Ticks) : (s.takeMarker k time).Live R Q := by
  have hcount := State.Live.mapTimebase h (fun t => { t with markers := t.markers + 1 })
  have hlock : ∀ d, ((s.mapTimebase (fun t => { t with markers := t.markers + 1 })).markerLock k time d).Live R Q :=
    fun d => State.Live.boundaryWork (State.Live.offerPlain (State.Live.mapTimebase hcount _) _ _) none
  unfold State.takeMarker
  simp only
  split
  · exact hlock 1
  · exact hlock 2
  all_goals
    split
    · unfold State.markerClaim
      refine State.Live.returnFrom ?_ _
      split
      · exact State.Live.offerPlain (State.Live.mapTimebase hcount _) _ _
      · exact State.Live.mapTimebase hcount _
    · split
      · exact State.Live.offerPlain hcount _ _
      · unfold State.markerBoundary
        refine State.Live.boundaryWork (State.Live.returnFrom ?_ _) _
        split
        · exact State.Live.offerPlain (State.Live.mapTimebase hcount _) _ _
        · exact State.Live.mapTimebase hcount _

theorem State.Live.timerExpires (h : s.Live R Q) (time : Ticks) : (s.timerExpires time).Live R Q := by
  rcases s.timerExpires_cases time with ⟨_, _, he⟩ | ⟨_, _, he⟩ | ⟨_, he⟩ <;> rw [he]
  · unfold State.timerBoundary
    refine State.Live.boundaryWork ?_ _
    split
    · exact State.Live.offerPlain (State.Live.mapTimebase h _) _ _
    · exact State.Live.mapTimebase h _
  · exact State.Live.lossNotice (State.Live.offerPlain (State.Live.mapTimebase h _) _ _)
  · exact h

end Cells

end Sys2Proof.Machine
end

