-- ==== Sys2Proof/Proofs/LinkStates.lean ====
section
/-! The links keep the laws: the line reports (R120), training and the entry to UP (R121), the loss of UP with its effects
(R122, R123), and BRANCH-CONTROL (R124). -/

namespace Sys2Proof.Machine

/-! ### A port that is not UP -/

/-- A link that is not UP transmits no frame (R119). -/
theorem Branch.Status.not_busy {br : Branch} (h : br.Status) (hl : br.link ≠ .up) : br.tx = .silent ∨ br.tx = .aligning := by
  obtain ⟨hsilent, haligning, -⟩ := h
  cases hlink : br.link
  · exact .inl (hsilent.mp hlink)
  · exact .inr (haligning.mp (.inl hlink))
  · exact .inr (haligning.mp (.inr hlink))
  · exact absurd hlink hl

theorem Transmitter.frame?_of_quiet {tx : Transmitter} (h : tx = .silent ∨ tx = .aligning) : tx.frame? = none := by
  rcases h with rfl | rfl <;> rfl

/-- A port without a queue and without a frame, whose streams hold no grants and no credits and drain nothing. -/
theorem State.PortBut.quiet {t : State} {b : Fin 6} (hq : (t.branch b).queue = [])
    (hframe : (t.branch b).tx.frame? = none)
    (hup : ∀ ch n, t.route (upKey b ch) = some n → (t.stream n).queued = 0 ∧ (t.stream n).inFlight = 0 ∧
      ((t.branch b).link ≠ .up → (t.stream n).delivered = 0))
    (hdown : ∀ ch n, t.route (downKey b ch) = some n → ((t.branch b).link ≠ .up → (t.stream n).credits = 0) ∧
      ∀ k, ((t.stream n).side k).state ≠ .draining) : t.PortBut none b := by
  refine ⟨?_, fun _ => hq, fun ch _ => ⟨?_, fun n hn => ?_, fun n hn hl => ?_, fun n hn hpos => ?_⟩, fun f hf => ?_, fun ch =>
    ⟨fun n hn hl => (hdown ch n hn).1 hl, fun n hn k hk => absurd hk ((hdown ch n hn).2 k)⟩⟩
  · simp [Branch.QueueLaw, hq]
  · rw [hq]; simp
  · rw [hq, (hup ch n hn).1]; rfl
  · obtain ⟨h1, h2, h3⟩ := hup ch n hn
    simp [Stream.grants, h1, h2, h3 hl]
  · rw [(hup ch n hn).2.1] at hpos
    exact absurd hpos (by simp)
  · rw [hframe] at hf
    exact absurd hf (by simp)

/-- The streams of a port that is not UP, as `PortBut.quiet` asks of them. -/
theorem State.PortBut.not_up {s : State} {b : Fin 6} (h : s.PortBut none b) (hl : (s.branch b).link ≠ .up)
    (hframe : (s.branch b).tx.frame? = none) :
    (∀ ch n, s.route (upKey b ch) = some n →
      (s.stream n).queued = 0 ∧ (s.stream n).inFlight = 0 ∧ (s.stream n).delivered = 0) ∧
    ∀ ch n, s.route (downKey b ch) = some n → (s.stream n).credits = 0 ∧ ∀ k, ((s.stream n).side k).state ≠ .draining := by
  refine ⟨fun ch n hn => ?_, fun ch n hn => ⟨(h.sends ch).credits n hn hl, fun k hk => ?_⟩⟩
  · have := (h.grants ch (by simp)).down n hn hl
    simp only [Stream.grants] at this
    omega
  · obtain ⟨f, hf, -⟩ := (h.sends ch).draining n hn k hk
    rw [hframe] at hf
    exact absurd hf (by simp)

section Links

variable {R Q : Set (Fin 6)} {s : State}

/-! ### Changes of a port's status -/

/-- A change of a port that leaves its link, transmitter and queue. -/
theorem State.Live.mapStatus {b : Fin 6} {R' : Set (Fin 6)} {f : Branch → Branch} (h : s.Live R Q)
    (hf : (s.branch b).Same (f (s.branch b))) (hR : R ⊆ R' ∪ {b}) (hs : b ∉ R' → (f (s.branch b)).Status) :
    (s.mapBranch b f).Live R' Q := by
  have hr := h.table.2.2
  have hsame : (s.branch b).Same ((s.mapBranch b f).branch b) := by rw [s.mapBranch_branch_self]; exact hf
  refine LiveBut.at_port_exec h b (by simp) rfl (h.executing.of_view (fun _ => rfl) fun _ _ => ⟨rfl, fun _ => id⟩)
    (fun _ => rfl) (fun c hc => s.mapBranch_branch_ne hc f) (fun _ _ => rfl) (fun n hn _ => h.streams n hn)
    ((h.ports b).of_view hr rfl hsame fun n _ => .refl _) hR (fun hb => ?_) Set.subset_union_left
    fun hb => (h.settled b hb).of_view hr rfl hsame fun n _ => ⟨.refl _, .refl _⟩
  rw [s.mapBranch_branch_self]
  exact hs hb

/-- A link that is not UP goes to another state that is not UP, or its counts change. -/
theorem State.Live.mapDownLink {b : Fin 6} {R' : Set (Fin 6)} {f : Branch → Branch} (h : s.Live R Q)
    (hl : (s.branch b).link ≠ .up) (htx : (s.branch b).tx.frame? = none) (hl' : (f (s.branch b)).link ≠ .up)
    (hq : (f (s.branch b)).queue = (s.branch b).queue) (hR : R ⊆ R' ∪ {b}) (hs : (f (s.branch b)).Status) :
    (s.mapBranch b f).Live R' Q := by
  obtain ⟨hup, hdown⟩ := (h.ports b).not_up hl htx
  have hport : (s.mapBranch b f).PortBut none b := by
    refine .quiet ?_ ?_ (fun ch n hn => ?_) fun ch n hn => ?_
    · rw [s.mapBranch_branch_self, hq, (h.ports b).empty hl]
    · rw [s.mapBranch_branch_self]
      exact Transmitter.frame?_of_quiet (hs.not_busy hl')
    · obtain ⟨h1, h2, h3⟩ := hup ch n hn
      exact ⟨h1, h2, fun _ => h3⟩
    · exact ⟨fun _ => (hdown ch n hn).1, (hdown ch n hn).2⟩
  refine LiveBut.at_port_exec h b (by simp) rfl (h.executing.of_view (fun _ => rfl) fun _ _ => ⟨rfl, fun _ => id⟩)
    (fun _ => rfl) (fun c hc => s.mapBranch_branch_ne hc f) (fun _ _ => rfl) (fun n hn _ => h.streams n hn)
    hport hR (fun hb => ?_) Set.subset_union_left fun _ => hport.settled_of_not_up ?_
  · rw [s.mapBranch_branch_self]; exact hs
  · rw [s.mapBranch_branch_self]; exact hl'

/-! ### The entry to UP (R121) -/

/-- A transmitter becomes IDLE on a port that is UP, when no frame of it is left: its UP streams hold no grants in flight
and no side of its DOWN streams is DRAINING. -/
theorem State.PortBut.idle {t : State} {b : Fin 6} (h : s.PortBut none b) (hroutes : t.routes = s.routes)
    (hl : (t.branch b).link = .up) (hq : (t.branch b).queue = (s.branch b).queue) (hidle : (t.branch b).tx = .idle)
    (hup : ∀ ch n, s.route (upKey b ch) = some n →
      (t.stream n).queued = (s.stream n).queued ∧ (t.stream n).inFlight = 0)
    (hdown : ∀ ch n, s.route (downKey b ch) = some n → ∀ k, ((t.stream n).side k).state ≠ .draining) :
    t.PortBut none b := by
  have hroute : ∀ k, t.route k = s.route k := fun k => by simp only [State.route, hroutes]
  refine ⟨?_, fun hne => absurd hl hne, fun ch _ => ⟨?_, fun n hn => ?_, fun n _ hne => absurd hl hne, fun n hn hpos => ?_⟩,
    fun f hf => ?_, fun ch => ⟨fun n _ hne => absurd hl hne, fun n hn k hk => ?_⟩⟩
  · simpa only [Branch.QueueLaw, hq] using h.queue
  · rw [hq, hroute]; exact (h.grants ch (by simp)).mapped
  · rw [hq, (hup ch n (hroute _ ▸ hn)).1]
    exact (h.grants ch (by simp)).queued n (hroute _ ▸ hn)
  · rw [(hup ch n (hroute _ ▸ hn)).2] at hpos
    exact absurd hpos (by simp)
  · rw [hidle] at hf
    exact absurd hf (by simp [Transmitter.frame?])
  · exact absurd hk (hdown ch n (hroute _ ▸ hn) k)

/-- The link UP, its transmitter still ALIGNING: the port is rising (R121). -/
theorem State.Live.raise {b : Fin 6} {f : Branch → Branch} (h : s.Live R Q) (hl : (s.branch b).link ≠ .up)
    (htx : (s.branch b).tx = .aligning) (htx' : (f (s.branch b)).tx = .aligning)
    (hq : (f (s.branch b)).queue = (s.branch b).queue) : (s.mapBranch b f).Live (R ∪ {b}) Q := by
  obtain ⟨hup, hdown⟩ := (h.ports b).not_up hl (by rw [htx]; rfl)
  refine LiveBut.at_port_exec h b (by simp) rfl (h.executing.of_view (fun _ => rfl) fun _ _ => ⟨rfl, fun _ => id⟩)
    (fun _ => rfl) (fun c hc => s.mapBranch_branch_ne hc f) (fun _ _ => rfl) (fun n hn _ => h.streams n hn) ?_
    (Set.subset_union_left.trans Set.subset_union_left) (fun hb => absurd (Or.inr rfl) hb) Set.subset_union_left fun _ hidle => ?_
  · refine .quiet ?_ ?_ (fun ch n hn => ?_) fun ch n hn => ?_
    · rw [s.mapBranch_branch_self, hq, (h.ports b).empty hl]
    · rw [s.mapBranch_branch_self, htx']; rfl
    · obtain ⟨h1, h2, h3⟩ := hup ch n hn
      exact ⟨h1, h2, fun _ => h3⟩
    · exact ⟨fun _ => (hdown ch n hn).1, (hdown ch n hn).2⟩
  · rw [s.mapBranch_branch_self, htx'] at hidle
    exact absurd hidle (by simp)

/-- The grants of the streams of a rising port, which does not transmit yet (R121, R129). -/
theorem State.Live.grantRising {b : Fin 6} (h : s.Live R Q) (htx : (s.branch b).tx = .aligning) :
    (s.overStreams (s.streamsOf b) State.issueGrants).Live R Q ∧
      s.PortStep (s.overStreams (s.streamsOf b) State.issueGrants) ∧
      ((s.overStreams (s.streamsOf b) State.issueGrants).branch b).tx = .aligning := by
  refine State.overStreams_keeps (P := fun u => u.Live R Q ∧ s.PortStep u ∧ (u.branch b).tx = .aligning) _
    (fun u n hn hu => ?_) s ⟨h, .refl s, htx⟩
  obtain ⟨hlive, hstep, hutx⟩ := hu
  obtain ⟨hn0, -, k, hk, hkb⟩ := (s.mem_streamsOf b n).mp hn
  refine ⟨hlive.issueGrants n hn0, hstep.trans (u.issueGrants_portStep n), ?_⟩
  rcases u.issueGrants_cases n with heq | ⟨j, hj, -, -, -, -, heq⟩ <;> rw [heq]
  · exact hutx
  · rw [(hstep.stream n).entry, hk] at hj
    obtain rfl : k = j := Option.some.inj hj
    rw [hkb, State.arbitrate_busy]
    · rw [State.mapBranch_branch_self]; exact hutx
    · rw [State.mapBranch_branch_self]
      simp [hutx]

/-- A link that is not UP comes UP: its counts cleared, grants issued, and the transmitter IDLE for the arbiter (R121). -/
theorem State.Live.linkUp {b : Fin 6} {R' : Set (Fin 6)} (h : s.Live R Q) (hR : R ⊆ R' ∪ {b})
    (hl : (s.branch b).link ≠ .up) (htx : (s.branch b).tx = .aligning) (hline : (s.branch b).line = .present) :
    (s.linkUp b).Live R' Q := by
  have hraised := State.Live.offerBranch
    (State.Live.raise (f := fun br => { br with link := .up, aligns := 0, errors := 0 }) h hl htx htx rfl) b .branchUp 0
  have hbr : ((s.mapBranch b (fun br => { br with link := .up, aligns := 0, errors := 0 })).offerBranch b .branchUp 0).branch b =
      { s.branch b with link := .up, aligns := 0, errors := 0 } :=
    s.mapBranch_branch_self b fun br => { br with link := .up, aligns := 0, errors := 0 }
  obtain ⟨hgranted, hstep, htxGranted⟩ := hraised.grantRising (b := b) (by rw [hbr]; exact htx)
  have hbranch := hstep.branch b
  unfold State.linkUp
  simp only
  generalize ((s.mapBranch b (fun br => { br with link := .up, aligns := 0, errors := 0 })).offerBranch b .branchUp 0).overStreams
    (State.streamsOf _ b) State.issueGrants = u at *
  have hlinkU : (u.branch b).link = .up := by rw [hbranch.link, hbr]
  have hidle : (u.mapBranch b (fun br => { br with tx := .idle })).Live R' (Q ∪ {b}) := by
    refine LiveBut.at_port_exec hgranted b (by simp) rfl
      (hgranted.executing.of_view (fun _ => rfl) fun _ _ => ⟨rfl, fun _ => id⟩) (fun _ => rfl)
      (fun c hc => u.mapBranch_branch_ne hc _) (fun _ _ => rfl) (fun n hn _ => hgranted.streams n hn)
      ((hgranted.ports b).idle rfl ?_ ?_ ?_ (fun ch n hn => ⟨rfl, ?_⟩) fun ch n hn k hk => ?_)
      (Set.union_subset hR Set.subset_union_right) (fun _ => ?_) (Set.subset_union_left.trans Set.subset_union_left)
      fun hb => absurd (Or.inr rfl) hb
    · rw [u.mapBranch_branch_self]; exact hlinkU
    · rw [u.mapBranch_branch_self]
    · rw [u.mapBranch_branch_self]
    · by_contra hne
      have := ((hgranted.ports b).grants ch (by simp)).inFlight n hn (Nat.pos_of_ne_zero hne)
      rw [htxGranted] at this
      exact absurd this (by simp [Transmitter.grants])
    · obtain ⟨f, hf, -⟩ := ((hgranted.ports b).sends ch).draining n hn k hk
      rw [htxGranted] at hf
      exact absurd hf (by simp [Transmitter.frame?])
    · rw [u.mapBranch_branch_self]
      simp [Branch.Status, hlinkU, hbranch.aligns, hbranch.errors, hbranch.line, hline, Config.alignsToUp,
        Config.badChecksToLoss]
  refine (hidle.arbitrate b).mono le_rfl ?_
  rintro c ⟨hc | hc, hne⟩
  · exact hc
  · exact absurd hc hne

/-! ### The loss of UP (R122, R123) -/

/-- What a loss leaves of a stream keeps its laws (R45). -/
theorem Stream.Lawful.lose {st : Stream} (h : st.Lawful) : st.lose.Lawful := by
  obtain ⟨hsides, horder, hlive⟩ := h
  have hmap := Side.lose_sideMap st.entry
  have hlawful : (st.mapSides (fun sd => sd.lose st.entry.dir)).Lawful :=
    ⟨hsides.mapSides hmap, horder.mapSides hsides hmap fun hup k hk => by simp [Side.lose, hup, hk],
      hlive.mapSides hsides hmap⟩
  refine hlawful.counts (q := 0) (i := 0) (d := 0) (c := 0) (fun _ => ⟨rfl, rfl, rfl, rfl⟩) (fun _ => rfl)
    (fun _ => ⟨rfl, rfl, rfl⟩) fun hd he => ?_
  have := hlawful.2.2.room hd he
  omega

theorem Stream.lose_side (st : Stream) (k : Fin 2) : st.lose.side k = (st.side k).lose st.entry.dir := by
  unfold Stream.side; split <;> rfl

/-- A loss leaves no DRAINING side of a DOWN stream (R45). -/
theorem Stream.lose_draining {st : Stream} (hd : st.entry.dir = .down) (k : Fin 2) : (st.lose.side k).state ≠ .draining := by
  rw [Stream.lose_side, hd]
  simp only [Side.lose]
  split
  · split <;> simp
  · split
    · next hcl => simp [hcl]
    · next hne _ => exact hne

/-- What the losses of several streams leave of the parts that the ports' laws speak of: their sides and counts as
`Stream.lose` says; and when the exchange still waits, it waits for a marked side of none of them (R147). -/
structure State.Lost (s t : State) (ns : List (Fin 32)) : Prop where
  branches : t.branches = s.branches
  routes : t.routes = s.routes
  streams : ∀ m, t.stream m = if m ∈ ns then (s.stream m).lose else s.stream m
  mgmt : t.mgmt.exchange = .executing → t.mgmt = s.mgmt ∧
    ∀ n ∈ ns, s.mgmt.targets n = true → (s.stream n).entry.dir = .down → (s.stream n).marked = false

theorem State.loseStream_lost (s : State) (n : Fin 32) : s.Lost (s.loseStream n) [n] := by
  have hrest : ∀ u : State, (u.resetStreamEnd n).branches = u.branches ∧ (u.resetStreamEnd n).routes = u.routes ∧
      (u.resetStreamEnd n).streams = u.streams := by
    intro u
    rcases u.resetStreamEnd_cases n with ⟨-, -, h⟩ | h <;> rw [h] <;> exact ⟨rfl, rfl, rfl⟩
  have hstream : ∀ m, (s.mapStream n Stream.lose).stream m = if m ∈ [n] then (s.stream m).lose else s.stream m := by
    intro m
    by_cases hm : m = n
    · subst hm; simp
    · simp [hm, State.mapStream_stream_ne]
  unfold State.loseStream
  simp only
  split
  · obtain ⟨hbranches, hroutes, hstreams⟩ := hrest (s.mapStream n Stream.lose)
    refine ⟨hbranches, hroutes, fun m => ?_, fun he => ?_⟩
    · rw [← hstream, State.stream, hstreams]; rfl
    · unfold State.resetStreamEnd at he ⊢
      split at he
      · exact absurd he (by simp)
      · next hnot =>
        rw [if_neg hnot]
        refine ⟨rfl, fun m hm htarget => ?_⟩
        obtain rfl : m = n := by simpa using hm
        simp only [Bool.and_eq_true, decide_eq_true_eq, not_and] at hnot
        exact absurd htarget (hnot he)
  · next hnot =>
    refine ⟨rfl, rfl, hstream, fun _ => ⟨rfl, fun m hm _ hdir => ?_⟩⟩
    obtain rfl : m = n := by simpa using hm
    simpa [hdir] using hnot

theorem State.loseStreams_lost (ns : List (Fin 32)) (hn : ns.Nodup) :
    ∀ s : State, s.Lost (s.overStreams ns State.loseStream) ns := by
  induction ns with
  | nil => exact fun s => ⟨rfl, rfl, by simp, fun _ => ⟨rfl, by simp⟩⟩
  | cons n ns ih =>
    intro s
    obtain ⟨hfresh, hn⟩ := List.nodup_cons.mp hn
    have hfirst := s.loseStream_lost n
    have hrest := ih hn (s.loseStream n)
    rw [State.overStreams_cons]
    refine ⟨hrest.branches.trans hfirst.branches, hrest.routes.trans hfirst.routes, fun m => ?_, fun he => ?_⟩
    · rw [hrest.streams, hfirst.streams]
      by_cases hm : m = n
      · subst hm; simp [hfresh]
      · simp [hm]
    · obtain ⟨hsame, hothers⟩ := hrest.mgmt he
      obtain ⟨hsame', hself⟩ := hfirst.mgmt (hsame ▸ he)
      refine ⟨hsame.trans hsame', fun m hm htarget hdir => ?_⟩
      by_cases hmn : m = n
      · subst hmn; exact hself m (by simp) htarget hdir
      · have := hothers m ((List.mem_cons.mp hm).resolve_left hmn) (hsame' ▸ htarget)
        rw [hfirst.streams, if_neg (by simpa using hmn)] at this
        exact this hdir

/-- The loss of a link: every stream of the branch loses its grants, its credits and its frame, the queue is emptied, and an
exchange that waits for a side of the branch ends (R123). -/
theorem State.Live.loseLink {b : Fin 6} {R' : Set (Fin 6)} (h : s.Live R Q) (hR : R ⊆ R' ∪ {b}) {link : LinkState}
    {aligns : Nat} (d : Byte) (hl : link ≠ .up)
    (hs : Branch.Status { s.branch b with
      link := link, aligns := aligns, errors := 0, queue := [], tx := if link = .disabled then .silent else .aligning }) :
    (s.loseLink b link aligns d).Live R' Q := by
  unfold State.loseLink
  simp only
  refine State.Live.offerBranch ?_ b _ d
  have hr := h.table.2.2
  generalize hs1 : s.mapBranch b (fun br => { br with
    link := link, aligns := aligns, errors := 0, queue := [], tx := if link = .disabled then .silent else .aligning }) = s1
  have hlost := State.loseStreams_lost (s1.streamsOf b) (s1.streamsOf_nodup b) s1
  generalize s1.overStreams (s1.streamsOf b) State.loseStream = t at hlost ⊢
  have hmem : ∀ n, n ∈ s1.streamsOf b ↔ s.Routed b n := by
    intro n; rw [← hr.mem_streamsOf b n, ← hs1]; rfl
  have hstream : ∀ n, s.Routed b n → t.stream n = (s.stream n).lose := by
    intro n hn; rw [hlost.streams, if_pos ((hmem n).mpr hn), ← hs1]; rfl
  have hother : ∀ n, ¬ s.Routed b n → t.stream n = s.stream n := by
    intro n hn; rw [hlost.streams, if_neg fun hm => hn ((hmem n).mp hm), ← hs1]; rfl
  have hroutes : t.routes = s.routes := by rw [hlost.routes, ← hs1]; rfl
  have hroute : ∀ k, t.route k = s.route k := fun k => by simp only [State.route, hroutes]
  have hbranches : ∀ c, t.branch c = s1.branch c := fun c => by simp only [State.branch, hlost.branches]
  have hbr : t.branch b = { s.branch b with
      link := link, aligns := aligns, errors := 0, queue := [], tx := if link = .disabled then .silent else .aligning } := by
    rw [hbranches, ← hs1, s.mapBranch_branch_self]
  have hentry : ∀ n, (t.stream n).entry = (s.stream n).entry := by
    intro n
    by_cases hn : s.Routed b n
    · rw [hstream n hn]; rfl
    · rw [hother n hn]
  have hport : t.PortBut none b := by
    refine .quiet (by rw [hbr]) (by rw [hbr]; exact Transmitter.frame?_of_quiet (hs.not_busy hl)) (fun ch n hn => ?_)
      fun ch n hn => ?_ <;> rw [hroute] at hn <;> rw [hstream n (State.routed_of_route hn)]
    · exact ⟨rfl, rfl, fun _ => rfl⟩
    · exact ⟨fun _ => rfl, Stream.lose_draining (hr.dir hn)⟩
  have hexecuting : t.ExecutingLaw := by
    intro he
    obtain ⟨hsame, hunmarked⟩ := hlost.mgmt he
    have hmgmt : s1.mgmt = s.mgmt := by rw [← hs1]; rfl
    rw [hsame, hmgmt] at he ⊢
    obtain ⟨n, hn0, htarget, hen, hdir, hmark⟩ := h.executing he
    have hnr : ¬ s.Routed b n := by
      intro hn
      have := hunmarked n ((hmem n).mpr hn) (hmgmt ▸ htarget)
      rw [← hs1] at this
      exact absurd (this hdir) (by simpa using hmark)
    exact ⟨n, hn0, htarget, by rw [hother n hnr]; exact ⟨hen, hdir, hmark⟩⟩
  refine LiveBut.at_port_exec h b (by simp) hroutes hexecuting hentry (fun c hc => ?_) hother (fun n hn hrt => ?_) hport hR
    (fun _ => by rw [hbr]; exact hs) Set.subset_union_left fun _ => hport.settled_of_not_up (by rw [hbr]; exact hl)
  · rw [hbranches, ← hs1, State.mapBranch_branch_ne _ hc]
  · rw [hstream n hrt]; exact (h.streams n hn).lose

end Links

end Sys2Proof.Machine
end

