-- ==== Sys2Proof/Proofs/BranchCommands.lean ====
section
/-! The commands of the branches keep the laws: line reports, ALIGN and bad checks on the links, frames received (R125 to
R128), and the ends of transmissions (R134, R136, R38). -/

namespace Sys2Proof.Machine

section Commands

variable {R Q : Set (Fin 6)} {s : State}

/-! ### Links (R119 to R124) -/

theorem State.Live.branchSignalPresent (h : s.Live ∅ Q) (b : Fin 6) :
    (s.mapBranch b (fun br => if br.link = .down then { br with line := .present, link := .training, aligns := 0 }
      else { br with line := .present })).Live ∅ Q := by
  have hstatus := h.status b (by simp)
  obtain ⟨hsilent, haligning, haligns, hfour, herrors, hthree, habsent, hpresent⟩ := hstatus
  by_cases hl : (s.branch b).link = .down
  · have htx : (s.branch b).tx = .aligning := haligning.mp (.inl hl)
    refine h.mapDownLink (by simp [hl]) (by rw [htx]; rfl) (by simp [hl]) (by simp [hl]) Set.subset_union_left ?_
    simp [Branch.Status, hl, htx, Config.alignsToUp, Config.badChecksToLoss,
      herrors (by simp [hl] : (s.branch b).link ≠ .up)]
  · refine h.mapStatus (by simp only [hl, if_false]; exact ⟨rfl, rfl, rfl⟩) Set.subset_union_left fun _ => ?_
    simp only [hl, if_false]
    exact ⟨hsilent, by simpa [hl] using haligning, haligns, hfour, herrors, hthree, fun hd => absurd hd hl, fun _ => rfl⟩

/-- The status of a link that is lost: its counts cleared, its transmitter as its state asks (R119, R122). -/
theorem Branch.Status.lost {br : Branch} (h : br.Status) (hl : br.link = .up) {link : LinkState} {aligns : Nat}
    (hlink : link = .disabled ∧ aligns = 0 ∨ link = .training ∧ aligns ≤ 1) :
    Branch.Status { br with
      link := link, aligns := aligns, errors := 0, queue := [], tx := if link = .disabled then .silent else .aligning } := by
  obtain ⟨-, -, -, -, -, -, -, hpresent⟩ := h
  have hline := hpresent (.inr hl)
  rcases hlink with ⟨rfl, rfl⟩ | ⟨rfl, ha⟩
  · simp [Branch.Status, Config.alignsToUp, Config.badChecksToLoss]
  · simp only [Branch.Status, hline, Config.alignsToUp, Config.badChecksToLoss]
    simp
    omega

theorem State.Live.branchSignalLost (h : s.Live ∅ Q) (b : Fin 6) :
    (match (s.branch b).link with
      | .up => (s.mapBranch b (fun br => { br with line := .absent })).loseLink b .down 0 3
      | .training => (s.mapBranch b (fun br => { br with line := .absent })).mapBranch b
          (fun br => { br with link := .down, aligns := 0 })
      | .down => s.mapBranch b (fun br => { br with line := .absent })
      | .disabled => s.mapBranch b (fun br => { br with line := .absent })).Live ∅ Q := by
  obtain ⟨hsilent, haligning, haligns, hfour, herrors, hthree, habsent, hpresent⟩ := h.status b (by simp)
  have hdark : ∀ R', (b ∉ R' → Branch.Status { s.branch b with line := .absent }) →
      (s.mapBranch b (fun br => { br with line := .absent })).Live R' Q :=
    fun R' hs => h.mapStatus ⟨rfl, rfl, rfl⟩ (Set.empty_subset _) hs
  have hrising := hdark {b} fun hb => absurd rfl hb
  have hbr : (s.mapBranch b (fun br => { br with line := .absent })).branch b = { s.branch b with line := .absent } :=
    s.mapBranch_branch_self b fun br => { br with line := .absent }
  cases hl : (s.branch b).link with
  | up =>
    refine State.Live.loseLink hrising (by simp) 3 (by simp) ?_
    rw [hbr]
    simp [Branch.Status, Config.alignsToUp, Config.badChecksToLoss]
  | training =>
    have htx : (s.branch b).tx = .aligning := haligning.mp (.inr hl)
    refine State.Live.mapDownLink hrising ?_ ?_ (by simp) rfl (by simp) ?_ <;> rw [hbr]
    · simp [hl]
    · simp only [htx]; rfl
    · simp [Branch.Status, htx, Config.alignsToUp, Config.badChecksToLoss,
        herrors (by simp [hl] : (s.branch b).link ≠ .up)]
  | down =>
    refine hdark ∅ fun _ => ?_
    exact ⟨hsilent, haligning, haligns, hfour, herrors, hthree, fun _ => rfl, by simp [hl]⟩
  | disabled =>
    refine hdark ∅ fun _ => ?_
    exact ⟨hsilent, haligning, haligns, hfour, herrors, hthree, fun _ => rfl, by simp [hl]⟩

theorem State.Live.frameBadCheck (h : s.Live ∅ Q) (b : Fin 6) :
    (match (s.branch b).link with
      | .up =>
        let s1 := s.mapBranch b (fun br =>
          { br with errors := br.errors + 1,
                    counters := { br.counters with checkErrors := satInc br.counters.checkErrors } })
        if Config.badChecksToLoss ≤ (s1.branch b).errors then s1.loseLink b .training 0 2 else s1
      | .training =>
        s.mapBranch b (fun br =>
          { br with aligns := 0, counters := { br.counters with checkErrors := satInc br.counters.checkErrors } })
      | .down => s
      | .disabled => s).Live ∅ Q := by
  have hstatus := h.status b (by simp)
  have hall := hstatus
  obtain ⟨hsilent, haligning, haligns, hfour, herrors, hthree, habsent, hpresent⟩ := hall
  cases hl : (s.branch b).link with
  | up =>
    simp only [State.mapBranch_branch_self]
    split
    · refine State.Live.loseLink (h.mapStatus (R' := {b}) ⟨rfl, rfl, rfl⟩ (Set.empty_subset _) fun hb => absurd rfl hb)
        (by simp) 2 (by simp) ?_
      rw [State.mapBranch_branch_self]
      exact hstatus.lost hl (.inr ⟨rfl, Nat.zero_le 1⟩)
    · next hfew =>
      refine h.mapStatus ⟨rfl, rfl, rfl⟩ Set.subset_union_left fun _ => ?_
      exact ⟨hsilent, haligning, haligns, hfour, fun hne => absurd hl hne, Nat.lt_of_not_le hfew, habsent, hpresent⟩
  | training =>
    refine h.mapStatus ⟨rfl, rfl, rfl⟩ Set.subset_union_left fun _ => ?_
    exact ⟨hsilent, haligning, fun _ => rfl, by simp [Config.alignsToUp], herrors, hthree, habsent, hpresent⟩
  | down => exact h
  | disabled => exact h

/-- A good frame: its count, and the check errors or the ALIGN count cleared (R121, R125). -/
theorem State.Live.goodFrame (h : s.Live ∅ Q) (b : Fin 6) {handle : State → State}
    (hh : ∀ u : State, u.Live ∅ Q → (u.branch b).link = .up → (handle u).Live ∅ Q) : (s.goodFrame b handle).Live ∅ Q := by
  obtain ⟨hsilent, haligning, haligns, hfour, herrors, hthree, habsent, hpresent⟩ := h.status b (by simp)
  unfold State.goodFrame
  split
  · next hl =>
    refine hh _ (State.Live.mapBranch h ⟨⟨rfl, rfl, rfl⟩, rfl, rfl, Nat.zero_le _⟩) ?_
    rw [State.mapBranch_branch_self]; exact hl
  · refine h.mapStatus ⟨rfl, rfl, rfl⟩ Set.subset_union_left fun _ => ?_
    exact ⟨hsilent, haligning, fun _ => rfl, by simp [Config.alignsToUp], herrors, hthree, habsent, hpresent⟩
  · exact h
  · exact h

theorem State.Live.align (h : s.Live ∅ Q) (b : Fin 6) :
    (match (s.branch b).link with
      | .training =>
        let s1 := s.mapBranch b (fun br =>
          { br with aligns := br.aligns + 1, counters := { br.counters with good := br.counters.good + 1 } })
        if Config.alignsToUp ≤ (s1.branch b).aligns then s1.linkUp b else s1
      | .up => s.goodFrame b (fun s => s.loseLink b .training 1 1)
      | .down => s
      | .disabled => s).Live ∅ Q := by
  obtain ⟨hsilent, haligning, haligns, hfour, herrors, hthree, habsent, hpresent⟩ := h.status b (by simp)
  cases hl : (s.branch b).link with
  | training =>
    simp only [State.mapBranch_branch_self]
    split
    · refine State.Live.linkUp (h.mapStatus (R' := {b}) ⟨rfl, rfl, rfl⟩ (Set.empty_subset _) fun hb => absurd rfl hb)
        (by simp) ?_ ?_ ?_ <;> rw [State.mapBranch_branch_self]
      · simp [hl]
      · exact haligning.mp (.inr hl)
      · exact hpresent (.inl hl)
    · next hfew =>
      refine h.mapStatus ⟨rfl, rfl, rfl⟩ Set.subset_union_left fun _ => ?_
      exact ⟨hsilent, haligning, fun hne => absurd hl hne, Nat.lt_of_not_le hfew, herrors, hthree, habsent, hpresent⟩
  | up =>
    exact h.goodFrame b fun u hu hul => State.Live.loseLink hu (by simp) 1 (by simp)
      ((hu.status b (by simp)).lost hul (.inr ⟨rfl, le_rfl⟩))
  | down => exact h
  | disabled => exact h

/-- The commit of a BRANCH-CONTROL (R124). -/
theorem State.Live.branchCommit (h : s.Live ∅ Q) (b : Fin 6) (a : BranchAction) : (s.branchCommit b a).Live ∅ Q := by
  have hstatus := h.status b (by simp)
  have hall := hstatus
  obtain ⟨hsilent, haligning, haligns, hfour, herrors, hthree, habsent, hpresent⟩ := hall
  have hquiet : (s.branch b).link ≠ .up → (s.branch b).tx.frame? = none :=
    fun hl => Transmitter.frame?_of_quiet (hstatus.not_busy hl)
  have hdisable : (s.branch b).link ≠ .up →
      (s.mapBranch b (fun br => { br with link := .disabled, aligns := 0, tx := .silent })).Live ∅ Q := fun hl =>
    h.mapDownLink hl (hquiet hl) (by simp) rfl Set.subset_union_left
      (by simp [Branch.Status, Config.alignsToUp, Config.badChecksToLoss, herrors hl])
  unfold State.branchCommit
  split
  · next hl => exact State.Live.loseLink h (by simp) 4 (by simp) (hstatus.lost hl (.inl ⟨rfl, rfl⟩))
  · next hl => exact hdisable (by simp [hl])
  · next hl => exact hdisable (by simp [hl])
  · exact h
  · next hl =>
    have hne : (s.branch b).link ≠ .up := by simp [hl]
    refine h.mapDownLink hne (hquiet hne) ?_ rfl Set.subset_union_left ?_
    · simp only; split <;> simp
    · cases hline : (s.branch b).line <;> simp [Branch.Status, Config.alignsToUp, Config.badChecksToLoss, herrors hne]
  · exact h
  · exact h
  · exact h
  · next hl => exact State.Live.loseLink h (by simp) 5 (by simp) (hstatus.lost hl (.inr ⟨rfl, Nat.zero_le 1⟩))
  · refine h.mapStatus ⟨rfl, rfl, rfl⟩ Set.subset_union_left fun _ => ?_
    exact ⟨hsilent, haligning, fun _ => rfl, by simp [Config.alignsToUp], herrors, hthree, habsent, hpresent⟩
  · exact h
  · exact h

/-! ### DATA frames (R126) -/

theorem State.Live.dropOversize (h : s.Live R Q) (b : Fin 6) (n : Option (Fin 32)) : (s.dropOversize b n).Live R Q := by
  unfold State.dropOversize
  simp only
  split
  · next n => exact State.Live.offerStream (State.Live.countStream (State.Live.countBranch h b _) n _) n _ _
  · exact State.Live.offerBranch (State.Live.countBranch h b _) b _ _

theorem State.Live.dropNoRoom (h : s.Live R Q) (b : Fin 6) (n : Fin 32) : (s.dropNoRoom b n).Live R Q :=
  State.Live.offerStream (State.Live.countStream (State.Live.countBranch h b _) n _) n _ _

theorem State.Live.dropNoGrant (h : s.Live R Q) (b : Fin 6) (n : Fin 32) : (s.dropNoGrant b n).Live R Q :=
  State.Live.offerStream (State.Live.countStream (State.Live.countBranch h b _) n _) n _ _

/-- No cause to close an UP fill: the stream is continuous (R32). -/
theorem upCause_eq_none {e : Entry} {last full : Bool} (h : upCause e last full = none) : e.continuous = true := by
  unfold upCause at h
  split_ifs at h with h1 h2 h3
  simpa using h2

/-- A frame appended to a side that a fill can go into, with the close rules of R32. -/
theorem State.Live.fillUp {n : Fin 32} (h : s.Live R Q) (hn : n ≠ 0) (hup : (s.stream n).entry.dir = .up) {k : Fin 2}
    (hk : (s.stream n).Fillable k) {p : List Byte} (hp : ((s.stream n).side k).fill + p.length ≤ (s.stream n).entry.capacity)
    (hroom : (s.stream n).grants + ((s.stream n).fill k p.length).notFree ≤ (s.stream n).entry.sideCount) (last : Bool) :
    (s.fillUp n k last p).Live R Q := by
  have hfits : p.length ≤ (s.stream n).space k := by rw [Stream.space]; omega
  unfold State.fillUp
  rw [State.fillSide_fits hfits, State.mapStream_mapStream]
  refine State.Live.mapStream (State.Live.setPool h _) ?_ (fun _ => ?_) ?_ <;> rw [State.setPool_stream] <;>
    unfold Stream.closeUp
  · exact hk.view p.length _
  · refine (h.streams n hn).fill_closeBy hk hp (fun hnone => ⟨?_, fun hd => absurd (hup.symm.trans hd) (by simp)⟩) fun _ => hroom
    have := upCause_eq_none hnone
    rwa [Stream.fill_eq_put, Stream.put_entry] at this
  · exact .of_up hup

/-- One frame consumes one delivered grant (R129). -/
def Stream.consumed (st : Stream) : Stream := { st with delivered := st.delivered - 1 }

theorem Stream.Lawful.consumed {st : Stream} (h : st.Lawful) : st.consumed.Lawful := by
  obtain ⟨hsides, horder, hseq, hburst, hserved, hoff, hup, hdown, hroom⟩ := h
  refine ⟨hsides, horder, hseq, hburst, hserved, fun he => ?_, hup, fun hd => ?_, fun hd he => ?_⟩
  · obtain ⟨h1, h2, h3, h4⟩ := hoff he
    exact ⟨h1, h2, by simp [Stream.consumed, h3], h4⟩
  · obtain ⟨h1, h2, h3⟩ := hdown hd
    exact ⟨h1, h2, by simp [Stream.consumed, h3]⟩
  · refine le_trans (Nat.add_le_add_right ?_ _) (hroom hd he)
    simp only [Stream.grants, Stream.consumed]
    omega

theorem Stream.consumed_grants {st : Stream} (h : 1 ≤ st.delivered) : st.consumed.grants + 1 = st.grants := by
  simp only [Stream.grants, Stream.consumed]
  omega

/-- A side that leaves FREE by a fill makes one more side that is not FREE. -/
theorem Stream.fill_notFree (st : Stream) (k : Fin 2) (len : Nat) : (st.fill k len).notFree ≤ st.notFree + 1 := by
  refine Stream.notFree_succ (by rw [Stream.fill_eq_put]; simp) k fun j hjk hj => ?_
  rw [Stream.fill_eq_put, Stream.put_side, if_neg hjk]
  exact hj

/-- A fill of a FILLING side makes none. -/
theorem Stream.fill_notFree_filling {st : Stream} {k : Fin 2} (hk : (st.side k).state = .filling) (len : Nat) :
    (st.fill k len).notFree ≤ st.notFree := by
  refine Stream.notFree_mono (by rw [Stream.fill_eq_put]; simp) fun j hj => ?_
  rw [Stream.fill_eq_put, Stream.put_side]
  split
  · next hjk => subst hjk; rw [hk] at hj; exact absurd hj (by simp)
  · exact hj

/-- The frame limit of an enabled UP stream is at most its capacity (R12). -/
theorem Entry.geometry_up {e : Entry} (h : e.geometryOk = true) (hup : e.dir = .up) :
    e.frameLimit.toNat ≤ e.capacity := by
  cases hc : e.cls <;> simp only [Entry.geometryOk, hup, hc, Bool.and_eq_true, decide_eq_true_eq] at h
  · exact h.2
  · exact h.2.2

theorem State.Live.takeData (h : s.Live R Q) (b : Fin 6) (ch : Fin 8) (last : Bool) (p : List Byte) :
    (s.takeData b ch last p).Live R Q := by
  unfold State.takeData
  split
  · split
    · exact h.dropOversize b none
    · exact State.Live.countBranch h b _
  · next n hn =>
    obtain ⟨hn0, hen, -⟩ := (h.table.2.2.route_iff _ n).mp hn
    have hup : (s.stream n).entry.dir = .up := h.table.2.2.dir hn
    have hlaw := h.streams n hn0
    have hroom := hlaw.2.2.room hup hen
    simp only
    split
    · exact h.dropOversize b (some n)
    · next hlen =>
      have hlimit : p.length ≤ (s.stream n).entry.frameLimit.toNat := Nat.le_of_not_lt fun hlt => hlen (.inr hlt)
      split
      · next k hk =>
        split
        · next hfits =>
          have hfillable := hlaw.1.fillable_filling hk
          have hstate := (Stream.fillingSide?_eq_some hk).2
          obtain ⟨hlawful, -, -⟩ := (Stream.sidesLaw_iff _).mp hlaw.1
          obtain ⟨⟨hfill, -⟩, -⟩ := (Side.lawful_iff _ _).mp (hlawful k)
          exact h.fillUp hn0 hup hfillable (by rw [Stream.space] at hfits; omega)
            (le_trans (Nat.add_le_add_left (Stream.fill_notFree_filling hstate _) _) hroom) last
        · exact h.dropNoRoom b n
      · next hnone =>
        split
        · next k hk =>
          split
          · next hgrant =>
            have hconsumed : (s.mapStream n Stream.consumed).Live R Q :=
              h.mapStream (.of_up hup rfl rfl rfl (Nat.sub_le _ _) rfl) (fun _ => hlaw.consumed) fun _ hh => hh
            have hfillable := Stream.fillable_free hen (hlaw.1.none_filling hnone) hk
            have hempty := hlaw.1.free_fill (Stream.freeSide?_eq_some hk).2
            have hgrants := Stream.consumed_grants hgrant
            have hcapacity := Entry.geometry_up (h.entryOk hn0 hen).2 hup
            refine State.Live.fillUp (s := s.mapStream n Stream.consumed) hconsumed hn0 ?_ (k := k) ?_ ?_ ?_ last <;>
              rw [State.mapStream_stream_self]
            · exact hup
            · exact ⟨hfillable.enabled, hfillable.place, hfillable.state, hfillable.alone⟩
            · have hempty' : ((s.stream n).consumed.side k).fill = 0 := hempty
              rw [hempty', Nat.zero_add]
              exact hlimit.trans hcapacity
            · have hnotFree := (s.stream n).consumed.fill_notFree k p.length
              have hsame : (s.stream n).consumed.notFree = (s.stream n).notFree := rfl
              calc (s.stream n).consumed.grants + ((s.stream n).consumed.fill k p.length).notFree
                  ≤ (s.stream n).consumed.grants + ((s.stream n).notFree + 1) := Nat.add_le_add_left (hsame ▸ hnotFree) _
                _ = (s.stream n).grants + (s.stream n).notFree := by omega
                _ ≤ (s.stream n).entry.sideCount := hroom
          · exact h.dropNoGrant b n
        · exact h.dropNoGrant b n

/-! ### CREDIT frames (R128) -/

theorem State.Live.takeCredit (h : s.Live R Q) {b : Fin 6} (hl : (s.branch b).link = .up) (ch : Fin 8) (p : List Byte) :
    (s.takeCredit b ch p).Live R Q := by
  unfold State.takeCredit
  split
  · next count n hn =>
    have hr := h.table.2.2
    obtain ⟨hn0, hen, -⟩ := (hr.route_iff _ n).mp hn
    have hdir : (s.stream n).entry.dir = .down := hr.dir hn
    have hlaw := h.streams n hn0
    generalize hf : (fun st : Stream => { st with credits := min Config.maxCredits (st.credits + count.toNat) }) = f
    have hfst : f (s.stream n) =
        { s.stream n with credits := min Config.maxCredits ((s.stream n).credits + count.toNat) } := by rw [← hf]
    have hst : ∀ m, (s.mapStream n f).stream m = if m = n then f (s.stream n) else s.stream m := fun m => s.mapStream_stream n m f
    have hside : ∀ m j, ((s.mapStream n f).stream m).side j = (s.stream m).side j := by
      intro m j; rw [hst]; split
      · next hmn => rw [hfst, hmn]; rfl
      · rfl
    have hentry : ∀ m, ((s.mapStream n f).stream m).entry = (s.stream m).entry := by
      intro m; rw [hst]; split
      · next hmn => rw [hfst, hmn]
      · rfl
    have hup : ∀ c m, s.route (upKey b c) = some m → (s.mapStream n f).stream m = s.stream m := by
      intro c m hm
      rw [hst, if_neg]
      rintro rfl
      exact absurd ((hr.dir hm).symm.trans hdir) (by simp)
    have hport : (s.mapStream n f).PortBut none b := by
      refine ⟨(h.ports b).queue, (h.ports b).empty, fun c _ => ⟨((h.ports b).grants c (by simp)).mapped, fun m hm => ?_,
        fun m _ hne => absurd hl hne, fun m hm => ?_⟩, fun g hg => ?_, fun c => ⟨fun m _ hne => absurd hl hne, fun m hm j hj => ?_⟩⟩
      · rw [hup c m hm]; exact ((h.ports b).grants c (by simp)).queued m hm
      · rw [hup c m hm]; exact ((h.ports b).grants c (by simp)).inFlight m hm
      · rw [hside, hentry]; exact (h.ports b).frame g hg
      · exact ((h.ports b).sends c).draining m hm j (hside m j ▸ hj)
    have hcredited : (s.mapStream n f).Live R (Q ∪ {b}) := by
      refine LiveBut.at_port h b (by simp) rfl rfl hentry (fun m hm => ?_) (fun _ _ => rfl) (fun m hm => ?_)
        (fun m hm0 _ => ?_) hport (h.status b) (Set.subset_union_left.trans Set.subset_union_left)
        fun hb => absurd (Or.inr rfl) hb
      · rw [hst]; split
        · next hmn => rw [hfst, ← hmn]; exact hm
        · exact hm
      · rw [hst, if_neg]
        rintro rfl
        exact hm (State.routed_of_route hn)
      · rw [hst]; split
        · rw [hfst]
          exact hlaw.counts (fun he => absurd hen (by simp [he])) (fun hu => absurd (hdir.symm.trans hu) (by simp))
            hlaw.2.2.2.2.2.2.2.1 fun hu => absurd (hdir.symm.trans hu) (by simp)
        · exact h.streams m hm0
    refine (hcredited.arbitrate b).mono le_rfl ?_
    rintro c ⟨hc | hc, hne⟩
    · exact hc
    · exact absurd hc hne
  · exact State.Live.countBranch h b _

/-! ### The ends of transmissions (R134, R136, R38) -/

/-- The status of a port that is UP does not depend on the frame that it sends. -/
theorem Branch.Status.sent {br : Branch} (h : br.Status) (hl : br.link = .up) (c : BranchCounters) :
    Branch.Status { br with tx := .idle, counters := c } := by
  obtain ⟨-, -, haligns, hfour, herrors, hthree, habsent, hpresent⟩ := h
  exact ⟨by simp [hl], by simp [hl], haligns, hfour, herrors, hthree, habsent, hpresent⟩

/-- A port that transmits a frame is UP. -/
theorem Branch.Status.busy_up {br : Branch} (h : br.Status) {f : TxFrame} (htx : br.tx = .busy f) : br.link = .up := by
  by_contra hl
  rcases h.not_busy hl with h | h <;> rw [htx] at h <;> exact absurd h (by simp)

/-- A transmission ends: `u` is what it has left of the streams of the port and of the exchange. -/
theorem State.Live.txDone {u : State} {b : Fin 6} {f : TxFrame} (h : s.Live ∅ Q) (htx : (s.branch b).tx = .busy f)
    (hroutes : u.routes = s.routes) (hbranches : u.branches = s.branches) (hexecuting : u.ExecutingLaw)
    (hentry : ∀ n, (u.stream n).entry = (s.stream n).entry) (hstream : ∀ n, ¬ s.Routed b n → u.stream n = s.stream n)
    (hlawful : ∀ n, n ≠ 0 → s.Routed b n → (u.stream n).Lawful)
    (hup : ∀ ch n, s.route (upKey b ch) = some n →
      (u.stream n).queued = (s.stream n).queued ∧ (u.stream n).inFlight = 0)
    (hdown : ∀ ch n, s.route (downKey b ch) = some n → ∀ k, ((u.stream n).side k).state ≠ .draining) :
    (u.txDone b).Live ∅ Q := by
  have hstatus := h.status b (by simp)
  have hl := hstatus.busy_up htx
  have hbranch : ∀ c, u.branch c = s.branch c := fun c => by simp only [State.branch, hbranches]
  unfold State.txDone
  have hbr : (u.mapBranch b (fun br =>
      { br with tx := .idle, counters := { br.counters with sent := br.counters.sent + 1 } })).branch b =
        { s.branch b with
          tx := .idle, counters := { (s.branch b).counters with sent := (s.branch b).counters.sent + 1 } } := by
    rw [u.mapBranch_branch_self, hbranch]
  generalize ht : u.mapBranch b (fun br =>
    { br with tx := .idle, counters := { br.counters with sent := br.counters.sent + 1 } }) = t at hbr ⊢
  have htstream : ∀ n, t.stream n = u.stream n := fun n => by rw [← ht]; rfl
  have htroutes : t.routes = s.routes := by rw [← ht]; exact hroutes
  have hport : t.PortBut none b := by
    refine (h.ports b).idle htroutes (by rw [hbr]; exact hl) (by rw [hbr]) (by rw [hbr]) ?_ ?_ <;> simp only [htstream]
    · exact hup
    · exact hdown
  have hidle : t.Live ∅ (Q ∪ {b}) := by
    refine LiveBut.at_port_exec h b (by simp) htroutes (by rw [← ht]; exact hexecuting) (fun n => by rw [htstream]; exact hentry n)
      (fun c hc => ?_) (fun n hn => by rw [htstream]; exact hstream n hn) (fun n hn hrt => by rw [htstream]; exact hlawful n hn hrt)
      hport Set.subset_union_left (fun _ => by rw [hbr]; exact hstatus.sent hl _)
      (Set.subset_union_left.trans Set.subset_union_left) fun hb => absurd (Or.inr rfl) hb
    rw [← ht, State.mapBranch_branch_ne _ hc, hbranch]
  refine (hidle.arbitrate b).mono le_rfl ?_
  rintro c ⟨hc | hc, hne⟩
  · exact hc
  · exact absurd hc hne

/-- While the frame of one kind is in transmission, what the other kinds would hold is absent. -/
theorem State.PortBut.inFlight_zero {b : Fin 6} (h : s.PortBut none b) {ch : Fin 8} {n : Fin 32}
    (hn : s.route (upKey b ch) = some n) (htx : (s.branch b).tx.grants ch = none) : (s.stream n).inFlight = 0 := by
  by_contra hne
  have := (h.grants ch (by simp)).inFlight n hn (Nat.pos_of_ne_zero hne)
  rw [htx] at this
  exact absurd this (by simp)

theorem State.PortBut.not_draining {b : Fin 6} (h : s.PortBut none b) {ch : Fin 8} {n : Fin 32}
    (hn : s.route (downKey b ch) = some n) (htx : (s.branch b).tx.frame? = none) (k : Fin 2) :
    ((s.stream n).side k).state ≠ .draining := by
  intro hk
  obtain ⟨f, hf, -⟩ := (h.sends ch).draining n hn k hk
  rw [htx] at hf
  exact absurd hf (by simp)

/-- The end of a REVOKE frame. -/
theorem State.Live.revokeEnd {b : Fin 6} {c : Fin 8} {dir : Dir} (h : s.Live ∅ Q)
    (htx : (s.branch b).tx = .busy (.revoke c dir)) : (s.txDone b).Live ∅ Q :=
  h.txDone htx rfl rfl h.executing (fun _ => rfl) (fun _ _ => rfl) (fun n hn _ => h.streams n hn)
    (fun ch n hn => ⟨rfl, (h.ports b).inFlight_zero hn (by rw [htx]; rfl)⟩)
    fun ch n hn => (h.ports b).not_draining hn (by rw [htx]; rfl)

/-- The end of a GRANT frame: its grants are delivered (R129, R134). -/
theorem State.Live.grantEnd {b : Fin 6} {c : Fin 8} {count capacity : Nat} (h : s.Live ∅ Q)
    (htx : (s.branch b).tx = .busy (.grant c count capacity)) :
    ((s.mapUpStream b c (fun st => { st with delivered := st.delivered + st.inFlight, inFlight := 0 })).txDone b).Live ∅ Q := by
  have hr := h.table.2.2
  have hother : ∀ ch, ch ≠ c → (s.branch b).tx.grants ch = none := by
    intro ch hch; rw [htx]; simp [Transmitter.grants, Ne.symm hch]
  have hdown : ∀ ch n, s.route (downKey b ch) = some n → ∀ k, ((s.stream n).side k).state ≠ .draining :=
    fun ch n hn => (h.ports b).not_draining hn (by rw [htx]; rfl)
  unfold State.mapUpStream
  split
  · next n hn =>
    obtain ⟨hn0, hen, -⟩ := (hr.route_iff _ n).mp hn
    have hdir : (s.stream n).entry.dir = .up := hr.dir hn
    have hlaw := h.streams n hn0
    have hst : ∀ m, (s.mapStream n (fun st => { st with delivered := st.delivered + st.inFlight, inFlight := 0 })).stream m =
        if m = n then { s.stream n with delivered := (s.stream n).delivered + (s.stream n).inFlight, inFlight := 0 }
        else s.stream m := fun m => s.mapStream_stream n m fun st => { st with delivered := st.delivered + st.inFlight, inFlight := 0 }
    refine h.txDone htx rfl rfl (h.executing.of_view (fun _ => rfl) fun m _ => ?_) (fun m => ?_) (fun m hm => ?_)
      (fun m hm0 _ => ?_) (fun ch m hm => ?_) fun ch m hm k => ?_ <;> rw [hst]
    · split
      · next hmn => subst hmn; exact ⟨rfl, fun _ => id⟩
      · exact ⟨rfl, fun _ => id⟩
    · split
      · next hmn => rw [hmn]
      · rfl
    · rw [if_neg]
      rintro rfl
      exact hm (State.routed_of_route hn)
    · split
      · have hroom := hlaw.2.2.room hdir hen
        simp only [Stream.grants] at hroom
        exact hlaw.counts (fun he => absurd hen (by simp [he])) hlaw.2.2.2.2.2.2.1 (fun hd => absurd (hdir.symm.trans hd) (by simp))
          fun _ _ => by omega
      · exact h.streams m hm0
    · split
      · next hmn => rw [hmn]; exact ⟨rfl, rfl⟩
      · next hmn =>
        refine ⟨rfl, (h.ports b).inFlight_zero hm (hother ch ?_)⟩
        rintro rfl
        exact hmn (Option.some.inj (hm.symm.trans hn))
    · rw [if_neg]
      · exact hdown ch m hm k
      · rintro rfl
        exact absurd ((hr.dir hm).symm.trans hdir) (by simp)
  · next hn =>
    refine h.txDone htx rfl rfl h.executing (fun _ => rfl) (fun _ _ => rfl) (fun n hn _ => h.streams n hn)
      (fun ch m hm => ⟨rfl, (h.ports b).inFlight_zero hm (hother ch ?_)⟩) hdown
    rintro rfl
    rw [hn] at hm
    exact absurd hm (by simp)

/-- The end of a data frame: its side is CLOSED in its place or FREE, and a RESET-STREAM that waits for it ends (R38, R147). -/
theorem State.Live.dataEnd {b : Fin 6} {last : Bool} {ch : Fin 8} {n : Fin 32} {k : Fin 2} {p : List Byte} (h : s.Live ∅ Q)
    (htx : (s.branch b).tx = .busy (.data last ch n k p)) :
    ((if ((s.stream n).side k).marked then (s.mapStream n (fun st => st.endFrame k p.length)).resetStreamEnd n
      else s.mapStream n (fun st => st.endFrame k p.length)).txDone b).Live ∅ Q := by
  have hr := h.table.2.2
  have hframe : (s.branch b).tx.frame? = some (ch, n, k, p) := by rw [htx]; rfl
  obtain ⟨hn, hdraining, hlen⟩ := (h.ports b).frame _ hframe
  simp only at hn hdraining hlen
  obtain ⟨hn0, hen, -⟩ := (hr.route_iff _ n).mp hn
  have hdir : (s.stream n).entry.dir = .down := hr.dir hn
  have hlaw := h.streams n hn0
  obtain ⟨hsides, horder, -⟩ := hlaw
  obtain ⟨hlawful, -, -⟩ := (Stream.sidesLaw_iff _).mp hsides
  obtain ⟨⟨-, hle, -⟩, -⟩ := (Side.lawful_iff _ _).mp (hlawful k)
  have hpacket : (s.stream n).packet = none := by
    cases hp : (s.stream n).packet with
    | none => rfl
    | some p => exact absurd ((horder.2.2.2.2 p hp).2.1.2.symm.trans hdir) (by simp)
  have hended : ((s.stream n).endFrame k p.length).Lawful := by
    refine (h.streams n hn0).advance hdraining hpacket (by omega) fun hdone => ?_
    simp only [Bool.or_eq_false_iff] at hdone
    exact hdone.1
  obtain ⟨sd, o, hput, hsd⟩ : ∃ sd o, (s.stream n).endFrame k p.length = (s.stream n).put k sd o ∧ sd.state ≠ .draining := by
    unfold Stream.endFrame Stream.advance
    split
    · exact ⟨_, _, rfl, by simp⟩
    · exact ⟨_, _, Stream.setSide_eq_put _ _ _, by simp⟩
  generalize hu : (if ((s.stream n).side k).marked then (s.mapStream n (fun st => st.endFrame k p.length)).resetStreamEnd n
    else s.mapStream n (fun st => st.endFrame k p.length)) = u
  have hparts : u.streams = (s.mapStream n (fun st => st.endFrame k p.length)).streams ∧ u.routes = s.routes ∧
      u.branches = s.branches := by
    rw [← hu]
    split
    · rcases (s.mapStream n (fun st => st.endFrame k p.length)).resetStreamEnd_cases n with ⟨-, -, he⟩ | he <;> rw [he] <;>
        exact ⟨rfl, rfl, rfl⟩
    · exact ⟨rfl, rfl, rfl⟩
  obtain ⟨hstreams, hroutes, hbranches⟩ := hparts
  have hst : ∀ m, u.stream m = if m = n then (s.stream n).put k sd o else s.stream m := by
    intro m
    rw [← hput, ← s.mapStream_stream n m (fun st => st.endFrame k p.length), State.stream, hstreams]
    rfl
  have hnone : ∀ j, (((s.stream n).put k sd o).side j).state ≠ .draining := by
    intro j
    rw [Stream.put_side]
    split
    · exact hsd
    · next hne => exact fun hj => hne (horder.draining_unique hj hdraining)
  refine h.txDone htx hroutes hbranches (fun he => ?_) (fun m => ?_) (fun m hm => ?_) (fun m hm0 _ => ?_) (fun c m hm => ?_)
    fun c m hm j => ?_
  · have hwaits : u.mgmt = s.mgmt ∧ (((s.stream n).side k).marked = true → s.mgmt.targets n = false) := by
      rw [← hu] at he ⊢
      split at he
      · next hmark =>
        rw [if_pos hmark]
        unfold State.resetStreamEnd at he ⊢
        split at he
        · exact absurd he (by simp)
        · next hnot =>
          rw [if_neg hnot]
          simp only [Bool.and_eq_true, decide_eq_true_eq, not_and, Bool.not_eq_true] at hnot
          exact ⟨rfl, fun _ => hnot he⟩
      · next hmark =>
        rw [if_neg hmark]
        exact ⟨rfl, fun hm => absurd hm hmark⟩
    obtain ⟨hsame, hfree⟩ := hwaits
    rw [hsame] at he ⊢
    obtain ⟨m, hm0, htarget, hmen, hmdir, hmark⟩ := h.executing he
    refine ⟨m, hm0, htarget, ?_⟩
    rw [hst, if_neg]
    · exact ⟨hmen, hmdir, hmark⟩
    · rintro rfl
      have hmarked : ((s.stream m).side k).marked = true := by
        have hor : ∃ j : Fin 2, ((s.stream m).side j).state = .draining ∧ ((s.stream m).side j).marked = true := by
          simpa [Stream.marked, Fin.exists_fin_two, Stream.side] using hmark
        obtain ⟨j, hj, hjm⟩ := hor
        rwa [horder.draining_unique hdraining hj]
      rw [hfree hmarked] at htarget
      exact absurd htarget (by simp)
  · rw [hst]; split
    · next hmn => rw [hmn]; simp
    · rfl
  · rw [hst, if_neg]
    rintro rfl
    exact hm (State.routed_of_route hn)
  · rw [hst]; split
    · rw [← hput]; exact hended
    · exact h.streams m hm0
  · have hmn : m ≠ n := by
      rintro rfl
      exact absurd ((hr.dir hm).symm.trans hdir) (by simp)
    rw [hst, if_neg hmn]
    exact ⟨rfl, (h.ports b).inFlight_zero hm (by rw [htx]; rfl)⟩
  · rw [hst]; split
    · exact hnone j
    · next hmn =>
      intro hj
      obtain ⟨f, hf, -, hfm, -⟩ := ((h.ports b).sends c).draining m hm j hj
      rw [hframe] at hf
      obtain rfl := Option.some.inj hf
      exact hmn hfm.symm

end Commands

end Sys2Proof.Machine
end

