-- ==== Sys2Proof/Proofs/EveryLaw.lean ====
section
/-! The commands of the trunk and the management requests keep the laws of streams and ports, and with `exec_keeps` every
step keeps every law of the part. -/

namespace Sys2Proof.Machine

/-! ### Streams reset (R42, R46) -/

/-- A discard with the packet and the live fields cleared (R42, R46) keeps the stream's laws. -/
theorem Stream.Lawful.cleared {st : Stream} (h : st.Lawful) {v : Bool} (hv : v = true → st.served = true) :
    Stream.Lawful { st.discard with packet := none, seqBit := false, burst := 0, served := v } := by
  obtain ⟨hsides, horder, hlive⟩ := h
  have hmap := Side.discard_sideMap st.entry
  have hfree : st.entry.dir = .up → ∀ sd : Side, (sd.discard st.entry.dir).state ≠ .draining := by
    intro hup sd
    simp [Side.discard, hup]
  have hlive' := hlive.mapSides hsides hmap
  obtain ⟨-, -, hserved, hoff, hup, hdown, hroom⟩ := hlive'
  exact ⟨hsides.mapSides hmap, horder.mapSides_dropPacket hsides hmap hfree, fun _ => rfl, .inl rfl,
    fun h => hserved (hv h), hoff, hup, hdown, hroom⟩

/-- A marked side of a lawful stream is one of a DOWN stream (R39). -/
theorem Stream.SidesLaw.marked_down {st : Stream} (h : st.SidesLaw) (hm : st.marked = true) : st.entry.dir = .down := by
  obtain ⟨hlawful, -, -⟩ := st.sidesLaw_iff.mp h
  have hor : ∃ k : Fin 2, (st.side k).state = .draining ∧ (st.side k).marked = true := by
    simpa [Stream.marked, Fin.exists_fin_two, Stream.side] using hm
  obtain ⟨k, -, hk⟩ := hor
  obtain ⟨-, -, -, -, -, -, hmark⟩ := ((st.side k).lawful_iff _).mp (hlawful k)
  exact (hmark hk).2

/-- The ports leave a marked side as it is. -/
theorem Stream.PortStep.marked {a b : Stream} (h : a.PortStep b) (hm : a.marked = true) : b.marked = true := by
  have hkept : ∀ {x y : Side}, x.Begun y → x.state = .draining → y = x := by
    rintro x y (rfl | ⟨hc, -⟩) hx
    · rfl
    · rw [hc] at hx; exact absurd hx (by simp)
  simp only [Stream.marked, Bool.or_eq_true, Bool.and_eq_true, beq_iff_eq] at hm ⊢
  rcases hm with ⟨hd, hm⟩ | ⟨hd, hm⟩
  · rw [hkept h.side0 hd]; exact .inl ⟨hd, hm⟩
  · rw [hkept h.side1 hd]; exact .inr ⟨hd, hm⟩

section Trunk

variable {R Q : Set (Fin 6)} {s : State}

/-- The trunk reset effects but for the ports (R62). -/
theorem State.Live.trunkCleared (h : s.Live R Q) (line : LineStatus) (node : NodeState) :
    (s.trunkCleared line node).Live R Q := by
  have heq := s.trunkCleared_eq line node
  have hstream := s.trunkCleared_stream line node
  refine LiveBut.of_view h (by rw [heq]) (by rw [hstream, if_neg (by simp)]) (fun he => ?_) (fun b => ?_) (fun n hn => ?_)
    (fun n hn => ?_) le_rfl fun _ _ n hn => ?_
  · rw [heq] at he
    exact absurd he (by simp [Mgmt.trunkReset, Mgmt.reset])
  · rw [heq]; exact .refl _
  · rw [hstream, if_pos hn]
    exact (Stream.View.discard _).live .hold none false 0 false
  · rw [hstream, if_pos hn]
    exact (h.streams n hn).cleared (v := false) (by simp)
  · rw [hstream]
    split
    · exact Stream.NoNewHead.discard _
    · exact .refl _

theorem State.Live.trunkReset (h : s.Live R Q) (line : LineStatus) (node : NodeState) (kind : EventKind) :
    (s.trunkReset line node kind).Live R Q := by
  rw [State.trunkReset_eq]
  exact State.Live.offerPlain (State.overBranches_keeps (P := State.Live R Q) (fun _ b hu => State.Live.resetPort hu b) _
    (h.trunkCleared line node)) kind _

/-! ### Cells (R58, R59) -/

theorem State.Live.dispatch (h : s.Live R Q) (c : CellHdr) {fits : Entry → Bool} {serve : State → Fin 32 → State}
    (hserve : ∀ n, n ≠ 0 → (s.stream n).entry.enabled = true → fits (s.stream n).entry = true → (serve s n).Live R Q) :
    (s.dispatch c fits serve).Live R Q := by
  unfold State.dispatch
  split
  · exact h.answer c _ _ _
  · split
    · exact State.Live.answer (State.Live.mapTrunkCtr h _) c _ _ _
    · next n hn =>
      split
      · exact State.Live.answer (State.Live.mapTrunkCtr h _) c _ _ _
      · next hen =>
        split
        · exact State.Live.answer (State.Live.countStream h n _) c _ _ _
        · next hfits => exact hserve n (streamOfNat?_ne_zero hn).1 (by simpa using hen) (by simpa using hfits)

theorem State.Live.servePut (h : s.Live R Q) (c : CellHdr) (p : List Byte) :
    (s.dispatch c (fun e => e.dir == .down) (State.servePut c p)).Live R Q := by
  refine h.dispatch c fun n hn hen hdir => ?_
  have hdown : (s.stream n).entry.dir = .down := by simpa using hdir
  unfold State.servePut
  split
  · next hc => exact h.flowPut c hn hen ⟨hc, hdown⟩ p
  · next hc => exact h.cyclicPut c hn hen ⟨hc, hdown⟩ p

theorem State.Live.serveFetch (h : s.Live R Q) (c : CellHdr) :
    (s.dispatch c (fun e => e.dir == .up) (State.serveFetch c)).Live R Q := by
  refine h.dispatch c fun n hn hen hdir => ?_
  have hup : (s.stream n).entry.dir = .up := by simpa using hdir
  unfold State.serveFetch
  split
  · next hc => exact h.flowFetch c hn ⟨hc, hup⟩
  · next hc => exact h.cyclicFetch c hn hen ⟨hc, hup⟩

theorem State.Live.streamAck (h : s.Live R Q) (c : CellHdr) : (s.streamAck c).Live R Q := by
  unfold State.streamAck
  split
  · exact h.mapTrunkCtr _
  · next n hn =>
    split
    · exact h.mapTrunkCtr _
    · split
      · exact h.flowAck (streamOfNat?_ne_zero hn).1
      · exact h.mapTrunkCtr _

theorem State.Live.takeCell (h : s.Live R Q) (c : CellHdr) {f : State → State} (hf : (f s).Live R Q) :
    (s.takeCell c f).Live R Q := by
  rcases s.takeCell_cases c f with ⟨_, ht⟩ | ⟨_, ht⟩ <;> rw [ht]
  · exact hf
  · exact h

/-! ### Stream 0 (8.2) -/

theorem State.Live.finish (h : s.Live R Q) (code : ResultCode) : (s.finish code).Live R Q := h.mapMgmt (by simp)

theorem State.Live.snapshot (h : s.Live R Q) (bytes : List Byte) (d : Byte) (a : Option Deferred) :
    (s.snapshot bytes d a).Live R Q := h.mapMgmt (by simp)

theorem State.Live.setEvents (h : s.Live R Q) (q : EventQueue) : (s.setEvents q).Live R Q :=
  h.rest rfl rfl rfl fun _ => rfl

theorem State.Live.sequenceError (h : s.Live R Q) (c : CellHdr) : (s.sequenceError c).Live R Q :=
  State.Live.answer (State.Live.offerPlain (h.mapMgmt (by simp [Mgmt.fail])) _ _) c _ _ _

theorem State.Live.commitOut (h : s.Live R Q) : s.commitOut.Live R Q := by
  rcases s.commitOut_cases with ⟨n, e, hn, hok, he⟩ | ⟨code, he⟩ <;> rw [he]
  · exact State.Live.finish (h.commitEntry hok hn) _
  · exact h.finish code

theorem State.Live.mgmtPut (h : s.Live R Q) (c : CellHdr) (p : List Byte) : (s.mgmtPut c p).Live R Q := by
  unfold State.mgmtPut
  split
  · exact h.answer c _ _ _
  · exact h.answer c _ _ _
  · next hout =>
    unfold State.mgmtOut
    split
    · exact h.answer c _ _ _
    · split
      · exact h.sequenceError c
      · have htake : (s.mapMgmt (fun m => m.take p)).Live R Q := h.mapMgmt (by simp [Mgmt.take, hout])
        refine State.Live.answer ?_ c _ _ _
        split
        · exact State.Live.commitOut htake
        · exact htake
  all_goals exact h.sequenceError c

theorem State.Live.mgmtAsk (h : s.Live R Q) (c : CellHdr) : (s.mgmtAsk c).Live R Q := by
  unfold State.mgmtAsk
  split <;> [exact h.answer c _ _ _; exact h.answer c _ _ _; exact h.sequenceError c; exact h.sequenceError c;
    exact h.sequenceError c; exact h.sequenceError c]

theorem State.Live.mgmtFetch (h : s.Live R Q) (c : CellHdr) : (s.mgmtFetch c).Live R Q := by
  unfold State.mgmtFetch
  split
  · exact h.answer c _ _ _
  · exact h.answer c _ _ _
  · exact h.sequenceError c
  · next hin =>
    unfold State.mgmtIn
    split
    · exact h.answer c _ _ _
    · exact State.Live.answer (h.mapMgmt (by simp [hin])) c _ _ _
  · exact h.answer c _ _ _
  · next hres => exact State.Live.answer (h.mapMgmt (by simp [hres])) c _ _ _

theorem State.Live.mgmtAck (h : s.Live R Q) : s.mgmtAck.Live R Q := by
  unfold State.mgmtAck
  split
  · refine h.mapMgmt ?_
    simp only [Mgmt.ackIn]
    split <;> simp
  · have hended : (s.mapMgmt (fun m => { m with exchange := .idle, packet := none, deferred := none })).Live R Q :=
      h.mapMgmt (by simp)
    unfold State.resultAck State.carryOut
    split
    · exact hended
    · exact State.Live.mapTrunk hended _
    · exact State.Live.setEvents hended _
  · exact h.mapTrunkCtr _

/-! ### Requests (Chapter 9) -/

theorem State.Live.execute (h : s.Live R Q) (he : s.execute.ExecutingLaw) : s.execute.Live R Q :=
  ⟨h.table, he, h.streams, fun b => (h.ports b).of_view h.table.2.2 rfl ⟨rfl, rfl, rfl⟩ fun _ _ => .refl _, h.status,
    h.settled⟩

/-- The header of an exchange that has begun names its target. -/
theorem Mgmt.Fresh.targets {m : Mgmt} {hd : ReqHeader} (h : m.Fresh hd) {f : ReqFields} (hf : hd.fields = some f)
    {n : Fin 32} (hn : f.stream? = some n) : m.targets n = true := by
  obtain ⟨m₀, rfl⟩ := h
  obtain ⟨code, fields⟩ := hd
  obtain rfl : fields = some f := hf
  simp [Mgmt.targets, Mgmt.begin, hn]

/-- The stream that a RESET-STREAM resets keeps its marked side while the ports act, so the exchange has one to wait for. -/
theorem State.executing_of_portStep {u v : State} (hstep : u.PortStep v) {n : Fin 32} (hn : n ≠ 0)
    (htarget : u.mgmt.targets n = true) (hen : (u.stream n).entry.enabled = true) (hsides : (u.stream n).SidesLaw)
    (hmark : (u.stream n).marked = true) : v.execute.ExecutingLaw := by
  have hstream := hstep.stream n
  have htarget' : v.execute.mgmt.targets n = true := by
    have : v.mgmt.targets n = true := hstep.mgmt ▸ htarget
    exact this
  intro _
  refine ⟨n, hn, htarget', ?_⟩
  rw [State.execute, State.mapMgmt_stream, hstream.entry]
  exact ⟨hen, hsides.marked_down hmark, hstream.marked hmark⟩

/-- A RESET-STREAM that finds a DRAINING DOWN side waits for it (R147, R161). -/
theorem State.Live.resetStreamBody (h : s.Live R Q) {f : ReqFields} {hd : ReqHeader} (hf : s.mgmt.Fresh hd)
    (hfields : hd.fields = some f) : (Machine.resetStreamBody f s).Live R Q := by
  unfold Machine.resetStreamBody
  split
  · exact h.finish _
  · next n hn =>
    have hn0 := ReqFields.stream?_ne_zero hn
    split
    · exact h.finish _
    · next hnot =>
      have hen : (s.stream n).entry.enabled = true := by simpa using hnot
      have htarget : (s.mapStream n Stream.resetStream).mgmt.targets n = true := hf.targets hfields hn
      have hreset : (s.mapStream n Stream.resetStream).Live R Q :=
        h.mapStream ((Stream.View.discard _).live _ none false 0 _) (fun _ => (h.streams n hn0).cleared id)
          (Stream.NoNewHead.discard _)
      have hen' : ((s.mapStream n Stream.resetStream).stream n).entry.enabled = true := by
        rw [State.mapStream_stream_self]; exact hen
      simp only
      generalize s.mapStream n Stream.resetStream = u at *
      have hports := State.Live.issueGrants (hreset.revokeStream hn0 hen') n hn0
      have hstep := (u.revokeStream_portStep n).trans (State.issueGrants_portStep _ n)
      split
      · next hmark =>
        exact State.Live.execute hports
          (State.executing_of_portStep hstep hn0 htarget hen' (hreset.streams n hn0).1 hmark)
      · exact State.Live.finish hports _

theorem State.Live.setResponseBody (h : s.Live R Q) (f : ReqFields) : (Machine.setResponseBody f s).Live R Q := by
  unfold Machine.setResponseBody
  split
  · exact h.finish _
  · next n _ =>
    split
    · exact h.finish _
    · next r _ =>
      split
      · exact h.finish _
      · split
        · exact h.finish _
        · have hclaim : (s.claim n r).Live R Q := h.claim n r
          refine State.Live.finish ?_ _
          split
          · exact hclaim.mapStream ((Stream.View.refl _).live _ _ false _ _)
              (fun hn => (hclaim.streams n hn).live (fun _ => rfl) (hclaim.streams n hn).2.2.2.1) fun _ hh => hh
          · exact hclaim

theorem State.Live.clearGroup (h : s.Live R Q) (g : CounterGroup) : (s.clearGroup g).Live R Q := by
  cases g with
  | stream n => exact h.countStream n fun _ => StreamCounters.zero
  | branch b => exact h.countBranch b fun _ => BranchCounters.zero
  | trunk => exact h.mapTrunkCtr fun _ => TrunkCounters.zero
  | timebase => exact h.mapTimebase fun t => { t with markers := 0, interpolated := 0 }

/-- Every request that passes its header checks keeps the laws. -/
theorem State.Live.body (h : s.Live ∅ Q) (r : Request) {f : ReqFields}
    (hf : s.mgmt.Fresh { code := r.code, fields := some f }) : (r.body f s).Live ∅ Q := by
  cases r with
  | assignAddress =>
    unfold Request.body assignAddressBody
    simp only
    split
    · exact h.finish _
    · split
      · exact h.finish _
      · exact State.Live.mapMgmt (h.finish .done) (by simp [State.finish])
  | readIdentity => exact h.snapshot _ _ _
  | start => exact State.Live.finish (h.mapTrunk fun t => { t with node := .running }) .done
  | stop =>
    have hstopped := h.mapTrunk fun t => { t with node := .addressed }
    exact State.Live.finish (hstopped.overStreams (op := fun s n => s.claim n .hold) streamNumbers
      fun _ n _ hu => State.Live.claim hu n .hold) .done
  | setCycle =>
    unfold Request.body setCycleBody
    simp only
    split
    · exact h.finish _
    · split
      · exact h.finish _
      · split
        · exact h.finish _
        · exact State.Live.finish (h.mapTimebase _) _
  | writeStream => exact h.mapMgmt (f := fun m => { m with exchange := .dataOut }) (by simp)
  | readStream =>
    unfold Request.body readStreamBody
    simp only
    split
    · exact h.finish _
    · exact h.snapshot _ _ _
  | setResponse => exact h.setResponseBody f
  | resetStream => exact h.resetStreamBody hf rfl
  | branchControl =>
    unfold Request.body branchControlBody
    simp only
    split
    · exact h.finish _
    · split
      · exact h.finish _
      · exact State.Live.finish (h.branchCommit _ _) _
  | readEvents => exact h.snapshot _ _ _
  | setEventMask =>
    unfold Request.body setEventMaskBody
    simp only
    split
    · exact h.finish _
    · exact State.Live.finish (h.setEvents _) _
  | readCounters =>
    unfold Request.body readCountersBody
    simp only
    split
    · exact h.finish _
    · split
      · exact h.finish _
      · exact h.snapshot _ _ _
  | clearCounters =>
    unfold Request.body clearCountersBody
    simp only
    split
    · exact h.finish _
    · exact State.Live.finish (h.clearGroup _) _
  | readTimebase => exact h.snapshot _ _ _

theorem State.Live.beginExchange (h : s.Live R Q) (hd : ReqHeader) : (s.beginExchange hd).Live R Q := by
  have hbegin : ∀ u : State, u.Live R Q → (u.mapMgmt (fun m => m.begin hd)).Live R Q :=
    fun u hu => State.Live.mapMgmt hu (by simp [Mgmt.begin])
  unfold State.beginExchange
  split
  · exact hbegin _ (h.offerPlain _ _)
  · exact hbegin _ h

theorem State.Live.takeRequest (h : s.Live R Q) (c : CellHdr) (hd : ReqHeader) {run : State → State}
    (hrun : ∀ u : State, u.Live R Q → u.mgmt.Fresh hd → (run u).Live R Q) : (s.takeRequest c hd run).Live R Q := by
  refine h.takeCell c ?_
  split
  · exact State.Live.answer (State.Live.mapTrunkCtr h _) c _ _ _
  · exact State.Live.answer (hrun _ (h.beginExchange hd) (s.beginExchange_keeps hd).2) c _ _ _

theorem State.Live.request (h : s.Live ∅ Q) (c : CellHdr) (r : Request) (f : ReqFields) :
    (s.request c r f (r.body f)).Live ∅ Q := by
  refine h.takeRequest c _ fun u hu hf => ?_
  unfold State.runRequest
  split
  · exact hu.finish _
  · exact hu.body r hf

/-! ### The commands -/

/-- Every command keeps the laws of the table, the exchange, the streams and the ports. -/
theorem exec_live {i : Instr} {t : State} (h : s.Live ∅ ∅) (he : exec i s = .next t) : t.Live ∅ ∅ := by
  cases hr : i.request? with
  | some x =>
    obtain ⟨c, r, f⟩ := x
    obtain ⟨g, hg⟩ := exec_request hr s
    rw [← State.next_inj (hg.symm.trans he)]
    exact h.request c r g
  | none =>
    cases i <;> simp only [Instr.request?, reduceCtorEq] at hr <;> refine State.next_inj he ▸ ?_
    case resetN =>
      have hlaw : State.Law { State.reset with pending := s.pending } := resetKeepsEveryLaw
      obtain ⟨-, -, -, -, -, -, hlive⟩ := (State.law_iff _).mp hlaw
      exact hlive
    case trunkSignalPresent => split <;> [exact h.mapTrunk _; exact h]
    case trunkSignalLost => split <;> [exact h.trunkReset _ _ _; exact h]
    case lineReset => split <;> [exact h.trunkReset _ _ _; exact h]
    case cellBadCheck => split <;> [exact h.mapTrunkCtr _; exact h]
    case cellUnknownKind => split <;> [exact h.mapTrunkCtr _; exact h]
    case cycle c k time => split <;> [exact h.takeMarker k time; exact h]
    case cycleTimerExpiry time => exact h.timerExpires time
    case put c p =>
      refine h.takeCell c ?_
      split <;> [exact h.mgmtPut c p; exact h.servePut c p]
    case fetch c =>
      refine h.takeCell c ?_
      split <;> [exact h.mgmtFetch c; exact h.serveFetch c]
    case ask c =>
      refine h.takeCell c ?_
      split <;> [exact h.mgmtAsk c; exact h.dispatch c fun n _ _ _ => h.flowAsk c n]
    case ack c =>
      refine h.takeCell c ?_
      split <;> [exact h.mgmtAck; exact h.streamAck c]
    case requestBadCode c p =>
      rcases s.requestPayload_cases c p with ⟨r, f, hp⟩ | ⟨hd, hp⟩ <;> rw [hp]
      · exact h.request c r f
      · exact h.takeRequest c hd fun u hu _ => hu.finish _
    case answerSendBegin => split <;> [exact h.mapTrunk _; exact h]
    case answerSendEnd => exact h.mapTrunk _
    case branchSignalPresent b => exact h.branchSignalPresent b
    case branchSignalLost b => exact h.branchSignalLost b
    case frameBadCheck b => exact h.frameBadCheck b
    case align b => exact h.align b
    case data b ch p => exact h.goodFrame b fun u hu _ => hu.takeData b ch false p
    case dataLast b ch p => exact h.goodFrame b fun u hu _ => hu.takeData b ch true p
    case credit b ch p => exact h.goodFrame b fun u hu hl => hu.takeCredit hl ch p
    case unwantedFrame b => exact h.goodFrame b fun u hu _ => State.Live.countBranch hu b _
    case controlFrameEnd b =>
      split
      · next htx => exact h.grantEnd htx
      · next htx => exact h.revokeEnd htx
      all_goals exact h
    case dataFrameEnd b =>
      split
      · next htx => exact h.dataEnd htx
      all_goals exact h

end Trunk

/-- Every step keeps every law of the part. -/
theorem step_law {s t : State} (hs : s.Law) (h : step s = .next t) : t.Law := by
  have hkeeps := step_keeps h
  obtain ⟨⟨hpool, hbuffer⟩, hnode, htimebase, hbounds, hmgmt, hdeferred, hlive⟩ := (State.law_iff s).mp hs
  refine (State.law_iff t).mpr ⟨⟨hkeeps.pool hpool, hkeeps.buffer hbuffer⟩, hkeeps.node hnode, hkeeps.timebase htimebase,
    hkeeps.bounds hbounds, hkeeps.mgmt hmgmt, hkeeps.deferred hdeferred, ?_⟩
  unfold step at h
  split at h
  · rw [← State.next_inj h]; exact hlive
  · next rest _ =>
    have hlive' : State.Live ∅ ∅ { s with pending := rest } := hlive.rest rfl rfl rfl fun _ => rfl
    exact exec_live hlive' h

/-- Settles O60: the configuration laws by `step_keeps`, the laws of streams and ports by `exec_live`. -/
theorem stepsKeepEveryLaw : Obligations.StepsKeepEveryLaw := fun _ _ hs h => step_law hs h

end Sys2Proof.Machine
end

