-- ==== Sys2Proof/Proofs/PutAccepted.lean ====
section
/-! The PUT that passes the five checks of R68, part by part: which side it fills, what it leaves of the stream, the bytes,
the events and the answer (R72 to R75). -/

namespace Sys2Proof.Machine

/-! ### The way to the accepted PUT (R58, R68) -/

theorem CellHdr.stream_ne_zero {c : CellHdr} {n : Fin 32} (h : c.stream? = some n) : c.stream ≠ 0 := by
  intro hc
  obtain ⟨hn, hval⟩ := streamOfNat?_ne_zero h
  rw [hc] at hval
  exact hn (Fin.ext hval)

/-- A cell that passes the checks of R58 goes to the block that serves it. -/
theorem State.dispatch_serves {s : State} {c : CellHdr} {n : Fin 32} (h : s.Reaches c n) {fits : Entry → Bool}
    (hfits : fits (s.stream n).entry = true) (serve : State → Fin 32 → State) : s.dispatch c fits serve = serve s n := by
  obtain ⟨-, hnode, hn, hen⟩ := h
  simp [State.dispatch, hnode, hn, hen, hfits]

/-- The side that R28 names is the one that the pool takes. -/
theorem Stream.fillTarget?_of_fillsInto {st : Stream} {k : Fin 2} (h : st.FillsInto k) : st.fillTarget? = some k := by
  obtain ⟨hk, hside⟩ := h
  rcases hside with ⟨hfilling, hother⟩ | ⟨hnone, hfree, hlower⟩
  · have hfind : st.fillingSide? = some k := by
      refine List.find?_eq_some_iff_append.mpr ⟨by simp [hfilling], ?_⟩
      obtain ⟨as, bs, hsplit⟩ := List.append_of_mem hk
      have hnodup : st.entry.sideNos.Nodup := by unfold Entry.sideNos; split <;> decide
      refine ⟨as, bs, hsplit, fun j hj => ?_⟩
      have hjk : j ≠ k := by
        rintro rfl
        rw [hsplit] at hnodup
        exact (List.nodup_append.mp hnodup).2.2 j hj j List.mem_cons_self rfl
      simpa using hother j hjk
    simp [Stream.fillTarget?, hfind]
  · have hfilling : st.fillingSide? = none := List.find?_eq_none.mpr fun j _ => by simpa using hnone j
    have hfind : st.freeSide? = some k := by
      unfold Stream.freeSide? Entry.sideNos
      unfold Entry.sideNos at hk
      rcases k with ⟨_ | _ | k, hlt⟩
      · have h0 : (st.side 0).state = .free := hfree
        split <;> simp [h0]
      · have h0 : (st.side 0).state ≠ .free := hlower 0 (by simp)
        have h1 : (st.side 1).state = .free := hfree
        split at hk
        · next htwo => simp [htwo, h0, h1]
        · exact absurd hk (by simp)
      · omega
    simp [Stream.fillTarget?, hfilling, hfind]

/-- The five checks of R68, passed. -/
theorem exec_put_accepted {s : State} {c : CellHdr} {n : Fin 32} {k : Fin 2} {p : List Byte} (h : s.Reaches c n)
    (hflow : (s.stream n).entry.Is .flow .down) (hopen : (s.stream n).response = .opened)
    (hlen : p.length ≤ (s.stream n).entry.maxPayload.toNat) (hseq : c.seq = (s.stream n).seqBit)
    (hroom : (s.stream n).room = true) (hk : (s.stream n).FillsInto k) :
    exec (.put c p) s = .next (s.acceptPut c n k p) := by
  have hput : s.flowPut c n p = s.acceptPut c n k p := by
    simp [State.flowPut, hopen, Nat.not_lt.mpr hlen, hseq, hroom, Stream.fillTarget?_of_fillsInto hk]
  have hserve : State.servePut c p s n = s.acceptPut c n k p := by
    simp only [State.servePut, hflow.1, hput]
  show Host.Outcome.next _ = _
  rw [State.takeCell_taken h.1, if_neg (CellHdr.stream_ne_zero h.2.2.1),
    State.dispatch_serves h (by simp [hflow.2]), hserve]

/-! ### What it leaves of the stream -/

/-- A fill with the close rules, as one side replaced. -/
theorem Stream.fill_closeBy_eq_put (st : Stream) (k : Fin 2) (len : Nat) (cause : Option CloseCause) :
    (st.fill k len).closeBy k cause =
      st.put k { st.side k with state := if cause = none then .filling else .closed,
                                fill := (st.side k).fill + len, cause := cause.or (st.side k).cause }
        (if cause = none then st.order else st.order ++ [k]) := by
  cases cause with
  | none => simp [Stream.closeBy, Stream.fill_eq_put]
  | some c => simp [Stream.closeBy, Stream.fill_close_eq_put]

theorem Stream.accepted_entry (st : Stream) (k : Fin 2) (len : Nat) : (st.accepted k len).entry = st.entry := by
  rw [Stream.accepted_eq, Stream.fill_closeBy_eq_put]
  simp

theorem Stream.accepted_response (st : Stream) (k : Fin 2) (len : Nat) : (st.accepted k len).response = st.response := by
  rw [Stream.accepted_eq, Stream.fill_closeBy_eq_put]
  simp

theorem Stream.accepted_counters (st : Stream) (k : Fin 2) (len : Nat) : (st.accepted k len).counters = st.counters := by
  rw [Stream.accepted_eq, Stream.fill_closeBy_eq_put]
  simp

/-- The HOLD claim of hold at end, on an enabled stream (R73). -/
def Stream.burstHeld (st : Stream) : Stream :=
  { st with response := if st.entry.holdAtEnd then .hold else st.response }

theorem State.mapStream_congr (s : State) (n : Fin 32) {f g : Stream → Stream} (h : f (s.stream n) = g (s.stream n)) :
    s.mapStream n f = s.mapStream n g := by
  simp only [State.mapStream]
  exact congrArg (fun st => { s with streams := s.streams.set n st }) h

theorem State.mapStream_of_fixed {s : State} {n : Fin 32} {f : Stream → Stream} (h : f (s.stream n) = s.stream n) :
    s.mapStream n f = s := by
  refine State.ext_parts rfl (fun m => ?_) rfl rfl rfl (fun _ => rfl) rfl rfl rfl rfl
  rw [s.mapStream_stream]
  split
  · next hm => rw [hm, h]
  · rfl

theorem State.burstEnd_eq {s : State} {n : Fin 32} (hen : (s.stream n).entry.enabled = true) (reached : Bool) :
    s.burstEnd n reached = (s.mapStream n Stream.burstHeld).offerStream n .burstDone (if reached then 1 else 2) := by
  have hclaim : (if (s.stream n).entry.holdAtEnd then s.claim n .hold else s) = s.mapStream n Stream.burstHeld := by
    split
    · next hhold =>
      rcases s.claim_cases n .hold with ⟨-, -, he⟩ | ⟨hnot, -⟩
      · rw [he]
        exact s.mapStream_congr n (by simp [Stream.burstHeld, hhold])
      · exact absurd ⟨hen, by simp⟩ hnot
    · next hhold => exact (State.mapStream_of_fixed (by simp [Stream.burstHeld, hhold])).symm
  rw [State.burstEnd, hclaim]

section Parts

variable {s : State} {n : Fin 32} (hen : (s.stream n).entry.enabled = true) (c : CellHdr) (k : Fin 2) (p : List Byte)

include hen

/-- An accepted PUT, with its burst-end work said for an enabled stream. -/
theorem State.putAnswered_eq : s.putAnswered c n k p =
    ((if (s.stream n).burstEnds p.length then
        ((s.putStored n k p).mapStream n Stream.burstHeld).offerStream n .burstDone
          (if (s.stream n).burstReached then 1 else 2)
      else s.putStored n k p).countStream n StreamCounters.pass).answer c
        (acceptedAnswer ((s.stream n).accepted k p.length) p.length) c.seq [] := by
  rw [State.putAnswered, State.burstEnd_eq]
  rw [State.putStored, State.mapStream_stream_self, State.setPool_stream, Stream.accepted_entry]
  exact hen

theorem State.putAnswered_rest : s.putAnswered c n k p =
    { s with trunk := (s.putAnswered c n k p).trunk, streams := (s.putAnswered c n k p).streams,
             pool := (s.putAnswered c n k p).pool, events := (s.putAnswered c n k p).events } := by
  rw [State.putAnswered_eq hen]
  split <;> rfl

theorem State.putAnswered_pool : (s.putAnswered c n k p).pool =
    s.pool.writeBytes Config.poolBytes ((s.stream n).entry.byteAddr k ((s.stream n).side k).fill) p := by
  rw [State.putAnswered_eq hen]
  split <;> rfl

theorem State.putAnswered_trunk : (s.putAnswered c n k p).trunk =
    { s.trunk with
      waiting := some (s.answerTo c (acceptedAnswer ((s.stream n).accepted k p.length) p.length) c.seq []) } := by
  rw [State.putAnswered_eq hen]
  split <;> rfl

theorem State.putAnswered_stream_ne {m : Fin 32} (hm : m ≠ n) : (s.putAnswered c n k p).stream m = s.stream m := by
  rw [State.putAnswered_eq hen]
  split <;> simp [State.putStored, State.countStream, State.offerStream, State.mapStream_stream_ne _ hm]

theorem State.putAnswered_stream : (s.putAnswered c n k p).stream n =
    { (s.stream n).accepted k p.length with
      response := if (s.stream n).burstEnds p.length = true ∧ (s.stream n).entry.holdAtEnd = true then .hold
        else (s.stream n).response,
      counters := (s.stream n).counters.pass } := by
  rw [State.putAnswered_eq hen]
  split
  · next hends =>
    simp [State.putStored, State.countStream, State.offerStream, Stream.burstHeld, Stream.accepted_entry,
      Stream.accepted_response, Stream.accepted_counters, hends]
  · next hends => simp [State.putStored, State.countStream, hends, Stream.accepted_response, Stream.accepted_counters]

theorem State.putAnswered_events : (s.putAnswered c n k p).events =
    if (s.stream n).burstEnds p.length then
      (s.withStreamEvent n .burstDone (if (s.stream n).burstReached then 1 else 2)).events else s.events := by
  rw [State.putAnswered_eq hen]
  split
  · have hentry : (((s.putStored n k p).mapStream n Stream.burstHeld).stream n).entry = (s.stream n).entry := by
      simp [State.putStored, Stream.burstHeld, Stream.accepted_entry]
    simp only [State.answer_events, State.countStream_events, State.offerStream, State.offer, State.setEvents_events, hentry]
    rfl
  · rfl

end Parts

/-! ### The statement's own words -/

theorem Stream.burstReached_eq (st : Stream) : st.burstReached =
    decide (0 < st.entry.burstCount.toNat ∧ st.entry.burstCount.toNat ≤ st.burst.toNat + 1) := by
  rw [Bool.eq_iff_iff, Stream.burstReached, Bool.and_eq_true, decide_eq_true_eq, decide_eq_true_eq, decide_eq_true_eq]
  rfl

theorem Stream.burstEnds_eq (st : Stream) (len : Nat) : st.burstEnds len =
    (decide (0 < st.entry.burstCount.toNat) && (st.burstReached || decide (len < st.entry.maxPayload.toNat))) := rfl

/-- The cause of R30 in the statement's words: a burst that is reached ends. -/
theorem Stream.putCause_eq (st : Stream) (k : Fin 2) (len : Nat) : st.putCause k len =
    if st.entry.continuous = false then some .single
    else if decide (len < st.entry.maxPayload.toNat) then some .short
    else if st.burstReached then some .burst
    else if (st.side k).fill + len = st.entry.capacity then some .full
    else none := by
  have hreached : (st.burstEnds len && st.burstReached) = st.burstReached := by
    cases hr : st.burstReached
    · simp
    · have : 0 < st.entry.burstCount.toNat := by
        rw [Stream.burstReached_eq, decide_eq_true_eq] at hr
        exact hr.1
      simp [Stream.burstEnds_eq, hr, this]
  simp only [Stream.putCause, flowDownCause, hreached, Bool.not_eq_true', decide_eq_true_eq, beq_iff_eq]

/-- The answer of R74 does not depend on what the burst's end and the count change. -/
theorem acceptedAnswer_eq (st : Stream) (len : Nat) : acceptedAnswer st len =
    if decide (len < st.entry.maxPayload.toNat) = true ∨ st.room = true then .ack else .full := by
  unfold acceptedAnswer
  by_cases hl : len < st.entry.maxPayload.toNat <;> by_cases hr : st.room = true <;> simp [hl, hr]

/-- Settles O10: the accepted PUT part by part, and the report of the side that it closed. -/
theorem flowPutAccepted : Obligations.FlowPutAccepted := by
  intro s c n k p hreach hflow hopen hlen hseq hroom hk hfits hwf hbound
  have hen := hreach.2.2.2
  simp only [← Stream.burstReached_eq, ← Stream.burstEnds_eq, ← Stream.putCause_eq]
  refine ⟨s.putAnswered c n k p, ?_, s.putAnswered_rest hen c k p, fun m hm => s.putAnswered_stream_ne hen c k p hm, ?_, ?_,
    s.putAnswered_events hen c k p, ?_, ?_⟩
  · rw [exec_put_accepted hreach hflow hopen hlen hseq hroom hk, State.acceptPut_eq hfits]
    cases (s.stream n).putCause k p.length <;> rfl
  · rw [State.putAnswered_stream hen, Stream.accepted_eq, Stream.fill_closeBy_eq_put, hopen]
    rfl
  · intro a
    rw [State.putAnswered_pool hen]
    exact Memory.read_writeBytes p _ hwf hbound a
  · rw [State.putAnswered_trunk hen, acceptedAnswer_eq, State.putAnswered_stream hen, Stream.accepted_entry]
    rfl
  · rw [State.putAnswered_trunk hen]

end Sys2Proof.Machine
end

