-- ==== Sys2Proof/Proofs/EntryChecks.lean ====
section
/-! The checks of a WRITE-STREAM commit on the entry alone, each as the table that the manual gives for it (R1, R3, R7, R11,
R12, R14). -/

namespace Sys2Proof.Machine

theorem frameLimitOk_iff (n : Nat) : frameLimitOk n = true ↔ n ∈ [16, 32, 64, 128, 256] := by
  simp [frameLimitOk, or_assoc]

theorem flowPayloadOk_iff (n : Nat) : flowPayloadOk n = true ↔ n ∈ [32, 64, 128, 256, 512, 1024] := by
  simp [flowPayloadOk, or_assoc]

/-- RANGE (R1, R3, R11, R178), field by field. -/
theorem Entry.rangeOk_iff (e : Entry) : e.rangeOk = true ↔
    e.spare0 = false ∧ e.spare14 = 0 ∧ e.branch.toNat ≤ 5 ∧ e.channel.toNat ≤ 7 ∧ e.periodExp.toNat ≤ 5 ∧
    e.frameLimit.toNat ∈ [16, 32, 64, 128, 256] ∧ e.baseBlock.toNat ≤ 1023 ∧ 1 ≤ e.sideSize.toNat ∧
    e.sideSize.toNat ≤ 64 ∧ e.phase.toNat < 2 ^ e.periodExp.toNat ∧
    (e.cls = .flow → e.maxPayload.toNat ∈ [32, 64, 128, 256, 512, 1024] ∧ e.periodExp = 0 ∧ e.phase = 0) ∧
    (e.cls = .cyclic → 1 ≤ e.maxPayload.toNat ∧ e.maxPayload.toNat ≤ 1024) ∧
    (e.staleFlush = true → e.Is .cyclic .up) ∧ (e.burstCount ≠ 0 ∨ e.holdAtEnd = true → e.Is .flow .down) ∧
    (e.continuous = true → ¬ e.Is .cyclic .down) ∧ (e.holdAtEnd = true → e.burstCount ≠ 0) := by
  simp only [Entry.rangeOk, Bool.and_eq_true, decide_eq_true_eq, Entry.Is, ← frameLimitOk_iff, ← flowPayloadOk_iff]
  unfold Entry.period
  cases e.cls <;> cases e.dir <;> cases e.holdAtEnd <;> simp [and_assoc]

/-- GEOMETRY (R12), by class and direction. -/
theorem Entry.geometryOk_iff (e : Entry) : e.geometryOk = true ↔
    e.regionEnd ≤ 1024 ∧
    (e.Is .flow .down → e.maxPayload.toNat ≤ e.capacity ∧
      (e.continuous = true → e.capacity % e.maxPayload.toNat = 0)) ∧
    (e.cls = .cyclic → e.capacity ≤ e.maxPayload.toNat) ∧
    (e.Is .cyclic .down → e.maxPayload.toNat ≤ e.capacity) ∧
    (e.dir = .up → e.frameLimit.toNat ≤ e.capacity) := by
  simp only [Entry.geometryOk, Bool.and_eq_true, decide_eq_true_eq, Entry.Is]
  unfold Config.poolBlocks
  cases e.cls <;> cases e.dir
  case cyclic.down => simpa using fun _ => Nat.le_antisymm_iff
  case flow.down => cases e.continuous <;> simp
  all_goals simp

/-- A block is in the region of an entry (R7). -/
def Entry.Holds (e : Entry) (block : Nat) : Prop := e.baseBlock.toNat ≤ block ∧ block < e.regionEnd

theorem Entry.holds_base {e : Entry} (h : 1 ≤ e.sideSize.toNat) : e.Holds e.baseBlock.toNat := by
  have hregion : e.sideSize.toNat ≤ e.sideSize.toNat * e.sideCount :=
    Nat.le_mul_of_pos_right _ (by unfold Entry.sideCount; split <;> omega)
  exact ⟨le_rfl, by unfold Entry.regionEnd; omega⟩

/-- OVERLAP: regions that hold a block overlap when they share one (R14), the larger of their bases. -/
theorem Entry.overlaps_iff {a b : Entry} (ha : 1 ≤ a.sideSize.toNat) (hb : 1 ≤ b.sideSize.toNat) :
    a.overlaps b = true ↔ ∃ block, a.Holds block ∧ b.Holds block := by
  have hbaseA := (Entry.holds_base ha).2
  have hbaseB := (Entry.holds_base hb).2
  simp only [Entry.overlaps, Bool.and_eq_true, decide_eq_true_eq]
  constructor
  · rintro ⟨hab, hba⟩
    exact ⟨max a.baseBlock.toNat b.baseBlock.toNat, ⟨le_max_left _ _, max_lt hbaseA hba⟩,
      ⟨le_max_right _ _, max_lt hab hbaseB⟩⟩
  · rintro ⟨block, ⟨hloA, hhiA⟩, ⟨hloB, hhiB⟩⟩
    exact ⟨hloA.trans_lt hhiB, hloB.trans_lt hhiA⟩

end Sys2Proof.Machine
end

