-- ==== Sys2Proof/Proofs/CommitAnswers.lean ====
section
/-! The PUT that completes the entry of a WRITE-STREAM (R10, R144): the commit that it makes, the refusals one by one, and the
commit that is applied. -/

namespace Sys2Proof.Machine

/-! ### The completing PUT (R143, R144) -/

/-- The cell is the PUT that brings the last bytes of a WRITE-STREAM entry. -/
structure State.Completes (s : State) (c : CellHdr) (p : List Byte) (f : ReqFields) : Prop where
  takes : s.Takes c
  stream : c.stream = 0
  exchange : s.mgmt.exchange = .dataOut
  header : s.mgmt.header = some { code := 0x06#8, fields := some f }
  length : f.length = 16
  seq : c.seq = s.mgmt.seqBit
  short : p.length ≤ 32
  last : s.mgmt.outCount + p.length = 16

/-- The entry that the management buffer holds once the packet is in it. -/
def State.entryWith (s : State) (p : List Byte) : Entry :=
  Entry.ofBytes ((s.mgmt.buffer.writeBytes Config.bufferBytes s.mgmt.outCount p).readBytes 0 16)

/-- The Management Engine after the completing PUT. -/
def State.mgmtWith (s : State) (p : List Byte) (f : ReqFields) (code : ResultCode) : Mgmt :=
  { s.mgmt with
    exchange := .result, buffer := s.mgmt.buffer.writeBytes Config.bufferBytes s.mgmt.outCount p,
    outCount := 16, seqBit := !s.mgmt.seqBit, result := some { code := code, detail := 0, tag := f.tag } }

/-- The Management Engine and the Trunk Port replaced. -/
def State.aside (s : State) (m : Mgmt) (k : Trunk) : State := { s with mgmt := m, trunk := k }

section Completing

variable {s : State} {c : CellHdr} {p : List Byte} {f : ReqFields}

/-- The completing PUT commits, sets the result and is answered ACK. -/
theorem State.Completes.exec_put (h : s.Completes c p f) {t : State} {code : ResultCode}
    (hcommit : (s.mapMgmt (fun m => m.take p)).commitStream f.stream? (s.entryWith p) = (t, code)) :
    exec (.put c p) s = .next ((t.finish code).answer c .ack c.seq []) := by
  obtain ⟨htakes, hstream, hexchange, hheader, hlength, hseq, hshort, hlast⟩ := h
  have hdeclared : s.mgmt.declared = 16 := by simp [Mgmt.declared, Mgmt.fields?, hheader, hlength]
  have htaken : (s.mgmt.take p).declared = 16 := hdeclared
  have hfields : (s.mgmt.take p).fields? = some f := by simp [Mgmt.take, Mgmt.fields?, hheader]
  have hentry : (s.mgmt.take p).buffer.readBytes 0 16 =
      (s.mgmt.buffer.writeBytes Config.bufferBytes s.mgmt.outCount p).readBytes 0 16 := rfl
  have hcommitOut : (s.mapMgmt (fun m => m.take p)).commitOut = t.finish code := by
    rw [State.entryWith, ← hentry] at hcommit
    simp only [State.commitOut, State.mapMgmt_mgmt, hfields, htaken, Option.bind_some, hcommit]
  have hout : s.mgmtOut c p = ((s.mapMgmt (fun m => m.take p)).commitOut).answer c .ack c.seq [] := by
    have hfits : ¬ (Config.mgmtPacket < p.length ∨ s.mgmt.declared < s.mgmt.outCount + p.length) := by
      rw [hdeclared, hlast]
      exact not_or_intro (Nat.not_lt.mpr hshort) (Nat.lt_irrefl _)
    have hfull : (s.mapMgmt (fun m => m.take p)).mgmt.outCount = (s.mapMgmt (fun m => m.take p)).mgmt.declared :=
      hlast.trans htaken.symm
    simp only [State.mgmtOut, if_neg hfits, if_pos hfull, hseq, ne_eq, not_true_eq_false, if_false]
  have hput : s.mgmtPut c p = s.mgmtOut c p := by simp only [State.mgmtPut, hexchange]
  show Host.Outcome.next _ = _
  rw [State.takeCell_taken htakes, if_pos hstream, hput, hout, hcommitOut]

/-- What the result and the answer of a completing PUT make of a state that the commit leaves. -/
theorem State.Completes.finish_answer (h : s.Completes c p f) {t : State} (hmgmt : t.mgmt = s.mgmt.take p)
    (htrunk : t.trunk = s.trunk) (code : ResultCode) : (t.finish code).answer c .ack c.seq [] =
      t.aside (s.mgmtWith p f code) { s.trunk with waiting := some (s.answerTo c .ack c.seq []) } := by
  have htag : (s.mgmt.take p).tag = f.tag := by simp [Mgmt.take, Mgmt.tag, Mgmt.fields?, h.header]
  have hcount : (s.mgmt.take p).outCount = 16 := h.last
  simp only [State.finish, State.answer, State.mapMgmt, State.mapTrunk, State.aside, State.mgmtWith, hmgmt, htrunk, htag,
    ← hcount]
  rfl

/-- A refused commit: the result code, and nothing of the table. -/
theorem State.Completes.refused (h : s.Completes c p f) {code : ResultCode}
    (hcode : (s.mapMgmt (fun m => m.take p)).commitStream f.stream? (s.entryWith p) =
      (s.mapMgmt (fun m => m.take p), code)) :
    exec (.put c p) s = .next { s.withAnswer c .ack c.seq [] with mgmt := s.mgmtWith p f code } := by
  rw [h.exec_put hcode, h.finish_answer (t := s.mapMgmt (fun m => m.take p)) rfl rfl code]
  rfl

theorem State.Completes.refused_noTarget (h : s.Completes c p f) (htarget : f.stream? = none) :
    exec (.put c p) s = .next { s.withAnswer c .ack c.seq [] with mgmt := s.mgmtWith p f .range } :=
  h.refused (by rw [htarget]; rfl)

theorem State.Completes.refused_check (h : s.Completes c p f) {n : Fin 32} (htarget : f.stream? = some n)
    {code : ResultCode} (hcode : s.commitRefusal? n (s.entryWith p) = some code) :
    exec (.put c p) s = .next { s.withAnswer c .ack c.seq [] with mgmt := s.mgmtWith p f code } := by
  have hsame : (s.mapMgmt (fun m => m.take p)).commitRefusal? n (s.entryWith p) = some code := hcode
  exact h.refused (by simp only [htarget, State.commitStream, hsame])

end Completing

/-! ### The target (R11) -/

theorem ReqFields.stream?_eq_none {f : ReqFields} (h : f.target = 0 ∨ 31 < f.target.toNat) : f.stream? = none := by
  have hout : ¬ (1 ≤ f.target.toNat ∧ f.target.toNat ≤ 31) := by
    rcases h with h | h
    · simp [h]
    · omega
  simp [ReqFields.stream?, streamOfNat?, hout]

theorem ReqFields.stream?_eq_some {f : ReqFields} {n : Fin 32} (hn : n ≠ 0) (h : f.target.toNat = n.val) :
    f.stream? = some n := by
  have hin : 1 ≤ n.val ∧ n.val ≤ 31 := ⟨Nat.pos_of_ne_zero fun h0 => hn (Fin.ext h0), by omega⟩
  simp [ReqFields.stream?, streamOfNat?, h, hin]

/-! ### The first failing check (R10, R13) -/

theorem Stream.isIdle_iff (st : Stream) : st.isIdle = true ↔ st.entry.enabled = false ∨
    (st.response ≠ .opened ∧ st.packet = none ∧ st.side0.state ≠ .draining ∧ st.side1.state ≠ .draining) := by
  simp [Stream.isIdle, Stream.draining, and_assoc]

theorem Stream.isIdle_eq_false_iff (st : Stream) : st.isIdle = false ↔ st.entry.enabled = true ∧
    (st.response = .opened ∨ st.packet ≠ none ∨ st.side0.state = .draining ∨ st.side1.state = .draining) := by
  rw [← Bool.not_eq_true, st.isIdle_iff]
  simp only [not_or, not_and_or, Bool.not_eq_false, not_not]

section Checks

variable {s : State} {n : Fin 32} {e : Entry}

theorem State.commitRefusal?_range (he : e.enabled = true) (hr : e.rangeOk = false) :
    s.commitRefusal? n e = some .range := by
  simp [State.commitRefusal?, he, hr]

theorem State.commitRefusal?_geometry (he : e.enabled = true) (hr : e.rangeOk = true) (hg : e.geometryOk = false) :
    s.commitRefusal? n e = some .geometry := by
  simp [State.commitRefusal?, he, hr, hg]

theorem State.commitRefusal?_streamActive (hok : e.enabled = true → e.rangeOk = true ∧ e.geometryOk = true)
    (hi : (s.stream n).isIdle = false) : s.commitRefusal? n e = some .streamActive := by
  have hr : (e.enabled && !e.rangeOk) = false := by cases he : e.enabled <;> simp [he, hok]
  have hg : (e.enabled && !e.geometryOk) = false := by cases he : e.enabled <;> simp [he, hok]
  simp [State.commitRefusal?, hr, hg, hi]

theorem State.commitRefusal?_overlap (he : e.enabled = true) (hr : e.rangeOk = true) (hg : e.geometryOk = true)
    (hi : (s.stream n).isIdle = true) (ho : (s.otherEntries n).any e.overlaps = true) :
    s.commitRefusal? n e = some .overlap := by
  simp only [State.commitRefusal?, he, hr, hg, hi, ho, Bool.not_true, Bool.and_false, Bool.and_true, Bool.false_eq_true,
    if_false, if_true]

theorem State.commitRefusal?_routeClash (he : e.enabled = true) (hr : e.rangeOk = true) (hg : e.geometryOk = true)
    (hi : (s.stream n).isIdle = true) (ho : (s.otherEntries n).any e.overlaps = false)
    (hk : (s.otherEntries n).any e.sameKey = true) : s.commitRefusal? n e = some .routeClash := by
  simp only [State.commitRefusal?, he, hr, hg, hi, ho, hk, Bool.not_true, Bool.and_false, Bool.and_true, Bool.false_eq_true,
    if_false, if_true]

end Checks

/-- Settles O46: the commit's first failing check gives the result of the completing PUT, and the checks on the entry are those
of the manual's tables. -/
theorem writeStreamRefusedWhole : Obligations.WriteStreamRefusedWhole := by
  refine ⟨?_, Entry.rangeOk_iff, Entry.geometryOk_iff, fun a b => Entry.overlaps_iff⟩
  intro s c p f htakes hstream hexchange hheader hlength hseq hshort hlast e refused active
  have h : s.Completes c p f := ⟨htakes, hstream, hexchange, hheader, hlength, hseq, hshort, hlast⟩
  refine ⟨fun htarget => h.refused_noTarget (ReqFields.stream?_eq_none htarget), fun n hn htarget => ?_⟩
  have hcheck : ∀ {code}, s.commitRefusal? n e = some code → refused code :=
    h.refused_check (ReqFields.stream?_eq_some hn htarget)
  have hidle : ¬ active n → (s.stream n).isIdle = true := fun hna => by
    rwa [← Bool.not_eq_false, Stream.isIdle_eq_false_iff]
  refine ⟨fun he hr => hcheck (State.commitRefusal?_range he hr),
    fun he hr hg => hcheck (State.commitRefusal?_geometry he hr hg),
    fun hok ha => hcheck (State.commitRefusal?_streamActive hok ((s.stream n).isIdle_eq_false_iff.mpr ha)),
    fun he hr hg hna ho => hcheck (State.commitRefusal?_overlap he hr hg (hidle hna) ((s.any_otherEntries n _).mpr ho)),
    fun he hr hg hna ho hk => hcheck (State.commitRefusal?_routeClash he hr hg (hidle hna) ?_ ?_)⟩
  · rw [← Bool.not_eq_true, s.any_otherEntries]
    rintro ⟨m, h0, hmn, hm, hover⟩
    simp [ho m h0 hmn hm] at hover
  · obtain ⟨m, h0, hmn, hm, hb, hch, hd⟩ := hk
    exact (s.any_otherEntries n _).mpr ⟨m, h0, hmn, hm, by simp [Entry.sameKey, hb, hch, hd]⟩

/-! ### The commit that is applied (R16 to R18) -/

section Aside

variable (s : State) (m : Mgmt) (t : Trunk)

/-! The ports read nothing of the Management Engine and of the Trunk Port. -/

theorem State.aside_mapStream (n : Fin 32) (f : Stream → Stream) :
    (s.aside m t).mapStream n f = (s.mapStream n f).aside m t := rfl

theorem State.aside_mapBranch (b : Fin 6) (f : Branch → Branch) :
    (s.aside m t).mapBranch b f = (s.mapBranch b f).aside m t := rfl

theorem State.aside_beginControl (b : Fin 6) (e : CtlEntry) (rest : List CtlEntry) :
    (s.aside m t).beginControl b e rest = (s.beginControl b e rest).aside m t := by
  cases e with
  | revoke ch dir => rfl
  | grant ch count =>
    have hroute : ∀ k, (s.aside m t).route k = s.route k := fun _ => rfl
    simp only [State.beginControl, State.mapUpStream]
    cases hr : s.route { branch := b, channel := ch, dir := .up }
    all_goals
      simp only [State.mapBranch_route, State.grantCapacity, hroute, hr]
      rfl

theorem State.aside_arbitrate (b : Fin 6) : (s.aside m t).arbitrate b = (s.arbitrate b).aside m t := by
  have hnext : (s.aside m t).nextDown? b = s.nextDown? b := rfl
  have hbranch : (s.aside m t).branch b = s.branch b := rfl
  have hstream : ∀ n, (s.aside m t).stream n = s.stream n := fun _ => rfl
  simp only [State.arbitrate, hnext, hbranch, hstream]
  split
  · split
    · exact s.aside_beginControl m t b _ _
    · split
      · split <;> rfl
      · rfl
  · rfl

theorem State.aside_issueGrants (n : Fin 32) : (s.aside m t).issueGrants n = (s.issueGrants n).aside m t := by
  have hbranch : ∀ b, (s.aside m t).branch b = s.branch b := fun _ => rfl
  have hstream : (s.aside m t).stream n = s.stream n := rfl
  simp only [State.issueGrants, hbranch, hstream]
  split
  · split
    · rw [State.aside_mapStream, State.aside_mapBranch, State.aside_arbitrate]
    · rfl
  · rfl

theorem State.aside_revokeKey (n : Fin 32) (k : RouteKey) :
    (s.aside m t).revokeKey n k = (s.revokeKey n k).aside m t := by
  have hbranch : ∀ b, (s.aside m t).branch b = s.branch b := fun _ => rfl
  simp only [State.revokeKey, hbranch]
  split
  · rw [State.aside_mapStream, State.aside_mapBranch, State.aside_arbitrate]
  · rfl

/-- A commit's effects with the Management Engine and the Trunk Port as they stand after it. -/
theorem State.aside_commitEntry (n : Fin 32) (e : Entry) :
    (s.commitEntry n e).aside m t = State.issueGrants (match (s.stream n).entry.activeKey? with
      | some k => ((s.commitTable n e).aside m t).revokeKey n k
      | none => (s.commitTable n e).aside m t) n := by
  rw [State.commitEntry_eq]
  cases (s.stream n).entry.activeKey? with
  | some k => simp only [State.aside_revokeKey, State.aside_issueGrants]
  | none => simp only [State.aside_issueGrants]

end Aside

/-- The state of an applied commit before its ports act: the table of the commit, the result, and the answer. -/
def State.applied (s : State) (c : CellHdr) (p : List Byte) (f : ReqFields) (n : Fin 32) : State :=
  (s.commitTable n (s.entryWith p)).aside (s.mgmtWith p f .done)
    { s.trunk with waiting := some (s.answerTo c .ack c.seq []) }

/-- The change of the table reads nothing of the Management Engine. -/
theorem State.commitTable_aside (s : State) (g : Mgmt → Mgmt) (n : Fin 32) (e : Entry) (m : Mgmt) (t : Trunk) :
    ((s.mapMgmt g).commitTable n e).aside m t = (s.commitTable n e).aside m t := by
  have hstream : (s.mapMgmt g).stream n = s.stream n := rfl
  simp only [State.commitTable, State.commitRoutes, hstream]
  cases (s.stream n).entry.activeKey? <;> cases e.activeKey? <;> rfl

/-- The completing PUT of an entry that passes every check. -/
theorem State.Completes.applied {s : State} {c : CellHdr} {p : List Byte} {f : ReqFields} (h : s.Completes c p f)
    {n : Fin 32} (htarget : f.stream? = some n) (hok : s.CommitOk n (s.entryWith p)) :
    exec (.put c p) s = .next (State.issueGrants (match (s.stream n).entry.activeKey? with
      | some k => (s.applied c p f n).revokeKey n k
      | none => s.applied c p f n) n) := by
  have hnone : (s.mapMgmt (fun m => m.take p)).commitRefusal? n (s.entryWith p) = none :=
    (s.commitRefusal?_none_iff n _).mpr hok
  have hcommit : (s.mapMgmt (fun m => m.take p)).commitStream f.stream? (s.entryWith p) =
      ((s.mapMgmt (fun m => m.take p)).commitEntry n (s.entryWith p), .done) := by
    simp only [htarget, State.commitStream, hnone]
  rw [h.exec_put hcommit,
    h.finish_answer ((s.mapMgmt (fun m => m.take p)).commitEntry_mgmt n _)
      ((s.mapMgmt (fun m => m.take p)).commitEntry_rest n _).1, State.aside_commitEntry,
    State.commitTable_aside]
  rfl

/-- Settles O47: the table of the commit, then the port of the old key, then that of the new entry. -/
theorem writeStreamAppliesWhole : Obligations.WriteStreamAppliesWhole := by
  intro s c p f n htakes hstream hexchange hheader hlength hseq hshort hlast hn htarget e old hchecks hidle hapart
  have h : s.Completes c p f := ⟨htakes, hstream, hexchange, hheader, hlength, hseq, hshort, hlast⟩
  have hok : s.CommitOk n (s.entryWith p) :=
    ⟨fun he => (hchecks he).1, fun he => (hchecks he).2, (s.stream n).isIdle_iff.mpr hidle, hapart⟩
  have happlied := h.applied (ReqFields.stream?_eq_some hn htarget) hok
  refine ⟨s.applied c p f n, fun k hen hk => ?_, fun hnokey => ?_, s.commitTable_stream_self n _,
    fun m hm => s.commitTable_stream_ne hm _, fun k => ?_, rfl, rfl, rfl, ?_⟩
  · rw [happlied, (Entry.activeKey?_eq_some_iff _ k).mpr ⟨hen, hk⟩]
  · have hnone : (s.stream n).entry.activeKey? = none := by
      rcases hnokey with hdis | hkey
      · exact if_neg (Bool.eq_false_iff.mp hdis)
      · exact (ite_eq_right_iff.mpr fun _ => hkey)
    rw [happlied, hnone]
  · have hroute := s.commitTable_route n (s.entryWith p) k
    simp only [Entry.activeKey?_eq_some_iff] at hroute
    exact hroute
  · unfold State.applied
    rw [s.commitTable_rest]
    rfl

end Sys2Proof.Machine
end

