-- ==== Sys2Proof/Proofs/StepLaws.lean ====
section
/-! What every step keeps, taken from `step_keeps`. -/

namespace Sys2Proof.Machine

/-- Settles O56: no command moves these laws (`exec_keeps`). -/
theorem stepsKeepStoresBoundsAndExchange : Obligations.StepsKeepStoresBoundsAndExchange := by
  intro s t h
  have hkeeps := step_keeps h
  exact ⟨fun ⟨hpool, hbuffer⟩ => ⟨hkeeps.pool hpool, hkeeps.buffer hbuffer⟩, hkeeps.bounds, hkeeps.mgmt⟩

end Sys2Proof.Machine
end

