-- ==== Sys2Proof/Proofs/ArbiterPick.lean ====
section
/-! The arbiter's pick (R133 to R135) and the issue of grants (R129) as equations: the head control frame, the DOWN stream that
the round robin finds, and the request that a stream's grants make. -/

namespace Sys2Proof.Machine

/-! ### What a stream or a port replaced leaves to read -/

theorem State.withStream_stream_self (s : State) (n : Fin 32) (st : Stream) : (s.withStream n st).stream n = st :=
  s.mapStream_stream_self n fun _ => st

theorem State.withStream_stream_ne (s : State) {n m : Fin 32} (h : m ≠ n) (st : Stream) :
    (s.withStream n st).stream m = s.stream m :=
  s.mapStream_stream_ne h fun _ => st

theorem State.withBranch_branch_self (s : State) (b : Fin 6) (br : Branch) : (s.withBranch b br).branch b = br :=
  s.mapBranch_branch_self b fun _ => br

theorem State.mapBranch_mapBranch (s : State) (b : Fin 6) (f g : Branch → Branch) :
    (s.mapBranch b f).mapBranch b g = s.mapBranch b (fun br => g (f br)) := by
  refine State.ext_parts rfl (fun _ => rfl) rfl rfl rfl (fun d => ?_) rfl rfl rfl rfl
  by_cases hd : d = b
  · subst hd; simp
  · simp [State.mapBranch_branch_ne _ hd]

/-! ### Control frames (R133, R134) -/

section Control

variable {s : State} {b : Fin 6}

/-- The arbiter prefers the head of the control-frame queue. -/
theorem State.arbitrate_control (hl : (s.branch b).link = .up) (htx : (s.branch b).tx = .idle) {e : CtlEntry}
    {rest : List CtlEntry} (hq : (s.branch b).queue = e :: rest) : s.arbitrate b = s.beginControl b e rest := by
  unfold State.arbitrate
  rw [if_pos ⟨hl, htx⟩, hq]

theorem State.beginControl_revoke (s : State) (b : Fin 6) (ch : Fin 8) (dir : Dir) (rest : List CtlEntry) :
    s.beginControl b (.revoke ch dir) rest =
      s.withBranch b { s.branch b with queue := rest, tx := .busy (.revoke ch dir) } := by
  simp only [State.beginControl, State.transmit, State.mapBranch_mapBranch]
  rfl

theorem State.beginControl_grant {ch : Fin 8} {n : Fin 32} (hn : s.route (upKey b ch) = some n) (count : Nat)
    (rest : List CtlEntry) :
    s.beginControl b (.grant ch count) rest =
      (s.withStream n { s.stream n with
          queued := (s.stream n).queued - count, inFlight := (s.stream n).inFlight + count }).withBranch b
        { s.branch b with queue := rest, tx := .busy (.grant ch count (s.stream n).entry.capacity) } := by
  have hcapacity : s.grantCapacity b ch = (s.stream n).entry.capacity := by simp only [State.grantCapacity, hn]
  have hmap : ∀ f, (s.mapBranch b (fun br => { br with queue := rest })).mapUpStream b ch f =
      (s.mapStream n f).mapBranch b (fun br => { br with queue := rest }) := by
    intro f
    simp only [State.mapUpStream, State.mapBranch_route, hn]
    rfl
  simp only [State.beginControl, hmap, hcapacity, State.transmit, State.mapBranch_mapBranch]
  rfl

end Control

/-! ### DOWN frames (R37, R133, R135) -/

/-- The arbiter looks at the channel after the pointer first, and at the pointer's own last. -/
theorem channelsAfter_eq (p : Fin 8) : channelsAfter p = (List.finRange 8).map (fun d => p + 1 + d) := by
  revert p; decide

/-- What a search of a rising list finds at `d`, when it finds nothing below `d`. -/
theorem findSome?_of_rising {α β : Type} [LT α] {l : List α} (hl : l.Pairwise (· < ·)) {f : α → Option β} {d : α} {x : β}
    (hd : d ∈ l) (hx : f d = some x) (hnone : ∀ j, j < d → f j = none) : l.findSome? f = some x := by
  obtain ⟨as, bs, rfl⟩ := List.append_of_mem hd
  have hbelow : ∀ j ∈ as, j < d := fun j hj => (List.pairwise_append.mp hl).2.2 j hj d List.mem_cons_self
  exact List.findSome?_eq_some_iff.mpr ⟨as, d, bs, rfl, hx, fun j hj => hnone j (hbelow j hj)⟩

/-- Some side drains exactly when there is a CLOSED head. -/
theorem Stream.closedHead?_isSome_iff (st : Stream) : st.closedHead?.isSome = true ↔ ∃ k, st.Drains k := by
  rw [Option.isSome_iff_exists]
  exact exists_congr st.closedHead?_eq_some_iff

/-- The stream that the arbiter can send on a channel, in the statement's words (R133). -/
theorem State.sendable?_iff_ready (s : State) (b : Fin 6) (ch : Fin 8) (n : Fin 32) : s.sendable? b ch = some n ↔
    s.route (downKey b ch) = some n ∧ (s.stream n).entry.enabled = true ∧ (∃ k, (s.stream n).Drains k) ∧
      1 ≤ (s.stream n).credits := by
  rw [State.sendable?_eq_some_iff, Stream.closedHead?_isSome_iff]

/-- The round robin finds the first channel after the pointer on which a stream can be sent. -/
theorem State.nextDown?_first {s : State} {b : Fin 6} {d : Fin 8} {n : Fin 32}
    (hready : s.sendable? b ((s.branch b).pointer + 1 + d) = some n)
    (hfirst : ∀ j, j < d → s.sendable? b ((s.branch b).pointer + 1 + j) = none) :
    s.nextDown? b = some ((s.branch b).pointer + 1 + d, n) := by
  rw [State.nextDown?, channelsAfter_eq, List.findSome?_map]
  refine findSome?_of_rising (List.pairwise_lt_finRange 8) (List.mem_finRange d) ?_ fun j hj => ?_
  · simp only [Function.comp_apply, hready, Option.map_some]
  · simp only [Function.comp_apply, hfirst j hj, Option.map_none]

theorem State.nextDown?_none {s : State} {b : Fin 6} (h : ∀ ch, s.sendable? b ch = none) : s.nextDown? b = none := by
  refine List.findSome?_eq_none_iff.mpr fun ch _ => ?_
  rw [h ch, Option.map_none]

/-- Whether the frame is DATA-LAST (R37), in the statement's words. -/
theorem frameIsLast_eq (sd : Side) (stop : Nat) : frameIsLast sd stop = decide (sd.fill = 0 ∨ (stop = sd.fill ∧
    (sd.cause = some .short ∨ sd.cause = some .burst ∨ sd.cause = some .cyclic))) := by
  rw [Bool.eq_iff_iff]
  simp [frameIsLast, or_assoc]

/-- A DOWN frame begins (R135): the side is DRAINING, a credit is taken, and the port sends with its pointer set. -/
theorem State.beginDown_eq (s : State) (b : Fin 6) (ch : Fin 8) (n : Fin 32) (k : Fin 2) :
    s.beginDown b ch n k = (s.withStream n { (s.stream n).setSideState k .draining with
        credits := (s.stream n).credits - 1 }).withBranch b
      { s.branch b with pointer := ch, tx := .busy (s.cutFrame n k ch) } := by
  simp only [State.beginDown, State.transmit, State.mapBranch_mapBranch]
  rfl

section Down

variable {s : State} {b : Fin 6} (hl : (s.branch b).link = .up) (htx : (s.branch b).tx = .idle)
  (hq : (s.branch b).queue = [])

include hl htx hq

/-- With no control frame the arbiter begins the frame of the stream that the round robin finds. -/
theorem State.arbitrate_downFrame {ch : Fin 8} {n : Fin 32} {k : Fin 2} (hnext : s.nextDown? b = some (ch, n))
    (hk : (s.stream n).Drains k) : s.arbitrate b = s.beginDown b ch n k := by
  have hhead := ((s.stream n).closedHead?_eq_some_iff k).mpr hk
  unfold State.arbitrate
  rw [if_pos ⟨hl, htx⟩, hq]
  simp only [hnext, hhead]

/-- With nothing to send the transmitter stays IDLE. -/
theorem State.arbitrate_nothing (hnext : s.nextDown? b = none) : s.arbitrate b = s := by
  unfold State.arbitrate
  rw [if_pos ⟨hl, htx⟩, hq]
  simp only [hnext]

end Down

/-- Settles O32: the head of the queue first, then the round robin, whose channels are those from the one after the pointer on. -/
theorem arbiterPicksTheNextFrame : Obligations.ArbiterPicksTheNextFrame := by
  refine ⟨fun s b rest hl htx => ⟨fun ch dir hq => ?_, fun ch count n hq hn => ?_⟩, ?_⟩
  · rw [State.arbitrate_control hl htx hq, State.beginControl_revoke]
  · rw [State.arbitrate_control hl htx hq, State.beginControl_grant hn]
  intro s b hl htx hq ready
  refine ⟨?_, fun hnothing => ?_⟩
  · intro d n k hready hk hfirst
    have hnone : ∀ j, j < d → s.sendable? b ((s.branch b).pointer + 1 + j) = none := fun j hj =>
      Option.eq_none_iff_forall_ne_some.mpr fun m hm => hfirst j hj m ((s.sendable?_iff_ready b _ m).mp hm)
    rw [State.arbitrate_downFrame hl htx hq (State.nextDown?_first ((s.sendable?_iff_ready b _ n).mpr hready) hnone) hk,
      State.beginDown_eq, State.cutFrame, frameIsLast_eq]
    rfl
  · exact State.arbitrate_nothing hl htx hq (State.nextDown?_none fun ch =>
      Option.eq_none_iff_forall_ne_some.mpr fun m hm => hnothing ch m ((s.sendable?_iff_ready b ch m).mp hm))

/-! ### Grants (R129) -/

section Grants

variable {s : State} {n : Fin 32} {k : RouteKey} (hkey : (s.stream n).entry.key? = some k)

include hkey

/-- The issue of grants for an enabled UP stream on a link that is UP, with a side to grant. -/
theorem State.issueGrants_queues (hen : (s.stream n).entry.enabled = true) (hup : k.dir = .up)
    (hl : (s.branch k.branch).link = .up) (hgrant : 0 < (s.stream n).grantable) :
    s.issueGrants n =
      ((s.withStream n { s.stream n with queued := (s.stream n).queued + (s.stream n).grantable }).withBranch k.branch
        { s.branch k.branch with
          queue := queueGrant (s.branch k.branch).queue k.channel (s.stream n).grantable }).arbitrate k.branch := by
  simp only [State.issueGrants, hkey, if_pos (⟨hen, hup, hl, hgrant⟩ : _ ∧ _ ∧ _ ∧ _)]
  rfl

theorem State.issueGrants_nothing (h : ¬ (k.dir = .up ∧ (s.branch k.branch).link = .up ∧ 0 < (s.stream n).grantable)) :
    s.issueGrants n = s := by
  simp only [State.issueGrants, hkey, if_neg (fun hmay => h (And.right hmay))]

/-- The stream whose grants are issued while its port sends a frame: its queued count grows by what it may have. -/
theorem State.issueGrants_stream (hen : (s.stream n).entry.enabled = true) (hup : k.dir = .up)
    (hl : (s.branch k.branch).link = .up) (hbusy : (s.branch k.branch).tx ≠ .idle) :
    (s.issueGrants n).stream n =
      { s.stream n with queued := (s.stream n).queued + (s.stream n).grantable } := by
  by_cases hgrant : 0 < (s.stream n).grantable
  · rw [State.issueGrants_queues hkey hen hup hl hgrant, State.arbitrate_busy]
    · exact s.withStream_stream_self n _
    · rw [State.withBranch_branch_self]
      exact hbusy
  · rw [State.issueGrants_nothing hkey fun hmay => hgrant hmay.2.2, Nat.eq_zero_of_not_pos hgrant]
    rfl

end Grants
end Sys2Proof.Machine
end

