-- ==== Sys2Proof/Proofs/FlowUpCells.lean ====
section
/-! The cells of FLOW UP streams: the FETCH branch by branch (R77 to R80), and the ACK that completes a packet (R35, R81). -/

namespace Sys2Proof.Machine

/-! ### FETCH and ACK cells (R58, R59) -/

/-- A FETCH that passes the checks of R58 goes to the block of the stream's class. -/
theorem exec_fetch_served {s : State} {c : CellHdr} {n : Fin 32} (h : s.Reaches c n)
    (hup : (s.stream n).entry.dir = .up) : exec (.fetch c) s = .next (State.serveFetch c s n) := by
  show Host.Outcome.next _ = _
  rw [State.takeCell_taken h.1, if_neg (CellHdr.stream_ne_zero h.2.2.1), State.dispatch_serves h (by simp [hup])]

theorem exec_fetch_flow {s : State} {c : CellHdr} {n : Fin 32} (h : s.Reaches c n)
    (hflow : (s.stream n).entry.Is .flow .up) : exec (.fetch c) s = .next (s.flowFetch c n) := by
  rw [exec_fetch_served h hflow.2]
  simp only [State.serveFetch, hflow.1]

/-- A side drains exactly when `closedHead?` gives it (R33). -/
theorem Stream.drains_iff (st : Stream) (k : Fin 2) : st.Drains k ↔ st.closedHead? = some k :=
  (st.closedHead?_eq_some_iff k).symm

theorem Stream.closedHead?_eq_none {st : Stream} (h : ∀ k, ¬ st.Drains k) : st.closedHead? = none :=
  Option.eq_none_iff_forall_ne_some.mpr fun k hk => h k ((st.drains_iff k).mpr hk)

/-! ### The FETCH of a FLOW UP stream, branch by branch (R77 to R80) -/

/-- The DATA answer of a packet reads the entry of the stream, and nothing else that a change of the stream moves. -/
theorem State.sendPacket_mapStream (s : State) (c : CellHdr) {n : Fin 32} (p : Packet) {f : Stream → Stream}
    (hf : ∀ st : Stream, (f st).entry = st.entry) :
    (s.mapStream n f).sendPacket c n p = (s.sendPacket c n p).mapStream n f := by
  simp only [State.sendPacket, State.readSide, State.mapStream_stream_self, hf]
  rfl

section FlowFetch

variable {s : State} {n : Fin 32} (c : CellHdr)

theorem State.flowFetch_halt (h : (s.stream n).response = .halt) :
    s.flowFetch c n = s.withAnswer c .halt (s.stream n).seqBit [] := by
  simp only [State.flowFetch, h, State.answer_eq]

theorem State.flowFetch_hold (h : (s.stream n).response = .hold) :
    s.flowFetch c n = s.withAnswer c .wait (s.stream n).seqBit [] := by
  simp only [State.flowFetch, h, State.answer_eq]

theorem State.flowFetch_again (h : (s.stream n).response = .opened) {p : Packet} (hp : (s.stream n).packet = some p) :
    s.flowFetch c n =
      s.withAnswer c .data p.seq (s.pool.readBytes ((s.stream n).entry.byteAddr p.side p.offset) p.len) := by
  simp only [State.flowFetch, h, hp, State.sendPacket, State.readSide, State.answer_eq]

theorem State.flowFetch_cut (h : (s.stream n).response = .opened) (hp : (s.stream n).packet = none) {k : Fin 2}
    (hk : (s.stream n).Drains k) :
    s.flowFetch c n =
      (s.withStream n { (s.stream n).setSide k { (s.stream n).side k with state := .draining } with
        packet := some ((s.stream n).cutPacket k) }).withAnswer c .data (s.stream n).seqBit
          (s.pool.readBytes ((s.stream n).entry.byteAddr k ((s.stream n).side k).drain) ((s.stream n).cutPacket k).len) := by
  have hentry : ∀ st : Stream, Stream.entry { st.setSideState k .draining with packet := some (st.cutPacket k) } = st.entry :=
    fun st => st.setSide_entry k _
  simp only [State.flowFetch, h, hp, (Stream.drains_iff _ k).mp hk, State.sendPacket_mapStream s c _ hentry]
  rfl

theorem State.flowFetch_none (h : (s.stream n).response = .opened) (hp : (s.stream n).packet = none)
    (hk : ∀ k, ¬ (s.stream n).Drains k) : s.flowFetch c n = s.withAnswer c .wait (s.stream n).seqBit [] := by
  simp only [State.flowFetch, h, hp, Stream.closedHead?_eq_none hk, State.answer_eq]

end FlowFetch

/-- Settles O11: the FETCH goes to the Flow Handshake Unit, whose answer is said branch by branch. -/
theorem flowFetchAnswered : Obligations.FlowFetchAnswered := by
  intro s c n hreach hflow
  rw [exec_fetch_flow hreach hflow]
  exact ⟨fun h => congrArg _ (State.flowFetch_halt c h), fun h => congrArg _ (State.flowFetch_hold c h),
    fun p h hp => congrArg _ (State.flowFetch_again c h hp), fun k h hp hk => congrArg _ (State.flowFetch_cut c h hp hk),
    fun h hp hk => congrArg _ (State.flowFetch_none c h hp hk)⟩

/-! ### The ACK of a FLOW UP stream (R35, R81) -/

/-- When the drain of a side is complete at the ACK of a packet (R34, R35), in the statement's words. -/
theorem drainDone_iff (sd : Side) (maxPayload len : Nat) : drainDone sd maxPayload len = true ↔
    len = 0 ∨ (sd.drain + len = sd.fill ∧ ¬ (sd.fill = 0 ∨ (sd.cause = some .last ∧ sd.fill % maxPayload = 0))) := by
  simp [drainDone, endPacketDue, imp_iff_not_or]

/-- An ACK that passes the checks of R58 and R59 goes to the Flow Handshake Unit. -/
theorem exec_ack_flow {s : State} {c : CellHdr} {n : Fin 32} (htakes : s.Takes c) (hn : c.stream? = some n)
    (hen : (s.stream n).entry.enabled = true) (hflow : (s.stream n).entry.Is .flow .up) :
    exec (.ack c) s = .next (s.flowAck n) := by
  have hack : s.streamAck c = s.flowAck n := by
    simp only [State.streamAck, hn, hen, Bool.not_true, Bool.false_eq_true, if_false, if_pos (And.intro hflow.2 hflow.1)]
  show Host.Outcome.next _ = _
  rw [State.takeCell_taken htakes, if_neg (CellHdr.stream_ne_zero hn), hack]

/-- The stream once the ACK of its packet is counted, its sides still as they were (R81). -/
def Stream.ackCounted (st : Stream) : Stream :=
  { st with packet := none, seqBit := !st.seqBit, counters := st.counters.pass }

section FlowAck

variable {s : State} {n : Fin 32} {p : Packet} (hp : (s.stream n).packet = some p)

include hp

/-- The ACK of a packet that leaves bytes of its side to drain. -/
theorem State.flowAck_advances
    (hdone : ¬ drainDone ((s.stream n).side p.side) (s.stream n).entry.maxPayload.toNat p.len = true) :
    s.flowAck n = s.withStream n ((s.stream n).ackCounted.setSide p.side
      { (s.stream n).side p.side with state := .closed, drain := ((s.stream n).side p.side).drain + p.len }) := by
  have hstream : { (s.stream n).ackPacket p with counters := ((s.stream n).ackPacket p).counters.pass } =
      (s.stream n).ackCounted.setSide p.side
        { (s.stream n).side p.side with state := .closed, drain := ((s.stream n).side p.side).drain + p.len } := by
    simp only [Stream.ackPacket, Stream.advance, if_neg hdone, Stream.setSide, Stream.ackCounted]
    split <;> rfl
  simp only [State.flowAck, hp, if_neg hdone, State.countStream, State.mapStream_mapStream]
  exact congrArg (s.withStream n) hstream

/-- The ACK of the packet with which the drain of its side is complete. -/
theorem State.flowAck_frees
    (hdone : drainDone ((s.stream n).side p.side) (s.stream n).entry.maxPayload.toNat p.len = true) :
    s.flowAck n = (s.withStream n ((s.stream n).ackCounted.free p.side)).issueGrants n := by
  have hstream : { (s.stream n).ackPacket p with counters := ((s.stream n).ackPacket p).counters.pass } =
      (s.stream n).ackCounted.free p.side := by
    simp only [Stream.ackPacket, Stream.advance, if_pos hdone, Stream.free, Stream.setSide, Stream.ackCounted]
    split <;> rfl
  simp only [State.flowAck, hp, if_pos hdone, State.countStream, State.mapStream_mapStream]
  exact congrArg (fun st => (s.withStream n st).issueGrants n) hstream

end FlowAck

/-- Settles O12: the drain complete or not (`drainDone_iff`), and the grants of a freed side. -/
theorem flowAckCompletesPacket : Obligations.FlowAckCompletesPacket := by
  intro s c n p htakes hn hen hflow hp st sd endDue done counted
  rw [exec_ack_flow htakes hn hen hflow]
  have hdone : drainDone sd st.entry.maxPayload.toNat p.len = true ↔ done := drainDone_iff _ _ _
  refine ⟨fun hnot => congrArg _ (State.flowAck_advances hp (mt hdone.mp hnot)), fun hyes => ?_⟩
  intro freed
  refine ⟨congrArg _ (State.flowAck_frees hp (hdone.mpr hyes)), fun k hk hl hbusy => ?_⟩
  have hfreed : (s.withStream n freed).stream n = freed := s.withStream_stream_self n freed
  have hentry : freed.entry = st.entry := counted.setSide_entry p.side _
  have hkey : ((s.withStream n freed).stream n).entry.key? = some k := by rw [hfreed, hentry]; exact hk
  have hup : k.dir = .up := by rw [← ((Entry.key?_eq_some_iff _ _).mp hk).2.2]; exact hflow.2
  rw [State.issueGrants_stream hkey (by rw [hfreed, hentry]; exact hen) hup hl hbusy, hfreed]
  rfl

end Sys2Proof.Machine
end

