-- ==== Sys2Proof/Proofs/CyclicAnswers.lean ====
section
/-! The cells of CYCLIC streams: the PUT that R109 accepts, and the FETCH check by check (R110, R111). -/

namespace Sys2Proof.Machine

/-! ### What the checks find -/

theorem Timebase.serving_iff (t : Timebase) : t.serving = true ↔ t.state = .locked ∨ t.state = .coasting := by
  simp [Timebase.serving]

theorem Timebase.serving_eq_false {t : Timebase} (h : ¬ (t.state = .locked ∨ t.state = .coasting)) :
    t.serving = false :=
  Bool.eq_false_iff.mpr (mt t.serving_iff.mp h)

/-- What a search of a rising list finds, when nothing below it would do. -/
theorem find?_of_rising {α : Type} [LT α] {l : List α} (hl : l.Pairwise (· < ·)) {p : α → Bool} {d : α} (hd : d ∈ l)
    (hp : p d = true) (hnone : ∀ j, j < d → p j = false) : l.find? p = some d := by
  rw [List.find?_eq_findSome?_guard]
  exact findSome?_of_rising hl hd (by simp [hp]) fun j hj => by simp [hnone j hj]

theorem Entry.sideNos_rising (e : Entry) : e.sideNos.Pairwise (· < ·) := by
  unfold Entry.sideNos
  split <;> decide

/-- The lowest FREE side (R29, R109). -/
theorem Stream.freeSide?_lowest {st : Stream} {k : Fin 2} (hk : k ∈ st.entry.sideNos) (hfree : (st.side k).state = .free)
    (hlower : ∀ j, j < k → (st.side j).state ≠ .free) : st.freeSide? = some k :=
  find?_of_rising st.entry.sideNos_rising hk (by simp [hfree]) fun j hj => by simpa using hlower j hj

theorem Stream.fillingSide?_isSome_iff (st : Stream) :
    st.fillingSide?.isSome = true ↔ ∃ k ∈ st.entry.sideNos, (st.side k).state = .filling := by
  simp [Stream.fillingSide?]

/-! ### The PUT that is accepted (R31, R109) -/

section Put

variable {s : State} {c : CellHdr} {n : Fin 32}

/-- A PUT that passes the checks of R58 and R108 on a CYCLIC DOWN stream. -/
theorem exec_put_due (p : List Byte) (h : s.Reaches c n) (hcyclic : (s.stream n).entry.Is .cyclic .down)
    (hopen : (s.stream n).response = .opened) (hserving : s.timebase.state = .locked ∨ s.timebase.state = .coasting)
    (hdue : (s.stream n).entry.due s.timebase.count = true) :
    exec (.put c p) s = .next (s.cyclicDuePut n p) := by
  have hput : s.cyclicPut c n p = s.cyclicDuePut n p := by
    simp [State.cyclicPut, hopen, s.timebase.serving_iff.mpr hserving, hdue]
  have hserve : State.servePut c p s n = s.cyclicDuePut n p := by
    simp only [State.servePut, hcyclic.1, hput]
  show Host.Outcome.next _ = _
  rw [State.takeCell_taken h.1, if_neg (CellHdr.stream_ne_zero h.2.2.1),
    State.dispatch_serves h (by simp [hcyclic.2]), hserve]

/-- The stream whose side `k` an accepted cyclic PUT of `len` bytes has filled. -/
def Stream.cyclicFilled (st : Stream) (k : Fin 2) (len : Nat) : Stream :=
  let st1 := (Stream.fill { st with served := true } k len).close k .held .cyclic
  { st1 with counters := st1.counters.pass }

/-- The fill of a FREE side leaves its record as R31 says. -/
theorem Stream.cyclicFilled_eq {st : Stream} {k : Fin 2} (hk : st.side k = Side.empty) (len : Nat) :
    st.cyclicFilled k len =
      { st.setSide k { state := .held, fill := len, drain := 0, cause := some .cyclic, marked := false } with
        order := st.order ++ [k], served := true, counters := st.counters.pass } := by
  have hside : Stream.side { st with served := true } k = Side.empty := hk
  simp only [Stream.cyclicFilled, Stream.fill_close_eq_put, hside, Stream.put, Stream.setSide, Side.empty, Nat.zero_add]
  split <;> rfl

/-- A due PUT with a FREE side that it fits: the bytes, and the stream's record. -/
theorem State.cyclicDuePut_fills {k : Fin 2} {p : List Byte} (hserved : (s.stream n).served = false)
    (hk : (s.stream n).freeSide? = some k) (hmax : p.length ≤ (s.stream n).entry.maxPayload.toNat)
    (hfits : p.length ≤ (s.stream n).space k) :
    s.cyclicDuePut n p =
      (s.setPool (s.pool.writeBytes Config.poolBytes
        ((s.stream n).entry.byteAddr k ((s.stream n).side k).fill) p)).withStream n
          ((s.stream n).cyclicFilled k p.length) := by
  have hstream : (s.setServed n).stream n = { s.stream n with served := true } := s.mapStream_stream_self n _
  have hfill : p.length ≤ ((s.setServed n).stream n).space k := by rw [hstream]; exact hfits
  have hpool : ∀ m, (s.setServed n).setPool m = (s.setPool m).mapStream n (fun st => { st with served := true }) :=
    fun _ => rfl
  simp only [State.cyclicDuePut, hserved, hk, if_neg (Nat.not_lt.mpr hmax), Bool.false_eq_true, if_false,
    State.fillSide_fits hfill, State.countStream, hpool, State.mapStream_mapStream, hstream]
  rfl

end Put

/-- Settles O15: the due PUT goes into the lowest FREE side (`Stream.freeSide?_lowest`). -/
theorem cyclicPutAccepted : Obligations.CyclicPutAccepted := by
  intro s c n k p hreach hcyclic hopen hserving hdue hserved hk hempty hlower hmax hfits hwf hbound st start
  have hfree : (s.stream n).freeSide? = some k := Stream.freeSide?_lowest hk (by rw [hempty]; rfl) hlower
  have hspace : p.length ≤ (s.stream n).space k := by rw [Stream.space, hempty]; exact hfits
  refine ⟨_, (exec_put_due p hreach hcyclic hopen hserving hdue).trans
    (congrArg _ (State.cyclicDuePut_fills hserved hfree hmax hspace)), rfl, fun m hm => State.withStream_stream_ne _ hm _, ?_, fun a => ?_⟩
  · rw [State.withStream_stream_self, Stream.cyclicFilled_eq hempty]
    rfl
  · rw [hempty]
    exact Memory.read_writeBytes p start hwf hbound a

/-! ### The FETCH of a CYCLIC UP stream, check by check (R110, R111) -/

theorem exec_fetch_cyclic {s : State} {c : CellHdr} {n : Fin 32} (h : s.Reaches c n)
    (hcyclic : (s.stream n).entry.Is .cyclic .up) : exec (.fetch c) s = .next (s.cyclicFetch c n) := by
  rw [exec_fetch_served h hcyclic.2]
  simp only [State.serveFetch, hcyclic.1]

/-- An event about a stream names its entry, which the change of a stream keeps (R172). -/
theorem State.offerStream_mapStream (s : State) (n m : Fin 32) {f : Stream → Stream}
    (hf : ∀ st : Stream, (f st).entry = st.entry) (kind : EventKind) (d : Byte) :
    (s.mapStream n f).offerStream m kind d = (s.offerStream m kind d).mapStream n f := by
  have hentry : ((s.mapStream n f).stream m).entry = (s.stream m).entry := by
    rw [s.mapStream_stream]
    split
    · next hm => rw [hf, hm]
    · rfl
  simp only [State.offerStream, hentry]
  rfl

/-- INTERVAL-MISS as one event and one stream replaced (R108, R110). -/
theorem State.intervalMiss_eq (s : State) (n : Fin 32) (d : Byte) :
    s.intervalMiss n d =
      (s.withStreamEvent n .intervalMiss d).withStream n { s.stream n with counters := (s.stream n).counters.missed } := by
  rw [State.intervalMiss, State.countStream, State.offerStream_mapStream]
  · rfl
  · exact fun _ => rfl

section Fetch

variable {s : State} {n : Fin 32} (c : CellHdr)

theorem State.cyclicFetch_halt (h : (s.stream n).response = .halt) :
    s.cyclicFetch c n = s.withAnswer c .halt c.seq [] := by
  simp only [State.cyclicFetch, h, State.answer_eq]

theorem State.cyclicFetch_hold (h : (s.stream n).response = .hold) :
    s.cyclicFetch c n = s.withAnswer c .empty false [] := by
  simp only [State.cyclicFetch, h, State.answer_eq]

variable (hopen : (s.stream n).response = .opened)

include hopen

theorem State.cyclicFetch_noTimebase (hserving : ¬ (s.timebase.state = .locked ∨ s.timebase.state = .coasting)) :
    s.cyclicFetch c n = ((s.withStreamEvent n .intervalMiss 1).withStream n
      { s.stream n with counters := (s.stream n).counters.missed }).withAnswer c .empty false [] := by
  simp only [State.cyclicFetch, hopen, Timebase.serving_eq_false hserving, Bool.not_false, if_true, State.intervalMiss_eq,
    State.answer_eq]

variable (hserving : s.timebase.state = .locked ∨ s.timebase.state = .coasting)

include hserving

theorem State.cyclicFetch_offCycle (hdue : (s.stream n).entry.due s.timebase.count = false) :
    s.cyclicFetch c n = ((s.withStreamEvent n .intervalMiss 2).withStream n
      { s.stream n with counters := (s.stream n).counters.missed }).withAnswer c .empty false [] := by
  simp only [State.cyclicFetch, hopen, s.timebase.serving_iff.mpr hserving, hdue, Bool.not_true, Bool.not_false,
    Bool.false_eq_true, if_false, if_true, State.intervalMiss_eq, State.answer_eq]

variable (hdue : (s.stream n).entry.due s.timebase.count = true)

include hdue

/-- A due FETCH on an OPEN stream goes on to the steps of R111. -/
theorem State.cyclicFetch_due : s.cyclicFetch c n = s.cyclicDueFetch c n := by
  simp only [State.cyclicFetch, hopen, s.timebase.serving_iff.mpr hserving, hdue, Bool.not_true, Bool.false_eq_true,
    if_false]

theorem State.cyclicFetch_second (hserved : (s.stream n).served = true) :
    s.cyclicFetch c n = (s.withStream n { s.stream n with counters := { (s.stream n).counters with
      secondFetch := satInc (s.stream n).counters.secondFetch } }).withAnswer c .empty false [] := by
  rw [State.cyclicFetch_due c hopen hserving hdue]
  simp only [State.cyclicDueFetch]
  rw [if_pos hserved]
  rfl

/-- The whole oldest CLOSED side goes, and the side is freed and granted again (R36, R41, R129). -/
theorem State.cyclicFetch_drains (hserved : (s.stream n).served = false) {k : Fin 2} (hk : (s.stream n).Drains k) :
    s.cyclicFetch c n =
      ((s.withStream n { (s.stream n).setSide k Side.empty with
          order := (s.stream n).order.filter (fun j => j != k), served := true,
          counters := (s.stream n).counters.pass }).withAnswer c .data false
        (s.pool.readBytes ((s.stream n).entry.byteAddr k 0) ((s.stream n).side k).fill)).issueGrants n := by
  have hstream : { Stream.free { s.stream n with served := true } k with
      counters := (Stream.free { s.stream n with served := true } k).counters.pass } =
      { (s.stream n).setSide k Side.empty with
          order := (s.stream n).order.filter (fun j => j != k), served := true,
          counters := (s.stream n).counters.pass } := by
    simp only [Stream.free, Stream.setSide]
    split <;> rfl
  rw [State.cyclicFetch_due c hopen hserving hdue]
  simp only [State.cyclicDueFetch, hserved, Bool.false_eq_true, if_false, (Stream.drains_iff _ k).mp hk, State.setServed,
    State.countStream, State.mapStream_mapStream, ← hstream]
  rfl

/-- No side to send: UNDERRUN, whose detail says whether a side is FILLING. -/
theorem State.cyclicFetch_underrun (hserved : (s.stream n).served = false) (hk : ∀ k, ¬ (s.stream n).Drains k) :
    s.cyclicFetch c n = ((s.withStreamEvent n .underrun
        (if ∃ k ∈ (s.stream n).entry.sideNos, ((s.stream n).side k).state = .filling then 2 else 1)).withStream n
      { s.stream n with served := true, counters := { (s.stream n).counters with
        underrun := satInc (s.stream n).counters.underrun } }).withAnswer c .empty false [] := by
  rw [State.cyclicFetch_due c hopen hserving hdue,
    ← if_congr (s.stream n).fillingSide?_isSome_iff (rfl : (2 : Byte) = 2) (rfl : (1 : Byte) = 1)]
  simp only [State.cyclicDueFetch, hserved, Bool.false_eq_true, if_false, Stream.closedHead?_eq_none hk, State.setServed,
    State.countStream, State.mapStream_mapStream]
  rw [State.offerStream_mapStream]
  · rfl
  · exact fun _ => rfl

end Fetch

/-- Settles O16: the FETCH goes to the Cyclic Scheduler, whose answer is said check by check. -/
theorem cyclicFetchAnswered : Obligations.CyclicFetchAnswered := by
  intro s c n hreach hcyclic st served missed
  rw [exec_fetch_cyclic hreach hcyclic]
  exact ⟨fun h => congrArg _ (State.cyclicFetch_halt c h), fun h => congrArg _ (State.cyclicFetch_hold c h),
    fun h hs => congrArg _ (State.cyclicFetch_noTimebase c h hs),
    fun h hs hdue => congrArg _ (State.cyclicFetch_offCycle c h hs hdue),
    fun h hs hdue hv => congrArg _ (State.cyclicFetch_second c h hs hdue hv),
    fun k h hs hdue hv hk => congrArg _ (State.cyclicFetch_drains c h hs hdue hv hk),
    fun h hs hdue hv hk => congrArg _ (State.cyclicFetch_underrun c h hs hdue hv hk)⟩

end Sys2Proof.Machine
end

