-- ==== Sys2Proof/Proofs/DataFrames.lean ====
section
/-! DATA frames: the frame that fills a side (R29, R32, R126), and the end of a DOWN frame (R38, R136, R162). -/

namespace Sys2Proof.Machine

/-! ### A DATA frame that fills a side (R29, R32, R126) -/

/-- A good frame in UP is counted, its run of bad checks ends, and it is handled (R125). -/
theorem State.goodFrame_up {s : State} {b : Fin 6} (h : (s.branch b).link = .up) (handle : State → State) :
    s.goodFrame b handle = handle (s.mapBranch b fun br =>
      { br with errors := 0, counters := { br.counters with good := br.counters.good + 1 } }) := by
  simp only [State.goodFrame, h]

/-- The side that a fill goes into is the FILLING one, or with none FILLING the lowest FREE one. -/
theorem Stream.fillTarget?_cases {st : Stream} {k : Fin 2} (h : st.fillTarget? = some k) :
    (st.fillingSide? = some k ∧ (st.side k).state = .filling) ∨
      (st.fillingSide? = none ∧ st.freeSide? = some k ∧ (st.side k).state = .free) := by
  unfold Stream.fillTarget? at h
  split at h
  · next j hj =>
    obtain rfl := Option.some.inj h
    exact .inl ⟨hj, (Stream.fillingSide?_eq_some hj).2⟩
  · next hnone => exact .inr ⟨hnone, h, (Stream.freeSide?_eq_some h).2⟩

/-- The stream as the fill of side `k` begins: a FREE side consumes a delivered grant (R129). -/
def Stream.opens (st : Stream) (k : Fin 2) : Stream := if (st.side k).state = .free then st.consumed else st

/-- Why the side of a frame of `len` bytes closes, if it does (R32). -/
def Stream.frameCause (st : Stream) (k : Fin 2) (last : Bool) (len : Nat) : Option CloseCause :=
  upCause st.entry last ((st.side k).fill + len == st.entry.capacity)

/-- The cause of R32 in the statement's words. -/
theorem Stream.frameCause_eq (st : Stream) (k : Fin 2) (last : Bool) (len : Nat) : st.frameCause k last len =
    if last = true then some .last
    else if st.entry.continuous = false then some .single
    else if (st.side k).fill + len = st.entry.capacity then some .full
    else none := by
  simp only [Stream.frameCause, upCause, Bool.not_eq_true', beq_iff_eq]

/-- A fill with the close rules of R32. -/
theorem Stream.fill_closeUp (st : Stream) (k : Fin 2) (last : Bool) (len : Nat) :
    (st.fill k len).closeUp k last = (st.fill k len).closeBy k (st.frameCause k last len) := by
  rw [Stream.closeUp, Stream.frameCause, Stream.fill_eq_put, Stream.put_entry, Stream.put_side_self]

/-- What a frame leaves of the stream: the side filled and perhaps closed, and a grant consumed when the side was FREE. -/
theorem Stream.opens_fill_closeUp (st : Stream) (k : Fin 2) (last : Bool) (len : Nat) :
    ((st.opens k).fill k len).closeUp k last =
      { st.setSide k { st.side k with state := if st.frameCause k last len = none then .filling else .closed,
                                      fill := (st.side k).fill + len,
                                      cause := (st.frameCause k last len).or (st.side k).cause } with
        order := if st.frameCause k last len = none then st.order else st.order ++ [k],
        delivered := if (st.side k).state = .free then st.delivered - 1 else st.delivered } := by
  rw [Stream.fill_closeUp, Stream.fill_closeBy_eq_put, Stream.opens]
  split
  · next hfree =>
    simp only [Stream.consumed, Stream.put, Stream.setSide]
    split <;> rfl
  · simp only [Stream.put, Stream.setSide]
    split <;> rfl

/-- A frame appended to a side that has the space: the bytes, and the stream's record. -/
theorem State.fillUp_fits {s : State} {n : Fin 32} {k : Fin 2} {p : List Byte} (h : p.length ≤ (s.stream n).space k)
    (last : Bool) :
    s.fillUp n k last p = (s.setPool (s.pool.writeBytes Config.poolBytes
      ((s.stream n).entry.byteAddr k ((s.stream n).side k).fill) p)).withStream n
        (((s.stream n).fill k p.length).closeUp k last) := by
  rw [State.fillUp, State.fillSide_fits h, State.mapStream_mapStream]
  rfl

/-- A frame that R126 takes: appended to the FILLING side, or opening the lowest FREE side with a delivered grant. -/
theorem State.takeData_fills {s : State} {b : Fin 6} {ch : Fin 8} {n : Fin 32} {k : Fin 2} {p : List Byte}
    (hroute : s.route (upKey b ch) = some n) (hmax : p.length ≤ 256)
    (hlimit : p.length ≤ (s.stream n).entry.frameLimit.toNat) (hk : (s.stream n).FillsInto k)
    (hfits : p.length ≤ (s.stream n).space k) (hgrant : ((s.stream n).side k).state = .free → 1 ≤ (s.stream n).delivered)
    (last : Bool) :
    s.takeData b ch last p = (s.mapStream n (fun st => st.opens k)).fillUp n k last p := by
  have hsize : ¬ (Config.maxFramePayload < p.length ∨ (s.stream n).entry.frameLimit.toNat < p.length) :=
    not_or_intro (Nat.not_lt.mpr hmax) (Nat.not_lt.mpr hlimit)
  rcases Stream.fillTarget?_cases (Stream.fillTarget?_of_fillsInto hk) with ⟨hfilling, hstate⟩ | ⟨hnone, hfree, hstate⟩
  · have hsame : s.mapStream n (fun st => st.opens k) = s :=
      State.mapStream_of_fixed (by simp [Stream.opens, hstate])
    simp only [State.takeData, hroute, if_neg hsize, hfilling, if_pos hfits, hsame]
  · have hopens : s.mapStream n (fun st => st.opens k) = s.mapStream n Stream.consumed :=
      s.mapStream_congr n (by simp [Stream.opens, hstate])
    simp only [State.takeData, hroute, if_neg hsize, hnone, hfree, if_pos (hgrant hstate), hopens]
    rfl

theorem Stream.opens_fields (st : Stream) (k j : Fin 2) :
    (st.opens k).entry = st.entry ∧ (st.opens k).side j = st.side j := by
  unfold Stream.opens
  split <;> exact ⟨rfl, rfl⟩

/-- Settles O28: the frame is counted at the port and taken by R126, and the side is filled and closed by R32. -/
theorem dataFramesFillSides : Obligations.DataFramesFillSides := by
  intro s b ch p last n k hl hroute hmax hlimit hk hfits hgrant hwf hbound
  simp only [← Stream.frameCause_eq]
  let counted := s.mapBranch b fun br =>
    { br with errors := 0, counters := { br.counters with good := br.counters.good + 1 } }
  have hother : ∀ d, d ≠ b → counted.branch d = s.branch d := fun d hd => s.mapBranch_branch_ne hd _
  have hport : counted.branch b = { s.branch b with errors := 0, counters := { (s.branch b).counters with
      good := (s.branch b).counters.good + 1 } } := s.mapBranch_branch_self b _
  have hexec : exec (if last then .dataLast b ch p else .data b ch p) s = .next (counted.takeData b ch last p) := by
    cases last <;> exact congrArg _ (State.goodFrame_up hl _)
  obtain ⟨hentry, hside⟩ := (s.stream n).opens_fields k k
  have hopened : (counted.mapStream n (fun st => st.opens k)).stream n = (s.stream n).opens k :=
    counted.mapStream_stream_self n _
  have hspace : p.length ≤ ((counted.mapStream n (fun st => st.opens k)).stream n).space k := by
    rw [hopened, Stream.space, hentry, hside]; exact hfits
  rw [hexec, State.takeData_fills (s := counted) hroute hmax hlimit hk hfits hgrant, State.fillUp_fits hspace, hopened,
    hentry, hside, Stream.opens_fill_closeUp]
  refine ⟨_, rfl, rfl, fun m hm => ?_, fun d hd => ?_, ?_, ?_, fun a => ?_⟩
  · rw [State.withStream_stream_ne _ hm]
    exact counted.mapStream_stream_ne hm _
  · exact hother d hd
  · exact hport
  · exact State.withStream_stream_self _ n _
  · exact Memory.read_writeBytes p _ hwf hbound a

/-! ### The end of a DATA frame (R38, R136, R162) -/

/-- The end report of a RESET-STREAM as the Management Engine that it leaves (R147, R162). -/
theorem State.resetStreamEnd_eq (s : State) (n : Fin 32) : s.resetStreamEnd n = { s with
    mgmt := if s.mgmt.exchange = .executing ∧ s.mgmt.targets n = true then { s.mgmt with exchange := .result }
      else s.mgmt } := by
  simp only [State.resetStreamEnd, Bool.and_eq_true, decide_eq_true_eq]
  split <;> rfl

section DataEnd

variable {s : State} {b : Fin 6} {last : Bool} {ch : Fin 8} {n : Fin 32} {k : Fin 2} {p : List Byte}
  (htx : (s.branch b).tx = .busy (.data last ch n k p))

include htx

/-- The end of a DATA frame of a side without the release mark. -/
theorem exec_dataFrameEnd (hmark : ((s.stream n).side k).marked = false) :
    exec (.dataFrameEnd b) s = .next ((s.withStream n ((s.stream n).endFrame k p.length)).txDone b) := by
  show Host.Outcome.next _ = _
  simp only [htx, hmark, Bool.false_eq_true, if_false]
  rfl

/-- The end of a DATA frame of a marked side is reported to the Management Engine. -/
theorem exec_dataFrameEnd_marked (hmark : ((s.stream n).side k).marked = true) :
    exec (.dataFrameEnd b) s =
      .next (((s.withStream n ((s.stream n).endFrame k p.length)).resetStreamEnd n).txDone b) := by
  show Host.Outcome.next _ = _
  simp only [htx, hmark, if_true]
  rfl

end DataEnd

theorem Stream.endFrame_free {st : Stream} {k : Fin 2} {len : Nat}
    (h : (st.side k).marked = true ∨ (st.side k).drain + len = (st.side k).fill) : st.endFrame k len = st.free k := by
  have hdone : ((st.side k).marked || (st.side k).drain + len == (st.side k).fill) = true := by simpa using h
  simp only [Stream.endFrame, Stream.advance, hdone, if_true]

theorem Stream.endFrame_advance {st : Stream} {k : Fin 2} {len : Nat} (hmark : (st.side k).marked = false)
    (h : (st.side k).drain + len ≠ (st.side k).fill) :
    st.endFrame k len = st.setSide k { st.side k with state := .closed, drain := (st.side k).drain + len } := by
  have hdone : ((st.side k).marked || (st.side k).drain + len == (st.side k).fill) = false := by simp [hmark, h]
  simp only [Stream.endFrame, Stream.advance, hdone, Bool.false_eq_true, if_false]

/-- Settles O31: the side is freed or advanced, a marked one with its report, and the port is done with the frame. -/
theorem dataFrameEnds : Obligations.DataFrameEnds := by
  intro s b last ch n k p htx st sd idle freed ended
  refine ⟨fun hmark => ?_, fun hmark hsent => ?_, fun hmark hleft => ?_⟩
  · rw [exec_dataFrameEnd_marked htx hmark, Stream.endFrame_free (.inl hmark), State.resetStreamEnd_eq]
    rfl
  · rw [exec_dataFrameEnd htx hmark, Stream.endFrame_free (.inr hsent)]
    rfl
  · rw [exec_dataFrameEnd htx hmark, Stream.endFrame_advance hmark hleft]
    rfl

end Sys2Proof.Machine
end

