-- ==== Sys2Proof/Proofs/ResetOne.lean ====
section
/-! RESET-STREAM (R42, R84, R161): the stream's own work, then the REVOKE of its key and its grants as the port queues them. -/

namespace Sys2Proof.Machine

/-! ### The revoking of a key (R130) and the grants after it -/

section Revoke

variable {s : State} {n : Fin 32} {k : RouteKey}

/-- The revoking of a key on a link that is not UP: the counts alone. -/
theorem State.revokeKey_notUp (h : (s.branch k.branch).link ≠ .up) :
    s.revokeKey n k = s.withStream n (s.stream n).noGrants := by
  simp only [State.revokeKey, if_neg h]
  rfl

/-- The revoking of a key whose port sends a frame: the counts, and the REVOKE in the queue. -/
theorem State.revokeKey_busy (h : (s.branch k.branch).link = .up) (hbusy : (s.branch k.branch).tx ≠ .idle) :
    s.revokeKey n k = (s.withStream n (s.stream n).noGrants).withBranch k.branch
      { s.branch k.branch with queue := queueRevoke (s.branch k.branch).queue k.channel k.dir } := by
  simp only [State.revokeKey]
  rw [if_pos h, State.arbitrate_busy]
  · rfl
  · rw [State.mapBranch_branch_self]
    exact hbusy

/-- The grants of a stream whose port sends a frame: the queued count, and the GRANT in the queue. -/
theorem State.issueGrants_busy (hkey : (s.stream n).entry.key? = some k) (hen : (s.stream n).entry.enabled = true)
    (hup : k.dir = .up) (hl : (s.branch k.branch).link = .up) (hbusy : (s.branch k.branch).tx ≠ .idle)
    (hgrant : 0 < (s.stream n).grantable) :
    s.issueGrants n =
      (s.withStream n { s.stream n with queued := (s.stream n).queued + (s.stream n).grantable }).withBranch k.branch
        { s.branch k.branch with
          queue := queueGrant (s.branch k.branch).queue k.channel (s.stream n).grantable } := by
  rw [State.issueGrants_queues hkey hen hup hl hgrant, State.arbitrate_busy]
  rw [State.withBranch_branch_self]
  exact hbusy

theorem State.withStream_withStream (s : State) (n : Fin 32) (a b : Stream) :
    (s.withStream n a).withStream n b = s.withStream n b :=
  s.mapStream_mapStream n (fun _ => a) fun _ => b

theorem State.withBranch_withBranch (s : State) (b : Fin 6) (x y : Branch) :
    (s.withBranch b x).withBranch b y = s.withBranch b y :=
  s.mapBranch_mapBranch b (fun _ => x) fun _ => y

end Revoke

/-! ### The stream that RESET-STREAM leaves (R42, R84) -/

theorem Side.discard_discarded (sd : Side) (dir : Dir) : sd.Discarded dir (sd.discard dir) :=
  ⟨fun h => if_pos h, fun h => if_neg h⟩

theorem Stream.discard_side (st : Stream) (k : Fin 2) : st.discard.side k = (st.side k).discard st.entry.dir := by
  rw [Stream.discard_eq, Stream.mapSides_side]

/-- A discard marks a side exactly when a DRAINING DOWN side stands (R42). -/
theorem Side.discard_marked_iff (sd : Side) (dir : Dir) :
    ((sd.discard dir).state = .draining ∧ (sd.discard dir).marked = true) ↔ (sd.state = .draining ∧ dir = .down) := by
  by_cases h : sd.state = .draining ∧ dir = .down
  · rw [Side.discard, if_pos h]
    exact ⟨fun _ => h, fun _ => ⟨h.1, rfl⟩⟩
  · rw [Side.discard, if_neg h]
    exact ⟨fun hm => absurd hm.1 (by simp), fun hd => absurd hd h⟩

theorem Stream.resetStream_marked_iff (st : Stream) : st.resetStream.marked = true ↔
    (st.entry.dir = .down ∧ (st.side0.state = .draining ∨ st.side1.state = .draining)) := by
  have h0 := Side.discard_marked_iff st.side0 st.entry.dir
  have h1 := Side.discard_marked_iff st.side1 st.entry.dir
  simp only [Stream.marked, Stream.resetStream, Stream.discard, Bool.or_eq_true, Bool.and_eq_true, beq_iff_eq, h0, h1]
  tauto

/-- RESET-STREAM leaves of the stream its sides discarded, no record, and the sequence bit and burst progress 0. -/
theorem Stream.resetStream_eq (st : Stream) : st.resetStream = { st with
    packet := none, seqBit := false, burst := 0, side0 := st.resetStream.side0, side1 := st.resetStream.side1,
    order := st.order.filter (fun k => (st.resetStream.side k).state != .free) } := by
  have hside : ∀ k, st.resetStream.side k = (st.side k).discard st.entry.dir := st.discard_side
  simp only [hside]
  rfl

/-- An UP stream has no side left after it. -/
theorem Stream.resetStream_notFree {st : Stream} (hup : st.entry.dir = .up) : st.resetStream.notFree = 0 := by
  have hside : ∀ k, (st.resetStream.side k).state = .free := fun k => by
    rw [show st.resetStream.side k = _ from st.discard_side k, Side.discard, if_neg (by simp [hup])]
    rfl
  simp [Stream.notFree, hside]

/-- With no grants outstanding it may have one for each of its sides (R129). -/
theorem Stream.resetStream_grantable {st : Stream} (hup : st.entry.dir = .up) :
    st.resetStream.noGrants.grantable = st.entry.sideCount := by
  have hnone : st.resetStream.noGrants.notFree = 0 := Stream.resetStream_notFree hup
  rw [Stream.grantable, hnone]
  rfl

theorem Entry.sideCount_pos (e : Entry) : 0 < e.sideCount := by
  unfold Entry.sideCount
  split <;> decide

/-! ### The request (R161) -/

section Request

variable {s : State} {c : CellHdr} {f : ReqFields}

/-- A RESET-STREAM with no data length passes its header checks (R141, 9.1). -/
theorem exec_resetStream (h : s.TakesRequest c f) (hlen : f.length = 0) :
    exec (.resetStream c f) s = .next ((resetStreamBody f (s.begun .resetStream f)).answer c .ack c.seq []) := by
  have hnode : s.trunk.node ≠ .detached := h.1.1.1
  exact congrArg _ (State.request_runs (r := .resetStream) h (by simp [Request.lengthOk, hlen])
    (by simp [Request.allowedIn, hnode]) (resetStreamBody f))

theorem resetStreamBody_noTarget (s : State) (h : f.stream? = none) : resetStreamBody f s = s.finish .range := by
  simp only [resetStreamBody, h]

theorem resetStreamBody_disabled {n : Fin 32} (h : f.stream? = some n) (hdis : (s.stream n).entry.enabled = false) :
    resetStreamBody f s = s.finish .wrongState := by
  simp only [resetStreamBody, h, hdis, Bool.not_false, if_true]

/-- The Management Engine that a RESET-STREAM leaves: it waits for a marked side, or has its result (R147, R161). -/
def State.mgmtReset (s : State) (f : ReqFields) (waits : Prop) [Decidable waits] : Mgmt :=
  { s.mgmt.resulted .resetStream f .done with exchange := if waits then .executing else .result }

/-- The state that the ports find: the stream reset, and the exchange and the answer as they end. -/
def State.resetOne (s : State) (c : CellHdr) (f : ReqFields) (n : Fin 32) (waits : Prop) [Decidable waits] : State :=
  (s.withStream n (s.stream n).resetStream).aside (s.mgmtReset f waits)
    { s.trunk with waiting := some (s.answerTo c .ack c.seq []) }

theorem State.aside_revokeStream (s : State) (m : Mgmt) (t : Trunk) (n : Fin 32) :
    (s.aside m t).revokeStream n = (s.revokeStream n).aside m t := by
  have hstream : (s.aside m t).stream n = s.stream n := rfl
  simp only [State.revokeStream, hstream]
  split
  · exact s.aside_revokeKey m t n _
  · rfl

/-- The commit of a RESET-STREAM on an enabled stream: the ports act on the stream as it is reset. -/
theorem resetStreamBody_answer {n : Fin 32} (htarget : f.stream? = some n) (hen : (s.stream n).entry.enabled = true)
    {waits : Prop} [Decidable waits] (hwaits : (s.stream n).resetStream.marked = true ↔ waits) :
    (resetStreamBody f (s.begun .resetStream f)).answer c .ack c.seq [] =
      ((s.resetOne c f n waits).revokeOf n).issueGrants n := by
  let v : State := (s.begun .resetStream f).mapStream n Stream.resetStream
  have hsteps : v.PortStep ((v.revokeStream n).issueGrants n) :=
    (v.revokeStream_portStep n).trans (State.issueGrants_portStep _ n)
  have hmarked : (v.stream n).marked = (s.stream n).resetStream.marked :=
    congrArg Stream.marked ((s.begun .resetStream f).mapStream_stream_self n _)
  have hbody : resetStreamBody f (s.begun .resetStream f) = if waits then ((v.revokeStream n).issueGrants n).execute
      else ((v.revokeStream n).issueGrants n).finish .done := by
    have hen' : ((s.begun .resetStream f).stream n).entry.enabled = true := hen
    simp only [resetStreamBody, htarget, hen', Bool.not_true, Bool.false_eq_true, if_false]
    exact if_congr ((Iff.of_eq (congrArg (· = true) hmarked)).trans hwaits) rfl rfl
  have hreset : s.resetOne c f n waits =
      v.aside (s.mgmtReset f waits) { s.trunk with waiting := some (s.answerTo c .ack c.seq []) } := rfl
  have hends : ((if waits then ((v.revokeStream n).issueGrants n).execute
      else ((v.revokeStream n).issueGrants n).finish .done).answer c .ack c.seq []) =
      ((v.revokeStream n).issueGrants n).aside (s.mgmtReset f waits)
        { s.trunk with waiting := some (s.answerTo c .ack c.seq []) } := by
    unfold State.mgmtReset
    split
    · simp only [State.execute, State.answer, State.mapMgmt, State.mapTrunk, State.aside, hsteps.mgmt, hsteps.trunk]
      rfl
    · simp only [State.finish, State.answer, State.mapMgmt, State.mapTrunk, State.aside, hsteps.mgmt, hsteps.trunk]
      rfl
  have hrevoke : (s.resetOne c f n waits).revokeOf n = (s.resetOne c f n waits).revokeStream n := rfl
  rw [hbody, hends, hrevoke, hreset, State.aside_revokeStream, State.aside_issueGrants]

end Request

/-! ### The ports after the reset (R129, R130, R132) -/

section Ports

variable {u : State} {n : Fin 32} {st : Stream} {k : RouteKey} (hu : u.stream n = st.resetStream)
  (hkey : st.entry.key? = some k)

include hu hkey

theorem State.revokeOf_reset : u.revokeOf n = u.revokeKey n k := by
  have hk : (u.stream n).entry.key? = some k := by rw [hu]; exact hkey
  simp only [State.revokeOf, hk]

/-- A link that is not UP: no frame, and no grants. -/
theorem State.resetPorts_notUp (hl : (u.branch k.branch).link ≠ .up) :
    (u.revokeOf n).issueGrants n = u.withStream n st.resetStream.noGrants := by
  rw [State.revokeOf_reset hu hkey, State.revokeKey_notUp hl, hu]
  refine State.issueGrants_nothing (k := k) ?_ fun h => hl h.2.1
  rw [State.withStream_stream_self]
  exact hkey

/-- A port that sends a frame: a REVOKE, and for a DOWN stream no more. -/
theorem State.resetPorts_down (hl : (u.branch k.branch).link = .up) (hbusy : (u.branch k.branch).tx ≠ .idle)
    (hdown : st.entry.dir = .down) :
    (u.revokeOf n).issueGrants n = (u.withStream n st.resetStream.noGrants).withBranch k.branch
      { u.branch k.branch with queue := queueRevoke (u.branch k.branch).queue k.channel .down } := by
  have hdir : k.dir = .down := ((Entry.key?_eq_some_iff _ _).mp hkey).2.2.symm.trans hdown
  rw [State.revokeOf_reset hu hkey, State.revokeKey_busy hl hbusy, hu, hdir]
  refine State.issueGrants_nothing (k := k) ?_ fun h => absurd (hdir.symm.trans h.1) (by simp)
  exact (congrArg (fun a : Stream => a.entry.key?) (u.withStream_stream_self n _)).trans hkey

/-- A port that sends a frame: a REVOKE, and for an UP stream a GRANT of all its sides behind it. -/
theorem State.resetPorts_up (hl : (u.branch k.branch).link = .up) (hbusy : (u.branch k.branch).tx ≠ .idle)
    (hup : st.entry.dir = .up) (hen : st.entry.enabled = true) :
    (u.revokeOf n).issueGrants n =
      (u.withStream n { st.resetStream.noGrants with queued := st.entry.sideCount }).withBranch k.branch
        { u.branch k.branch with
          queue := queueGrant (queueRevoke (u.branch k.branch).queue k.channel .up) k.channel st.entry.sideCount } := by
  have hdir : k.dir = .up := ((Entry.key?_eq_some_iff _ _).mp hkey).2.2.symm.trans hup
  have hgrantable := Stream.resetStream_grantable hup
  let revoked := (u.withStream n st.resetStream.noGrants).withBranch k.branch
    { u.branch k.branch with queue := queueRevoke (u.branch k.branch).queue k.channel .up }
  have hstream : revoked.stream n = st.resetStream.noGrants := u.withStream_stream_self n _
  have hbranch : revoked.branch k.branch =
      { u.branch k.branch with queue := queueRevoke (u.branch k.branch).queue k.channel .up } :=
    u.withBranch_branch_self k.branch _
  have hrevoked : u.revokeOf n = revoked := by
    rw [State.revokeOf_reset hu hkey, State.revokeKey_busy hl hbusy, hu, hdir]
  rw [hrevoked, State.issueGrants_busy (k := k) (by rw [hstream]; exact hkey) (by rw [hstream]; exact hen) hdir
    (by rw [hbranch]; exact hl) (by rw [hbranch]; exact hbusy)
    (by rw [hstream, hgrantable]; exact st.entry.sideCount_pos), hstream, hbranch, hgrantable]
  have hcommute : ∀ a, revoked.withStream n a =
      ((u.withStream n st.resetStream.noGrants).withStream n a).withBranch k.branch
        { u.branch k.branch with queue := queueRevoke (u.branch k.branch).queue k.channel .up } := fun _ => rfl
  rw [hcommute, State.withStream_withStream, State.withBranch_withBranch]
  simp only [Stream.noGrants, Nat.zero_add]

end Ports

/-- Settles O42: the commit hands the reset stream to its ports, which revoke its key and grant it again. -/
theorem resetStreamEmptiesOne : Obligations.ResetStreamEmptiesOne := by
  intro s c f hreq hlen
  rw [exec_resetStream hreq hlen]
  refine ⟨fun hout => ?_, fun n hn htarget => ⟨fun hdis => ?_, fun hen => ?_⟩⟩
  · rw [resetStreamBody_noTarget _ (ReqFields.stream?_eq_none hout)]
    rfl
  · rw [resetStreamBody_disabled (s := s.begun .resetStream f) (ReqFields.stream?_eq_some hn htarget) hdis]
    rfl
  · intro st waits
    have hstream : (s.resetOne c f n waits).stream n = st.resetStream := s.withStream_stream_self n _
    refine ⟨s.resetOne c f n waits, st.resetStream,
      congrArg _ (resetStreamBody_answer (ReqFields.stream?_eq_some hn htarget) hen st.resetStream_marked_iff),
      st.side0.discard_discarded _, st.side1.discard_discarded _, st.resetStream_eq, rfl, fun k hk =>
      ⟨fun hl => State.resetPorts_notUp hstream hk hl, fun hl hbusy => ?_⟩⟩
    split
    · next hup => exact State.resetPorts_up hstream hk hl hbusy hup hen
    · next hup =>
      have hdown : st.entry.dir = .down := by
        cases hd : st.entry.dir with
        | up => exact absurd hd hup
        | down => rfl
      exact State.resetPorts_down hstream hk hl hbusy hdown

end Sys2Proof.Machine
end

