-- ==== Sys2Proof/Proofs/BlindRuns.lean ====
section
/-! Changes that the issue of grants does not see (R129): a run over the streams parts into the streams' own work and the
grants that the ports then issue. -/

namespace Sys2Proof.Machine

/-! ### Changes that the grants do not see -/

/-- The queued and the in-flight grants of a stream moved: all that the grants and their GRANT frames change of it. -/
def Stream.recount (queued inFlight : Nat → Nat) (st : Stream) : Stream :=
  { st with queued := queued st.queued, inFlight := inFlight st.inFlight }

/-- A change of the state that reads and writes nothing of what the issue of grants and the sending of control frames act
on: the route map, the entries, the ports and the counts of grants. -/
structure Blind (T : State → State) : Prop where
  route : ∀ s k, (T s).route k = s.route k
  branch : ∀ s b, (T s).branch b = s.branch b
  entry : ∀ s m, ((T s).stream m).entry = (s.stream m).entry
  mapBranch : ∀ s b f, T (s.mapBranch b f) = (T s).mapBranch b f
  recount : ∀ s m p q, T (s.mapStream m (Stream.recount p q)) = (T s).mapStream m (Stream.recount p q)

theorem Blind.id : Blind (fun s => s) :=
  ⟨fun _ _ => rfl, fun _ _ => rfl, fun _ _ => rfl, fun _ _ _ => rfl, fun _ _ _ _ => rfl⟩

theorem Blind.comp {T U : State → State} (hU : Blind U) (hT : Blind T) : Blind (fun s => U (T s)) where
  route s k := (hU.route _ k).trans (hT.route s k)
  branch s b := (hU.branch _ b).trans (hT.branch s b)
  entry s m := (hU.entry _ m).trans (hT.entry s m)
  mapBranch s b f := (congrArg U (hT.mapBranch s b f)).trans (hU.mapBranch _ b f)
  recount s m p q := (congrArg U (hT.recount s m p q)).trans (hU.recount _ m p q)

theorem Blind.overStreams {op : State → Fin 32 → State} (h : ∀ n, Blind (fun s => op s n)) (ns : List (Fin 32)) :
    Blind (fun s => s.overStreams ns op) := by
  induction ns with
  | nil => exact Blind.id
  | cons n ns ih => exact ih.comp (h n)

/-- Two changes of streams commute when they commute on a stream. -/
theorem State.mapStream_comm (s : State) (m n : Fin 32) {f g : Stream → Stream} (h : ∀ st, f (g st) = g (f st)) :
    (s.mapStream m f).mapStream n g = (s.mapStream n g).mapStream m f := by
  rcases eq_or_ne m n with rfl | hmn
  · rw [State.mapStream_mapStream, State.mapStream_mapStream]
    exact congrArg (s.mapStream m) (funext fun st => (h st).symm)
  · refine State.ext_parts rfl (fun j => ?_) rfl rfl rfl (fun _ => rfl) rfl rfl rfl rfl
    by_cases hj : j = n
    · subst hj
      rw [State.mapStream_stream_self, s.mapStream_stream_ne hmn.symm, State.mapStream_stream_ne _ hmn.symm,
        State.mapStream_stream_self]
    · rw [State.mapStream_stream_ne _ hj, s.mapStream_stream, State.mapStream_stream, s.mapStream_stream_ne hj,
        s.mapStream_stream_ne hmn]

/-- A change of one stream that keeps the entry and does not read the counts of grants. -/
theorem Blind.mapStream {f : Stream → Stream} (hentry : ∀ st, (f st).entry = st.entry)
    (hcount : ∀ p q st, f (Stream.recount p q st) = Stream.recount p q (f st)) (n : Fin 32) :
    Blind (fun s => s.mapStream n f) where
  route _ _ := rfl
  branch _ _ := rfl
  entry s m := by
    rw [s.mapStream_stream]
    split
    · next hm => rw [hentry, hm]
    · rfl
  mapBranch _ _ _ := rfl
  recount s m p q := (s.mapStream_comm n m fun st => hcount p q st).symm

/-! ### Grants past such a change (R129, R134) -/

/-- A GRANT request leaves something to send (R132). -/
theorem queueGrant_ne_nil (q : List CtlEntry) (ch : Fin 8) (d : Nat) : queueGrant q ch d ≠ [] := by
  unfold queueGrant
  split
  · next hany =>
    rintro hnil
    rw [List.map_eq_nil_iff.mp hnil] at hany
    exact absurd hany (by simp)
  · simp

section Grants

variable {T : State → State} (hT : Blind T)

include hT

/-- The beginning of a control frame. -/
theorem Blind.beginControl (s : State) (b : Fin 6) (e : CtlEntry) (rest : List CtlEntry) :
    (T s).beginControl b e rest = T (s.beginControl b e rest) := by
  cases e with
  | revoke ch dir => simp only [State.beginControl, State.transmit, hT.mapBranch]
  | grant ch count =>
    have hcapacity : (T s).grantCapacity b ch = s.grantCapacity b ch := by
      simp only [State.grantCapacity, hT.route, hT.entry]
    simp only [State.beginControl, State.transmit, hcapacity, State.mapUpStream, State.mapBranch_route, hT.route]
    split
    · next n _ =>
      rw [hT.mapBranch]
      refine Eq.trans ?_ (congrArg (fun v => State.mapBranch v b _)
        (hT.recount _ n (fun x => x - count) (fun x => x + count)).symm)
      rw [hT.mapBranch]
      rfl
    · rw [hT.mapBranch, hT.mapBranch]

/-- The arbiter of a port with a control frame to send. -/
theorem Blind.arbitrate_control {s : State} {b : Fin 6} (hq : (s.branch b).queue ≠ []) :
    (T s).arbitrate b = T (s.arbitrate b) := by
  simp only [State.arbitrate, hT.branch]
  split
  · split
    · exact hT.beginControl s b _ _
    · next hnil => exact absurd hnil hq
  · rfl

/-- The issue of grants for a stream whose number of sides to grant is left as it is. -/
theorem Blind.issueGrants {s : State} {n : Fin 32} (hg : ((T s).stream n).grantable = (s.stream n).grantable) :
    (T s).issueGrants n = T (s.issueGrants n) := by
  cases hk : (s.stream n).entry.key? with
  | none =>
    have hk' : ((T s).stream n).entry.key? = none := by rw [hT.entry, hk]
    simp only [State.issueGrants, hk, hk']
  | some k =>
    have hk' : ((T s).stream n).entry.key? = some k := by rw [hT.entry, hk]
    by_cases hmay : (s.stream n).entry.enabled = true ∧ k.dir = .up ∧ (s.branch k.branch).link = .up ∧
        0 < (s.stream n).grantable
    · have hqueues : ∀ v : State, (v.stream n).entry.key? = some k → (v.stream n).entry.enabled = true →
          (v.branch k.branch).link = .up → 0 < (v.stream n).grantable →
          v.issueGrants n = ((v.mapStream n (Stream.recount (· + (v.stream n).grantable) (·))).mapBranch k.branch
            (fun br => { br with queue := queueGrant br.queue k.channel (v.stream n).grantable })).arbitrate k.branch :=
        fun v hkey hen hl hgrant => State.issueGrants_queues hkey hen hmay.2.1 hl hgrant
      rw [hqueues s hk hmay.1 hmay.2.2.1 hmay.2.2.2, hqueues (T s) hk' (by rw [hT.entry]; exact hmay.1)
        (by rw [hT.branch]; exact hmay.2.2.1) (by rw [hg]; exact hmay.2.2.2), hg, ← hT.recount, ← hT.mapBranch,
        hT.arbitrate_control]
      rw [State.mapBranch_branch_self]
      exact queueGrant_ne_nil _ _ _
    · have hnot : ∀ v : State, (v.stream n).entry = (s.stream n).entry → (v.branch k.branch) = s.branch k.branch →
          (v.stream n).grantable = (s.stream n).grantable → v.issueGrants n = v := by
        intro v hentry hbranch hgrant
        simp only [State.issueGrants, hentry, hk, hbranch, hgrant, if_neg hmay]
      rw [hnot s rfl rfl rfl, hnot (T s) (hT.entry s n) (hT.branch s _) hg]

/-- A run of grants past a change that leaves every number of sides to grant as it is. -/
theorem Blind.grantsFor (hg : ∀ s n, ((T s).stream n).grantable = (s.stream n).grantable) (ns : List (Fin 32)) :
    ∀ s : State, (T s).grantsFor ns = T (s.grantsFor ns) := by
  induction ns with
  | nil => exact fun _ => rfl
  | cons n ns ih => exact fun s => (congrArg (State.grantsFor · ns) (hT.issueGrants (hg s n))).trans (ih _)

end Grants

/-! ### What grants change of the streams -/

/-- The arbiter of a port with a control frame to send moves grants of the streams, and nothing else of them. -/
theorem State.arbitrate_recounts {s : State} {b : Fin 6} (hq : (s.branch b).queue ≠ []) (n : Fin 32) :
    ∃ p q, (s.arbitrate b).stream n = (s.stream n).recount p q := by
  rcases s.arbitrate_cases b with h | ⟨-, -, ⟨e, rest, -, h⟩ | ⟨hnil, -⟩⟩
  · exact ⟨id, id, congrArg (State.stream · n) h⟩
  · rw [h]
    cases e with
    | revoke ch dir => exact ⟨id, id, rfl⟩
    | grant ch count =>
      simp only [State.beginControl, State.transmit, State.mapBranch_stream, State.mapUpStream, State.mapBranch_route]
      split
      · next m _ =>
        rw [State.mapStream_stream]
        split
        · next hm => exact ⟨(· - count), (· + count), by rw [hm]; rfl⟩
        · exact ⟨id, id, rfl⟩
      · exact ⟨id, id, rfl⟩
  · exact absurd hnil hq

theorem State.issueGrants_recounts (s : State) (m n : Fin 32) :
    ∃ p q, (s.issueGrants m).stream n = (s.stream n).recount p q := by
  rcases s.issueGrants_cases m with h | ⟨k, -, -, -, -, -, h⟩
  · exact ⟨id, id, congrArg (State.stream · n) h⟩
  · rw [h]
    obtain ⟨p, q, hpq⟩ := State.arbitrate_recounts (s := (s.mapStream m
        (fun st => { st with queued := st.queued + (s.stream m).grantable })).mapBranch k.branch
          (fun br => { br with queue := queueGrant br.queue k.channel (s.stream m).grantable })) (b := k.branch)
      (by rw [State.mapBranch_branch_self]; exact queueGrant_ne_nil _ _ _) n
    rw [hpq, State.mapBranch_stream, State.mapStream_stream]
    split
    · next hn => exact ⟨fun x => p (x + (s.stream m).grantable), q, by rw [hn]; rfl⟩
    · exact ⟨p, q, rfl⟩

/-- What does not depend on the counts of grants is as it was after a run of grants. -/
theorem State.grantsFor_keeps {α : Type} {f : Stream → α} (hf : ∀ p q st, f (Stream.recount p q st) = f st) (n : Fin 32)
    (ns : List (Fin 32)) : ∀ s : State, f ((s.grantsFor ns).stream n) = f (s.stream n) := by
  induction ns with
  | nil => exact fun _ => rfl
  | cons m ns ih =>
    intro s
    obtain ⟨p, q, hpq⟩ := s.issueGrants_recounts m n
    exact (ih _).trans ((congrArg f hpq).trans (hf p q _))

/-! ### Runs of work and grants, parted -/

/-- A run over the streams that does each stream's own work and then perhaps issues its grants is the run of the work, and
after it the grants of the streams concerned, in the same order: no stream's work sees the grants of another, or the work
of another. -/
theorem State.overStreams_grants {work : State → Fin 32 → State} {grants : Stream → Bool}
    (hblind : ∀ n, Blind (fun s => work s n)) (hother : ∀ (s : State) n m, m ≠ n → (work s n).stream m = s.stream m)
    (hcount : ∀ p q st, grants (Stream.recount p q st) = grants st) (ns : List (Fin 32)) (hnodup : ns.Nodup) :
    ∀ s : State,
      s.overStreams ns (fun s n => if grants (s.stream n) then (work s n).issueGrants n else work s n) =
        (s.overStreams ns work).grantsFor (ns.filter (fun n => grants (s.stream n))) := by
  induction ns with
  | nil => exact fun _ => rfl
  | cons n ns ih =>
    intro s
    obtain ⟨hn, hns⟩ := List.nodup_cons.mp hnodup
    have hwork : ∀ m ∈ ns, grants ((work s n).stream m) = grants (s.stream m) := fun m hm =>
      congrArg grants (hother s n m fun e => hn (e ▸ hm))
    rw [State.overStreams_cons, State.overStreams_cons, List.filter_cons]
    split
    · have hgranted : ∀ m ∈ ns, grants (((work s n).issueGrants n).stream m) = grants (s.stream m) := fun m hm =>
        (State.grantsFor_keeps hcount m [n] _).trans (hwork m hm)
      have hgrantable : (((work s n).overStreams ns work).stream n).grantable = ((work s n).stream n).grantable := by
        refine congrArg Stream.grantable (State.overStreams_keeps (P := fun v => v.stream n = (work s n).stream n) ns
          (fun v m hm hv => ?_) _ rfl)
        exact (hother v m n fun e => hn (e ▸ hm)).trans hv
      rw [ih hns, ← (Blind.overStreams hblind ns).issueGrants hgrantable, List.filter_congr hgranted]
      rfl
    · rw [ih hns, List.filter_congr hwork]

/-! ### Reports past the clearing of the served flags (R41, R113) -/

section Served

variable (s : State) (m : Fin 32) (v : Bool)

/-- The served flag of one stream set to `v`. -/
def State.mapServed : State := s.mapStream m (fun st => { st with served := v })

theorem State.mapServed_blind : Blind (fun s => s.mapServed m v) :=
  Blind.mapStream (f := fun st => { st with served := v }) (fun _ => rfl) (fun _ _ _ => rfl) m

theorem State.mapServed_stream (n : Fin 32) :
    (s.mapServed m v).stream n = { s.stream n with served := if n = m then v else (s.stream n).served } := by
  rw [State.mapServed, s.mapStream_stream]
  split
  · next hn => rw [hn]
  · rfl

/-- Which stream a port can send next does not depend on the served flags. -/
theorem State.mapServed_nextDown? (b : Fin 6) : (s.mapServed m v).nextDown? b = s.nextDown? b := by
  have hsend : ∀ ch, (s.mapServed m v).sendable? b ch = s.sendable? b ch := by
    intro ch
    have hroute : ∀ k, (s.mapServed m v).route k = s.route k := fun _ => rfl
    simp only [State.sendable?, hroute, State.mapServed_stream]
    rfl
  simp only [State.nextDown?, hsend]
  rfl

theorem State.mapServed_beginDown (b : Fin 6) (ch : Fin 8) (n : Fin 32) (k : Fin 2) :
    (s.mapServed m v).beginDown b ch n k = (s.beginDown b ch n k).mapServed m v := by
  have hframe : (s.mapServed m v).cutFrame n k ch = s.cutFrame n k ch := by
    simp only [State.cutFrame, State.readSide, State.mapServed_stream]
    rfl
  have hstream := s.mapStream_comm m n (f := fun st => { st with served := v })
    (g := fun st => { st.setSideState k .draining with credits := st.credits - 1 }) fun st => by
      simp only [Stream.setSideState, Stream.setSide]
      split <;> rfl
  simp only [State.beginDown, hframe]
  simp only [State.mapServed, hstream]
  rfl

/-- The arbiter does not read the served flag of any stream, and keeps it. -/
theorem State.mapServed_arbitrate (b : Fin 6) : (s.mapServed m v).arbitrate b = (s.arbitrate b).mapServed m v := by
  have hhead : ∀ n, ((s.mapServed m v).stream n).closedHead? = (s.stream n).closedHead? := by
    intro n
    rw [State.mapServed_stream]
    rfl
  have hbranch : (s.mapServed m v).branch b = s.branch b := rfl
  simp only [State.arbitrate, hbranch, State.mapServed_nextDown?, hhead]
  split
  · split
    · exact (State.mapServed_blind m v).beginControl s b _ _
    · split
      · split
        · exact s.mapServed_beginDown m v b _ _ _
        · rfl
      · rfl
  · rfl

theorem State.mapServed_reportClosed (n : Fin 32) :
    (s.mapServed m v).reportClosed n = (s.reportClosed n).mapServed m v := by
  have hkey : ((s.mapServed m v).stream n).entry = (s.stream n).entry := (State.mapServed_blind m v).entry s n
  simp only [State.reportClosed, hkey]
  split
  · exact s.mapServed_arbitrate m v _
  · rfl

end Served

theorem State.clearServed_eq (s : State) :
    s.clearServed = s.overStreams streamNumbers (fun s n => s.mapServed n false) := rfl

theorem State.reportClosed_mapServed (n : Fin 32) (ms : List (Fin 32)) : ∀ s : State,
    (s.reportClosed n).overStreams ms (fun s m => s.mapServed m false) =
      (s.overStreams ms (fun s m => s.mapServed m false)).reportClosed n := by
  induction ms with
  | nil => exact fun _ => rfl
  | cons m ms ih =>
    intro s
    rw [State.overStreams_cons, State.overStreams_cons, ← State.mapServed_reportClosed, ih]

/-- Reports and the clearing of the served flags commute. -/
theorem State.clearServed_reports (ns : List (Fin 32)) :
    ∀ s : State, (s.overStreams ns State.reportClosed).clearServed = s.clearServed.overStreams ns State.reportClosed := by
  induction ns with
  | nil => exact fun s => by rw [State.overStreams_nil, State.overStreams_nil]
  | cons n ns ih =>
    intro s
    rw [State.overStreams_cons, State.overStreams_cons, ih, State.clearServed_eq (s.reportClosed n),
      State.reportClosed_mapServed, ← State.clearServed_eq]

/-- The clearing of the served flags is blind to grants, and leaves every number of sides to grant as it is. -/
theorem State.clearServed_blind : Blind State.clearServed :=
  Blind.overStreams (fun n => State.mapServed_blind n false) streamNumbers

theorem State.clearServed_stream (s : State) (n : Fin 32) :
    s.clearServed.stream n = if n ∈ streamNumbers then { s.stream n with served := false } else s.stream n :=
  State.overStreams_mapStream _ _ streamNumbers_nodup s n

theorem State.clearServed_rest (s : State) : s.clearServed = { s with streams := s.clearServed.streams } :=
  State.overStreams_mapStream_rest _ streamNumbers s

theorem State.clearServed_grantsFor (ns : List (Fin 32)) (s : State) :
    (s.grantsFor ns).clearServed = s.clearServed.grantsFor ns := by
  have hgrantable : ∀ (s : State) n, (s.clearServed.stream n).grantable = (s.stream n).grantable := by
    intro s n
    rw [State.clearServed_stream]
    split <;> rfl
  exact (State.clearServed_blind.grantsFor hgrantable ns s).symm

end Sys2Proof.Machine
end

