-- ==== Sys2Proof/Proofs/LossNotice.lean ====
section
/-! The loss of the timebase (R100, R115): the discards of the cyclic streams, parted from the grants of the freed sides. -/

namespace Sys2Proof.Machine

/-! ### One stream at the loss notice (R44, R115) -/

/-- What the loss notice leaves of a stream, its served flag aside: the sides of an enabled CYCLIC stream are discarded and
counted. -/
def Stream.cyclicLost (st : Stream) : Stream :=
  if st.isCyclic then
    { st.discard with counters := { st.counters with sidesLost := satIncBy st.discardCount st.counters.sidesLost } }
  else st

/-- A stream of which the loss notice frees a side that is to be granted again. -/
def Stream.lossGrants (st : Stream) : Bool := st.isCyclic && (st.entry.dir == .up && decide (0 < st.discardCount))

theorem State.loseCyclic_eq (s : State) (n : Fin 32) : s.loseCyclic n =
    if (s.stream n).lossGrants then (s.mapStream n Stream.cyclicLost).issueGrants n else s.mapStream n Stream.cyclicLost := by
  unfold State.loseCyclic
  by_cases hc : (s.stream n).isCyclic = true
  · have hwork : (s.mapStream n Stream.discard).countStream n
        (fun k => { k with sidesLost := satIncBy (s.stream n).discardCount k.sidesLost }) =
        s.mapStream n Stream.cyclicLost := by
      rw [State.countStream, State.mapStream_mapStream]
      exact s.mapStream_congr n (by simp only [Stream.cyclicLost, hc, if_true]; rfl)
    simp only [hc, if_true, hwork, Stream.lossGrants, Bool.true_and]
  · have hwork : s.mapStream n Stream.cyclicLost = s :=
      State.mapStream_of_fixed (by simp only [Stream.cyclicLost, hc]; rfl)
    simp [hc, hwork, Stream.lossGrants]

theorem Stream.cyclicLost_blind (n : Fin 32) : Blind (fun s => s.mapStream n Stream.cyclicLost) := by
  refine Blind.mapStream (fun st => ?_) (fun p q st => ?_) n
  · unfold Stream.cyclicLost
    split <;> rfl
  · have hcyclic : (Stream.recount p q st).isCyclic = st.isCyclic := rfl
    simp only [Stream.cyclicLost, hcyclic]
    split <;> rfl

/-- The loss notice: the streams' own work and the served flags, and then the grants of the freed sides. -/
theorem State.lossNotice_eq (s : State) : s.lossNotice =
    ((s.overStreams streamNumbers (fun s n => s.mapStream n Stream.cyclicLost)).clearServed).grantsFor
      (streamNumbers.filter (fun n => (s.stream n).lossGrants)) := by
  have hrun := State.overStreams_grants (grants := Stream.lossGrants) Stream.cyclicLost_blind
    (fun s n m hm => s.mapStream_stream_ne hm _) (fun _ _ _ => rfl) streamNumbers streamNumbers_nodup s
  rw [← State.clearServed_grantsFor, ← hrun, State.lossNotice]
  exact congrArg (fun op => (s.overStreams streamNumbers op).clearServed) (funext₂ State.loseCyclic_eq)

/-! ### The statement's own words -/

theorem Stream.isCyclic_iff (st : Stream) : st.isCyclic = true ↔ st.entry.enabled = true ∧ st.entry.cls = .cyclic := by
  simp [Stream.isCyclic]

theorem Stream.lossGrants_iff (st : Stream) : st.lossGrants = true ↔
    (st.entry.enabled = true ∧ st.entry.Is .cyclic .up ∧ (st.side0.state ≠ .free ∨ st.side1.state ≠ .free)) := by
  have hcount : 0 < st.discardCount ↔ (st.side0.state ≠ .free ∨ st.side1.state ≠ .free) := by
    unfold Stream.discardCount
    by_cases h0 : st.side0.state = .free <;> by_cases h1 : st.side1.state = .free <;> simp [h0, h1]
  simp only [Stream.lossGrants, Bool.and_eq_true, st.isCyclic_iff, beq_iff_eq, decide_eq_true_eq, hcount, and_assoc]

theorem Stream.side_served_counters (st : Stream) (v : Bool) (c : StreamCounters) (k : Fin 2) :
    Stream.side { st with served := v, counters := c } k = st.side k := rfl

/-! ### The expiry at the coast limit (R100, R103, R104) -/

/-- The state after the loss of the timebase, before the grants of the freed sides. -/
def State.cyclicLoss (s : State) : State :=
  (((s.mapTimebase (fun t => { t with state := .lost, measured := none, timer := none })).offerPlain
    .timebaseLost 0).overStreams streamNumbers (fun s n => s.mapStream n Stream.cyclicLost)).clearServed

theorem State.cyclicLoss_stream_zero (s : State) : s.cyclicLoss.stream 0 = s.stream 0 := by
  rw [State.cyclicLoss, State.clearServed_stream, if_neg (by simp), State.overStreams_mapStream _ _ streamNumbers_nodup,
    if_neg (by simp)]
  rfl

theorem State.cyclicLoss_stream (s : State) {n : Fin 32} (hn : n ≠ 0) :
    s.cyclicLoss.stream n = { (s.stream n).cyclicLost with served := false } := by
  rw [State.cyclicLoss, State.clearServed_stream, if_pos (by simp [hn]), State.overStreams_mapStream _ _ streamNumbers_nodup,
    if_pos (by simp [hn])]
  rfl

theorem State.cyclicLoss_rest (s : State) : s.cyclicLoss = { s with
    timebase := { s.timebase with state := .lost, measured := none, timer := none },
    events := s.events.offer s.timebase.count .timebaseLost 0xFF#8 0xFF#8 0, streams := s.cyclicLoss.streams } := by
  rw [State.cyclicLoss, State.clearServed_rest, State.overStreams_mapStream_rest]
  rfl

/-- The loss of the timebase, with the grants of the freed sides in the statement's words. -/
theorem State.timebaseLost_eq (s : State) : s.timebaseLost =
    s.cyclicLoss.grantsFor (streamNumbers.filter (fun n => decide
      ((s.stream n).entry.enabled = true ∧ (s.stream n).entry.Is .cyclic .up ∧
        ((s.stream n).side0.state ≠ .free ∨ (s.stream n).side1.state ≠ .free)))) := by
  have hgrants : ∀ n, (s.stream n).lossGrants = decide
      ((s.stream n).entry.enabled = true ∧ (s.stream n).entry.Is .cyclic .up ∧
        ((s.stream n).side0.state ≠ .free ∨ (s.stream n).side1.state ≠ .free)) := fun n => by
    rw [Bool.eq_iff_iff, decide_eq_true_eq, Stream.lossGrants_iff]
  rw [State.timebaseLost, State.lossNotice_eq]
  simp only [State.offerPlain_stream, State.mapTimebase_stream, hgrants]
  rfl

/-- Settles O22: the streams' work parted from their grants (`State.lossNotice_eq`), stream by stream. -/
theorem timerLosesTimebase : Obligations.TimerLosesTimebase := by
  refine ⟨fun s time harmed hlimit => ?_, fun s time harmed => ?_⟩
  · refine ⟨s.cyclicLoss, ?_, congrArg State.timebase s.cyclicLoss_rest, congrArg State.events s.cyclicLoss_rest,
      s.cyclicLoss_stream_zero, fun n hn hnot => ?_, fun n hn hen hcyclic => ?_, ?_⟩
    · have hlost : s.timerExpires time = s.timebaseLost := by
        simp [State.timerExpires, Timebase.expires, harmed, Nat.not_lt.mpr hlimit]
      exact congrArg _ (hlost.trans s.timebaseLost_eq)
    · rw [s.cyclicLoss_stream hn, Stream.cyclicLost, if_neg (mt (s.stream n).isCyclic_iff.mp hnot)]
    · have hstream : s.cyclicLoss.stream n = { (s.stream n).discard with
          served := false, counters := { (s.stream n).counters with
            sidesLost := satIncBy (s.stream n).discardCount (s.stream n).counters.sidesLost } } := by
        rw [s.cyclicLoss_stream hn, Stream.cyclicLost, if_pos ((s.stream n).isCyclic_iff.mpr ⟨hen, hcyclic⟩)]
      have hside : ∀ k, (s.cyclicLoss.stream n).side k = ((s.stream n).side k).discard (s.stream n).entry.dir := fun k => by
        rw [hstream, Stream.side_served_counters, Stream.discard_side]
      have hside0 : (s.cyclicLoss.stream n).side0 = (s.stream n).side0.discard (s.stream n).entry.dir := hside 0
      have hside1 : (s.cyclicLoss.stream n).side1 = (s.stream n).side1.discard (s.stream n).entry.dir := hside 1
      refine ⟨?_, ?_, ?_⟩
      · rw [hside0]
        exact Side.discard_discarded _ _
      · rw [hside1]
        exact Side.discard_discarded _ _
      · rw [hside0, hside1, funext hside, hstream]
        rfl
    · rw [s.cyclicLoss_rest]
  · have hkept : s.timerExpires time = s := by simp [State.timerExpires, Timebase.expires, harmed]
    exact congrArg _ hkept

end Sys2Proof.Machine
end

