-- ==== Sys2Proof/Proofs/BoundaryWork.lean ====
section
/-! The boundary work (R112 to R114): flushes, releases and cleared flags, parted from the reports and the grants. -/

namespace Sys2Proof.Machine

/-! ### One stream at the unserved check (R43, R112) -/

/-- What the unserved check for an ending count leaves of a stream: a miss counted, and a flushed side FREE and out of the
close order. -/
def Stream.checked (st : Stream) (ending : Option Half) : Stream :=
  { st with
    counters := if ∃ e ∈ ending, st.Misses e then st.counters.missed else st.counters,
    side0 := if ∃ e ∈ ending, st.Flushes e 0 then Side.empty else st.side0,
    side1 := if ∃ e ∈ ending, st.Flushes e 1 then Side.empty else st.side1,
    order := st.order.filter (fun k => !decide (∃ e ∈ ending, st.Flushes e k)) }

/-- The unserved check of stream `n` with its events, before the grants of a flushed side. -/
def State.checked (ending : Option Half) (s : State) (n : Fin 32) : State :=
  (s.setEvents ((s.stream n).boundaryEvents n ending s.timebase.count s.events)).mapStream n (fun st => st.checked ending)

/-- A stream that the check flushes, and whose grants it issues. -/
def Stream.flushes (st : Stream) (ending : Option Half) : Bool := decide (∃ k, ∃ e ∈ ending, st.Flushes e k)

theorem Stream.unserved_iff (st : Stream) (e : Half) : st.unserved e = true ↔ st.Misses e := by
  simp [Stream.unserved, Stream.isCyclic, and_assoc]

theorem Stream.Drains.unique {st : Stream} {j k : Fin 2} (hj : st.Drains j) (hk : st.Drains k) : j = k :=
  Option.some.inj (hj.1.symm.trans hk.1)

section Check

variable {st : Stream} {e : Half}

/-- A stream that misses nothing is left as it is. -/
theorem Stream.checked_served (h : ¬ st.Misses e) : st.checked (some e) = st := by
  have hflush : ∀ k, ¬ st.Flushes e k := fun k hk => h hk.1
  simp [Stream.checked, h, hflush]

theorem Stream.checked_missed (h : st.Misses e) (hflush : ∀ k, ¬ st.Flushes e k) :
    st.checked (some e) = { st with counters := st.counters.missed } := by
  simp [Stream.checked, h, hflush]

/-- Only the oldest CLOSED side is flushed. -/
theorem Stream.Flushes.iff_eq {k : Fin 2} (h : st.Flushes e k) (j : Fin 2) :
    (∃ e' ∈ some e, st.Flushes e' j) ↔ j = k := by
  constructor
  · rintro ⟨e', he, hj⟩
    exact hj.2.2.2.unique h.2.2.2
  · rintro rfl
    exact ⟨e, rfl, h⟩

theorem Stream.checked_flushed {k : Fin 2} (h : st.Flushes e k) :
    st.checked (some e) = Stream.free { st with counters := st.counters.missed } k := by
  have hmiss : ∃ e' ∈ some e, st.Misses e' := ⟨e, rfl, h.1⟩
  simp only [Stream.checked, if_pos hmiss, h.iff_eq, Stream.free, Stream.setSide]
  rcases Fin.exists_fin_two.mp ⟨k, rfl⟩ with rfl | rfl <;> rfl

theorem Stream.boundaryEvents_served (h : ¬ st.Misses e) (n : Fin 32) (count : Half) (q : EventQueue) :
    st.boundaryEvents n (some e) count q = q := by
  simp [Stream.boundaryEvents, h]

theorem Stream.boundaryEvents_missed (h : st.Misses e) (hflush : ∀ k, ¬ st.Flushes e k) (n : Fin 32) (count : Half)
    (q : EventQueue) :
    st.boundaryEvents n (some e) count q = q.offer count .intervalMiss (streamByte n) st.entry.branch 3 := by
  have hmiss : ∃ e' ∈ some e, st.Misses e' := ⟨e, rfl, h⟩
  have hnone : ∀ k, ¬ ∃ e' ∈ some e, st.Flushes e' k := by
    rintro k ⟨e', he, hk⟩
    obtain rfl := Option.some.inj he
    exact hflush k hk
  simp only [Stream.boundaryEvents, if_pos hmiss, if_neg (hnone 0), if_neg (hnone 1)]
  rfl

theorem Stream.boundaryEvents_flushed {k : Fin 2} (h : st.Flushes e k) (n : Fin 32) (count : Half) (q : EventQueue) :
    st.boundaryEvents n (some e) count q =
      (q.offer count .intervalMiss (streamByte n) st.entry.branch 3).offer count .staleFlush (streamByte n)
        st.entry.branch (byteOf k.val) := by
  have hmiss : ∃ e' ∈ some e, st.Misses e' := ⟨e, rfl, h.1⟩
  simp only [Stream.boundaryEvents, if_pos hmiss, h.iff_eq]
  rcases Fin.exists_fin_two.mp ⟨k, rfl⟩ with rfl | rfl <;> rfl

/-- A check flushes a stream when it flushes one of its sides (R43). -/
theorem Stream.flushes_iff : st.flushes (some e) = true ↔ ∃ k, st.Flushes e k := by
  simp [Stream.flushes]

end Check

section Unserved

variable {s : State} {n : Fin 32} {e : Half}

theorem State.checked_served (h : ¬ (s.stream n).Misses e) : State.checked (some e) s n = s := by
  rw [State.checked, Stream.boundaryEvents_served h]
  exact State.mapStream_of_fixed (Stream.checked_served h)

theorem State.checked_missed (h : (s.stream n).Misses e) (hflush : ∀ k, ¬ (s.stream n).Flushes e k) :
    State.checked (some e) s n = s.intervalMiss n 3 := by
  rw [State.checked, Stream.boundaryEvents_missed h hflush, State.intervalMiss_eq]
  exact congrArg (State.withStream _ n) (Stream.checked_missed h hflush)

theorem State.checked_flushed {k : Fin 2} (h : (s.stream n).Flushes e k) :
    State.checked (some e) s n =
      ((s.intervalMiss n 3).mapStream n (fun st => st.free k)).offerStream n .staleFlush (byteOf k.val) := by
  have hfree : ∀ st : Stream, (st.free k).entry = st.entry := fun st => st.setSide_entry k _
  have hmissed : ∀ st : Stream, Stream.entry { st with counters := st.counters.missed } = st.entry := fun _ => rfl
  rw [State.checked, Stream.boundaryEvents_flushed h, State.offerStream_mapStream _ _ _ hfree, State.intervalMiss,
    State.countStream, State.offerStream_mapStream _ _ _ hmissed, State.offerStream_mapStream _ _ _ hmissed,
    State.mapStream_mapStream]
  exact congrArg (State.withStream _ n) (Stream.checked_flushed h)

/-- The side that a stale flush takes is the CLOSED head; an INTERVAL-MISS does not move it. -/
theorem State.intervalMiss_closedHead? (s : State) (n : Fin 32) (d : Byte) :
    ((s.intervalMiss n d).stream n).closedHead? = (s.stream n).closedHead? := by
  rw [State.intervalMiss_eq, State.withStream_stream_self]
  rfl

/-- The unserved check as its work, and the grants of a side that it flushed (R43, R112). -/
theorem State.unservedCheck_eq (e : Half) (s : State) (n : Fin 32) : State.unservedCheck e s n =
    if (s.stream n).flushes (some e) then (State.checked (some e) s n).issueGrants n else State.checked (some e) s n := by
  simp only [State.unservedCheck, Stream.unserved_iff, Stream.flushes_iff]
  by_cases hm : (s.stream n).Misses e
  · rw [if_pos hm]
    by_cases hf : ∃ k, (s.stream n).Flushes e k
    · rw [if_pos hf]
      obtain ⟨k, hk⟩ := hf
      have hmay : ((s.stream n).entry.dir == .up && (s.stream n).entry.staleFlush) = true := by simp [hk.2.1, hk.2.2.1]
      rw [if_pos hmay, State.checked_flushed hk]
      simp only [State.staleFlush, State.intervalMiss_closedHead?, (Stream.drains_iff _ k).mp hk.2.2.2]
    · rw [if_neg hf, State.checked_missed hm fun k hk => hf ⟨k, hk⟩]
      split
      · next hmay =>
        simp only [Bool.and_eq_true, beq_iff_eq] at hmay
        have hnone : (s.stream n).closedHead? = none :=
          Stream.closedHead?_eq_none fun k hk => hf ⟨k, hm, hmay.1, hmay.2, hk⟩
        simp only [State.staleFlush, State.intervalMiss_closedHead?, hnone]
      · rfl
  · rw [if_neg hm, if_neg fun ⟨k, hk⟩ => hm hk.1, State.checked_served hm]

end Unserved

/-! ### The run of the checks -/

theorem Stream.checked_none (st : Stream) : st.checked none = st := by
  simp [Stream.checked]

theorem State.checked_none (s : State) (n : Fin 32) : State.checked none s n = s := by
  have hevents : (s.stream n).boundaryEvents n none s.timebase.count s.events = s.events := by
    simp [Stream.boundaryEvents]
  rw [State.checked, hevents]
  exact State.mapStream_of_fixed (Stream.checked_none _)

/-- The check reads and writes nothing that the grants of another stream move. -/
theorem State.checked_blind (ending : Option Half) (n : Fin 32) : Blind (fun s => State.checked ending s n) := by
  have hevents : Blind (fun s => s.setEvents ((s.stream n).boundaryEvents n ending s.timebase.count s.events)) := by
    refine ⟨fun _ _ => rfl, fun _ _ => rfl, fun _ _ => rfl, fun _ _ _ => rfl, fun s m p q => ?_⟩
    have hsame : ((s.mapStream m (Stream.recount p q)).stream n).boundaryEvents n ending s.timebase.count s.events =
        (s.stream n).boundaryEvents n ending s.timebase.count s.events := by
      rw [s.mapStream_stream]
      split
      · next hn => rw [hn]; rfl
      · rfl
    exact congrArg (State.setEvents _) hsame
  exact (Blind.mapStream (f := fun st => st.checked ending) (fun _ => rfl) (fun _ _ _ => rfl) n).comp hevents

/-- The checks of all streams change the events, by the streams as they stood, and each stream once. -/
theorem State.overStreams_checked (ending : Option Half) (ns : List (Fin 32)) (hnodup : ns.Nodup) : ∀ s : State,
    s.overStreams ns (State.checked ending) =
      (s.setEvents (ns.foldl (fun q n => (s.stream n).boundaryEvents n ending s.timebase.count q) s.events)).overStreams ns
        (fun s n => s.mapStream n (fun st => st.checked ending)) := by
  induction ns with
  | nil => exact fun _ => rfl
  | cons n ns ih =>
    intro s
    obtain ⟨hn, hns⟩ := List.nodup_cons.mp hnodup
    have hevents : ∀ q, ns.foldl (fun q m => ((State.checked ending s n).stream m).boundaryEvents m ending s.timebase.count q) q
        = ns.foldl (fun q m => (s.stream m).boundaryEvents m ending s.timebase.count q) q := fun q =>
      List.foldl_ext _ _ q fun q m hm => by
        have hmn : m ≠ n := fun e => hn (e ▸ hm)
        rw [State.checked, State.mapStream_stream_ne _ hmn]
        rfl
    rw [State.overStreams_cons, State.overStreams_cons, ih hns, List.foldl_cons, ← hevents]
    rfl

/-- The unserved checks, with the grants of the flushed sides after all of them (R112). -/
theorem State.boundaryWork_checks (s : State) (ending : Option Half) : s.boundaryWork ending =
    (((s.overStreams streamNumbers (State.checked ending)).grantsFor
      (streamNumbers.filter (fun n => (s.stream n).flushes ending))).releaseHeld).clearServed := by
  cases ending with
  | none =>
    have hchecks : s.overStreams streamNumbers (State.checked none) = s :=
      State.overStreams_keeps (P := fun t => t = s) streamNumbers (fun t n _ ht => (t.checked_none n).trans ht) s rfl
    have hnone : streamNumbers.filter (fun n => (s.stream n).flushes none) = [] := by simp [Stream.flushes]
    rw [hchecks, hnone]
    rfl
  | some e =>
    have hrun := State.overStreams_grants (grants := fun st => st.flushes (some e)) (State.checked_blind (some e))
      (fun s n m hm => State.mapStream_stream_ne _ hm _) (fun _ _ _ => rfl) streamNumbers streamNumbers_nodup s
    rw [← hrun, State.boundaryWork]
    exact congrArg (fun op => (s.overStreams streamNumbers op).releaseHeld.clearServed)
      (funext₂ (State.unservedCheck_eq e))

/-! ### The releases (R31, R113) -/

/-- A stream whose HELD sides a boundary releases. -/
def Stream.releases (st : Stream) : Bool := st.isCyclic && st.entry.dir == .down && st.held

theorem Stream.releases_iff (st : Stream) : st.releases = true ↔ st.Releases := by
  simp [Stream.releases, Stream.isCyclic, Stream.held, and_assoc]

theorem State.heldStreams_eq (s : State) : s.heldStreams = streamNumbers.filter (fun n => (s.stream n).releases) := rfl

/-- A DOWN stream flushes nothing (R43). -/
theorem Stream.not_flushes_down {st : Stream} (hd : st.entry.dir = .down) (ending : Option Half) (k : Fin 2) :
    ¬ ∃ e ∈ ending, st.Flushes e k := by
  rintro ⟨e, -, hk⟩
  exact absurd (hd.symm.trans hk.2.1) (by simp)

/-- The unserved check moves no HELD side of a DOWN stream. -/
theorem Stream.checked_releases (st : Stream) (ending : Option Half) : (st.checked ending).releases = st.releases := by
  cases hd : st.entry.dir with
  | up =>
    have hup : (st.checked ending).entry.dir = .up := hd
    have hne : (Dir.up == Dir.down) = false := rfl
    simp only [Stream.releases, hd, hup, hne, Bool.and_false, Bool.false_and]
  | down =>
    have hno := Stream.not_flushes_down hd ending
    simp only [Stream.releases, Stream.held, Stream.checked, if_neg (hno 0), if_neg (hno 1)]
    rfl

theorem Stream.release_blind (n : Fin 32) : Blind (fun s => s.mapStream n Stream.release) :=
  Blind.mapStream (f := Stream.release) (fun _ => rfl) (fun _ _ _ => rfl) n

/-- A released side is no more FREE than a HELD one. -/
theorem Stream.release_grantable (st : Stream) : st.release.grantable = st.grantable := by
  have hside : ∀ k, ((st.release.side k).state != .free) = ((st.side k).state != .free) := by
    intro k
    have hk : st.release.side k = (st.side k).release := by
      unfold Stream.side
      split <;> rfl
    rw [hk, Side.release]
    split
    · next hheld => rw [hheld]; rfl
    · rfl
  have hcount : st.release.notFree = st.notFree := congrArg List.length (List.filter_congr fun k _ => hside k)
  rw [Stream.grantable, hcount]
  rfl

/-! ### The work of a boundary (R112 to R114) -/

/-- The state that the boundary work leaves, before its grants and reports. -/
def State.boundaryDone (s : State) (ending : Option Half) : State :=
  ((s.overStreams streamNumbers (State.checked ending)).overStreams
    (streamNumbers.filter (fun n => (s.stream n).releases)) (fun s n => s.mapStream n Stream.release)).clearServed

section Work

variable (s : State) (ending : Option Half)

theorem State.overStreams_checked_stream (n : Fin 32) : (s.overStreams streamNumbers (State.checked ending)).stream n =
    if n ∈ streamNumbers then (s.stream n).checked ending else s.stream n := by
  rw [State.overStreams_checked ending _ streamNumbers_nodup, State.overStreams_mapStream _ _ streamNumbers_nodup]
  rfl

/-- The boundary work parted: the streams' own work, then the grants of the flushed sides, then the reports of the released
ones. -/
theorem State.boundaryWork_eq : s.boundaryWork ending =
    ((s.boundaryDone ending).grantsFor (streamNumbers.filter (fun n => (s.stream n).flushes ending))).overStreams
      (streamNumbers.filter (fun n => (s.stream n).releases)) State.reportClosed := by
  let checks := s.overStreams streamNumbers (State.checked ending)
  let flushed := streamNumbers.filter (fun n => (s.stream n).flushes ending)
  let released := streamNumbers.filter (fun n => (s.stream n).releases)
  have hheld : (checks.grantsFor flushed).heldStreams = released := by
    rw [State.heldStreams_eq]
    refine List.filter_congr fun n hn => ?_
    rw [State.grantsFor_keeps (f := Stream.releases) (fun _ _ _ => rfl), State.overStreams_checked_stream, if_pos hn,
      Stream.checked_releases]
  have hrelease : (checks.grantsFor flushed).overStreams released (fun s n => s.mapStream n Stream.release) =
      (checks.overStreams released (fun s n => s.mapStream n Stream.release)).grantsFor flushed := by
    refine ((Blind.overStreams Stream.release_blind released).grantsFor (fun v n => ?_) flushed checks).symm
    rw [State.overStreams_mapStream _ _ (streamNumbers_nodup.filter _)]
    split
    · exact Stream.release_grantable _
    · rfl
  rw [State.boundaryWork_checks, State.releaseHeld]
  show State.clearServed (((checks.grantsFor flushed).overStreams (checks.grantsFor flushed).heldStreams _).overStreams
    (checks.grantsFor flushed).heldStreams _) = _
  rw [hheld, hrelease, State.clearServed_reports, State.clearServed_grantsFor]
  rfl

theorem Stream.sideAtBoundary_released {st : Stream} (h : st.Releases) (k : Fin 2) :
    st.sideAtBoundary ending k = (st.side k).release := by
  rw [Stream.sideAtBoundary, if_neg (Stream.not_flushes_down h.2.1.2 ending k)]
  exact if_congr (and_iff_right h) rfl rfl

theorem Stream.sideAtBoundary_kept {st : Stream} (h : ¬ st.Releases) (k : Fin 2) :
    st.sideAtBoundary ending k = if ∃ e ∈ ending, st.Flushes e k then Side.empty else st.side k := by
  rw [Stream.sideAtBoundary]
  exact if_congr Iff.rfl rfl (if_neg fun hk => h hk.1)

/-- The stream that the boundary work leaves, in the statement's words. -/
theorem Stream.atBoundary_eq (st : Stream) : { (if st.releases then (st.checked ending).release else st.checked ending) with
    served := false } = st.atBoundary ending := by
  by_cases hr : st.Releases
  · have hno := Stream.not_flushes_down hr.2.1.2 ending
    rw [if_pos (st.releases_iff.mpr hr), Stream.atBoundary, Stream.sideAtBoundary_released ending hr,
      Stream.sideAtBoundary_released ending hr, Stream.release, Stream.checked]
    simp only [if_neg (hno _)]
    rfl
  · rw [if_neg (mt st.releases_iff.mp hr), Stream.atBoundary, Stream.sideAtBoundary_kept ending hr,
      Stream.sideAtBoundary_kept ending hr]
    rfl

theorem State.boundaryDone_stream {n : Fin 32} (hn : n ≠ 0) :
    (s.boundaryDone ending).stream n = (s.stream n).atBoundary ending := by
  have hmem := (mem_streamNumbers n).mpr hn
  have hreleased : n ∈ streamNumbers.filter (fun n => (s.stream n).releases) ↔ (s.stream n).releases = true := by
    simp [hn]
  rw [State.boundaryDone, State.clearServed_stream, if_pos hmem,
    State.overStreams_mapStream _ _ (streamNumbers_nodup.filter _), State.overStreams_checked_stream, if_pos hmem,
    ← Stream.atBoundary_eq]
  simp only [hreleased]

theorem State.boundaryDone_stream_zero : (s.boundaryDone ending).stream 0 = s.stream 0 := by
  rw [State.boundaryDone, State.clearServed_stream, if_neg (by simp),
    State.overStreams_mapStream _ _ (streamNumbers_nodup.filter _), if_neg (by simp), State.overStreams_checked_stream,
    if_neg (by simp)]

theorem State.boundaryDone_rest : s.boundaryDone ending = { s with
    events := streamNumbers.foldl (fun q n => (s.stream n).boundaryEvents n ending s.timebase.count q) s.events,
    streams := (s.boundaryDone ending).streams } := by
  rw [State.boundaryDone, State.clearServed_rest, State.overStreams_mapStream_rest,
    State.overStreams_checked _ _ streamNumbers_nodup, State.overStreams_mapStream_rest]
  rfl

/-- The boundary work that a timebase begins which has ended in `tb` and offered the events of `q`. -/
theorem State.boundaryEffects (tb : Timebase) (q : EventQueue) :
    s.BoundaryEffects (State.boundaryWork { s with timebase := tb, events := q } ending) tb q ending := by
  let v : State := { s with timebase := tb, events := q }
  have hflushes : ∀ n, (s.stream n).flushes ending = decide (∃ k, ∃ e ∈ ending, (s.stream n).Flushes e k) := fun _ => rfl
  have hreleases : ∀ n, (s.stream n).releases = decide (s.stream n).Releases := fun n => by
    rw [Bool.eq_iff_iff, decide_eq_true_eq, Stream.releases_iff]
  refine ⟨v.boundaryDone ending, congrArg State.events (v.boundaryDone_rest ending), v.boundaryDone_stream_zero ending,
    fun n hn => v.boundaryDone_stream ending hn, ?_, ?_⟩
  · rw [v.boundaryDone_rest ending]
  · rw [State.boundaryWork_eq]
    simp only [← hreleases]
    rfl

end Work

end Sys2Proof.Machine
end

