-- ==== Sys2Proof/Proofs/Boundaries.lean ====
section
/-! The boundaries that do the boundary work: the timer's (R99) and a marker's (R97, R98). -/

namespace Sys2Proof.Machine

/-! ### The boundary of the timer (R99) -/

/-- Settles O21: the boundary work on the state whose timebase has interpolated (`State.boundaryEffects`). -/
theorem timerMakesInterpolatedBoundary : Obligations.TimerMakesInterpolatedBoundary := by
  intro s time harmed hbelow
  have hexpires : s.timerExpires time = s.timerBoundary time := by
    simp only [State.timerExpires, Timebase.expires, harmed, beq_self_eq_true, if_true, if_pos hbelow]
  have hcoasting : (if s.timebase.state = .locked then
      (s.mapTimebase (fun t => t.interpolate time)).offerPlain .timebaseCoasting 0
      else s.mapTimebase (fun t => t.interpolate time)) =
      { s with timebase := s.timebase.interpolate time, events := if s.timebase.state = .locked then
          s.events.offer (s.timebase.count + 1) .timebaseCoasting 0xFF#8 0xFF#8 0 else s.events } := by
    split <;> rfl
  refine ⟨s.timerBoundary time, congrArg Host.Outcome.next hexpires, ?_⟩
  rw [State.timerBoundary, hcoasting]
  exact s.boundaryEffects _ _ _

/-! ### What a marker measures (R90, R97) -/

theorem CycleLength.tolerates_iff (l : CycleLength) (span : Ticks) :
    l.tolerates span = true ↔ l.ticks - l.ticks / 8 ≤ span ∧ span ≤ l.ticks + l.ticks / 8 := by
  simp [CycleLength.tolerates]

section Measure

variable {t : Timebase} {b : Boundary} (h : t.last = some b) (time : Ticks)

include h

/-- A marker measures from a marker boundary alone. -/
theorem Timebase.measure_eq : t.measure time = if b.kind = .marker then some (time - b.time) else none := by
  obtain ⟨t0, kind⟩ := b
  cases kind <;> simp [Timebase.measure, h]

theorem Timebase.adopt_measure : t.adopt (t.measure time) =
    if b.kind = .marker ∧ (t.length.ticks - t.length.ticks / 8 ≤ time - b.time ∧
      time - b.time ≤ t.length.ticks + t.length.ticks / 8) then some (time - b.time) else t.measured := by
  rw [Timebase.measure_eq h]
  by_cases hk : b.kind = .marker <;> simp [Timebase.adopt, hk, CycleLength.tolerates_iff]

theorem Timebase.offInterval_iff : t.offInterval time = true ↔
    b.kind = .marker ∧ ¬ (t.length.ticks - t.length.ticks / 8 ≤ time - b.time ∧
      time - b.time ≤ t.length.ticks + t.length.ticks / 8) := by
  rw [Timebase.offInterval, Timebase.measure_eq h, ← CycleLength.tolerates_iff]
  by_cases hk : b.kind = .marker <;> simp [hk]

/-- A marker outside the capture window of an unclaimed boundary claims nothing (R93 test 1). -/
theorem Timebase.claims_eq_false
    (hno : ¬ (b.kind = .interpolated false ∧ time - b.time ≤ t.length.ticks / 8)) : t.claims time = false := by
  obtain ⟨t0, kind⟩ := b
  rcases kind with _ | _ | _ <;> simp_all [Timebase.claims, CycleLength.captures]

/-- A marker at least L/2 after the last boundary is no runt (R93 test 2). -/
theorem Timebase.tooEarly_eq_false (hlate : t.length.ticks / 2 ≤ time - b.time) : t.tooEarly time = false := by
  simp only [Timebase.tooEarly, h, CycleLength.isRunt, decide_eq_false_iff_not]
  exact Nat.not_lt.mpr hlate

end Measure

/-! ### The boundary of a marker (R97, R98) -/

/-- The offer of a MARKER-SKEW with the detail given, if one is. -/
def State.offerSkew (s : State) (detail : Option Byte) : State :=
  match detail with
  | some d => s.offerPlain .markerSkew d
  | none => s

theorem State.markerBoundary_eq (s : State) (k : Half) (time : Ticks) : s.markerBoundary k time =
    ((((s.mapTimebase (fun t => t.boundary k time)).offerSkew
      (skewDetail? (decide (k ≠ s.timebase.count + 1)) (s.timebase.offInterval time))).returnFrom
        s.timebase.state).boundaryWork (some s.timebase.count)) := by
  unfold State.markerBoundary State.offerSkew
  rfl

/-- The MARKER-SKEW of a new boundary, by its two tests (R98). -/
theorem State.offerSkew_eq (s : State) {p q : Prop} [Decidable p] [Decidable q] {c : Bool} (hc : c = true ↔ q) :
    s.offerSkew (skewDetail? (decide p) c) = { s with
      events := if p ∧ q then s.events.offer s.timebase.count .markerSkew 0xFF#8 0xFF#8 4
        else if p then s.events.offer s.timebase.count .markerSkew 0xFF#8 0xFF#8 2
        else if q then s.events.offer s.timebase.count .markerSkew 0xFF#8 0xFF#8 3
        else s.events } := by
  obtain rfl : c = decide q := by rw [Bool.eq_iff_iff, hc, decide_eq_true_eq]
  by_cases hp : p
  · by_cases hq : q <;> simp only [hp, hq, and_self, and_false, if_true, if_false, decide_true, decide_false] <;> rfl
  · by_cases hq : q <;> simp only [hp, hq, and_self, false_and, if_true, if_false, decide_true, decide_false] <;> rfl

/-- TIMEBASE-LOCKED on the return from COASTING. -/
theorem State.returnFrom_eq (s : State) (before : TimebaseState) : s.returnFrom before = { s with
    events := if before = .coasting then s.events.offer s.timebase.count .timebaseLocked 0xFF#8 0xFF#8 3
      else s.events } := by
  unfold State.returnFrom
  split <;> rfl

/-- A marker that neither claims nor comes too early makes a boundary (R93). -/
theorem State.takeMarker_boundary {s : State} (hstate : s.timebase.state = .locked ∨ s.timebase.state = .coasting)
    {time : Ticks} (hclaims : s.timebase.claims time = false) (hearly : s.timebase.tooEarly time = false) (k : Half) :
    s.takeMarker k time =
      (s.mapTimebase (fun t => { t with markers := t.markers + 1 })).markerBoundary k time := by
  rcases hstate with h | h <;>
    simp only [State.takeMarker, h, hclaims, hearly, Bool.false_eq_true, if_false]

/-- Settles O20: the boundary work on the state whose timebase has taken the marker's boundary (`State.boundaryEffects`). -/
theorem markerMakesBoundary : Obligations.MarkerMakesBoundary := by
  intro s c k time b hreceives hstate hlast hclaim hlate l span inside measured offCount offInterval e1 e2
  let counted := s.mapTimebase (fun t => { t with markers := t.markers + 1 })
  have hcounted : counted.timebase.last = some b := hlast
  have hmarker : (if s.receives then s.takeMarker k time else s) = counted.markerBoundary k time := by
    rw [if_pos (s.receives_iff.mpr hreceives),
      State.takeMarker_boundary hstate (Timebase.claims_eq_false hlast time hclaim) (Timebase.tooEarly_eq_false hlast time hlate)]
  refine ⟨counted.markerBoundary k time, congrArg Host.Outcome.next hmarker, ?_⟩
  have hmeasured : counted.timebase.adopt (counted.timebase.measure time) = measured :=
    Timebase.adopt_measure hcounted time
  have hboundary : counted.timebase.boundary k time = { s.timebase with
      state := .locked, count := k, consecutive := 0, measured := measured,
      last := some { time := time, kind := .marker }, timer := some (time + measured.getD l),
      markers := s.timebase.markers + 1 } := by
    simp only [Timebase.boundary, hmeasured]
    rfl
  have hmapped : counted.mapTimebase (fun t => t.boundary k time) =
      { s with timebase := counted.timebase.boundary k time } := rfl
  rw [State.markerBoundary_eq, State.offerSkew_eq _ (Timebase.offInterval_iff hcounted time), State.returnFrom_eq]
  rw [hmapped, hboundary]
  exact s.boundaryEffects (some s.timebase.count) _ e2

end Sys2Proof.Machine
end

