-- ==== Sys2Proof/Proofs/TrunkCells.lean ====
section
/-! The Trunk Port's cells: which are taken, counted or passed over (R49, R50, R56, R57), the dispatch checks of R58, and the
sending of an answer (R60, R61). -/

namespace Sys2Proof.Machine

/-! ### Cells that are counted, and cells that are passed over (R49, R50, R56, R57) -/

/-- A node that takes no cells passes over those that need no address. -/
theorem State.receives_eq_false {s : State} (h : ¬ s.Receives) : s.receives = false :=
  Bool.eq_false_iff.mpr (mt s.receives_iff.mp h)

section NotTaken

variable {s : State} {c : CellHdr} (h : ¬ s.Takes c)

include h

theorem State.takeRequest_missed (header : ReqHeader) (run : State → State) : s.takeRequest c header run = s :=
  State.takeCell_missed h _

theorem State.requestPayload_missed (p : List Byte) : s.requestPayload c p = s := by
  rcases s.requestPayload_cases c p with ⟨r, f, hp⟩ | ⟨header, hp⟩
  · exact hp.trans (State.takeRequest_missed h _ _)
  · exact hp.trans (State.takeRequest_missed h _ _)

end NotTaken

/-- Settles O4: a cell that the node does not take is handed to no block (`State.takeCell_missed`). -/
theorem cellsCountedOrPassedOver : Obligations.CellsCountedOrPassedOver := by
  refine ⟨fun s h => ?_, fun s c h => ⟨fun p => ?_, ?_, ?_, ?_, fun p => ?_, fun i r f hi => ?_⟩, fun s h => ?_⟩
  · have hreceives := s.receives_iff.mpr h
    exact ⟨congrArg Host.Outcome.next (if_pos hreceives), congrArg Host.Outcome.next (if_pos hreceives)⟩
  · exact congrArg Host.Outcome.next (State.takeCell_missed h _)
  · exact congrArg Host.Outcome.next (State.takeCell_missed h _)
  · exact congrArg Host.Outcome.next (State.takeCell_missed h _)
  · exact congrArg Host.Outcome.next (State.takeCell_missed h _)
  · exact congrArg Host.Outcome.next (State.requestPayload_missed h p)
  · obtain ⟨g, hexec⟩ := exec_request hi s
    rw [hexec, State.request, State.takeRequest_missed h]
  · have hreceives : ¬ s.receives = true := by rw [State.receives_eq_false h]; exact Bool.false_ne_true
    exact ⟨congrArg Host.Outcome.next (if_neg hreceives), congrArg Host.Outcome.next (if_neg hreceives),
      fun c k time => congrArg Host.Outcome.next (if_neg hreceives)⟩

/-! ### The dispatch checks (R58) -/

section Dispatch

variable {s : State} (c : CellHdr) (fits : Entry → Bool) (serve : State → Fin 32 → State)

/-- Step 1 of R58. -/
theorem State.dispatch_notRunning (h : s.trunk.node ≠ .running) :
    s.dispatch c fits serve = s.withAnswer c .halt c.seq [] := by
  rw [State.dispatch, if_pos h, State.answer_eq]

/-- Step 2 of R58: no stream of that number, or a stream that is not enabled. -/
theorem State.dispatch_disabled (hnode : s.trunk.node = .running)
    (h : ∀ n, c.stream? = some n → (s.stream n).entry.enabled = false) :
    s.dispatch c fits serve = s.disabledCell.answer c .halt c.seq [] := by
  rw [State.dispatch, if_neg (not_not_intro hnode)]
  cases hn : c.stream? with
  | none => rfl
  | some n => simp only [h n hn, Bool.not_false, if_true]

/-- Step 3 of R58. -/
theorem State.dispatch_wrongDirection {n : Fin 32} (hnode : s.trunk.node = .running) (hn : c.stream? = some n)
    (hen : (s.stream n).entry.enabled = true) (hfits : fits (s.stream n).entry = false) :
    s.dispatch c fits serve =
      (s.countStream n (fun k => { k with wrongDirection := satInc k.wrongDirection })).answer c .halt c.seq [] := by
  rw [State.dispatch, if_neg (not_not_intro hnode)]
  simp only [hn, hen, hfits, Bool.not_true, Bool.not_false, Bool.false_eq_true, if_false, if_true]

end Dispatch

/-- The direction and class that a PUT, FETCH or ASK asks of its stream (R58 step 3). -/
def cellFits (i : Instr) (e : Entry) : Bool :=
  match i with
  | .put _ _ => e.dir == .down
  | .fetch _ => e.dir == .up
  | .ask _ => e.dir == .down && e.cls == .flow
  | _ => false

/-- A PUT, FETCH or ASK on a stream other than 0 is dispatched by its own direction and class test. -/
theorem exec_dispatch {s : State} {c : CellHdr} {p : List Byte} {i : Instr} (h : s.Takes c) (hs : c.stream ≠ 0)
    (hi : i = .put c p ∨ i = .fetch c ∨ i = .ask c) :
    ∃ serve, exec i s = .next (s.dispatch c (cellFits i) serve) := by
  have htaken : ∀ f g : State → State, s.takeCell c (fun s => if c.stream = 0 then f s else g s) = g s :=
    fun f g => (State.takeCell_taken h _).trans (if_neg hs)
  rcases hi with rfl | rfl | rfl
  · exact ⟨_, congrArg Host.Outcome.next (htaken _ _)⟩
  · exact ⟨_, congrArg Host.Outcome.next (htaken _ _)⟩
  · exact ⟨_, congrArg Host.Outcome.next (htaken _ _)⟩

/-- Settles O5: the three checks of the dispatch, one lemma each. -/
theorem dispatchChecksAnswerHalt : Obligations.DispatchChecksAnswerHalt := by
  intro s c p i htakes hs hi
  obtain ⟨serve, hexec⟩ := exec_dispatch htakes hs hi
  rw [hexec]
  refine ⟨fun hnode => congrArg _ (State.dispatch_notRunning c _ _ hnode),
    fun hnode hdis => congrArg _ (State.dispatch_disabled c _ _ hnode hdis), fun n hnode hn hen hwrong => ?_⟩
  have hfits : cellFits i (s.stream n).entry = false := by
    rcases hwrong with ⟨rfl, hdir⟩ | ⟨rfl, hdir⟩ | ⟨rfl, hdir | hcls⟩
    · simp [cellFits, hdir]
    · simp [cellFits, hdir]
    · simp [cellFits, hdir]
    · simp [cellFits, hcls]
  exact congrArg _ (State.dispatch_wrongDirection c _ _ hnode hn hen hfits)

/-! ### The sending of an answer (R49, R60, R61) -/

/-- Settles O7: ATTN is the event queue's at the beginning, and the end clears the line. -/
theorem answerSendBeginAndEnd : Obligations.AnswerSendBeginAndEnd := by
  refine ⟨fun s a hwaiting hsending => ?_, fun s => rfl⟩
  have hattn : (!s.events.records.isEmpty) = decide (s.events.records ≠ []) := by
    cases s.events.records <;> rfl
  rw [← hattn]
  show execAnswerSendBegin s = _
  simp only [execAnswerSendBegin, hwaiting, hsending]
  rfl

end Sys2Proof.Machine
end

