-- ==== Sys2Proof/Proofs/StreamZero.lean ====
section
/-! Stream 0: a REQUEST that names no request (R141), and the RESULT stage (R148, R149). -/

namespace Sys2Proof.Machine

/-! ### A REQUEST that names no request (R141 steps 1 and 2) -/

theorem reqFieldsOf?_eq_none {p : List Byte} (h : p.length ≠ 12) : reqFieldsOf? p = none := by
  unfold reqFieldsOf?
  split
  · exact absurd rfl h
  · rfl

/-- A payload of 12 bytes has a code, its first byte, and a tag, its last two (11.4). -/
theorem reqFieldsOf?_eq_some {p : List Byte} (h : p.length = 12) :
    ∃ f, reqFieldsOf? p = some (p.headD 0, f) ∧ f.tag = half (p.getD 10 0) (p.getD 11 0) := by
  match p, h with
  | [_, _, _, _, _, _, _, _, _, _, _, _], _ => exact ⟨_, rfl, rfl⟩

theorem Request.ofCode?_eq_none {code : Byte} (h : ¬ (1 ≤ code.toNat ∧ code.toNat ≤ 15)) : Request.ofCode? code = none := by
  unfold Request.ofCode?
  split
  on_goal 16 => rfl
  all_goals omega

/-- The code of a 12-byte payload that names no request. -/
theorem ofCode?_of_namesRequest {p : List Byte} (h : namesRequest p = false) (hlen : p.length = 12) :
    Request.ofCode? (p.headD 0) = none := by
  refine Request.ofCode?_eq_none ?_
  cases p with
  | nil => simp at hlen
  | cons code rest => simpa [namesRequest, hlen] using h

/-- The header that such a REQUEST leaves: the code byte that it carried, or 0, and the fields of a 12-byte payload. -/
def badHeader (p : List Byte) : ReqHeader := { code := p.headD 0, fields := (reqFieldsOf? p).map Prod.snd }

theorem State.requestPayload_bad {p : List Byte} (h : namesRequest p = false) (s : State) (c : CellHdr) :
    s.requestPayload c p = s.takeRequest c (badHeader p) (fun s => s.finish .badRequest) := by
  by_cases hlen : p.length = 12
  · obtain ⟨f, hf, -⟩ := reqFieldsOf?_eq_some hlen
    simp only [State.requestPayload, badHeader, hf, ofCode?_of_namesRequest h hlen, Option.map_some]
  · simp only [State.requestPayload, badHeader, reqFieldsOf?_eq_none hlen, Option.map_none]

/-- The tag of its result: that of a 12-byte payload, else 0 (R141). -/
theorem badHeader_tag (m : Mgmt) (p : List Byte) :
    (m.begin (badHeader p)).tag = if p.length = 12 then half (p.getD 10 0) (p.getD 11 0) else 0 := by
  split
  · next hlen =>
    obtain ⟨f, hf, htag⟩ := reqFieldsOf?_eq_some hlen
    simp only [Mgmt.tag, Mgmt.fields?, Mgmt.begin, badHeader, hf, Option.map_some, Option.bind_some, htag]
  · next hlen =>
    simp only [Mgmt.tag, Mgmt.fields?, Mgmt.begin, badHeader, reqFieldsOf?_eq_none hlen, Option.map_none, Option.bind_some]

/-- Settles O36: the BAD-REQUEST with the header that the payload leaves, and the two ways to a stray REQUEST. -/
theorem badRequestsAndStrayRequests : Obligations.BadRequestsAndStrayRequests := by
  refine ⟨fun s c p hbad htakes hs hidle => ?_, fun s i c htakes hs hi => ?_⟩
  · have hexec : s.requestPayload c p =
        ((s.mapMgmt (fun m => m.begin (badHeader p))).finish .badRequest).answer c .ack c.seq [] := by
      rw [State.requestPayload_bad hbad, State.takeRequest_taken htakes hs, State.beginExchange_idle hidle]
    refine ⟨_, congrArg Host.Outcome.next hexec, rfl, rfl, rfl, fun hlen => ?_, ?_, rfl, rfl, rfl, rfl, rfl, rfl, rfl, rfl,
      rfl⟩
    · exact congrArg (Option.map Prod.snd) (reqFieldsOf?_eq_none hlen)
    · rw [← badHeader_tag s.mgmt]
      rfl
  · rcases hi with ⟨r, f, hi⟩ | ⟨p, rfl, hbad⟩
    · obtain ⟨g, hexec⟩ := exec_request hi s
      rw [hexec, State.request, State.takeRequest_stray htakes hs]
      rfl
    · have hexec := (State.requestPayload_bad hbad s c).trans (State.takeRequest_stray htakes hs _ _)
      exact congrArg Host.Outcome.next hexec

/-! ### The RESULT stage (R148, R149) -/

section Result

variable {s : State} (hresult : s.mgmt.exchange = .result)

include hresult

theorem State.mgmtFetch_result (c : CellHdr) {r : MgmtResult} (hr : s.mgmt.result = some r) :
    s.mgmtFetch c = { s.withAnswer c .result s.mgmt.seqBit r.bytes with mgmt := { s.mgmt with packet := some .result } } := by
  have hpayload : s.mgmt.resultPayload = r.bytes := by simp only [Mgmt.resultPayload, hr]
  have hfetch : s.mgmtFetch c = (s.mapMgmt (fun m => { m with packet := some .result })).answer c .result s.mgmt.seqBit
      s.mgmt.resultPayload := by simp only [State.mgmtFetch, hresult]
  rw [hfetch, hpayload]
  rfl

theorem State.mgmtAck_unsent (hp : s.mgmt.packet = none) : s.mgmtAck = s.strayAck := by
  simp only [State.mgmtAck, hresult, hp]

theorem State.mgmtAck_result (hp : s.mgmt.packet = some .result) : s.mgmtAck = s.resultAck := by
  simp only [State.mgmtAck, hresult, hp]

end Result

/-- An address change in a node that takes one (R53). -/
theorem Trunk.applyAddress_eq {t : Trunk} (h : t.node = .listening ∨ t.node = .addressed) (a : BitVec 6) :
    t.applyAddress a = { t with node := if a = 0 then .listening else .addressed, addr := a } := by
  have happly : t.applyAddress a =
      if a = 0 then { t with node := .listening, addr := 0 } else { t with node := .addressed, addr := a } := by
    rcases h with h | h <;> simp only [Trunk.applyAddress, h]
  rw [happly]
  split
  · next ha => rw [ha]
  · rfl

/-- Settles O50: the FETCH and the ACK of the RESULT stage, and the deferred action that the ACK carries out. -/
theorem resultStage : Obligations.ResultStage := by
  intro s c r htakes hs hresult hr ended
  have hfetch : exec (.fetch c) s = .next (s.mgmtFetch c) :=
    congrArg Host.Outcome.next ((State.takeCell_taken htakes _).trans (if_pos hs))
  have hack : exec (.ack c) s = .next s.mgmtAck :=
    congrArg Host.Outcome.next ((State.takeCell_taken htakes _).trans (if_pos hs))
  rw [hfetch, hack]
  refine ⟨congrArg _ (State.mgmtFetch_result hresult c hr), fun hp => congrArg _ (State.mgmtAck_unsent hresult hp),
    fun hp => ?_⟩
  rw [State.mgmtAck_result hresult hp]
  refine ⟨fun hd => ?_, fun a hd hnode => ?_, fun n v hd => ?_⟩
  · simp only [State.resultAck, State.carryOut, hd]
    rfl
  · simp only [State.resultAck, State.carryOut, hd, State.mapTrunk, State.mapMgmt_trunk, Trunk.applyAddress_eq hnode]
    rfl
  · simp only [State.resultAck, State.carryOut, hd]
    rfl

end Sys2Proof.Machine
end

