-- ==== Sys2Proof/Proofs/PortsReset.lean ====
section
/-! The ports after a trunk reset or a detach (R130, R131): what the work of one port leaves of the streams and of the other
ports, and what its own streams then hold. -/

namespace Sys2Proof.Machine

/-! ### Runs with one step that counts -/

/-- A run over a list without repetition: `Q` until the step of `a`, which brings `P`, and `P` from there on. -/
theorem foldl_until {α σ : Type} {op : σ → α → σ} {Q P : σ → Prop} {l : List α} {a : α} (hnodup : l.Nodup) (ha : a ∈ l)
    (hQ : ∀ v, ∀ x ∈ l, x ≠ a → Q v → Q (op v x)) (hstep : ∀ v, Q v → P (op v a))
    (hP : ∀ v, ∀ x ∈ l, x ≠ a → P v → P (op v x)) {v : σ} (hv : Q v) : P (l.foldl op v) := by
  obtain ⟨pre, post, rfl⟩ := List.append_of_mem ha
  obtain ⟨hpost, -⟩ := List.nodup_cons.mp hnodup.of_append_right
  have hpre : ∀ x ∈ pre, x ≠ a := by
    rintro x hx rfl
    exact (List.disjoint_of_nodup_append hnodup) hx List.mem_cons_self
  have hbefore : Q (pre.foldl op v) := List.foldlRecOn pre op hv fun w hw x hx => hQ w x (by simp [hx]) (hpre x hx) hw
  rw [List.foldl_append, List.foldl_cons]
  exact List.foldlRecOn post op (hstep _ hbefore) fun w hw x hx => hP w x (by simp [hx]) (fun e => hpost (e ▸ hx)) hw

/-! ### The streams of a port (R8) -/

theorem State.onBranch_iff (s : State) (b : Fin 6) (n : Fin 32) : s.OnBranch b n ↔ n ∈ s.streamsOf b := by
  rw [State.mem_streamsOf]
  refine and_congr_right fun _ => and_congr_right fun _ => ?_
  constructor
  · rintro ⟨hb, hch⟩
    exact ⟨⟨b, ⟨_, hch⟩, (s.stream n).entry.dir⟩, (Entry.key?_eq_some_iff _ _).mpr ⟨hb, rfl, rfl⟩, rfl⟩
  · rintro ⟨k, hk, rfl⟩
    obtain ⟨hb, hch, -⟩ := (Entry.key?_eq_some_iff _ _).mp hk
    exact ⟨hb, hch ▸ k.channel.isLt⟩

theorem State.onBranch_eq (s : State) (b : Fin 6) : s.onBranch b = s.streamsOf b := by
  refine List.filter_congr fun n hn => ?_
  rw [Bool.eq_iff_iff, decide_eq_true_eq, State.onBranch_iff, State.streamsOf, List.mem_filter, and_iff_right hn]

theorem State.OnBranch.key_branch {s : State} {b : Fin 6} {n : Fin 32} (h : s.OnBranch b n) {k : RouteKey}
    (hk : (s.stream n).entry.key? = some k) : b = k.branch :=
  Fin.ext (h.2.2.1.symm.trans ((Entry.key?_eq_some_iff _ _).mp hk).1)

theorem State.OnBranch.unique {s : State} {b c : Fin 6} {n : Fin 32} (hb : s.OnBranch b n) (hc : s.OnBranch c n) : b = c :=
  Fin.ext (hb.2.2.1.symm.trans hc.2.2.1)

theorem State.RouteLaw.onBranch {s : State} (h : s.RouteLaw) {k : RouteKey} {n : Fin 32} (hk : s.route k = some n) :
    s.OnBranch k.branch n :=
  (s.onBranch_iff _ n).mpr ((h.mem_streamsOf _ n).mpr (State.routed_of_route hk))

/-- The route law reads the entries and the route map only. -/
theorem State.RouteLaw.of_same {s t : State} (hroutes : t.routes = s.routes)
    (hentry : ∀ n, (t.stream n).entry = (s.stream n).entry) (h : s.RouteLaw) : t.RouteLaw := by
  have hroute : ∀ k, t.route k = s.route k := fun k => by simp only [State.route, hroutes]
  simpa only [State.RouteLaw, hentry, hroute, hroutes] using h

section Frame

variable {s t : State} (h : s.PortStep t)

include h

/-- The work of the ports moves no stream to another port. -/
theorem State.PortStep.streamsOf (b : Fin 6) : t.streamsOf b = s.streamsOf b := by
  refine List.filter_congr fun n _ => ?_
  simp only [State.servedBy, (h.stream n).entry]

theorem State.PortStep.onBranch (b : Fin 6) (n : Fin 32) : t.OnBranch b n ↔ s.OnBranch b n := by
  simp only [State.OnBranch, (h.stream n).entry]

theorem State.PortStep.routeLaw (hr : s.RouteLaw) : t.RouteLaw := hr.of_same h.routes fun n => (h.stream n).entry

end Frame

/-! ### One stream's counts and its port's queue (R129, R130) -/

/-- The state with `st` as stream `n` and `q` as the queue of port `b`: what a request for a control frame leaves before the
arbiter looks at it. -/
def State.requeued (s : State) (n : Fin 32) (st : Stream) (b : Fin 6) (q : List CtlEntry) : State :=
  (s.withStream n st).withBranch b { s.branch b with queue := q }

section Requeued

variable {s : State} {n : Fin 32} {st : Stream} {b : Fin 6} {q : List CtlEntry}

@[simp] theorem State.requeued_stream_self : (s.requeued n st b q).stream n = st := s.withStream_stream_self n st

theorem State.requeued_stream_ne {m : Fin 32} (h : m ≠ n) : (s.requeued n st b q).stream m = s.stream m :=
  s.withStream_stream_ne h st

@[simp] theorem State.requeued_branch_self : (s.requeued n st b q).branch b = { s.branch b with queue := q } :=
  (s.withStream n st).withBranch_branch_self b _

theorem State.requeued_branch_ne {c : Fin 6} (h : c ≠ b) : (s.requeued n st b q).branch c = s.branch c :=
  (s.withStream n st).mapBranch_branch_ne h fun _ => _

theorem State.requeued_portStep (q : List CtlEntry) (hst : (s.stream n).PortStep st) (hl : (s.branch b).link = .up) :
    s.PortStep (s.requeued n st b q) :=
  (s.mapStream_portStep n (f := fun _ => st) hst).trans
    (State.mapBranch_portStep _ b (f := fun br => { br with queue := q }) (Branch.work_portStep _ _ _ _ hl))

end Requeued

section Requests

variable {s : State} {n : Fin 32} {k : RouteKey}

/-- All that the revoking of a stream's key can do (R130): the counts, and with the link UP the REVOKE and the arbiter. -/
theorem State.revokeStream_cases (hk : (s.stream n).entry.key? = some k) :
    ((s.branch k.branch).link ≠ .up ∧ s.revokeStream n = s.withStream n (s.stream n).noGrants) ∨
    ((s.branch k.branch).link = .up ∧ s.revokeStream n = (s.requeued n (s.stream n).noGrants k.branch
      (queueRevoke (s.branch k.branch).queue k.channel k.dir)).arbitrate k.branch) := by
  have hkey : s.revokeStream n = s.revokeKey n k := by simp only [State.revokeStream, hk]
  by_cases hl : (s.branch k.branch).link = .up
  · refine .inr ⟨hl, hkey.trans ?_⟩
    simp only [State.revokeKey, if_pos hl]
    rfl
  · exact .inl ⟨hl, hkey.trans (State.revokeKey_notUp hl)⟩

/-- All that the issue of grants for a stream can do (R129): nothing, or its counts, the GRANT and the arbiter. -/
theorem State.issueGrants_requeues (hk : (s.stream n).entry.key? = some k) : s.issueGrants n = s ∨
    (k.dir = .up ∧ (s.branch k.branch).link = .up ∧ s.issueGrants n = (s.requeued n
      { s.stream n with queued := (s.stream n).queued + (s.stream n).grantable } k.branch
      (queueGrant (s.branch k.branch).queue k.channel (s.stream n).grantable)).arbitrate k.branch) := by
  rcases s.issueGrants_cases n with h | ⟨j, hj, -, hup, hl, -, h⟩
  · exact .inl h
  · obtain rfl : j = k := Option.some.inj (hj.symm.trans hk)
    exact .inr ⟨hup, hl, h⟩

end Requests

/-! ### What one port leaves of the others (R133 to R135) -/

section OtherPorts

variable {s : State} {b c : Fin 6} {n m : Fin 32}

theorem State.withBranch_branch_ne (s : State) (h : b ≠ c) (br : Branch) : (s.withBranch c br).branch b = s.branch b :=
  s.mapBranch_branch_ne h fun _ => br

theorem State.mapUpStream_branch (s : State) (c : Fin 6) (ch : Fin 8) (f : Stream → Stream) (b : Fin 6) :
    (s.mapUpStream c ch f).branch b = s.branch b := by
  unfold State.mapUpStream
  split <;> rfl

theorem State.beginControl_branch_ne (s : State) (h : b ≠ c) (e : CtlEntry) (rest : List CtlEntry) :
    (s.beginControl c e rest).branch b = s.branch b := by
  cases e with
  | revoke ch dir => rw [State.beginControl_revoke, State.withBranch_branch_ne _ h]
  | grant ch count =>
    simp only [State.beginControl, State.transmit, State.mapBranch_branch_ne _ h, State.mapUpStream_branch]

theorem State.arbitrate_branch_ne (s : State) (h : b ≠ c) : (s.arbitrate c).branch b = s.branch b := by
  rcases s.arbitrate_cases c with hsame | ⟨-, -, ⟨e, rest, -, hctl⟩ | ⟨-, ch, m, k, -, -, hdown⟩⟩
  · rw [hsame]
  · rw [hctl, State.beginControl_branch_ne _ h]
  · rw [hdown, State.beginDown_eq, State.withBranch_branch_ne _ h]
    rfl

variable {k : RouteKey} (hk : (s.stream m).entry.key? = some k) (h : b ≠ k.branch)

include hk h

theorem State.issueGrants_branch_ne : (s.issueGrants m).branch b = s.branch b := by
  rcases State.issueGrants_requeues hk with hsame | ⟨-, -, hgrant⟩
  · rw [hsame]
  · rw [hgrant, State.arbitrate_branch_ne _ h, State.requeued_branch_ne h]

theorem State.revokeStream_branch_ne : (s.revokeStream m).branch b = s.branch b := by
  rcases State.revokeStream_cases hk with ⟨-, hrevoke⟩ | ⟨-, hrevoke⟩
  · rw [hrevoke]
    rfl
  · rw [hrevoke, State.arbitrate_branch_ne _ h, State.requeued_branch_ne h]

end OtherPorts

/-! ### The work of the ports leaves a frame in transmission as it is (R133) -/

/-- A step of the ports that begins no frame at a port that sends one. -/
structure State.PortWork (s t : State) : Prop extends s.PortStep t where
  sending : ∀ b, (s.branch b).tx ≠ .idle → (t.branch b).tx = (s.branch b).tx

theorem State.PortWork.refl (s : State) : s.PortWork s := ⟨.refl s, fun _ _ => rfl⟩

theorem State.PortWork.trans {s t u : State} (h : s.PortWork t) (g : t.PortWork u) : s.PortWork u :=
  ⟨h.toPortStep.trans g.toPortStep, fun b hb => (g.sending b (h.sending b hb ▸ hb)).trans (h.sending b hb)⟩

section PortWork

variable (s : State) (n : Fin 32)

theorem State.arbitrate_portWork (c : Fin 6) : s.PortWork (s.arbitrate c) := by
  refine ⟨s.arbitrate_portStep c, fun b hb => ?_⟩
  rcases eq_or_ne b c with rfl | hbc
  · rw [s.arbitrate_busy b hb]
  · rw [s.arbitrate_branch_ne hbc]

variable {s n}

theorem State.requeued_portWork {st : Stream} {c : Fin 6} (q : List CtlEntry) (hst : (s.stream n).PortStep st)
    (hl : (s.branch c).link = .up) : s.PortWork (s.requeued n st c q) := by
  refine ⟨State.requeued_portStep q hst hl, fun b _ => ?_⟩
  rcases eq_or_ne b c with rfl | hbc
  · rw [State.requeued_branch_self]
  · rw [State.requeued_branch_ne hbc]

variable (s n)

theorem State.revokeStream_portWork : s.PortWork (s.revokeStream n) := by
  have hst : (s.stream n).PortStep (s.stream n).noGrants := Stream.counts_portStep _ _ _ _ _
  cases hk : (s.stream n).entry.key? with
  | none =>
    have hnone : s.revokeStream n = s := by simp only [State.revokeStream, hk]
    rw [hnone]
    exact .refl s
  | some k =>
    rcases State.revokeStream_cases hk with ⟨-, h⟩ | ⟨hl, h⟩
    · rw [h]
      exact ⟨s.mapStream_portStep n (f := fun _ => _) hst, fun _ _ => rfl⟩
    · rw [h]
      exact (State.requeued_portWork _ hst hl).trans (State.arbitrate_portWork _ _)

theorem State.issueGrants_portWork : s.PortWork (s.issueGrants n) := by
  cases hk : (s.stream n).entry.key? with
  | none =>
    have hnone : s.issueGrants n = s := by simp only [State.issueGrants, hk]
    rw [hnone]
    exact .refl s
  | some k =>
    rcases State.issueGrants_requeues hk with h | ⟨-, hl, h⟩
    · rw [h]; exact .refl s
    · rw [h]
      exact (State.requeued_portWork _ (Stream.counts_portStep _ _ _ _ _) hl).trans (State.arbitrate_portWork _ _)

end PortWork

/-! ### A run of REVOKEs and then of grants at one port (R131) -/

section Run

variable {P : State → Prop} {s : State} {c : Fin 6}

/-- What the REVOKE for one stream of the port brings, and every other REVOKE keeps. The streams of the port stay its streams
all along. -/
theorem State.revokeRun_brings {n : Fin 32} (hn : n ∈ s.streamsOf c) (hstep : ∀ v, s.PortWork v → P (v.revokeStream n))
    (hrevoke : ∀ v, ∀ m ∈ v.streamsOf c, m ≠ n → s.PortWork v → P v → P (v.revokeStream m)) :
    P (s.overStreams (s.streamsOf c) State.revokeStream) :=
  (foldl_until (Q := s.PortWork) (P := fun v => s.PortWork v ∧ P v) (s.streamsOf_nodup c) hn
    (fun v m _ _ hv => hv.trans (v.revokeStream_portWork m))
    (fun v hv => ⟨hv.trans (v.revokeStream_portWork n), hstep v hv⟩)
    (fun v m hm hmn hv => ⟨hv.1.trans (v.revokeStream_portWork m), hrevoke v m (hv.1.streamsOf c ▸ hm) hmn hv.1 hv.2⟩)
    (.refl s)).2

theorem State.revokeRun_portWork (s : State) (ns : List (Fin 32)) : s.PortWork (s.overStreams ns State.revokeStream) :=
  State.overStreams_keeps ns (fun v m _ hv => hv.trans (v.revokeStream_portWork m)) s (.refl s)

variable (hgrant : ∀ v, ∀ m ∈ v.streamsOf c, s.PortWork v → P v → P (v.issueGrants m))

include hgrant

/-- What holds after the REVOKEs and what each grant keeps holds after the port's work. -/
theorem State.resetPort_of_revoked (h : P (s.overStreams (s.streamsOf c) State.revokeStream)) : P (s.resetPort c) :=
  (State.overStreams_keeps (P := fun v => s.PortWork v ∧ P v) _ (fun v m hm hv =>
    ⟨hv.1.trans (v.issueGrants_portWork m), hgrant v m (hv.1.streamsOf c ▸ hm) hv.1 hv.2⟩) _
    ⟨State.revokeRun_portWork s _, h⟩).2

theorem State.resetPort_keeps (hrevoke : ∀ v, ∀ m ∈ v.streamsOf c, s.PortWork v → P v → P (v.revokeStream m)) (hs : P s) :
    P (s.resetPort c) :=
  State.resetPort_of_revoked hgrant (State.overStreams_keeps (P := fun v => s.PortWork v ∧ P v) _ (fun v m hm hv =>
    ⟨hv.1.trans (v.revokeStream_portWork m), hrevoke v m (hv.1.streamsOf c ▸ hm) hv.1 hv.2⟩) s ⟨.refl s, hs⟩).2

theorem State.resetPort_brings (hrevoke : ∀ v, ∀ m ∈ v.streamsOf c, s.PortWork v → P v → P (v.revokeStream m)) {n : Fin 32}
    (hn : n ∈ s.streamsOf c) (hstep : ∀ v, s.PortWork v → P (v.revokeStream n)) : P (s.resetPort c) :=
  State.resetPort_of_revoked hgrant
    (State.revokeRun_brings hn hstep fun v m hm _ hv hP => hrevoke v m hm hv hP)

end Run

theorem State.resetPort_portWork (s : State) (c : Fin 6) : s.PortWork (s.resetPort c) :=
  State.resetPort_keeps (P := s.PortWork) (fun v m _ _ hv => hv.trans (v.issueGrants_portWork m))
    (fun v m _ _ hv => hv.trans (v.revokeStream_portWork m)) (.refl s)

/-- The key of a stream of port `c` is on that port. -/
theorem State.branch_of_mem_streamsOf {s : State} {c : Fin 6} {m : Fin 32} (hm : m ∈ s.streamsOf c) :
    ∃ k, (s.stream m).entry.key? = some k ∧ k.branch = c :=
  ((s.mem_streamsOf c m).mp hm).2.2

theorem State.resetPort_branch_ne (s : State) {b c : Fin 6} (h : b ≠ c) : (s.resetPort c).branch b = s.branch b := by
  refine State.resetPort_keeps (P := fun v => v.branch b = s.branch b) (fun v m hm _ hv => ?_) (fun v m hm _ hv => ?_) rfl
  · obtain ⟨k, hk, rfl⟩ := State.branch_of_mem_streamsOf hm
    exact (State.issueGrants_branch_ne hk h).trans hv
  · obtain ⟨k, hk, rfl⟩ := State.branch_of_mem_streamsOf hm
    exact (State.revokeStream_branch_ne hk h).trans hv

/-! ### What one port leaves of the streams -/

/-- What the arbiter of port `c` can do to a stream (R134, R135): nothing, or to a stream routed to it the beginning of its
GRANT frame or of its DOWN frame. -/
theorem State.arbitrate_stream_cases (s : State) (c : Fin 6) (n : Fin 32) :
    (s.arbitrate c).stream n = s.stream n ∨
    (∃ k, k.branch = c ∧ s.route k = some n) ∧
      ((∃ p q, (s.arbitrate c).stream n = (s.stream n).recount p q) ∨
       ∃ j, (s.arbitrate c).stream n = { (s.stream n).setSideState j .draining with credits := (s.stream n).credits - 1 }) := by
  rcases s.arbitrate_cases c with h | ⟨-, -, ⟨e, rest, -, h⟩ | ⟨-, ch, m, j, hnext, -, h⟩⟩
  · exact .inl (congrArg (State.stream · n) h)
  · rw [h]
    cases e with
    | revoke ch dir => exact .inl rfl
    | grant ch count =>
      simp only [State.beginControl, State.transmit, State.mapBranch_stream, State.mapUpStream, State.mapBranch_route]
      split
      · next m hm =>
        rw [State.mapStream_stream]
        split
        · next hnm =>
          subst hnm
          exact .inr ⟨⟨_, rfl, hm⟩, .inl ⟨(· - count), (· + count), rfl⟩⟩
        · exact .inl rfl
      · exact .inl rfl
  · rw [h, State.beginDown_eq]
    by_cases hnm : n = m
    · subst hnm
      obtain ⟨ch', -, hsend⟩ := List.exists_of_findSome?_eq_some hnext
      obtain ⟨n', hn', heq⟩ := Option.map_eq_some_iff.mp hsend
      obtain ⟨rfl, rfl⟩ := Prod.mk.inj heq
      exact .inr ⟨⟨_, rfl, ((s.sendable?_eq_some_iff c _ _).mp hn').1⟩, .inr ⟨j, s.withStream_stream_self _ _⟩⟩
    · exact .inl (s.withStream_stream_ne hnm _)

/-- The arbiter of a port moves no stream of another port. -/
theorem State.RouteLaw.arbitrate_stream {s : State} (h : s.RouteLaw) {c : Fin 6} {n : Fin 32} (hn : ¬ s.OnBranch c n) :
    (s.arbitrate c).stream n = s.stream n := by
  rcases s.arbitrate_stream_cases c n with hsame | ⟨⟨k, rfl, hk⟩, -⟩
  · exact hsame
  · exact absurd (h.onBranch hk) hn

section OtherStreams

variable {s : State} {m n : Fin 32} {k : RouteKey} (h : s.RouteLaw) (hk : (s.stream m).entry.key? = some k) (hnm : n ≠ m)
  (hn : ¬ s.OnBranch k.branch n)

include h hnm hn

/-- The arbiter after a request for another stream. -/
theorem State.requeued_arbitrate_stream {st : Stream} (hst : (s.stream m).PortStep st) (hl : (s.branch k.branch).link = .up)
    (q : List CtlEntry) : ((s.requeued m st k.branch q).arbitrate k.branch).stream n = s.stream n := by
  have hstep := State.requeued_portStep q hst hl
  rw [(hstep.routeLaw h).arbitrate_stream (mt (hstep.onBranch _ _).mp hn), State.requeued_stream_ne hnm]

include hk

theorem State.issueGrants_stream_other : (s.issueGrants m).stream n = s.stream n := by
  rcases State.issueGrants_requeues hk with hsame | ⟨-, hl, hgrant⟩
  · rw [hsame]
  · rw [hgrant]
    exact State.requeued_arbitrate_stream h hnm hn (Stream.counts_portStep _ _ _ _ _) hl _

theorem State.revokeStream_stream_other : (s.revokeStream m).stream n = s.stream n := by
  rcases State.revokeStream_cases hk with ⟨-, hrevoke⟩ | ⟨hl, hrevoke⟩
  · rw [hrevoke, State.withStream_stream_ne _ hnm]
  · rw [hrevoke]
    exact State.requeued_arbitrate_stream h hnm hn (Stream.counts_portStep _ _ _ _ _) hl _

end OtherStreams

theorem State.RouteLaw.resetPort_stream {s : State} (h : s.RouteLaw) {c : Fin 6} {n : Fin 32} (hn : ¬ s.OnBranch c n) :
    (s.resetPort c).stream n = s.stream n := by
  have hne : ∀ v, s.PortWork v → ∀ m ∈ v.streamsOf c, n ≠ m := by
    rintro v hv m hm rfl
    exact hn ((hv.onBranch c n).mp ((v.onBranch_iff c n).mpr hm))
  refine State.resetPort_keeps (P := fun v => v.stream n = s.stream n) (fun v m hm hv hP => ?_) (fun v m hm hv hP => ?_) rfl
  · obtain ⟨k, hk, rfl⟩ := State.branch_of_mem_streamsOf hm
    exact (State.issueGrants_stream_other (hv.routeLaw h) hk (hne v hv m hm) (mt (hv.onBranch _ n).mp hn)).trans hP
  · obtain ⟨k, hk, rfl⟩ := State.branch_of_mem_streamsOf hm
    exact (State.revokeStream_stream_other (hv.routeLaw h) hk (hne v hv m hm) (mt (hv.onBranch _ n).mp hn)).trans hP

/-! ### No credits and no grants delivered (R130 step 2) -/

/-- A stream with no credits and no grants delivered. -/
def Stream.Spent (st : Stream) : Prop := st.credits = 0 ∧ st.delivered = 0

section Spent

variable {s : State} {m n : Fin 32}

theorem State.arbitrate_spent (c : Fin 6) (h : (s.stream n).Spent) : ((s.arbitrate c).stream n).Spent := by
  rcases s.arbitrate_stream_cases c n with hst | ⟨-, ⟨p, q, hst⟩ | ⟨j, hst⟩⟩
  · rw [hst]; exact h
  · rw [hst]; exact h
  · obtain ⟨hcredits, hdelivered⟩ := h
    have hside : ((s.stream n).setSideState j .draining).delivered = (s.stream n).delivered := by
      unfold Stream.setSideState Stream.setSide
      split <;> rfl
    rw [hst]
    exact ⟨by simp [hcredits], hside.trans hdelivered⟩

theorem State.issueGrants_spent (m : Fin 32) (h : (s.stream n).Spent) : ((s.issueGrants m).stream n).Spent := by
  obtain ⟨p, q, hst⟩ := s.issueGrants_recounts m n
  rw [hst]
  exact h

/-- The revoking of a key leaves its stream with none, and every other stream with no more than it had. -/
theorem State.revokeStream_spent {k : RouteKey} (hk : (s.stream m).entry.key? = some k) (h : n = m ∨ (s.stream n).Spent) :
    ((s.revokeStream m).stream n).Spent := by
  rcases State.revokeStream_cases hk with ⟨-, hrevoke⟩ | ⟨-, hrevoke⟩
  · rw [hrevoke]
    rcases eq_or_ne n m with rfl | hnm
    · rw [State.withStream_stream_self]; exact ⟨rfl, rfl⟩
    · rw [State.withStream_stream_ne _ hnm]; exact h.resolve_left hnm
  · rw [hrevoke]
    refine State.arbitrate_spent _ ?_
    rcases eq_or_ne n m with rfl | hnm
    · rw [State.requeued_stream_self]; exact ⟨rfl, rfl⟩
    · rw [State.requeued_stream_ne hnm]; exact h.resolve_left hnm

end Spent

theorem State.resetPort_keeps_spent {s : State} {n : Fin 32} (c : Fin 6) (h : (s.stream n).Spent) :
    ((s.resetPort c).stream n).Spent := by
  refine State.resetPort_keeps (P := fun v => (v.stream n).Spent) (fun v m _ _ hP => State.issueGrants_spent m hP)
    (fun v m hm _ hP => ?_) h
  obtain ⟨k, hk, -⟩ := State.branch_of_mem_streamsOf hm
  exact State.revokeStream_spent hk (.inr hP)

theorem State.resetPort_spent {s : State} {n : Fin 32} {c : Fin 6} (h : s.OnBranch c n) :
    ((s.resetPort c).stream n).Spent := by
  have hn := (s.onBranch_iff c n).mp h
  refine State.resetPort_brings (P := fun v => (v.stream n).Spent) (fun v m _ _ hP => State.issueGrants_spent m hP)
    (fun v m hm _ hP => ?_) hn fun v hv => ?_
  · obtain ⟨k, hk, -⟩ := State.branch_of_mem_streamsOf hm
    exact State.revokeStream_spent hk (.inr hP)
  · obtain ⟨k, hk, -⟩ := State.branch_of_mem_streamsOf (hv.streamsOf c ▸ hn)
    exact State.revokeStream_spent hk (.inl rfl)

/-! ### A port whose link is not UP (R129, R130) -/

/-- A stream with no grants queued or in flight. -/
def Stream.Grantless (st : Stream) : Prop := st.queued = 0 ∧ st.inFlight = 0

theorem State.resetPort_grantless {s : State} {n : Fin 32} {c : Fin 6} (h : s.OnBranch c n) (hl : (s.branch c).link ≠ .up) :
    ((s.resetPort c).stream n).Grantless := by
  have hn := (s.onBranch_iff c n).mp h
  have hdown : ∀ v, s.PortWork v → (v.branch c).link ≠ .up := fun v hv => (hv.branch c).link ▸ hl
  have hrevoke : ∀ v, ∀ m ∈ v.streamsOf c, s.PortWork v → n = m ∨ (v.stream n).Grantless →
      ((v.revokeStream m).stream n).Grantless := by
    intro v m hm hv hor
    obtain ⟨k, hk, rfl⟩ := State.branch_of_mem_streamsOf hm
    rcases State.revokeStream_cases hk with ⟨-, heq⟩ | ⟨hup, -⟩
    · rw [heq]
      rcases eq_or_ne n m with rfl | hnm
      · rw [State.withStream_stream_self]; exact ⟨rfl, rfl⟩
      · rw [State.withStream_stream_ne _ hnm]; exact hor.resolve_left hnm
    · exact absurd hup (hdown v hv)
  refine State.resetPort_brings (P := fun v => (v.stream n).Grantless) (fun v m hm hv hP => ?_)
    (fun v m hm hv hP => hrevoke v m hm hv (.inr hP)) hn fun v hv => hrevoke v n (hv.streamsOf c ▸ hn) hv (.inl rfl)
  obtain ⟨k, hk, rfl⟩ := State.branch_of_mem_streamsOf hm
  rcases State.issueGrants_requeues hk with heq | ⟨-, hup, -⟩
  · rw [heq]; exact hP
  · exact absurd hup (hdown v hv)

/-! ### A port that sends a frame (R129, R130, R132) -/

section Queue

variable {q : List CtlEntry} {ch c : Fin 8} {d : Nat} {dir : Dir}

theorem revoke_mem_queueRevoke (q : List CtlEntry) (ch : Fin 8) (dir : Dir) : .revoke ch dir ∈ queueRevoke q ch dir := by
  rw [queueRevoke_eq]
  split
  · next h => simpa using h
  · simp

/-- A REVOKE request takes away no entry but the GRANT of its own key. -/
theorem mem_queueRevoke_of_mem {e : CtlEntry} (he : e ∈ q) (hkey : dir = .up → e.isGrant ch = false) :
    e ∈ queueRevoke q ch dir := by
  have hkept : e ∈ queueWithout q ch dir := by
    unfold queueWithout
    split
    · next hup => exact List.mem_filter.mpr ⟨he, by simp [hkey hup]⟩
    · exact he
  rw [queueRevoke_eq]
  split
  · exact hkept
  · exact List.mem_append_left _ hkept

theorem grant_mem_queueRevoke (hkey : dir = .up → c ≠ ch) : .grant c d ∈ queueRevoke q ch dir ↔ .grant c d ∈ q := by
  refine ⟨fun h => ?_, fun h => mem_queueRevoke_of_mem h fun hup => by simpa [CtlEntry.isGrant] using hkey hup⟩
  rcases mem_queueRevoke h with hm | hm
  · exact (queueWithout_sublist _ _ _).subset hm
  · exact absurd hm (by simp)

/-- A GRANT request moves no entry but the GRANT of its own channel. -/
theorem mem_queueGrant {e : CtlEntry} (he : e.isGrant ch = false) : e ∈ queueGrant q ch d ↔ e ∈ q := by
  have hadd : ∀ x : CtlEntry, x.addGrant ch d = e ↔ x = e := by
    intro x
    cases x with
    | revoke a dir => exact Iff.rfl
    | grant a n =>
      simp only [CtlEntry.addGrant]
      split
      · next ha =>
        subst ha
        constructor <;> rintro rfl <;> simp [CtlEntry.isGrant] at he
      · exact Iff.rfl
  have hne : e ≠ .grant ch d := by
    rintro rfl
    simp [CtlEntry.isGrant] at he
  unfold queueGrant
  split
  · simp only [List.mem_map, hadd, exists_eq_right]
  · simp [hne]

theorem queueGrant_fresh (h : ∀ j, .grant ch j ∉ q) : queueGrant q ch d = q ++ [.grant ch d] := by
  unfold queueGrant
  rw [if_neg]
  rw [List.any_eq_true]
  rintro ⟨e, he, hg⟩
  cases e with
  | grant a n =>
    obtain rfl : a = ch := by simpa [CtlEntry.isGrant] using hg
    exact h n he
  | revoke a dir => exact absurd hg (by simp [CtlEntry.isGrant])

end Queue

section Busy

variable {s : State} {n : Fin 32} {k : RouteKey} (hk : (s.stream n).entry.key? = some k)
  (hbusy : (s.branch k.branch).tx ≠ .idle)

include hk hbusy

theorem State.revokeStream_queues (hl : (s.branch k.branch).link = .up) : s.revokeStream n =
    s.requeued n (s.stream n).noGrants k.branch (queueRevoke (s.branch k.branch).queue k.channel k.dir) := by
  rcases State.revokeStream_cases hk with ⟨hdown, -⟩ | ⟨-, h⟩
  · exact absurd hl hdown
  · rw [h, State.arbitrate_busy _ _ (by rw [State.requeued_branch_self]; exact hbusy)]

theorem State.issueGrants_queued : s.issueGrants n = s ∨ (k.dir = .up ∧ s.issueGrants n = s.requeued n
    { s.stream n with queued := (s.stream n).queued + (s.stream n).grantable } k.branch
    (queueGrant (s.branch k.branch).queue k.channel (s.stream n).grantable)) := by
  rcases State.issueGrants_requeues hk with h | ⟨hup, -, h⟩
  · exact .inl h
  · exact .inr ⟨hup, h.trans (State.arbitrate_busy _ _ (by rw [State.requeued_branch_self]; exact hbusy))⟩

end Busy

/-- A port whose link is UP and which sends a frame. -/
def Branch.Sending (br : Branch) : Prop := br.link = .up ∧ br.tx ≠ .idle

theorem State.PortWork.still_sending {s t : State} (h : s.PortWork t) {c : Fin 6} (hc : (s.branch c).Sending) :
    (t.branch c).Sending :=
  ⟨(h.branch c).link.trans hc.1, (h.sending c hc.2).symm ▸ hc.2⟩

/-- The REVOKE of a stream's key waits in the queue after the work of its port. -/
theorem State.resetPort_revoked {s : State} {n : Fin 32} {k : RouteKey} (hc : (s.branch k.branch).Sending)
    (hn : s.OnBranch k.branch n) (hk : (s.stream n).entry.key? = some k) :
    .revoke k.channel k.dir ∈ ((s.resetPort k.branch).branch k.branch).queue := by
  refine State.resetPort_brings (P := fun v => .revoke k.channel k.dir ∈ (v.branch k.branch).queue)
    (fun v m hm hv hP => ?_) (fun v m hm hv hP => ?_) ((s.onBranch_iff _ n).mp hn) fun v hv => ?_
  · obtain ⟨j, hj, hjk⟩ := State.branch_of_mem_streamsOf hm
    rcases State.issueGrants_queued hj (hjk ▸ (hv.still_sending hc).2) with h | ⟨-, h⟩
    · rw [h]; exact hP
    · rw [h, ← hjk, State.requeued_branch_self, mem_queueGrant rfl, hjk]
      exact hP
  · obtain ⟨j, hj, hjk⟩ := State.branch_of_mem_streamsOf hm
    have hsend := hv.still_sending hc
    rw [← hjk] at hsend hP ⊢
    rw [State.revokeStream_queues hj hsend.2 hsend.1, State.requeued_branch_self]
    exact mem_queueRevoke_of_mem hP fun _ => rfl
  · have hsend := hv.still_sending hc
    rw [State.revokeStream_queues (((hv.stream n).entry.symm ▸ hk)) hsend.2 hsend.1, State.requeued_branch_self]
    exact revoke_mem_queueRevoke _ _ _

/-! ### The grants of an UP stream whose port sends a frame (R129, R131) -/

/-- Stream `n` with the UP key `k` and no side in use, at a port that sends a frame. -/
structure State.Serves (s : State) (n : Fin 32) (k : RouteKey) : Prop where
  routes : s.RouteLaw
  route : s.route k = some n
  up : k.dir = .up
  sending : (s.branch k.branch).Sending
  free : ∀ j, ((s.stream n).side j).state = .free

/-- Such a stream with `g` grants outstanding, all of them queued in one GRANT. -/
structure State.Holds (s : State) (n : Fin 32) (k : RouteKey) (g : Nat) : Prop extends s.Serves n k where
  queued : (s.stream n).queued = g
  inFlight : (s.stream n).inFlight = 0
  delivered : (s.stream n).delivered = 0
  queue : ∀ j, .grant k.channel j ∈ (s.branch k.branch).queue ↔ 0 < g ∧ j = g

section Grants

variable {s t : State} {n m : Fin 32} {k : RouteKey} {g : Nat}

theorem State.Serves.key (h : s.Serves n k) : (s.stream n).entry.key? = some k :=
  ((h.routes.route_iff k n).mp h.route).2.2

theorem State.Serves.mem_streamsOf (h : s.Serves n k) : n ∈ s.streamsOf k.branch :=
  (s.onBranch_iff _ n).mp (h.routes.onBranch h.route)

/-- A free side has nothing to send, and so stays free. -/
theorem State.Serves.portWork (h : s.Serves n k) (ht : s.PortWork t) : t.Serves n k := by
  have hside : ∀ j, ((s.stream n).side j).Begun ((t.stream n).side j) := by
    intro j
    unfold Stream.side
    split
    · exact (ht.stream n).side0
    · exact (ht.stream n).side1
  refine ⟨ht.routeLaw h.routes, by simpa only [State.route, ht.routes] using h.route, h.up, ht.still_sending h.sending,
    fun j => ?_⟩
  rcases hside j with hj | ⟨hclosed, -⟩
  · rw [hj]; exact h.free j
  · rw [h.free j] at hclosed
    exact absurd hclosed (by simp)

/-- What leaves the stream and the GRANTs of its key as they are leaves its grants as they are. -/
theorem State.Holds.same (h : s.Holds n k g) (ht : s.PortWork t) (hst : t.stream n = s.stream n)
    (hq : ∀ j, .grant k.channel j ∈ (t.branch k.branch).queue ↔ .grant k.channel j ∈ (s.branch k.branch).queue) :
    t.Holds n k g :=
  ⟨h.toServes.portWork ht, by rw [hst]; exact h.queued, by rw [hst]; exact h.inFlight, by rw [hst]; exact h.delivered,
    fun j => (hq j).trans (h.queue j)⟩

/-- Another UP stream of the port has another channel (R15). -/
theorem State.Serves.channel_ne (h : s.Serves n k) (hm : m ∈ s.streamsOf k.branch) (hmn : m ≠ n) {j : RouteKey}
    (hj : (s.stream m).entry.key? = some j) (hjk : j.branch = k.branch) (hup : j.dir = .up) : k.channel ≠ j.channel := by
  obtain ⟨hm0, hen, -⟩ := (s.mem_streamsOf _ m).mp hm
  have hroute : s.route j = some m := (h.routes.route_iff j m).mpr ⟨hm0, hen, hj⟩
  intro hch
  obtain rfl : j = k := by
    obtain ⟨b, c, d⟩ := j
    obtain ⟨b', c', d'⟩ := k
    simp only [RouteKey.mk.injEq]
    exact ⟨hjk, hch.symm, hup.trans h.up.symm⟩
  exact hmn (Option.some.inj (hroute.symm.trans h.route))

/-- The REVOKE for another stream. -/
theorem State.Holds.revokeStream (h : s.Holds n k g) (hm : m ∈ s.streamsOf k.branch) (hmn : m ≠ n) :
    (s.revokeStream m).Holds n k g := by
  obtain ⟨j, hj, hjk⟩ := State.branch_of_mem_streamsOf hm
  have hch := h.channel_ne hm hmn hj hjk
  have hsend : (s.branch j.branch).Sending := hjk ▸ h.sending
  have heq := State.revokeStream_queues hj hsend.2 hsend.1
  refine h.same (s.revokeStream_portWork m) ?_ fun i => ?_
  · rw [heq, State.requeued_stream_ne hmn.symm]
  · rw [heq, ← hjk, State.requeued_branch_self]
    exact grant_mem_queueRevoke hch

/-- The grants of another stream. -/
theorem State.Holds.issueGrants (h : s.Holds n k g) (hm : m ∈ s.streamsOf k.branch) (hmn : m ≠ n) :
    (s.issueGrants m).Holds n k g := by
  obtain ⟨j, hj, hjk⟩ := State.branch_of_mem_streamsOf hm
  have hsend : (s.branch j.branch).Sending := hjk ▸ h.sending
  rcases State.issueGrants_queued hj hsend.2 with heq | ⟨hup, heq⟩
  · rw [heq]; exact h
  · have hch := h.channel_ne hm hmn hj hjk hup
    refine h.same (s.issueGrants_portWork m) ?_ fun i => ?_
    · rw [heq, State.requeued_stream_ne hmn.symm]
    · rw [heq, ← hjk, State.requeued_branch_self]
      exact mem_queueGrant (by simpa [CtlEntry.isGrant] using hch)

/-- The REVOKE for the stream itself: no grants. -/
theorem State.Serves.revokeStream (h : s.Serves n k) : (s.revokeStream n).Holds n k 0 := by
  have heq := State.revokeStream_queues h.key h.sending.2 h.sending.1
  have hserves := h.portWork (s.revokeStream_portWork n)
  rw [heq] at hserves ⊢
  refine ⟨hserves, ?_, ?_, ?_, fun j => ?_⟩
  · rw [State.requeued_stream_self]; rfl
  · rw [State.requeued_stream_self]; rfl
  · rw [State.requeued_stream_self]; rfl
  · rw [State.requeued_branch_self]
    refine ⟨fun hj => ?_, fun hj => absurd hj.1 (Nat.lt_irrefl 0)⟩
    have hno := queueRevoke_isGrant (h.up ▸ hj)
    exact absurd hno (by simp [CtlEntry.isGrant])

/-- The grants of the stream itself: one for each of its sides. -/
theorem State.Holds.grants (h : s.Holds n k 0) : (s.issueGrants n).Holds n k (s.stream n).entry.sideCount := by
  have hgrantable : (s.stream n).grantable = (s.stream n).entry.sideCount := by
    have hfree : (s.stream n).notFree = 0 := by simp [Stream.notFree, h.free]
    simp [Stream.grantable, Stream.grants, hfree, h.queued, h.inFlight, h.delivered]
  have hen := ((h.routes.route_iff k n).mp h.route).2.1
  have heq := State.issueGrants_busy h.key hen h.up h.sending.1 h.sending.2
    (by rw [hgrantable]; exact (s.stream n).entry.sideCount_pos)
  rw [hgrantable, h.queued, Nat.zero_add] at heq
  have hrequeued : s.issueGrants n = s.requeued n { s.stream n with queued := (s.stream n).entry.sideCount } k.branch
      (queueGrant (s.branch k.branch).queue k.channel (s.stream n).entry.sideCount) := heq
  have hnone : ∀ j, .grant k.channel j ∉ (s.branch k.branch).queue := fun j hj =>
    absurd ((h.queue j).mp hj).1 (Nat.lt_irrefl 0)
  have hserves := h.toServes.portWork (s.issueGrants_portWork n)
  rw [hrequeued] at hserves ⊢
  refine ⟨hserves, ?_, ?_, ?_, fun j => ?_⟩
  · rw [State.requeued_stream_self]
  · rw [State.requeued_stream_self]; exact h.inFlight
  · rw [State.requeued_stream_self]; exact h.delivered
  · rw [State.requeued_branch_self, queueGrant_fresh hnone]
    simp [hnone, (s.stream n).entry.sideCount_pos]

/-- The work of its own port leaves the stream a GRANT of all its sides. -/
theorem State.Serves.resetPort (h : s.Serves n k) : (s.resetPort k.branch).Holds n k (s.stream n).entry.sideCount := by
  have hn := h.mem_streamsOf
  have hrevoked : (s.overStreams (s.streamsOf k.branch) State.revokeStream).Holds n k 0 :=
    State.revokeRun_brings (P := fun v => v.Holds n k 0) hn (fun v hv => (h.portWork hv).revokeStream)
      fun v m hm hmn _ hP => hP.revokeStream hm hmn
  exact (foldl_until (Q := fun v => s.PortWork v ∧ v.Holds n k 0)
    (P := fun v => s.PortWork v ∧ v.Holds n k (s.stream n).entry.sideCount) (s.streamsOf_nodup _) hn
    (fun v m hm hmn hv => ⟨hv.1.trans (v.issueGrants_portWork m), hv.2.issueGrants (hv.1.streamsOf _ ▸ hm) hmn⟩)
    (fun v hv => ⟨hv.1.trans (v.issueGrants_portWork n), (hv.1.stream n).entry ▸ hv.2.grants⟩)
    (fun v m hm hmn hv => ⟨hv.1.trans (v.issueGrants_portWork m), hv.2.issueGrants (hv.1.streamsOf _ ▸ hm) hmn⟩)
    ⟨State.revokeRun_portWork s _, hrevoked⟩).2

/-- The work of another port leaves its grants as they are. -/
theorem State.Holds.resetPort_ne (h : s.Holds n k g) {c : Fin 6} (hc : k.branch ≠ c) : (s.resetPort c).Holds n k g := by
  refine h.same (s.resetPort_portWork c) (h.routes.resetPort_stream fun hn => ?_) fun j => ?_
  · exact hc ((h.routes.onBranch h.route).unique hn)
  · rw [s.resetPort_branch_ne hc]

end Grants

/-! ### The ports after a trunk reset or a detach (R131) -/

theorem branchNumbers_nodup : branchNumbers.Nodup := by decide

section Branches

variable {P : State → Prop} {s : State} {b : Fin 6}

/-- What the work of port `b` brings, and the work of every other port keeps. -/
theorem State.overBranches_brings (hstep : ∀ v, s.PortWork v → v.branch b = s.branch b → P (v.resetPort b))
    (hkeep : ∀ v c, b ≠ c → s.PortWork v → P v → P (v.resetPort c)) : P (s.overBranches State.resetPort) :=
  (foldl_until (Q := fun v => s.PortWork v ∧ v.branch b = s.branch b) (P := fun v => s.PortWork v ∧ P v) branchNumbers_nodup
    (mem_branchNumbers b)
    (fun v c _ hcb hv => ⟨hv.1.trans (v.resetPort_portWork c), (v.resetPort_branch_ne hcb.symm).trans hv.2⟩)
    (fun v hv => ⟨hv.1.trans (v.resetPort_portWork b), hstep v hv.1 hv.2⟩)
    (fun v c _ hcb hv => ⟨hv.1.trans (v.resetPort_portWork c), hkeep v c hcb.symm hv.1 hv.2⟩) ⟨.refl s, rfl⟩).2

end Branches

/-- The statement's words for the ports' work are the model's. -/
theorem State.portsReset_eq (s : State) : s.portsReset = s.overBranches State.resetPort := by
  have hport : ∀ (v : State) b, ((v.onBranch b).foldl State.revokeOf v).grantsFor (v.onBranch b) = v.resetPort b := by
    intro v b
    rw [State.onBranch_eq]
    rfl
  exact congrArg (fun op => branchNumbers.foldl op s) (funext₂ hport)

/-- What the ports have done after a trunk reset, from a state whose UP streams have no side in use. -/
theorem State.portsAfterReset (s : State)
    (hfree : ∀ n, n ≠ 0 → (s.stream n).entry.dir = .up → ∀ j, ((s.stream n).side j).state = .free) :
    s.PortsAfterReset s.portsReset := by
  rw [State.portsReset_eq]
  refine ⟨fun b n hn => ?_, fun b hl => ?_, fun b n hr hn hl => ?_, fun b n hn hl hbusy k hk => ?_,
    fun b n hr hn hl hbusy k hk hup => ?_⟩
  · exact State.overBranches_brings (b := b) (P := fun v => (v.stream n).Spent)
      (fun v hv _ => State.resetPort_spent ((hv.onBranch b n).mpr hn)) fun v c _ _ hP => State.resetPort_keeps_spent c hP
  · exact ((State.overBranches_portStep State.resetPort_portStep s).branch b).down hl
  · refine State.overBranches_brings (b := b) (P := fun v => (v.stream n).Grantless)
      (fun v hv hb => State.resetPort_grantless ((hv.onBranch b n).mpr hn) (hb ▸ hl)) fun v c hbc hv hP => ?_
    rw [(hv.routeLaw hr).resetPort_stream fun hc => hbc (((hv.onBranch b n).mpr hn).unique hc)]
    exact hP
  · obtain rfl := State.OnBranch.key_branch hn hk
    refine State.overBranches_brings (b := k.branch) (P := fun v => .revoke k.channel k.dir ∈ (v.branch k.branch).queue)
      (fun v hv hb => State.resetPort_revoked (hb ▸ ⟨hl, hbusy⟩) ((hv.onBranch _ n).mpr hn)
        ((hv.stream n).entry.symm ▸ hk)) fun v c hbc _ hP => ?_
    rw [v.resetPort_branch_ne hbc]
    exact hP
  · obtain rfl := State.OnBranch.key_branch hn hk
    have hserves : s.Serves n k := ⟨hr, (hr.route_iff k n).mpr ⟨hn.1, hn.2.1, hk⟩, hup, ⟨hl, hbusy⟩,
      hfree n hn.1 (((Entry.key?_eq_some_iff _ _).mp hk).2.2.trans hup)⟩
    have hholds : (s.overBranches State.resetPort).Holds n k (s.stream n).entry.sideCount :=
      State.overBranches_brings (b := k.branch) (P := fun v => v.Holds n k (s.stream n).entry.sideCount)
        (fun v hv _ => (hv.stream n).entry ▸ (hserves.portWork hv).resetPort) fun v c hbc _ hP => hP.resetPort_ne hbc
    exact ⟨(hholds.queue _).mpr ⟨(s.stream n).entry.sideCount_pos, rfl⟩, hholds.queued, hholds.inFlight⟩

end Sys2Proof.Machine
end

