-- ==== Sys2Proof/Proofs/LineReports.lean ====
section
/-! SIGNAL-PRESENT, SIGNAL-LOST and LINE-RESET by the line status (R51, R52, R62, R63). -/

namespace Sys2Proof.Machine

/-! ### The ports read nothing of the Event Queue -/

section Events

variable (q : EventQueue) (s : State)

theorem State.setEvents_blind : Blind (fun s => s.setEvents q) :=
  ⟨fun _ _ => rfl, fun _ _ => rfl, fun _ _ => rfl, fun _ _ _ => rfl, fun _ _ _ _ => rfl⟩

theorem State.setEvents_arbitrate (b : Fin 6) : (s.setEvents q).arbitrate b = (s.arbitrate b).setEvents q := by
  have hnext : (s.setEvents q).nextDown? b = s.nextDown? b := rfl
  have hbranch : (s.setEvents q).branch b = s.branch b := rfl
  have hstream : ∀ n, (s.setEvents q).stream n = s.stream n := fun _ => rfl
  simp only [State.arbitrate, hnext, hbranch, hstream]
  split
  · split
    · exact (State.setEvents_blind q).beginControl s b _ _
    · split
      · split <;> rfl
      · rfl
  · rfl

theorem State.setEvents_issueGrants (n : Fin 32) : (s.setEvents q).issueGrants n = (s.issueGrants n).setEvents q :=
  (State.setEvents_blind q).issueGrants rfl

theorem State.setEvents_revokeStream (n : Fin 32) : (s.setEvents q).revokeStream n = (s.revokeStream n).setEvents q := by
  have hstream : (s.setEvents q).stream n = s.stream n := rfl
  cases hk : (s.stream n).entry.key? with
  | none => simp only [State.revokeStream, hstream, hk]
  | some k =>
    have hbranch : (s.setEvents q).branch k.branch = s.branch k.branch := rfl
    simp only [State.revokeStream, hstream, hk, State.revokeKey, hbranch]
    split
    · rw [← State.setEvents_arbitrate]
      rfl
    · rfl

/-- A run of operations that do not see the events. -/
theorem State.setEvents_foldl {α : Type} {op : State → α → State}
    (h : ∀ s x, op (s.setEvents q) x = (op s x).setEvents q) (xs : List α) :
    ∀ s : State, xs.foldl op (s.setEvents q) = (xs.foldl op s).setEvents q := by
  induction xs with
  | nil => exact fun _ => rfl
  | cons x xs ih => exact fun s => (congrArg (xs.foldl op) (h s x)).trans (ih _)

theorem State.setEvents_resetPort (b : Fin 6) : (s.setEvents q).resetPort b = (s.resetPort b).setEvents q := by
  have hrevoke := State.setEvents_foldl q (State.setEvents_revokeStream q) (s.streamsOf b) s
  have hgrant := State.setEvents_foldl q (State.setEvents_issueGrants q) (s.streamsOf b)
  exact (congrArg (State.overStreams · (s.streamsOf b) State.issueGrants) hrevoke).trans (hgrant _)

/-- The event that is offered after the ports' work is the one that could be offered before it. -/
theorem State.overBranches_offerPlain (kind : EventKind) (d : Byte) :
    (s.overBranches State.resetPort).offerPlain kind d = (s.offerPlain kind d).overBranches State.resetPort := by
  have hstep := State.overBranches_portStep State.resetPort_portStep s
  have hrun := State.setEvents_foldl (s.events.offer s.timebase.count kind noneByte noneByte d)
    (State.setEvents_resetPort _) branchNumbers s
  refine Eq.trans ?_ hrun.symm
  show State.setEvents _ _ = State.setEvents _ _
  rw [hstep.events, hstep.timebase]
  rfl

end Events

/-! ### The effects of a trunk reset or a detach (R62, R63) -/

/-- The state that the ports find. -/
def State.resetBefore (s : State) (line : LineStatus) (node : NodeState) (kind : EventKind) : State :=
  (s.trunkCleared line node).offerPlain kind s.trunk.node.detail

section Effects

variable (s : State) (line : LineStatus) (node : NodeState) (kind : EventKind)

theorem State.trunkReset_portsReset : s.trunkReset line node kind = (s.resetBefore line node kind).portsReset := by
  rw [State.trunkReset_eq, State.overBranches_offerPlain, State.portsReset_eq]
  rfl

theorem State.resetBefore_stream (n : Fin 32) :
    (s.resetBefore line node kind).stream n = if n ≠ 0 then (s.stream n).trunkReset else s.stream n := by
  rw [State.resetBefore, State.offerPlain_stream, State.trunkCleared_stream]

theorem State.resetBefore_eq : s.resetBefore line node kind = { s with
    trunk := { line := line, node := node, addr := 0, waiting := none, sending := none },
    streams := (s.resetBefore line node kind).streams, mgmt := s.mgmt.trunkReset, timebase := s.timebase.unsync,
    events := s.events.offer s.timebase.count kind noneByte noneByte s.trunk.node.detail } := by
  have hcleared := s.trunkCleared_eq line node
  unfold State.resetBefore
  rw [hcleared]
  rfl

theorem Stream.trunkReset_side (st : Stream) (k : Fin 2) : st.trunkReset.side k = (st.side k).discard st.entry.dir :=
  st.discard_side k

/-- What a trunk reset leaves of a stream from 1 to 31, in the statement's words. -/
theorem Stream.trunkReset_eq (st : Stream) : st.trunkReset = { st with
    response := .hold, seqBit := false, burst := 0, packet := none, served := false,
    side0 := st.trunkReset.side0, side1 := st.trunkReset.side1,
    order := st.order.filter (fun k => (st.trunkReset.side k).state != .free) } := by
  simp only [Stream.trunkReset_side]
  rfl

theorem State.resetEffects : s.ResetEffects (s.resetBefore line node kind)
    { line := line, node := node, addr := 0, waiting := none, sending := none } kind := by
  have heq := s.resetBefore_eq line node kind
  refine ⟨congrArg State.trunk heq, fun n hn => ?_, ?_, congrArg State.timebase heq, ?_, congrArg State.events heq, ?_⟩
  · rw [State.resetBefore_stream, if_pos hn]
    exact ⟨Side.discard_discarded _ _, Side.discard_discarded _ _, Stream.trunkReset_eq _⟩
  · rw [State.resetBefore_stream, if_neg (not_not_intro rfl)]
  · rw [heq]
    rfl
  · rw [heq]

/-- The ports find the entries, the keys and the ports as they were, and no side of an UP stream in use. -/
theorem State.resetBefore_portsAfterReset :
    s.PortsAfterReset (s.resetBefore line node kind).portsReset := by
  let u := s.resetBefore line node kind
  have hentry : ∀ n, (u.stream n).entry = (s.stream n).entry := fun n => by
    rw [State.resetBefore_stream]
    split <;> rfl
  have hfree : ∀ n, n ≠ 0 → (u.stream n).entry.dir = .up → ∀ j, ((u.stream n).side j).state = .free := by
    intro n hn hup j
    rw [hentry] at hup
    rw [State.resetBefore_stream, if_pos hn, Stream.trunkReset_side, Side.discard, if_neg (by simp [hup])]
    rfl
  have heq := s.resetBefore_eq line node kind
  have hbranch : ∀ b, u.branch b = s.branch b := fun b => (congrArg (State.branch · b) heq).trans rfl
  have hroutes : u.routes = s.routes := (congrArg State.routes heq).trans rfl
  have hlaw : u.RouteLaw ↔ s.RouteLaw := ⟨.of_same hroutes.symm fun n => (hentry n).symm, .of_same hroutes hentry⟩
  obtain ⟨counts, down, grantless, revoked, granted⟩ := u.portsAfterReset hfree
  simp only [State.OnBranch, hentry, hbranch, hlaw] at counts down grantless revoked granted
  exact ⟨counts, down, grantless, revoked, granted⟩

end Effects

/-- Settles O3: the line status decides, and a trunk reset or a detach parts into the blocks' own effects
(`State.resetEffects`) and the ports' work (`State.portsAfterReset`). -/
theorem lineReportsByStatus : Obligations.LineReportsByStatus := by
  refine ⟨fun s hline => congrArg Host.Outcome.next (if_pos hline), fun s hline => ?_, fun s hline => ?_,
    fun s hline => ⟨⟨s.resetBefore .present .listening .trunkReset, ?_, s.resetBefore_portsAfterReset _ _ _,
      s.resetEffects _ _ _⟩, ⟨s.resetBefore .absent .detached .trunkLost, ?_, s.resetBefore_portsAfterReset _ _ _,
      s.resetEffects _ _ _⟩⟩⟩
  · exact congrArg Host.Outcome.next (if_neg (by simp [hline]))
  · have hnot : ¬ s.trunk.line = .present := by simp [hline]
    exact ⟨congrArg Host.Outcome.next (if_neg hnot), congrArg Host.Outcome.next (if_neg hnot)⟩
  · exact congrArg Host.Outcome.next ((if_pos hline).trans (s.trunkReset_portsReset _ _ _))
  · exact congrArg Host.Outcome.next ((if_pos hline).trans (s.trunkReset_portsReset _ _ _))

end Sys2Proof.Machine
end

