-- ==== Sys2Proof/Proofs/FlowDownCells.lean ====
section
/-! The cells of FLOW DOWN streams: the ASK (R76), the room test (R40), and the PUT that one of the five checks stops (R68 to
R71); and the ACKs that complete no packet (R59, R82). -/

namespace Sys2Proof.Machine

/-! ### ACKs that complete no packet (R59, R82) -/

section Ack

variable {s : State} {c : CellHdr} {n : Fin 32}

/-- An ACK on a stream other than 0 is tested by R59 alone, whatever the node state. -/
theorem exec_ack_stream (h : s.Takes c) (hs : c.stream ≠ 0) : exec (.ack c) s = .next (s.streamAck c) :=
  congrArg Host.Outcome.next ((State.takeCell_taken h _).trans (if_neg hs))

/-- No stream of that number, or a stream that is not enabled. -/
theorem State.streamAck_disabled (h : ∀ n, c.stream? = some n → (s.stream n).entry.enabled = false) :
    s.streamAck c = s.disabledCell := by
  cases hn : c.stream? with
  | none => simp only [State.streamAck, hn]
  | some n => simp only [State.streamAck, hn, h n hn, Bool.not_false, if_true]

theorem State.streamAck_notFlowUp (hn : c.stream? = some n) (hen : (s.stream n).entry.enabled = true)
    (h : ¬ (s.stream n).entry.Is .flow .up) : s.streamAck c = s.strayAck := by
  simp only [State.streamAck, hn, hen, Bool.not_true, Bool.false_eq_true, if_false, if_neg (mt And.symm h)]

theorem State.flowAck_stray (h : (s.stream n).packet = none) : s.flowAck n = s.strayAck := by
  simp only [State.flowAck, h]

end Ack

/-- Settles O6: an ACK is for a disabled stream, for one that is not FLOW UP, or for a FLOW UP stream with no packet. -/
theorem acksThatCompleteNothing : Obligations.AcksThatCompleteNothing := by
  intro s c htakes hs
  refine ⟨fun hdis => ?_, fun n hn hen hnone => ?_⟩
  · rw [exec_ack_stream htakes hs, State.streamAck_disabled hdis]
    rfl
  · by_cases hflow : (s.stream n).entry.Is .flow .up
    · rw [exec_ack_flow htakes hn hen hflow, State.flowAck_stray (hnone.resolve_left (not_not_intro hflow))]
      rfl
    · rw [exec_ack_stream htakes hs, State.streamAck_notFlowUp hn hen hflow]
      rfl

/-! ### The room test (R40) -/

theorem Stream.freeSide?_isSome_iff (st : Stream) :
    st.freeSide?.isSome = true ↔ ∃ k ∈ st.entry.sideNos, (st.side k).state = .free := by
  simp [Stream.freeSide?]

/-- The room test as it searches the sides: the FILLING side that is found, or a FREE one. -/
theorem Stream.room_iff_find (st : Stream) : st.room = true ↔
    (∃ k, st.fillingSide? = some k ∧ st.entry.maxPayload.toNat ≤ st.space k) ∨ st.freeSide?.isSome = true := by
  cases hk : st.fillingSide? with
  | none => simp [Stream.room, hk]
  | some k => simp [Stream.room, hk]

/-- With at most one side FILLING (R26), the side found is every FILLING side that the stream has. -/
theorem Stream.fillingSide?_eq_some_iff {st : Stream}
    (hone : ¬ (st.side0.state = .filling ∧ st.side1.state = .filling)) (k : Fin 2) :
    st.fillingSide? = some k ↔ k ∈ st.entry.sideNos ∧ (st.side k).state = .filling := by
  refine ⟨Stream.fillingSide?_eq_some, fun ⟨hk, hfilling⟩ => ?_⟩
  obtain ⟨j, hj⟩ := Option.isSome_iff_exists.mp (st.fillingSide?_isSome_iff.mpr ⟨k, hk, hfilling⟩)
  have hsame : j = k := by
    by_contra hne
    obtain ⟨-, hj'⟩ := Stream.fillingSide?_eq_some hj
    obtain rfl := fin_two_ne_iff.mp hne
    match k with
    | 0 => exact hone ⟨hfilling, hj'⟩
    | 1 => exact hone ⟨hj', hfilling⟩
  rw [hj, hsame]

/-- The room test asks each side for itself when at most one is FILLING (R26, R40). -/
theorem Stream.room_iff {st : Stream} (hone : ¬ (st.side0.state = .filling ∧ st.side1.state = .filling)) :
    st.room = true ↔ ∃ k ∈ st.entry.sideNos,
      ((st.side k).state = .filling ∧ st.entry.maxPayload.toNat ≤ st.entry.capacity - (st.side k).fill) ∨
        (st.side k).state = .free := by
  simp only [st.room_iff_find, Stream.fillingSide?_eq_some_iff hone, st.freeSide?_isSome_iff, Stream.space, and_assoc,
    and_or_left, exists_or]

/-! ### The ASK of a FLOW DOWN stream, branch by branch (R67, R76) -/

/-- An ASK that passes the checks of R58 goes to the Flow Handshake Unit. -/
theorem exec_ask_flow {s : State} {c : CellHdr} {n : Fin 32} (h : s.Reaches c n)
    (hflow : (s.stream n).entry.Is .flow .down) : exec (.ask c) s = .next (s.flowAsk c n) := by
  show Host.Outcome.next _ = _
  rw [State.takeCell_taken h.1, if_neg (CellHdr.stream_ne_zero h.2.2.1),
    State.dispatch_serves h (by simp [hflow.1, hflow.2])]

section FlowAsk

variable {s : State} {n : Fin 32} (c : CellHdr)

theorem State.flowAsk_halt (h : (s.stream n).response = .halt) :
    s.flowAsk c n = s.withAnswer c .halt (s.stream n).seqBit [] := by
  simp only [State.flowAsk, h, State.answer_eq]

theorem State.flowAsk_hold (h : (s.stream n).response = .hold) :
    s.flowAsk c n = s.withAnswer c .wait (s.stream n).seqBit [] := by
  simp only [State.flowAsk, h, State.answer_eq]

theorem State.flowAsk_opened (h : (s.stream n).response = .opened) :
    s.flowAsk c n = s.withAnswer c (if (s.stream n).room then .ack else .wait) (s.stream n).seqBit [] := by
  simp only [State.flowAsk, h, State.answer_eq]

end FlowAsk

/-- Settles O8: the ASK goes to the Flow Handshake Unit, whose answer is said by response state, and `Stream.room_iff`. -/
theorem flowAskAnswered : Obligations.FlowAskAnswered := by
  refine ⟨fun s c n hreach hflow => ?_, fun st hone => Stream.room_iff hone⟩
  rw [exec_ask_flow hreach hflow]
  refine ⟨fun h => congrArg _ (State.flowAsk_halt c h), fun h => congrArg _ (State.flowAsk_hold c h),
    fun h hroom => ?_, fun h hroom => ?_⟩
  · rw [State.flowAsk_opened c h, if_pos hroom]
  · rw [State.flowAsk_opened c h, if_neg (ne_true_of_eq_false hroom)]

/-! ### The PUT of a FLOW DOWN stream that a check stops (R68 to R71) -/

/-- A PUT that passes the checks of R58 goes to the Flow Handshake Unit. -/
theorem exec_put_flow {s : State} {c : CellHdr} {n : Fin 32} (p : List Byte) (h : s.Reaches c n)
    (hflow : (s.stream n).entry.Is .flow .down) : exec (.put c p) s = .next (s.flowPut c n p) := by
  show Host.Outcome.next _ = _
  rw [State.takeCell_taken h.1, if_neg (CellHdr.stream_ne_zero h.2.2.1), State.dispatch_serves h (by simp [hflow.2])]
  simp only [State.servePut, hflow.1]

/-- The Stream Table accepts the HALT claim of an enabled stream in every node state (R19). -/
theorem State.claim_halt {s : State} {n : Fin 32} (hen : (s.stream n).entry.enabled = true) :
    s.claim n .halt = s.mapStream n (fun st => { st with response := .halt }) := by
  rcases s.claim_cases n .halt with ⟨-, -, h⟩ | ⟨hrefused, -⟩
  · exact h
  · exact absurd ⟨hen, nofun⟩ hrefused

/-- An oversize PUT as one event and one stream replaced (R69). -/
theorem State.flowOversize_eq {s : State} {n : Fin 32} (c : CellHdr) (hen : (s.stream n).entry.enabled = true) :
    s.flowOversize c n = ((s.withStreamEvent n .streamHalted 1).withStream n
      { s.stream n with response := .halt, counters := (s.stream n).counters.oversized }).withAnswer c .halt c.seq [] := by
  rw [State.flowOversize, State.claim_halt hen, State.offerStream_mapStream, State.countStream, State.mapStream_mapStream]
  · rfl
  · exact fun _ => rfl

section FlowPut

variable {s : State} {n : Fin 32} {p : List Byte} (c : CellHdr)

theorem State.flowPut_halt (h : (s.stream n).response = .halt) : s.flowPut c n p = s.withAnswer c .halt c.seq [] := by
  simp only [State.flowPut, h, State.answer_eq]

theorem State.flowPut_hold (h : (s.stream n).response = .hold) : s.flowPut c n p = s.withAnswer c .wait c.seq [] := by
  simp only [State.flowPut, h, State.answer_eq]

variable (h : (s.stream n).response = .opened)

include h

theorem State.flowPut_oversize (hlen : (s.stream n).entry.maxPayload.toNat < p.length) :
    s.flowPut c n p = s.flowOversize c n := by
  simp only [State.flowPut, h, if_pos hlen]

theorem State.flowPut_duplicate (hlen : p.length ≤ (s.stream n).entry.maxPayload.toNat)
    (hseq : c.seq ≠ (s.stream n).seqBit) :
    s.flowPut c n p =
      (s.countStream n (fun k => { k with duplicate := satInc k.duplicate })).answer c .ack c.seq [] := by
  simp only [State.flowPut, h, if_neg (Nat.not_lt.mpr hlen), if_pos hseq]

theorem State.flowPut_noRoom (hlen : p.length ≤ (s.stream n).entry.maxPayload.toNat)
    (hseq : c.seq = (s.stream n).seqBit) (hroom : (s.stream n).room = false) :
    s.flowPut c n p = s.withAnswer c .wait c.seq [] := by
  simp only [State.flowPut, h, if_neg (Nat.not_lt.mpr hlen), if_neg (not_not_intro hseq), hroom, Bool.not_false, if_true,
    State.answer_eq]

end FlowPut

/-- Settles O9: the PUT goes to the Flow Handshake Unit, whose five checks are said one by one. -/
theorem flowPutRefusedInOrder : Obligations.FlowPutRefusedInOrder := by
  intro s c n p hreach hflow
  have ⟨_, _, _, hen⟩ := hreach
  rw [exec_put_flow p hreach hflow]
  exact ⟨fun h => congrArg _ (State.flowPut_halt c h), fun h => congrArg _ (State.flowPut_hold c h),
    fun h hlen => congrArg _ ((State.flowPut_oversize c h hlen).trans (State.flowOversize_eq c hen)),
    fun h hlen hseq => congrArg _ (State.flowPut_duplicate c h hlen hseq),
    fun h hlen hseq hroom => congrArg _ (State.flowPut_noRoom c h hlen hseq hroom)⟩

end Sys2Proof.Machine
end

