-- ==== Sys2Proof/Proofs/Markers.lean ====
section
/-! The Cycle Timebase: what every step keeps of it (R91, R100), and the markers that make no unserved check: those
that lock (R94), claim (R95) or are runts (R96). -/

namespace Sys2Proof.Machine

/-! ### The law of the timebase (R91, R100) -/

/-- Settles O59: markers, expiries, resets and SET-CYCLE keep the law (`exec_keeps`), and nothing else moves the timebase. -/
theorem stepsKeepTheTimebaseLaw : Obligations.StepsKeepTheTimebaseLaw := fun _ _ hs h => (step_keeps h).timebase hs

/-! ### A CYCLE that the node takes (R57, R93) -/

/-- The state whose timebase has counted a marker, before it does anything else (R93). -/
def State.markerCounted (s : State) : State := s.mapTimebase (fun t => { t with markers := t.markers + 1 })

theorem exec_cycle {s : State} (h : s.Receives) (c : CellHdr) (k : Half) (time : Ticks) :
    exec (.cycle c k time) s = .next (s.takeMarker k time) :=
  congrArg Host.Outcome.next (if_pos (s.receives_iff.mpr h))

section Markers

variable {s : State}

/-- In UNSYNCED and LOST every marker locks, with the detail of the state it came in (R94, R173). -/
theorem State.takeMarker_lock (h : s.timebase.state = .unsynced ∨ s.timebase.state = .lost) (k : Half) (time : Ticks) :
    s.takeMarker k time = s.markerCounted.markerLock k time (if s.timebase.state = .unsynced then 1 else 2) := by
  rcases h with h | h <;> simp only [State.takeMarker, h] <;> rfl

variable (h : s.timebase.state = .locked ∨ s.timebase.state = .coasting) {time : Ticks}

include h

/-- In LOCKED and COASTING the test of the capture window comes first (R93 test 1). -/
theorem State.takeMarker_claim (hclaims : s.timebase.claims time = true) (k : Half) :
    s.takeMarker k time = s.markerCounted.markerClaim k time := by
  rcases h with h | h <;> simp only [State.takeMarker, h, hclaims, if_true] <;> rfl

/-- The runt test comes second (R93 test 2). -/
theorem State.takeMarker_runt (hclaims : s.timebase.claims time = false) (hearly : s.timebase.tooEarly time = true)
    (k : Half) : s.takeMarker k time = s.markerCounted.offerPlain .markerSkew 1 := by
  rcases h with h | h <;> simp only [State.takeMarker, h, hclaims, hearly, Bool.false_eq_true, if_false, if_true] <;> rfl

end Markers

/-! ### The first boundary (R94) -/

/-- Settles O17: the boundary work with no ending count, on the state whose timebase has locked (`State.boundaryEffects`). -/
theorem markerLocksTimebase : Obligations.MarkerLocksTimebase := by
  intro s c k time hreceives hstate
  have hexec := (exec_cycle hreceives c k time).trans (congrArg _ (State.takeMarker_lock hstate k time))
  exact ⟨_, hexec, s.boundaryEffects none _ _⟩

/-! ### The claimed boundary (R95, R98) -/

theorem Timebase.claims_eq_true {t : Timebase} {time t0 : Ticks} (h : t.last = some { time := t0, kind := .interpolated false })
    (hwindow : time - t0 ≤ t.length.ticks / 8) : t.claims time = true := by
  simp only [Timebase.claims, h, CycleLength.captures, decide_eq_true_eq]
  exact hwindow

/-- A claim as the timebase and the two offers that it makes, MARKER-SKEW (count) first (R95, R98). -/
theorem State.markerClaim_eq (s : State) (k : Half) (time : Ticks) : s.markerClaim k time = { s with
    timebase := s.timebase.claim k time,
    events :=
      let e1 := if k = s.timebase.count then s.events else s.events.offer k .markerSkew 0xFF#8 0xFF#8 2
      if s.timebase.state = .coasting then e1.offer k .timebaseLocked 0xFF#8 0xFF#8 3 else e1 } := by
  rw [State.markerClaim, State.returnFrom_eq]
  by_cases hk : k = s.timebase.count
  · rw [if_neg (not_not_intro hk), if_pos hk]
    rfl
  · rw [if_pos hk, if_neg hk]
    rfl

/-- Settles O18: the marker passes the test of the capture window, and `State.markerClaim_eq`. -/
theorem markerClaimsBoundary : Obligations.MarkerClaimsBoundary := by
  intro s c k time t0 hreceives hstate hlast hwindow e1
  rw [exec_cycle hreceives, State.takeMarker_claim hstate (Timebase.claims_eq_true hlast hwindow), State.markerClaim_eq]
  rfl

/-! ### The runt (R96) -/

theorem Timebase.tooEarly_eq_true {t : Timebase} {b : Boundary} (h : t.last = some b) {time : Ticks}
    (hsoon : time - b.time < t.length.ticks / 2) : t.tooEarly time = true := by
  simp only [Timebase.tooEarly, h, CycleLength.isRunt, decide_eq_true_eq]
  exact hsoon

/-- Settles O19: the marker fails the claim test and meets the runt test, which does nothing but count and offer. -/
theorem runtMarkerDiscarded : Obligations.RuntMarkerDiscarded := by
  intro s c k time b hreceives hstate hlast hclaim hsoon
  rw [exec_cycle hreceives, State.takeMarker_runt hstate (Timebase.claims_eq_false hlast time hclaim)
    (Timebase.tooEarly_eq_true hlast hsoon)]
  rfl

end Sys2Proof.Machine
end

