-- ==== Sys2Proof/Proofs/SetCycle.lean ====
section
/-! SET-CYCLE: the parts of its value (11.4), and the timebase that it restarts (R102, R158). -/

namespace Sys2Proof.Machine

/-! ### Requests that end at once (R141, R155) -/

/-- A request that passes its header checks and ends with a result code leaves its RESULT stage and the ACK. -/
theorem State.request_ends {s : State} {c : CellHdr} {r : Request} {f : ReqFields} (h : s.TakesRequest c f)
    (hl : r.lengthOk f.length.toNat = true) (hn : r.allowedIn s.trunk.node = true) {body : State → State}
    {code : ResultCode} (hbody : body (s.begun r f) = (s.begun r f).finish code) :
    s.request c r f body = s.resulted c r f code := by
  rw [State.request_runs h hl hn, hbody, State.begun_finish, State.answer_eq]

/-! ### The value of a SET-CYCLE (R158, 11.4) -/

/-- The L code of a cycle length (R158). -/
def CycleLength.code : CycleLength → Nat
  | .us125 => 0
  | .us250 => 1
  | .us500 => 2
  | .us1000 => 3

theorem cycleLengthOfCode?_code (l : CycleLength) : cycleLengthOfCode? l.code = some l := by cases l <;> rfl

theorem CycleLength.code_le (l : CycleLength) : l.code ≤ 3 := by cases l <;> decide

theorem cycleLengthOfCode?_eq_none {n : Nat} (h : 3 < n) : cycleLengthOfCode? n = none := by
  unfold cycleLengthOfCode?
  split
  on_goal 5 => rfl
  all_goals omega

/-- The lowest byte of the value is C. -/
theorem ReqFields.valueByte_seven (f : ReqFields) : f.valueByte 7 = f.value.toNat % 256 := by
  simp [ReqFields.valueByte, BitVec.extractLsb'_toNat]

/-- The bytes above C, read as one number. -/
theorem ReqFields.valueBytes_high (f : ReqFields) :
    f.value.toNat / 256 = f.valueByte 6 + 256 * f.valueByte 5 + 65536 * f.valueByte 4 := by
  have hword := f.value.isLt
  simp only [ReqFields.valueByte, BitVec.extractLsb'_toNat, Nat.shiftRight_eq_div_pow]
  omega

section SetCycle

variable {f : ReqFields} (s : State)

theorem setCycleBody_range (h : 3 < f.value.toNat / 256 ∨ f.value.toNat % 256 = 0 ∨ 15 < f.value.toNat % 256) :
    setCycleBody f s = s.finish .range := by
  rw [ReqFields.valueBytes_high, ← ReqFields.valueByte_seven] at h
  by_cases hcode : 3 < f.valueByte 6
  · simp only [setCycleBody, cycleLengthOfCode?_eq_none hcode]
  · unfold setCycleBody
    split
    · rfl
    · split_ifs with hlimit hspare
      · rfl
      · rfl
      · omega

theorem setCycleBody_done {l : CycleLength} (hcode : f.value.toNat / 256 = l.code) (hlow : 1 ≤ f.value.toNat % 256)
    (hhigh : f.value.toNat % 256 ≤ 15) : setCycleBody f s = (s.mapTimebase (fun t =>
      { t.unsync with length := l, coastLimit := f.value.toNat % 256 })).finish .done := by
  rw [← ReqFields.valueByte_seven] at hlow hhigh ⊢
  have hle := l.code_le
  have hbytes := ReqFields.valueBytes_high f
  have hcode' : f.valueByte 6 = l.code := by omega
  have hlimit : ¬ (f.valueByte 7 < 1 ∨ 15 < f.valueByte 7) := by omega
  have hspare : ¬ (f.valueByte 4 ≠ 0 ∨ f.valueByte 5 ≠ 0) := by omega
  simp only [setCycleBody, hcode', cycleLengthOfCode?_code, if_neg hlimit, if_neg hspare]

end SetCycle

/-- Settles O39: the value's bytes as the statement reads them, and the two ends of the request. -/
theorem setCycleRestartsTheTimebase : Obligations.SetCycleRestartsTheTimebase := by
  intro s c f h hlen hnode code limit
  have hl : Request.setCycle.lengthOk f.length.toNat = true := by simp [Request.lengthOk, hlen]
  have hn : Request.setCycle.allowedIn s.trunk.node = true := by simpa [Request.allowedIn] using hnode
  refine ⟨fun hbad => congrArg Host.Outcome.next (State.request_ends h hl hn (setCycleBody_range _ hbad)),
    fun l hcode hlow hhigh => ?_⟩
  have hcode' : code = l.code := hcode
  have hrun := State.request_runs h hl hn (setCycleBody f)
  rw [setCycleBody_done _ hcode' hlow hhigh] at hrun
  exact congrArg Host.Outcome.next hrun

end Sys2Proof.Machine
end

