-- ==== Sys2Proof/Proofs/ReadRequests.lean ====
section
/-! The reading requests: the snapshot that each takes at its REQUEST (R142, R164 to R168), and the bytes of the records as
11.5 to 11.7 lay them out. -/

namespace Sys2Proof.Machine

/-! ### A reading request (R142, 9.1) -/

/-- The requests that take a snapshot. -/
def Request.readings : List Request := [.readIdentity, .readTimebase, .readStream, .readCounters, .readEvents]

/-- The reading requests are allowed in every node state that takes cells (9.1). -/
theorem Request.allowedIn_of_reading {r : Request} (hr : r ∈ Request.readings) {node : NodeState} (h : node ≠ .detached) :
    r.allowedIn node = true := by
  simp only [Request.readings, List.mem_cons, List.not_mem_nil, or_false] at hr
  rcases hr with rfl | rfl | rfl | rfl | rfl <;> simpa [Request.allowedIn] using h

section Reading

variable {s : State} {c : CellHdr} {r : Request} {f : ReqFields} (h : s.TakesRequest c f) (hr : r ∈ Request.readings)
  (hl : r.lengthOk f.length.toNat = true)

include h hr hl

/-- A reading request that takes its snapshot goes to DATA-IN with it, its cell answered ACK, and changes nothing else. -/
theorem State.request_snaps {body : State → State} {bytes : List Byte} {detail : Byte} {deferred : Option Deferred}
    (hbody : body (s.begun r f) = (s.begun r f).snapshot bytes detail deferred) :
    s.request c r f body =
      { s.withAnswer c .ack c.seq [] with mgmt := s.mgmt.snapped r f bytes detail deferred } := by
  rw [State.request_runs h hl (Request.allowedIn_of_reading hr h.1.1.1), hbody, State.answer_eq]
  rfl

/-- A reading request that its own checks stop ends with their code. -/
theorem State.request_refuses {body : State → State} {code : ResultCode}
    (hbody : body (s.begun r f) = (s.begun r f).finish code) : s.request c r f body = s.resulted c r f code :=
  State.request_ends h hl (Request.allowedIn_of_reading hr h.1.1.1) hbody

end Reading

section Bodies

variable {f : ReqFields} (s : State)

theorem readStreamBody_noTarget (h : f.stream? = none) : readStreamBody f s = s.finish .range := by
  simp only [readStreamBody, h]

theorem readStreamBody_snaps {n : Fin 32} (h : f.stream? = some n) :
    readStreamBody f s = s.snapshot (s.stream n).record 0 none := by
  simp only [readStreamBody, h]

theorem readCountersBody_noGroup (h : counterGroupOf? f.target = none) : readCountersBody f s = s.finish .range := by
  simp only [readCountersBody, h]

theorem readCountersBody_wrongLength {g : CounterGroup} (h : counterGroupOf? f.target = some g)
    (hlen : f.length.toNat ≠ g.recordLength) : readCountersBody f s = s.finish .badRequest := by
  simp only [readCountersBody, h, if_pos hlen]

theorem readCountersBody_snaps {g : CounterGroup} (h : counterGroupOf? f.target = some g)
    (hlen : f.length.toNat = g.recordLength) : readCountersBody f s = s.snapshot (s.counterRecord g) 0 none := by
  simp only [readCountersBody, h, if_neg (not_not_intro hlen)]

end Bodies

/-! ### The stream record (11.5, R165, R178) -/

/-- A disabled stream is reported in HOLD with nothing else. -/
theorem Stream.record_disabled {st : Stream} (h : st.entry.enabled = false) :
    st.record = st.entry.bytes ++ [2, 0, 0, 0, 0, 0, 0, 0] := by
  simp only [Stream.record, h, Bool.false_eq_true, if_false]
  rfl

theorem Stream.record_enabled {st : Stream} (h : st.entry.enabled = true) :
    st.record = st.entry.bytes ++ ([st.response.byte, st.byte17] ++ halfBytes st.burst ++
      halfBytes (st.reportedSide 0).word ++ halfBytes (st.reportedSide 1).word) := by
  simp only [Stream.record, h, if_true]

/-- The state code stands in the top four bits of a side's word, the fill count below it. -/
theorem Side.word_eq (sd : Side) : sd.word = BitVec.ofNat 16 (sd.fill + 4096 * sd.state.code) := by
  rw [Side.word, halfOf, Nat.add_comm, Nat.mul_comm]

theorem Stream.reportedSide_zero (st : Stream) : st.reportedSide 0 = st.side0 :=
  if_pos ((mem_sideNos _ _).mpr (.inl rfl))

/-- Side 1 of a one-sided stream is reported FREE and empty, which is the word 0 (R25). -/
theorem Stream.reportedSide_one_word (st : Stream) :
    (st.reportedSide 1).word = if st.entry.twoSides = true then st.side1.word else 0 := by
  unfold Stream.reportedSide
  by_cases h : st.entry.twoSides = true
  · rw [if_pos ((mem_sideNos _ _).mpr (.inr h)), if_pos h]
    rfl
  · rw [if_neg (by simp [mem_sideNos, h]), if_neg h]
    rfl

/-- Byte 17: the grants or credits, then the packet outstanding and the sequence bit. -/
theorem Stream.byte17_eq (st : Stream) : st.byte17 = BitVec.ofNat 8
    ((if st.entry.dir = .up then st.queued + st.inFlight + st.delivered else st.credits) * 16 +
      (if st.packet = none then 0 else 2) + if st.seqBit then 1 else 0) := by
  unfold Stream.byte17
  cases st.entry.dir <;> cases st.packet <;> rfl

/-! ### The timebase record (11.7, R105) -/

/-- L in microseconds as a 16-bit field. -/
theorem CycleLength.halfOf_micros (l : CycleLength) : halfOf l.micros =
    match l with | .us125 => 125 | .us250 => 250 | .us500 => 500 | .us1000 => 1000 := by
  cases l <;> rfl

/-- The measured interval in whole microseconds, 0 for none. -/
theorem halfOf_measured (m : Option Ticks) : halfOf (m.getD 0 / 16) =
    match m with | none => 0 | some ticks => BitVec.ofNat 16 (ticks / 16) := by
  cases m with
  | none => rw [Option.getD_none, Nat.zero_div]; rfl
  | some ticks => rfl

/-! ### The counter groups (R168) -/

theorem counterGroupOf?_eq (target : Half) : counterGroupOf? target =
    if h : 1 ≤ target.toNat ∧ target.toNat ≤ 31 then some (.stream ⟨target.toNat, by omega⟩)
    else if h : 256 ≤ target.toNat ∧ target.toNat ≤ 261 then some (.branch ⟨target.toNat - 256, by omega⟩)
    else if target.toNat = 512 then some .trunk
    else if target.toNat = 768 then some .timebase
    else none := by
  unfold counterGroupOf? streamOfNat?
  by_cases h : 1 ≤ target.toNat ∧ target.toNat ≤ 31
  · simp only [dif_pos h]
  · simp only [dif_neg h]

/-- Settles O40: each request's own work is a snapshot or a refusal (`State.request_snaps`, `State.request_refuses`), and each
record is its definition written out. -/
theorem readRequestsTakeSnapshots : Obligations.ReadRequestsTakeSnapshots := by
  refine ⟨fun s c f h => ⟨fun hlen => ?_, fun hlen => ?_, fun hlen n hn htarget => ?_, fun hlen htarget => ?_,
    fun hlen => ?_, fun hmax hwhole => ?_⟩, fun st => ⟨fun hdis => ?_, fun hen => ?_⟩, fun t => ?_, fun k => rfl,
    fun k => rfl, fun k => rfl, fun t => rfl, fun s n b => ⟨rfl, rfl, rfl, rfl⟩, fun r => rfl, counterGroupOf?_eq⟩
  · exact congrArg _ (State.request_snaps h (by decide) (by simp [Request.lengthOk, hlen]) rfl)
  · exact congrArg _ (State.request_snaps h (by decide) (by simp [Request.lengthOk, hlen]) rfl)
  · exact congrArg _ (State.request_snaps h (by decide) (by simp [Request.lengthOk, hlen])
      (readStreamBody_snaps _ (ReqFields.stream?_eq_some hn htarget)))
  · exact congrArg _ (State.request_refuses h (by decide) (by simp [Request.lengthOk, hlen])
      (readStreamBody_noTarget _ (ReqFields.stream?_eq_none htarget)))
  · have hl : Request.readCounters.lengthOk f.length.toNat = true := by
      rcases hlen with hlen | hlen | hlen <;> simp [Request.lengthOk, hlen]
    refine ⟨fun hnone => ?_, fun g hg => ⟨fun hwrong => ?_, fun hright => ?_⟩⟩
    · exact congrArg _ (State.request_refuses h (by decide) hl (readCountersBody_noGroup _ hnone))
    · exact congrArg _ (State.request_refuses h (by decide) hl (readCountersBody_wrongLength _ hg hwrong))
    · exact congrArg _ (State.request_snaps h (by decide) hl (readCountersBody_snaps _ hg hright))
  · exact congrArg _ (State.request_snaps h (by decide) (by simp [Request.lengthOk, hmax, hwhole]) rfl)
  · exact Stream.record_disabled hdis
  · rw [Stream.record_enabled hen, st.byte17_eq, st.reportedSide_zero, st.reportedSide_one_word, Side.word_eq, Side.word_eq]
    rfl
  · rw [Timebase.record, CycleLength.halfOf_micros, halfOf_measured]
    rfl

end Sys2Proof.Machine
end

