-- ==== Sys2Proof/Proofs/CyclicChecks.lean ====
section
/-! The cycles in which a CYCLIC stream is due, across the wrap of the count (R106); and the PUT of a CYCLIC DOWN stream that
one of the checks stops (R108, R109). -/

namespace Sys2Proof.Machine

/-! ### The cycles in which a stream is due (R106) -/

/-- The wrap of a `w`-bit sum is not seen modulo a divisor of `2 ^ w`. -/
theorem toNat_add_modEq {w d : Nat} (hd : d ∣ 2 ^ w) (a b : BitVec w) : (a + b).toNat ≡ a.toNat + b.toNat [MOD d] := by
  rw [BitVec.toNat_add]
  exact (Nat.mod_modEq _ _).of_dvd hd

/-- A `w`-bit difference is a multiple of a divisor of `2 ^ w` when the two words agree modulo it. -/
theorem dvd_toNat_sub_iff {w d : Nat} (hd : d ∣ 2 ^ w) (a b : BitVec w) :
    d ∣ (a - b).toNat ↔ a.toNat ≡ b.toNat [MOD d] := by
  have hsum : a.toNat ≡ (a - b).toNat + b.toNat [MOD d] := by
    simpa only [BitVec.sub_add_cancel] using toNat_add_modEq hd (a - b) b
  rw [← Nat.add_modEq_right_iff]
  exact ⟨hsum.trans, hsum.symm.trans⟩

section Due

variable {e : Entry} (he : e.periodExp.toNat ≤ 16)

include he

/-- A period of up to 2^16 cycles divides the range of the count. -/
theorem Entry.period_dvd_count : e.period ∣ 2 ^ 16 := Nat.pow_dvd_pow 2 he

theorem Entry.due_iff (c : Half) : e.due c = true ↔ c.toNat ≡ e.phase.toNat [MOD e.period] := by
  have hphase : (e.phase.setWidth 16).toNat = e.phase.toNat := BitVec.toNat_setWidth_of_le (by decide)
  rw [Entry.due, beq_iff_eq, ← Nat.dvd_iff_mod_eq_zero, dvd_toNat_sub_iff (Entry.period_dvd_count he), hphase]

/-- The stream is due again one period later, on across the wrap. -/
theorem Entry.due_add_period (c : Half) : e.due (c + BitVec.ofNat 16 e.period) = e.due c := by
  have hd := Entry.period_dvd_count he
  have hperiod : (BitVec.ofNat 16 e.period).toNat ≡ 0 [MOD e.period] := by
    rw [BitVec.toNat_ofNat]
    exact ((Nat.mod_modEq _ _).of_dvd hd).trans (Nat.modEq_zero_iff_dvd.mpr dvd_rfl)
  have hsame : (c + BitVec.ofNat 16 e.period).toNat ≡ c.toNat [MOD e.period] :=
    (toNat_add_modEq hd c _).trans (hperiod.add_left c.toNat)
  rw [Bool.eq_iff_iff, Entry.due_iff he, Entry.due_iff he]
  exact ⟨hsame.symm.trans, hsame.trans⟩

end Due

/-- Settles O13: due is agreement with the phase modulo the period, which divides the range of the count. -/
theorem dueCyclesRepeatByPeriod : Obligations.DueCyclesRepeatByPeriod :=
  fun _ c he => ⟨Entry.due_iff he c, Entry.due_add_period he c⟩

/-! ### The PUT of a CYCLIC DOWN stream that a check stops (R108, R109) -/

/-- A PUT that passes the checks of R58 goes to the Cyclic Scheduler. -/
theorem exec_put_cyclic {s : State} {c : CellHdr} {n : Fin 32} (p : List Byte) (h : s.Reaches c n)
    (hcyclic : (s.stream n).entry.Is .cyclic .down) : exec (.put c p) s = .next (s.cyclicPut c n p) := by
  have ⟨htakes, _, hn, _⟩ := h
  show Host.Outcome.next _ = _
  rw [State.takeCell_taken htakes, if_neg (CellHdr.stream_ne_zero hn), State.dispatch_serves h (by simp [hcyclic.2])]
  simp only [State.servePut, hcyclic.1]

/-- A count and an event about the same stream, as one event and one stream replaced (R172). -/
theorem State.countStream_offerStream (s : State) (n : Fin 32) (f : StreamCounters → StreamCounters) (kind : EventKind)
    (d : Byte) : (s.countStream n f).offerStream n kind d =
      (s.withStreamEvent n kind d).withStream n { s.stream n with counters := f (s.stream n).counters } := by
  rw [State.countStream, State.offerStream_mapStream]
  · rfl
  · exact fun _ => rfl

/-- The same for a cell that has set the served flag before (R109). -/
theorem State.setServed_countStream_offerStream (s : State) (n : Fin 32) (f : StreamCounters → StreamCounters)
    (kind : EventKind) (d : Byte) : ((s.setServed n).countStream n f).offerStream n kind d =
      (s.withStreamEvent n kind d).withStream n
        { s.stream n with served := true, counters := f (s.stream n).counters } := by
  rw [State.countStream, State.setServed, State.mapStream_mapStream, State.offerStream_mapStream]
  · rfl
  · exact fun _ => rfl

section Put

variable {s : State} {n : Fin 32}

section Checks

variable (c : CellHdr) (p : List Byte)

theorem State.cyclicPut_halt (h : (s.stream n).response = .halt) :
    s.cyclicPut c n p = s.withAnswer c .halt c.seq [] := by
  simp only [State.cyclicPut, h, State.answer_eq]

theorem State.cyclicPut_hold (h : (s.stream n).response = .hold) : s.cyclicPut c n p = s := by
  simp only [State.cyclicPut, h]

variable (hopen : (s.stream n).response = .opened)

include hopen

theorem State.cyclicPut_noTimebase (hserving : ¬ (s.timebase.state = .locked ∨ s.timebase.state = .coasting)) :
    s.cyclicPut c n p = (s.withStreamEvent n .intervalMiss 1).withStream n
      { s.stream n with counters := (s.stream n).counters.missed } := by
  simp only [State.cyclicPut, hopen, Timebase.serving_eq_false hserving, Bool.not_false, if_true, State.intervalMiss_eq]

variable (hserving : s.timebase.state = .locked ∨ s.timebase.state = .coasting)

include hserving

theorem State.cyclicPut_offCycle (hdue : (s.stream n).entry.due s.timebase.count = false) :
    s.cyclicPut c n p = (s.withStreamEvent n .intervalMiss 2).withStream n
      { s.stream n with counters := (s.stream n).counters.missed } := by
  simp only [State.cyclicPut, hopen, s.timebase.serving_iff.mpr hserving, hdue, Bool.not_true, Bool.not_false,
    Bool.false_eq_true, if_false, if_true, State.intervalMiss_eq]

/-- A due PUT on an OPEN stream goes on to the steps of R109. -/
theorem State.cyclicPut_due (hdue : (s.stream n).entry.due s.timebase.count = true) :
    s.cyclicPut c n p = s.cyclicDuePut n p := by
  simp only [State.cyclicPut, hopen, s.timebase.serving_iff.mpr hserving, hdue, Bool.not_true, Bool.false_eq_true,
    if_false]

end Checks

/-- A second PUT in a due cycle: the served flag stands already. -/
theorem State.cyclicDuePut_second (p : List Byte) (hserved : (s.stream n).served = true) :
    s.cyclicDuePut n p = (s.withStreamEvent n .overrun 3).withStream n
      { s.stream n with served := true, counters := (s.stream n).counters.overran } := by
  simp only [State.cyclicDuePut, hserved, if_true]
  rw [State.countStream_offerStream, ← hserved]

variable (hserved : (s.stream n).served = false)

include hserved

theorem State.cyclicDuePut_noSide (p : List Byte)
    (hnone : ∀ k ∈ (s.stream n).entry.sideNos, ((s.stream n).side k).state ≠ .free) :
    s.cyclicDuePut n p = (s.withStreamEvent n .overrun 2).withStream n
      { s.stream n with served := true, counters := (s.stream n).counters.overran } := by
  have hfree : (s.stream n).freeSide? = none := by
    rw [← Option.not_isSome_iff_eq_none, Stream.freeSide?_isSome_iff]
    exact fun ⟨k, hk, hfree⟩ => hnone k hk hfree
  simp only [State.cyclicDuePut, hserved, Bool.false_eq_true, if_false, hfree,
    State.setServed_countStream_offerStream]

theorem State.cyclicDuePut_oversize {p : List Byte}
    (hsome : ∃ k ∈ (s.stream n).entry.sideNos, ((s.stream n).side k).state = .free)
    (hlen : (s.stream n).entry.maxPayload.toNat < p.length) :
    s.cyclicDuePut n p = (s.withStreamEvent n .overrun 1).withStream n
      { s.stream n with served := true, counters := (s.stream n).counters.oversized } := by
  obtain ⟨k, hfree⟩ := Option.isSome_iff_exists.mp ((s.stream n).freeSide?_isSome_iff.mpr hsome)
  simp only [State.cyclicDuePut, hserved, Bool.false_eq_true, if_false, hfree, if_pos hlen,
    State.setServed_countStream_offerStream]

end Put

/-- Settles O14: the PUT goes to the Cyclic Scheduler, whose checks are said one by one. -/
theorem cyclicPutRefusedInOrder : Obligations.CyclicPutRefusedInOrder := by
  intro s c n p hreach hcyclic st served missed overran
  rw [exec_put_cyclic p hreach hcyclic]
  refine ⟨fun h => congrArg _ (State.cyclicPut_halt c p h), fun h => congrArg _ (State.cyclicPut_hold c p h),
    fun h hs => congrArg _ (State.cyclicPut_noTimebase c p h hs),
    fun h hs hdue => congrArg _ (State.cyclicPut_offCycle c p h hs hdue),
    fun h hs hdue hv => congrArg _ ?second, fun h hs hdue hv hnone => congrArg _ ?noSide,
    fun h hs hdue hv hsome hlen => congrArg _ ?oversize⟩
  case second => exact (State.cyclicPut_due c p h hs hdue).trans (State.cyclicDuePut_second p hv)
  case noSide => exact (State.cyclicPut_due c p h hs hdue).trans (State.cyclicDuePut_noSide hv p hnone)
  case oversize => exact (State.cyclicPut_due c p h hs hdue).trans (State.cyclicDuePut_oversize hv hsome hlen)

end Sys2Proof.Machine
end

