-- ==== Sys2Proof/Proofs/LinkReports.lean ====
section
/-! The receiver of a branch by link state: the SIGNAL reports (R120), and the frames that are counted toward training, counted
as bad, or discarded (R119, R121, R125). -/

namespace Sys2Proof.Machine

/-! ### SIGNAL reports (R120) -/

section Reports

variable {s : State} {b : Fin 6}

theorem exec_branchSignalPresent_down (hl : (s.branch b).link = .down) : exec (.branchSignalPresent b) s =
    .next (s.withBranch b { s.branch b with line := .present, link := .training, aligns := 0 }) :=
  congrArg (fun br => Host.Outcome.next (s.withBranch b br)) (if_pos hl)

/-- SIGNAL-PRESENT in every state but DOWN is recorded only. -/
theorem exec_branchSignalPresent_recorded (hl : (s.branch b).link ≠ .down) : exec (.branchSignalPresent b) s =
    .next (s.withBranch b { s.branch b with line := .present }) :=
  congrArg (fun br => Host.Outcome.next (s.withBranch b br)) (if_neg hl)

/-- SIGNAL-LOST in UP takes the link DOWN with the loss effects (R120, R122). -/
theorem exec_branchSignalLost_up (hl : (s.branch b).link = .up) : exec (.branchSignalLost b) s =
    .next ((s.mapBranch b fun br => { br with line := .absent }).loseLink b .down 0 3) := by
  show Host.Outcome.next _ = _
  simp only [hl]

theorem exec_branchSignalLost_training (hl : (s.branch b).link = .training) : exec (.branchSignalLost b) s =
    .next (s.mapBranch b fun br => { br with line := .absent, link := .down, aligns := 0 }) := by
  show Host.Outcome.next _ = _
  simp only [hl, State.mapBranch_mapBranch]

/-- SIGNAL-LOST in DOWN and DISABLED is recorded only. -/
theorem exec_branchSignalLost_recorded (hl : (s.branch b).link = .down ∨ (s.branch b).link = .disabled) :
    exec (.branchSignalLost b) s = .next (s.mapBranch b fun br => { br with line := .absent }) := by
  show Host.Outcome.next _ = _
  rcases hl with hl | hl <;> simp only [hl]

end Reports

/-- Settles O23: each report by the link state that it finds. -/
theorem branchSignalReports : Obligations.BranchSignalReports := fun _ _ =>
  ⟨exec_branchSignalPresent_down, fun hl => exec_branchSignalPresent_recorded (by simp [hl]),
    exec_branchSignalLost_training, exec_branchSignalLost_recorded⟩

/-! ### Frames by link state (R119, R121, R125) -/

section Frames

variable {s : State} {b : Fin 6}

theorem State.goodFrame_training (hl : (s.branch b).link = .training) (handle : State → State) :
    s.goodFrame b handle = s.mapBranch b fun br =>
      { br with aligns := 0, counters := { br.counters with good := br.counters.good + 1 } } := by
  simp only [State.goodFrame, hl]

theorem State.goodFrame_disabled (hl : (s.branch b).link = .disabled) (handle : State → State) :
    s.goodFrame b handle = s := by
  simp only [State.goodFrame, hl]

/-- An ALIGN in UP takes the link back to TRAINING with the loss effects (R122). -/
theorem exec_align_up (hl : (s.branch b).link = .up) : exec (.align b) s =
    .next ((s.mapBranch b fun br =>
      { br with errors := 0, counters := { br.counters with good := br.counters.good + 1 } }).loseLink b .training 1 1) := by
  show Host.Outcome.next _ = _
  simp only [hl, State.goodFrame_up hl]

/-- An ALIGN in TRAINING is counted, and the fourth brings the link UP (R121). -/
theorem exec_align_training (hl : (s.branch b).link = .training) : exec (.align b) s = .next
    (if 4 ≤ (s.branch b).aligns + 1 then (s.mapBranch b fun br =>
        { br with aligns := br.aligns + 1, counters := { br.counters with good := br.counters.good + 1 } }).linkUp b
      else s.mapBranch b fun br =>
        { br with aligns := br.aligns + 1, counters := { br.counters with good := br.counters.good + 1 } }) := by
  show Host.Outcome.next _ = _
  simp only [hl, State.mapBranch_branch_self]
  rfl

theorem exec_align_disabled (hl : (s.branch b).link = .disabled) : exec (.align b) s = .next s := by
  show Host.Outcome.next _ = _
  simp only [hl]

/-- A bad frame in UP is counted, and the third in a row takes the link to TRAINING (R125). -/
theorem exec_frameBadCheck_up (hl : (s.branch b).link = .up) : exec (.frameBadCheck b) s = .next
    (if 3 ≤ (s.branch b).errors + 1 then (s.mapBranch b fun br => { br with
        errors := br.errors + 1,
        counters := { br.counters with checkErrors := satInc br.counters.checkErrors } }).loseLink b .training 0 2
      else s.mapBranch b fun br => { br with
        errors := br.errors + 1, counters := { br.counters with checkErrors := satInc br.counters.checkErrors } }) := by
  show Host.Outcome.next _ = _
  simp only [hl, State.mapBranch_branch_self]
  rfl

theorem exec_frameBadCheck_training (hl : (s.branch b).link = .training) : exec (.frameBadCheck b) s =
    .next (s.mapBranch b fun br => { br with
      aligns := 0, counters := { br.counters with checkErrors := satInc br.counters.checkErrors } }) := by
  show Host.Outcome.next _ = _
  simp only [hl]

theorem exec_frameBadCheck_disabled (hl : (s.branch b).link = .disabled) : exec (.frameBadCheck b) s = .next s := by
  show Host.Outcome.next _ = _
  simp only [hl]

end Frames

/-- Settles O25: each frame by the link state that it finds. -/
theorem trainingFramesCounted : Obligations.TrainingFramesCounted := by
  intro s b ch p br good bad
  refine ⟨fun hl hfew => ?align, fun hl i hi => ?frame, exec_frameBadCheck_training, fun hl hfew => ?badCheck,
    fun hl i hi => ?disabled⟩
  case align => exact (exec_align_training hl).trans (congrArg _ (if_neg (Nat.not_le.mpr (Nat.succ_lt_succ hfew))))
  case frame =>
    rcases hi with rfl | rfl | rfl | rfl <;> exact congrArg Host.Outcome.next (State.goodFrame_training hl _)
  case badCheck => exact (exec_frameBadCheck_up hl).trans (congrArg _ (if_neg (Nat.not_le.mpr (Nat.succ_lt_succ hfew))))
  case disabled =>
    rcases hi with rfl | rfl | rfl | rfl | rfl | rfl
    case inl => exact exec_align_disabled hl
    case inr.inr.inr.inr.inr => exact exec_frameBadCheck_disabled hl
    all_goals exact congrArg Host.Outcome.next (State.goodFrame_disabled hl _)

end Sys2Proof.Machine
end

