-- ==== Sys2Proof/Proofs/LinkLoss.lean ====
section
/-! BRANCH-CONTROL in each link state (R124, R163), and the five causes that take a link from UP with the loss effects of R123. -/

namespace Sys2Proof.Machine

/-! ### BRANCH-CONTROL (R124, R163) -/

/-- The command that is a BRANCH-CONTROL with the value of the action. -/
def BranchAction.command (a : BranchAction) (c : CellHdr) (f : ReqFields) : Instr :=
  match a with
  | .enable => .branchEnable c f
  | .disable => .branchDisable c f
  | .retrain => .branchRetrain c f

theorem branchActionOf?_value (a : BranchAction) : branchActionOf? a.value = some a := by
  cases a <;> rfl

theorem branchActionOf?_eq_none {value : Word} (h : value = 0 ∨ 3 < value.toNat) : branchActionOf? value = none := by
  have hout : value.toNat = 0 ∨ 3 < value.toNat := h.imp_left (congrArg BitVec.toNat)
  unfold branchActionOf?
  split
  · omega
  · omega
  · omega
  · rfl

theorem ReqFields.branch?_eq_some {f : ReqFields} {b : Fin 6} (h : f.target.toNat = b.val) : f.branch? = some b := by
  simp [ReqFields.branch?, h]

theorem ReqFields.branch?_eq_none {f : ReqFields} (h : 5 < f.target.toNat) : f.branch? = none := by
  have hout : ¬ f.target.toNat < 6 := by omega
  simp [ReqFields.branch?, hout]

section Control

variable {s : State} {c : CellHdr} {f : ReqFields}

/-- A BRANCH-CONTROL with no data length passes its header checks (R141, 9.1). -/
theorem State.branchControl_runs (h : s.TakesRequest c f) (hlen : f.length = 0) :
    s.request c .branchControl f (branchControlBody f) =
      (branchControlBody f (s.begun .branchControl f)).answer c .ack c.seq [] := by
  have hnode : s.trunk.node ≠ .detached := h.1.1.1
  exact State.request_runs (r := .branchControl) h (by simp [Request.lengthOk, hlen])
    (by simp [Request.allowedIn, hnode]) (branchControlBody f)

/-- A BRANCH-CONTROL whose value names the action `a` commits it on the branch that its target names, and ends with DONE. -/
theorem exec_branchAction (h : s.TakesRequest c f) (hlen : f.length = 0) {b : Fin 6} (htarget : f.target.toNat = b.val)
    (a : BranchAction) (hvalue : f.value = a.value) :
    exec (a.command c f) s =
      .next ((((s.begun .branchControl f).branchCommit b a).finish .done).answer c .ack c.seq []) := by
  have hexec : exec (a.command c f) s = .next (s.request c .branchControl { f with value := a.value }
      (branchControlBody { f with value := a.value })) := by
    cases a <;> rfl
  have hbody : branchControlBody f (s.begun .branchControl f) =
      ((s.begun .branchControl f).branchCommit b a).finish .done := by
    simp only [branchControlBody, ReqFields.branch?_eq_some htarget, hvalue, branchActionOf?_value]
  rw [hexec, ← hvalue, State.branchControl_runs h hlen, hbody]

/-- A link that keeps its state: the request ends with DONE and nothing else. -/
theorem exec_branchAction_keeps (h : s.TakesRequest c f) (hlen : f.length = 0) {b : Fin 6}
    (htarget : f.target.toNat = b.val) (a : BranchAction) (hvalue : f.value = a.value)
    (hcommit : (s.begun .branchControl f).branchCommit b a = s.begun .branchControl f) :
    exec (a.command c f) s = .next (s.resulted c .branchControl f .done) := by
  rw [exec_branchAction h hlen htarget a hvalue, hcommit]
  rfl

/-- A link whose port alone is changed. -/
theorem exec_branchAction_maps (h : s.TakesRequest c f) (hlen : f.length = 0) {b : Fin 6}
    (htarget : f.target.toNat = b.val) (a : BranchAction) (hvalue : f.value = a.value) {g : Branch → Branch}
    (hcommit : (s.begun .branchControl f).branchCommit b a = (s.begun .branchControl f).mapBranch b g) :
    exec (a.command c f) s = .next ((s.resulted c .branchControl f .done).withBranch b (g (s.branch b))) := by
  rw [exec_branchAction h hlen htarget a hvalue, hcommit]
  rfl

/-- A target above 5, or a value that names no action (R163, R178). -/
theorem branchControlBody_range (h : 5 < f.target.toNat ∨ f.value = 0 ∨ 3 < f.value.toNat) (s : State) :
    branchControlBody f s = s.finish .range := by
  rcases h with htarget | hvalue
  · simp only [branchControlBody, ReqFields.branch?_eq_none htarget]
  · simp only [branchControlBody, branchActionOf?_eq_none hvalue]
    split <;> rfl

end Control

/-- Settles O43: the commit of each action in each link state (`State.branchCommit`), between the begin and the end of its
exchange. -/
theorem branchControlActs : Obligations.BranchControlActs := by
  refine ⟨fun s c f b h hlen htarget => ?_, fun s c f h hlen hout => ?_⟩
  · intro br done
    have hlink : ((s.begun .branchControl f).branch b).link = br.link := rfl
    refine ⟨fun hv hl => ?enable, fun hv hl => ?enabled, fun hv hl => ?disable, fun hv hl => ?disabled,
      fun hv hl => ?retrain, fun hv hl => ?untrained⟩
    case enable =>
      exact exec_branchAction_maps h hlen htarget .enable hv
        (g := fun br => { br with
          link := if br.line = .present then .training else .down, aligns := 0, tx := .aligning })
        (by simp only [State.branchCommit, hlink, hl])
    case enabled =>
      refine exec_branchAction_keeps h hlen htarget .enable hv ?_
      cases hstate : br.link with
      | disabled => exact absurd hstate hl
      | down | training | up => simp only [State.branchCommit, hlink, hstate]
    case disable =>
      refine exec_branchAction_maps h hlen htarget .disable hv
        (g := fun br => { br with link := .disabled, aligns := 0, tx := .silent }) ?_
      rcases hl with hl | hl <;> simp only [State.branchCommit, hlink, hl]
    case disabled => exact exec_branchAction_keeps h hlen htarget .disable hv (by simp only [State.branchCommit, hlink, hl])
    case retrain =>
      exact exec_branchAction_maps h hlen htarget .retrain hv (g := fun br => { br with aligns := 0 })
        (by simp only [State.branchCommit, hlink, hl])
    case untrained =>
      refine exec_branchAction_keeps h hlen htarget .retrain hv ?_
      rcases hl with hl | hl <;> simp only [State.branchCommit, hlink, hl]
  · have hrun := State.branchControl_runs h hlen
    rw [branchControlBody_range hout] at hrun
    exact congrArg Host.Outcome.next hrun

/-! ### What a loss leaves of the streams (R45, R123) -/

theorem Side.lose_lost (sd : Side) (dir : Dir) : sd.Lost dir (sd.lose dir) := by
  cases dir with
  | up => exact ⟨fun _ h => if_pos h, fun _ h => if_neg h, nofun, nofun, nofun, nofun⟩
  | down =>
    refine ⟨nofun, nofun, fun _ h hm => ?_, fun _ h hm => ?_, fun _ h => ?_, fun _ h hc => ?_⟩
    · simp [Side.lose, h, hm]
    · simp [Side.lose, h, hm]
    · simp [Side.lose, h]
    · simp [Side.lose, h, hc]

/-- A loss leaves of a stream its sides as R45 says, the close order of those that are not FREE, and no grants or credits. -/
theorem Stream.lose_eq (st : Stream) : st.lose = { st with
    side0 := st.lose.side0, side1 := st.lose.side1,
    order := st.order.filter (fun k => (st.lose.side k).state != .free),
    queued := 0, inFlight := 0, delivered := 0, credits := 0 } := by
  simp only [Stream.lose_side]
  rfl

/-- What the losses of streams can do to the exchange (R147): nothing, or its end, when it waits for a marked side of one. -/
def State.ExchangeEnds (s t : State) (ns : List (Fin 32)) : Prop :=
  t.mgmt = s.mgmt ∨ (s.mgmt.exchange = .executing ∧ t.mgmt = { s.mgmt with exchange := .result } ∧
    ∃ n ∈ ns, s.mgmt.targets n = true ∧ (s.stream n).marked = true)

theorem State.loseStream_exchange (s : State) (n : Fin 32) : s.ExchangeEnds (s.loseStream n) [n] := by
  unfold State.loseStream
  simp only
  split
  · next h =>
    rcases (s.mapStream n Stream.lose).resetStreamEnd_cases n with ⟨hexec, htarget, heq⟩ | heq <;> rw [heq]
    · exact .inr ⟨hexec, rfl, n, List.mem_singleton_self n, htarget, (Bool.and_eq_true_iff.mp h).1⟩
    · exact .inl rfl
  · exact .inl rfl

theorem State.loseStreams_exchange (ns : List (Fin 32)) (hn : ns.Nodup) :
    ∀ s : State, s.ExchangeEnds (s.overStreams ns State.loseStream) ns := by
  induction ns with
  | nil => exact fun s => .inl rfl
  | cons n ns ih =>
    intro s
    obtain ⟨hfresh, hn⟩ := List.nodup_cons.mp hn
    rw [State.overStreams_cons]
    have hlater : ∀ m ∈ ns, (s.loseStream n).stream m = s.stream m := fun m hm => by
      rw [(s.loseStream_lost n).streams, if_neg]
      rintro hmn
      exact hfresh (List.mem_singleton.mp hmn ▸ hm)
    rcases s.loseStream_exchange n with hsame | ⟨hexec, hended, m, hm, htarget, hmarked⟩
    · rcases ih hn (s.loseStream n) with hrest | ⟨hexec, hended, m, hm, htarget, hmarked⟩
      · exact .inl (hrest.trans hsame)
      · rw [hsame] at hexec hended htarget
        rw [hlater m hm] at hmarked
        exact .inr ⟨hexec, hended, m, List.mem_cons_of_mem n hm, htarget, hmarked⟩
    · rcases ih hn (s.loseStream n) with hrest | ⟨hexec', -⟩
      · exact .inr ⟨hexec, hrest.trans hended, m, List.mem_cons.mpr (.inl (List.mem_singleton.mp hm)), htarget, hmarked⟩
      · rw [hended] at hexec'
        exact absurd hexec' (by simp)

/-- The losses of streams change no other part of the state. -/
theorem State.loseStreams_rest (ns : List (Fin 32)) (s : State) : s.overStreams ns State.loseStream =
    { s with streams := (s.overStreams ns State.loseStream).streams, mgmt := (s.overStreams ns State.loseStream).mgmt } := by
  refine State.overStreams_keeps (P := fun t => t = { s with streams := t.streams, mgmt := t.mgmt }) ns
    (fun t n _ ht => ?_) s rfl
  unfold State.loseStream
  simp only
  split
  · rw [State.resetStreamEnd_eq, ht]
    rfl
  · rw [ht]
    rfl

/-! ### The loss of a link (R122, R123) -/

/-- A link that leaves UP has the loss effects of R123, whatever the cause. -/
theorem State.loseLink_lossEffects (s : State) (b : Fin 6) (link : LinkState) (aligns : Nat) (detail : Byte) :
    s.LossEffects (s.loseLink b link aligns detail) b link aligns detail := by
  let down : Branch → Branch := fun br => { br with
    link := link, aligns := aligns, errors := 0, queue := [], tx := if link = .disabled then .silent else .aligning }
  let u := s.mapBranch b down
  let t := u.overStreams (u.streamsOf b) State.loseStream
  have ht : s.loseLink b link aligns detail = t.offerBranch b .branchDown detail := rfl
  have hlost : u.Lost t (u.streamsOf b) := State.loseStreams_lost _ (u.streamsOf_nodup b) u
  have hexchange : u.ExchangeEnds t (u.streamsOf b) := State.loseStreams_exchange _ (u.streamsOf_nodup b) u
  have hrest := State.loseStreams_rest (u.streamsOf b) u
  have hmem : ∀ n, n ∈ u.streamsOf b ↔ s.OnBranch b n := fun n => (s.onBranch_iff b n).symm
  have hbranch : ∀ c, t.branch c = u.branch c := fun c => by simp only [State.branch, hlost.branches]
  have hstream : ∀ n, s.OnBranch b n → t.stream n = (s.stream n).lose := fun n hn => by
    rw [hlost.streams, if_pos ((hmem n).mpr hn)]; rfl
  rw [ht]
  refine ⟨(hbranch b).trans (s.mapBranch_branch_self b down), fun c hc => (hbranch c).trans (s.mapBranch_branch_ne hc down),
    fun n hn => ?_, fun n hn => ?_, ?_, ?_, fun hexec hwaits => ?_, ?_⟩
  · exact (hlost.streams n).trans (if_neg (mt (hmem n).mp hn))
  · rw [State.offerBranch_stream, hstream n hn]
    exact ⟨Side.lose_lost _ _, Side.lose_lost _ _, Stream.lose_eq _⟩
  · show t.events.offer t.timebase.count _ _ _ _ = _
    rw [show t = _ from hrest]
    rfl
  · rcases hexchange with hsame | ⟨hexec, hended, n, hn, hwaits⟩
    · exact .inl hsame
    · exact .inr ⟨hexec, hended, n, (hmem n).mp hn, hwaits⟩
  · obtain ⟨n, hn, htarget, hmarked, hdown⟩ := hwaits
    rcases hexchange with hsame | ⟨-, hended, -⟩
    · obtain ⟨-, hunmarked⟩ := hlost.mgmt ((congrArg Mgmt.exchange hsame).trans hexec)
      exact absurd hmarked (Bool.eq_false_iff.mp (hunmarked n ((hmem n).mpr hn) htarget hdown))
    · exact congrArg Mgmt.exchange hended
  · show t.offerBranch b .branchDown detail = _
    have hparts : t = { s with branches := t.branches, streams := t.streams, mgmt := t.mgmt } := by
      rw [show t.branches = u.branches from hlost.branches]
      exact hrest
    rw [hparts]
    rfl

/-- The loss effects are the same for another exchange and trunk that the loss leaves alone. -/
theorem State.LossEffects.aside {u t : State} {b : Fin 6} {link : LinkState} {aligns : Nat} {detail : Byte}
    (h : u.LossEffects t b link aligns detail) {m : Mgmt} (hm : m.exchange ≠ .executing) (k : Trunk) :
    (u.aside m k).LossEffects (t.aside m k) b link aligns detail :=
  ⟨h.port, h.otherPorts, h.otherStreams, h.streams, h.events, .inl rfl, fun he => absurd he hm, by
    rw [show t.aside m k = _ from congrArg (State.aside · m k) h.rest]
    rfl⟩

/-- A BRANCH-CONTROL that takes a link from UP: the loss effects beside its own exchange and answer. -/
theorem exec_branchAction_loses {s : State} {c : CellHdr} {f : ReqFields} (h : s.TakesRequest c f) (hlen : f.length = 0)
    {b : Fin 6} (htarget : f.target.toNat = b.val) (a : BranchAction) (hvalue : f.value = a.value) {link : LinkState}
    {aligns : Nat} {detail : Byte} (hcommit : (s.begun .branchControl f).branchCommit b a =
      (s.begun .branchControl f).loseLink b link aligns detail) :
    ∃ t, exec (a.command c f) s = .next t ∧
      (s.resulted c .branchControl f .done).LossEffects t b link aligns detail := by
  let v := s.begun .branchControl f
  have heffects := v.loseLink_lossEffects b link aligns detail
  have hmgmt : (v.loseLink b link aligns detail).mgmt = v.mgmt :=
    heffects.exchange.resolve_right fun hexec => absurd hexec.1 (by simp [v, Mgmt.begin])
  have htrunk : (v.loseLink b link aligns detail).trunk = v.trunk := (congrArg State.trunk heffects.rest).trans rfl
  have hends : ((v.loseLink b link aligns detail).finish .done).answer c .ack c.seq [] =
      (v.loseLink b link aligns detail).aside (s.mgmt.resulted .branchControl f .done)
        { s.trunk with waiting := some (s.answerTo c .ack c.seq []) } := by
    simp only [State.finish, State.answer, State.mapMgmt, State.mapTrunk, State.aside, hmgmt, htrunk]
    rfl
  refine ⟨_, exec_branchAction h hlen htarget a hvalue, ?_⟩
  rw [hcommit, hends]
  exact heffects.aside (by simp) _

/-- Settles O24: each cause brings the link's port to `State.loseLink`, whose effects are those of R123. -/
theorem linkLeavesUp : Obligations.LinkLeavesUp := by
  refine ⟨fun s b hl => ⟨⟨_, exec_branchSignalLost_up hl, State.loseLink_lossEffects _ _ _ _ _⟩,
    ⟨_, exec_align_up hl, State.loseLink_lossEffects _ _ _ _ _⟩, fun herrors => ?_⟩, fun s c f b h hlen htarget hl => ?_⟩
  · have hthird := (exec_frameBadCheck_up hl).trans (congrArg _ (if_pos (by omega)))
    have heffects := State.loseLink_lossEffects (s.mapBranch b fun br => { br with
      errors := br.errors + 1, counters := { br.counters with checkErrors := satInc br.counters.checkErrors } }) b .training 0 2
    rw [← show (s.branch b).errors + 1 = 3 by rw [herrors]]
    exact ⟨_, hthird, heffects⟩
  · have hlink : ((s.begun .branchControl f).branch b).link = .up := hl
    exact ⟨fun hv => exec_branchAction_loses h hlen htarget .disable hv (by simp only [State.branchCommit, hlink]),
      fun hv => exec_branchAction_loses h hlen htarget .retrain hv (by simp only [State.branchCommit, hlink])⟩

end Sys2Proof.Machine
end

