-- ==== Sys2Proof/Proofs/ControlRequests.lean ====
section
/-! The requests that join the control-frame queue (R132), and the grants and REVOKEs that make them (R129, R130). -/

namespace Sys2Proof.Machine

/-! ### The lists that the requests leave (R132) -/

section Requests

variable {q : List CtlEntry} {ch : Fin 8}

theorem map_addGrant_of_none (h : ∀ e ∈ q, e.isGrant ch = false) (d : Nat) : q.map (CtlEntry.addGrant ch d) = q := by
  refine (List.map_congr_left (g := id) fun e he => ?_).trans (List.map_id q)
  cases e with
  | grant c n =>
    have hc : c ≠ ch := by simpa [CtlEntry.isGrant] using h _ he
    exact if_neg hc
  | revoke c dir => rfl

/-- A GRANT request adds to the GRANT of its key in its place. -/
theorem queueGrant_inPlace {pre post : List CtlEntry} {m : Nat}
    (hn : ((pre ++ .grant ch m :: post).map CtlEntry.tag).Nodup) (d : Nat) :
    queueGrant (pre ++ .grant ch m :: post) ch d = pre ++ .grant ch (m + d) :: post := by
  have hother : ∀ e ∈ pre ++ post, e.isGrant ch = false := by
    rw [List.map_append, List.map_cons, List.nodup_middle, List.nodup_cons, ← List.map_append] at hn
    intro e he
    by_contra hgrant
    exact hn.1 (List.mem_map.mpr ⟨e, he, (e.isGrant_iff ch).mp (by simpa using hgrant)⟩)
  have hself : CtlEntry.addGrant ch d (.grant ch m) = .grant ch (m + d) := if_pos rfl
  have hany : (pre ++ .grant ch m :: post).any (CtlEntry.isGrant ch) = true := by simp [CtlEntry.isGrant]
  rw [queueGrant, if_pos hany, List.map_append, List.map_cons, hself,
    map_addGrant_of_none fun e he => hother e (List.mem_append_left post he),
    map_addGrant_of_none fun e he => hother e (List.mem_append_right pre he)]

/-- The entries that a REVOKE request keeps: all but the GRANT of its key. -/
theorem queueWithout_eq_filter (q : List CtlEntry) (ch : Fin 8) (dir : Dir) : queueWithout q ch dir =
    q.filter (fun e => !decide (dir = .up ∧ e.tag = (true, ch, .up))) := by
  cases dir with
  | up =>
    refine List.filter_congr fun e _ => ?_
    simp [← CtlEntry.isGrant_iff]
  | down => simp [queueWithout]

theorem revoke_mem_queueWithout {dir : Dir} : .revoke ch dir ∈ queueWithout q ch dir ↔ .revoke ch dir ∈ q := by
  simp [queueWithout_eq_filter]

/-- A REVOKE of the key that is in the queue keeps its place. -/
theorem queueRevoke_present {dir : Dir} (h : .revoke ch dir ∈ q) : queueRevoke q ch dir = queueWithout q ch dir := by
  rw [queueRevoke_eq, if_pos (List.contains_iff_mem.mpr (revoke_mem_queueWithout.mpr h))]

theorem queueRevoke_joins {dir : Dir} (h : .revoke ch dir ∉ q) :
    queueRevoke q ch dir = queueWithout q ch dir ++ [.revoke ch dir] := by
  rw [queueRevoke_eq, if_neg (mt List.contains_iff_mem.mp (mt revoke_mem_queueWithout.mp h))]

/-- The grants that a queue holds after a REVOKE request: none for the key of its own, the others as they were. -/
theorem queuedFor_queueRevoke_eq (q : List CtlEntry) (ch c : Fin 8) (dir : Dir) :
    queuedFor (queueRevoke q ch dir) c = if c = ch ∧ dir = .up then 0 else queuedFor q c := by
  split
  · next h =>
    obtain ⟨rfl, rfl⟩ := h
    exact queuedFor_eq_zero fun e he => queueRevoke_isGrant he
  · next h => exact queuedFor_queueRevoke q fun hup hc => h ⟨hc, hup⟩

theorem Branch.QueueLaw.queueGrant {br : Branch} (h : br.QueueLaw) (ch : Fin 8) (d : Nat) :
    ({ br with queue := queueGrant br.queue ch d } : Branch).QueueLaw := by
  obtain ⟨hnodup, hbefore⟩ := br.queueLaw_iff.mp h
  exact (Branch.queueLaw_iff _).mpr ⟨queueGrant_nodup hnodup ch d, queueGrant_before hbefore ch d⟩

theorem Branch.QueueLaw.queueRevoke {br : Branch} (h : br.QueueLaw) (ch : Fin 8) (dir : Dir) :
    ({ br with queue := queueRevoke br.queue ch dir } : Branch).QueueLaw := by
  obtain ⟨hnodup, hbefore⟩ := br.queueLaw_iff.mp h
  exact (Branch.queueLaw_iff _).mpr ⟨queueRevoke_nodup hnodup ch dir, queueRevoke_before hbefore ch dir⟩

end Requests

/-! ### The grants and the REVOKEs that make them (R129, R130) -/

section Ports

variable {s : State} {n : Fin 32} {k : RouteKey}

/-- A stream that is disabled, DOWN, on a link that is not UP, or with no side to grant. -/
theorem State.issueGrants_refused (hkey : (s.stream n).entry.key? = some k)
    (h : ¬ ((s.stream n).entry.enabled = true ∧ k.dir = .up ∧ (s.branch k.branch).link = .up ∧
      0 < (s.stream n).grantable)) : s.issueGrants n = s := by
  simp only [State.issueGrants, hkey, if_neg h]

/-- The revoking of a key on a link that is UP: the counts, the REVOKE, and the arbiter's pick. -/
theorem State.revokeKey_up (h : (s.branch k.branch).link = .up) : s.revokeKey n k =
    ((s.withStream n (s.stream n).noGrants).withBranch k.branch { s.branch k.branch with
      queue := queueRevoke (s.branch k.branch).queue k.channel k.dir }).arbitrate k.branch := by
  simp only [State.revokeKey, if_pos h]
  rfl

end Ports

/-- Settles O33: the lists by R132 (`queueGrant_inPlace`, `queueRevoke_present`), their law by the tags of their entries, and the
requests of R129 and R130 in the port's queue. -/
theorem controlQueueKeepsItsLaw : Obligations.ControlQueueKeepsItsLaw := by
  refine ⟨fun br hlaw ch dir d => ?_, fun s n k => ?_⟩
  · have hnodup : (br.queue.map CtlEntry.tag).Nodup := hlaw.1
    refine ⟨hlaw.queueGrant ch d, hlaw.queueRevoke ch dir, fun c => queuedFor_queueGrant hnodup ch c d,
      fun c => queuedFor_queueRevoke_eq br.queue ch c dir, fun pre post m hq => ?_, queueGrant_fresh, ?_⟩
    · rw [hq] at hnodup ⊢
      exact queueGrant_inPlace hnodup d
    · intro kept
      rw [show kept = queueWithout br.queue ch dir from (queueWithout_eq_filter _ _ _).symm]
      exact ⟨queueRevoke_present, queueRevoke_joins⟩
  · intro st br held d may
    exact ⟨fun hkey ⟨hen, hup, hl, hd⟩ => State.issueGrants_queues hkey hen hup hl hd, State.issueGrants_refused,
      State.revokeKey_up, State.revokeKey_notUp⟩

end Sys2Proof.Machine
end

