-- ==== Sys2Proof/Proofs/LinkUp.lean ====
section
/-! The fourth ALIGN (R121): the grants that a rising port queues for its UP streams (R129), and the arbiter's pick after them. -/

namespace Sys2Proof.Machine

/-! ### The grants that a port's queue holds for a stream -/

/-- Stream `n` is `st`, and each GRANT in the queue of port `b` for a key that maps to it has a count that satisfies `C`. -/
def State.Granting (s : State) (b : Fin 6) (n : Fin 32) (st : Stream) (C : Nat → Prop) : Prop :=
  s.stream n = st ∧ ∀ ch d, .grant ch d ∈ (s.branch b).queue → s.route (upKey b ch) = some n → C d

/-- The stream with all the grants queued that it may have more (R129). -/
def Stream.granted (st : Stream) : Stream := { st with queued := st.queued + st.grantable }

theorem Stream.granted_grants (st : Stream) : st.granted.grants = st.grants + st.grantable := by
  simp only [Stream.grants, Stream.granted]
  omega

/-- The GRANTs for other channels than that of the request are those that were in the queue. -/
theorem grant_mem_of_queueGrant {q : List CtlEntry} {ch c : Fin 8} {d e : Nat} (hc : c ≠ ch) :
    .grant c e ∈ queueGrant q ch d ↔ .grant c e ∈ q :=
  mem_queueGrant (by simp [CtlEntry.isGrant, hc])

theorem RouteKey.eq_upKey {k : RouteKey} (h : k.dir = .up) : k = upKey k.branch k.channel :=
  congrArg (RouteKey.mk k.branch k.channel) h

section Rising

variable {s : State} {b : Fin 6} {m n : Fin 32} {k : RouteKey} (hkey : (s.stream m).entry.key? = some k)
  (hbusy : (s.branch k.branch).tx ≠ .idle)

include hkey hbusy

/-- All that the issue of grants can do at a port that sends: nothing, or the queued count and the GRANT. -/
theorem State.issueGrants_sending : s.issueGrants m = s ∨ (k.dir = .up ∧ s.issueGrants m = s.requeued m (s.stream m).granted k.branch
    (queueGrant (s.branch k.branch).queue k.channel (s.stream m).grantable)) := by
  rcases State.issueGrants_requeues hkey with h | ⟨hup, -, h⟩
  · exact .inl h
  · refine .inr ⟨hup, h.trans (State.arbitrate_busy _ _ ?_)⟩
    rw [State.requeued_branch_self]
    exact hbusy

/-- The grants of another stream, whose key does not map to stream `n`, change neither `n` nor the GRANTs for it. -/
theorem State.issueGrants_other {st : Stream} {C : Nat → Prop} (h : s.Granting k.branch n st C) (hnm : n ≠ m)
    (hroute : s.route k ≠ some n) : (s.issueGrants m).Granting k.branch n st C := by
  rcases State.issueGrants_sending hkey hbusy with hsame | ⟨hup, hgrant⟩
  · rwa [hsame]
  · rw [hgrant]
    refine ⟨(State.requeued_stream_ne hnm).trans h.1, fun ch d he hch => ?_⟩
    have hne : ch ≠ k.channel := by
      rintro rfl
      exact hroute (RouteKey.eq_upKey hup ▸ hch)
    rw [State.requeued_branch_self] at he
    exact h.2 ch d ((grant_mem_of_queueGrant hne).mp he) hch

/-- The grants of the stream itself, which has no GRANT: one for each side that is FREE and not granted, all queued. -/
theorem State.issueGrants_own (h : s.Granting k.branch m (s.stream m) (fun _ => False)) (hroute : s.route k = some m)
    (hen : (s.stream m).entry.enabled = true) (hup : k.dir = .up) (hl : (s.branch k.branch).link = .up) :
    (s.issueGrants m).Granting k.branch m (s.stream m).granted (· ≤ (s.stream m).granted.queued) := by
  obtain ⟨-, hfresh⟩ := h
  refine ⟨State.issueGrants_stream hkey hen hup hl hbusy, fun ch d he hch => ?_⟩
  have hnone : ∀ j, .grant k.channel j ∉ (s.branch k.branch).queue := fun j hj =>
    hfresh k.channel j hj (RouteKey.eq_upKey hup ▸ hroute)
  rcases State.issueGrants_sending hkey hbusy with hsame | ⟨-, hgrant⟩
  · rw [hsame] at he hch
    exact (hfresh ch d he hch).elim
  · rw [hgrant] at he hch
    rw [State.requeued_branch_self, queueGrant_fresh hnone] at he
    rcases List.mem_append.mp he with he | he
    · exact (hfresh ch d he hch).elim
    · obtain ⟨-, rfl⟩ := CtlEntry.grant.inj (List.mem_singleton.mp he)
      exact Nat.le_add_left _ _

end Rising

/-! ### The run of grants of a port that sends (R121, R129) -/

section Run

variable {s : State} {b : Fin 6} {n : Fin 32}

/-- The grants of the streams of port `b` leave every other port as it was. -/
theorem State.grantsFor_branch_ne {c : Fin 6} (hc : c ≠ b) :
    (s.grantsFor (s.streamsOf b)).branch c = s.branch c := by
  refine (State.overStreams_keeps (P := fun v => s.PortWork v ∧ v.branch c = s.branch c) (s.streamsOf b)
    (fun v m hm hv => ⟨hv.1.trans (v.issueGrants_portWork m), ?_⟩) s ⟨.refl s, rfl⟩).2
  obtain ⟨k, hk, rfl⟩ := State.branch_of_mem_streamsOf (hv.1.streamsOf b ▸ hm)
  exact (State.issueGrants_branch_ne hk hc).trans hv.2

/-- After the grants of a port that sends and holds no GRANT for an UP stream with a key of its own, the stream has one grant
more for each side that it may have granted, and its GRANT counts no more than these. -/
theorem State.grantsFor_own {k : RouteKey} (hmem : n ∈ s.streamsOf k.branch) (hkey : (s.stream n).entry.key? = some k)
    (hup : k.dir = .up) (hl : (s.branch k.branch).link = .up) (hbusy : (s.branch k.branch).tx ≠ .idle)
    (hfresh : s.Granting k.branch n (s.stream n) (fun _ => False)) (hroute : s.route k = some n)
    (halone : ∀ m, m ≠ n → ∀ j ∈ (s.stream m).entry.key?, s.route j ≠ some n) :
    (s.grantsFor (s.streamsOf k.branch)).Granting k.branch n (s.stream n).granted (· ≤ (s.stream n).granted.queued) := by
  have hroutes : ∀ {v}, s.PortWork v → ∀ j, v.route j = s.route j := fun hv j => by simp only [State.route, hv.routes]
  have hsends : ∀ {v}, s.PortWork v → (v.branch k.branch).tx ≠ .idle := fun hv => by rw [hv.sending _ hbusy]; exact hbusy
  have hother : ∀ {st C}, ∀ v, ∀ m ∈ s.streamsOf k.branch, m ≠ n → s.PortWork v ∧ v.Granting k.branch n st C →
      s.PortWork (v.issueGrants m) ∧ (v.issueGrants m).Granting k.branch n st C := by
    rintro st C v m hm hmn ⟨hv, hgranting⟩
    obtain ⟨j, hj, hjb⟩ := State.branch_of_mem_streamsOf hm
    rw [← hjb] at hsends hgranting ⊢
    exact ⟨hv.trans (v.issueGrants_portWork m), State.issueGrants_other (by rw [(hv.stream m).entry]; exact hj) (hsends hv)
      hgranting hmn.symm (by rw [hroutes hv]; exact halone m hmn j hj)⟩
  have hown : ∀ v, s.PortWork v ∧ v.Granting k.branch n (s.stream n) (fun _ => False) →
      s.PortWork (v.issueGrants n) ∧
        (v.issueGrants n).Granting k.branch n (s.stream n).granted (· ≤ (s.stream n).granted.queued) := by
    rintro v ⟨hv, hgranting⟩
    have hen : (s.stream n).entry.enabled = true := ((s.mem_streamsOf _ n).mp hmem).2.1
    have hstream := hgranting.1
    rw [← hstream] at hkey hen hgranting ⊢
    exact ⟨hv.trans (v.issueGrants_portWork n), State.issueGrants_own hkey (hsends hv) hgranting
      (by rw [hroutes hv]; exact hroute) hen hup (by rw [(hv.branch _).link]; exact hl)⟩
  exact (foldl_until (s.streamsOf_nodup _) hmem hother hown hother ⟨.refl s, hfresh⟩).2

end Run

/-! ### The arbiter keeps the number of grants (R134) -/

/-- A GRANT that begins moves its count from queued to in flight: the grants outstanding are as many as before. -/
theorem State.arbitrate_grants {s : State} {b : Fin 6} {n : Fin 32} {st : Stream} (h : s.Granting b n st (· ≤ st.queued)) :
    ((s.arbitrate b).stream n).grants = (s.stream n).grants := by
  rcases s.arbitrate_cases b with hsame | ⟨-, -, ⟨e, rest, hq, hctl⟩ | ⟨-, ch, m, j, -, -, hdown⟩⟩
  · rw [hsame]
  · rw [hctl]
    cases e with
    | revoke ch dir => rw [State.beginControl_revoke]; rfl
    | grant ch count =>
      cases hm : s.route (upKey b ch) with
      | none =>
        simp only [State.beginControl, State.transmit, State.mapUpStream, State.mapBranch_route, hm,
          State.mapBranch_stream]
      | some m =>
        rw [State.beginControl_grant hm]
        show ((s.withStream m _).stream n).grants = _
        rcases eq_or_ne n m with rfl | hnm
        · have hcount := h.2 ch count (by rw [hq]; exact List.mem_cons_self) hm
          rw [← h.1] at hcount
          rw [State.withStream_stream_self]
          simp only [Stream.grants]
          omega
        · rw [State.withStream_stream_ne _ hnm]
  · rw [hdown, State.beginDown_eq]
    rcases eq_or_ne n m with rfl | hnm
    · show ((s.withStream n _).stream n).grants = _
      rw [State.withStream_stream_self]
      unfold Stream.setSideState Stream.setSide
      split <;> rfl
    · exact congrArg Stream.grants (s.withStream_stream_ne hnm _)

/-! ### The entry to UP (R121) -/

/-- The link UP with its counts cleared and BRANCH-UP offered, before its grants. -/
def State.raised (s : State) (b : Fin 6) : State :=
  { s.withBranch b { s.branch b with
      link := .up, aligns := 0, errors := 0,
      counters := { (s.branch b).counters with good := (s.branch b).counters.good + 1 } } with
    events := s.events.offer s.timebase.count .branchUp 0xFF#8 (BitVec.ofNat 8 b.val) 0 }

/-- The transmitter of port `b` IDLE, and the arbiter's pick. -/
def State.released (s : State) (b : Fin 6) : State := (s.withBranch b { s.branch b with tx := .idle }).arbitrate b

theorem exec_fourthAlign {s : State} {b : Fin 6} (hl : (s.branch b).link = .training) (haligns : (s.branch b).aligns = 3) :
    exec (.align b) s = .next (((s.raised b).grantsFor (s.onBranch b)).released b) := by
  rw [exec_align_training hl, if_pos (by omega), State.linkUp, State.mapBranch_mapBranch, State.onBranch_eq]
  rfl

theorem State.raised_branch (s : State) (b : Fin 6) : (s.raised b).branch b = { s.branch b with
    link := .up, aligns := 0, errors := 0,
    counters := { (s.branch b).counters with good := (s.branch b).counters.good + 1 } } :=
  s.withBranch_branch_self b _

theorem State.released_branch_ne {s : State} {b c : Fin 6} (hc : c ≠ b) : (s.released b).branch c = s.branch c := by
  rw [State.released, State.arbitrate_branch_ne _ hc, State.withBranch_branch_ne _ hc]

theorem State.released_grants {s : State} {b : Fin 6} {n : Fin 32} {st : Stream} (h : s.Granting b n st (· ≤ st.queued)) :
    ((s.released b).stream n).grants = st.grants := by
  obtain ⟨rfl, hcount⟩ := h
  refine State.arbitrate_grants (s := s.withBranch b { s.branch b with tx := .idle }) ⟨rfl, fun ch d he => hcount ch d ?_⟩
  rw [State.withBranch_branch_self] at he
  exact he

/-- Settles O26: the rising port queues the grants of its streams while it still aligns, and the pick moves grants of a stream
but keeps their number. -/
theorem fourthAlignBringsLinkUp : Obligations.FourthAlignBringsLinkUp := by
  intro s b hl haligns htx u v t
  have hlist : s.onBranch b = u.streamsOf b := s.onBranch_eq b
  refine ⟨exec_fourthAlign hl haligns, fun c hc => ?_, fun n hn hup hgrants halone hroute hq => ?_⟩
  · have hgranted : v.branch c = u.branch c := by
      show (u.grantsFor (s.onBranch b)).branch c = _
      rw [hlist]
      exact State.grantsFor_branch_ne hc
    exact (State.released_branch_ne hc).trans (hgranted.trans (s.withBranch_branch_ne hc _))
  · have hmem : n ∈ u.streamsOf b := (s.onBranch_iff b n).mp hn
    obtain ⟨k, hk, rfl⟩ := State.branch_of_mem_streamsOf hmem
    have hbranch := s.raised_branch k.branch
    have hdir : k.dir = .up := ((Entry.key?_eq_some_iff _ _).mp hk).2.2.symm.trans hup
    have hempty : (u.branch k.branch).queue = [] := (congrArg Branch.queue hbranch).trans hq
    have haligning : (u.branch k.branch).tx = .aligning := (congrArg Branch.tx hbranch).trans htx
    have hbusy : (u.branch k.branch).tx ≠ .idle := by
      rw [haligning]
      simp
    have hgranting := State.grantsFor_own hmem hk hdir (congrArg Branch.link hbranch) hbusy
      ⟨rfl, fun ch d he => absurd he (by rw [hempty]; exact List.not_mem_nil)⟩ (hroute k hk) halone
    rw [← hlist] at hgranting
    calc (t.stream n).grants
        = (s.stream n).granted.grants := State.released_grants hgranting
      _ = (s.stream n).grants + (s.stream n).grantable := (s.stream n).granted_grants
      _ = (s.stream n).entry.sideCount - (s.stream n).notFree := by rw [Stream.grantable, hgrants, Nat.zero_add, Nat.zero_add]

end Sys2Proof.Machine
end

