-- ==== Sys2Proof/Proofs/FrameDrops.lean ====
section
/-! DATA frames that R126 drops, CREDIT frames and frames that a port does not want (R125, R128), and the ends of control frames
(R134). -/

namespace Sys2Proof.Machine

/-! ### A good frame in UP (R125) -/

/-- A good frame counted, and the run of bad checks ended. -/
def Branch.received (br : Branch) : Branch :=
  { br with errors := 0, counters := { br.counters with good := br.counters.good + 1 } }

/-- The port of branch `b` with a good frame counted: the state in which the frame is handled. -/
def State.received (s : State) (b : Fin 6) : State := s.withBranch b (s.branch b).received

theorem State.goodFrame_received {s : State} {b : Fin 6} (hl : (s.branch b).link = .up) (handle : State → State) :
    s.goodFrame b handle = handle (s.received b) := State.goodFrame_up hl handle

theorem State.countBranch_received (s : State) (b : Fin 6) (f : BranchCounters → BranchCounters) :
    (s.received b).countBranch b f =
      s.withBranch b { (s.branch b).received with counters := f (s.branch b).received.counters } :=
  s.mapBranch_mapBranch b Branch.received fun br => { br with counters := f br.counters }

/-! ### DATA frames (R126) -/

section Dropped

variable {s : State} {b : Fin 6} {ch : Fin 8} {p : List Byte} {n : Fin 32} (last : Bool)

/-- Step 1 on a key that maps to no stream. -/
theorem State.takeData_oversize_unrouted (hroute : s.route (upKey b ch) = none) (hlen : 256 < p.length) :
    s.takeData b ch last p = s.dropOversize b none := by
  simp only [State.takeData, hroute]
  exact if_pos hlen

/-- Step 2. -/
theorem State.takeData_unrouted (hroute : s.route (upKey b ch) = none) (hlen : p.length ≤ 256) :
    s.takeData b ch last p = s.unrouted b := by
  simp only [State.takeData, hroute]
  exact if_neg (Nat.not_lt.mpr hlen)

variable (hroute : s.route (upKey b ch) = some n)

include hroute

/-- Step 1 on a routed key. -/
theorem State.takeData_oversize (hlen : 256 < p.length ∨ (s.stream n).entry.frameLimit.toNat < p.length) :
    s.takeData b ch last p = s.dropOversize b (some n) := by
  simp only [State.takeData, hroute]
  exact if_pos hlen

variable (hmax : p.length ≤ 256) (hlimit : p.length ≤ (s.stream n).entry.frameLimit.toNat)

include hmax hlimit

/-- Step 4: a FILLING side without the space. -/
theorem State.takeData_noRoom {k : Fin 2} (hk : (s.stream n).fillingSide? = some k) (hspace : (s.stream n).space k < p.length) :
    s.takeData b ch last p = s.dropNoRoom b n := by
  have hsize : ¬ (Config.maxFramePayload < p.length ∨ (s.stream n).entry.frameLimit.toNat < p.length) :=
    not_or_intro (Nat.not_lt.mpr hmax) (Nat.not_lt.mpr hlimit)
  simp only [State.takeData, hroute, if_neg hsize, hk, if_neg (Nat.not_le.mpr hspace)]

/-- Step 6: no FILLING side, and no delivered grant. -/
theorem State.takeData_noGrant (hk : (s.stream n).fillingSide? = none) (hgrant : (s.stream n).delivered = 0) :
    s.takeData b ch last p = s.dropNoGrant b n := by
  have hsize : ¬ (Config.maxFramePayload < p.length ∨ (s.stream n).entry.frameLimit.toNat < p.length) :=
    not_or_intro (Nat.not_lt.mpr hmax) (Nat.not_lt.mpr hlimit)
  have hnone : ¬ 1 ≤ (s.stream n).delivered := by omega
  simp only [State.takeData, hroute, if_neg hsize, hk, if_neg hnone]
  split <;> rfl

end Dropped

/-- A side that is FILLING, with no other, is the one that a search of the sides finds. -/
theorem Stream.fillingSide?_of_only {st : Stream} {k : Fin 2} (hk : k ∈ st.entry.sideNos) (hfilling : (st.side k).state = .filling)
    (honly : ∀ j, j ≠ k → (st.side j).state ≠ .filling) : st.fillingSide? = some k :=
  find?_of_rising st.entry.sideNos_rising hk (by simp [hfilling]) fun j hj => by simpa using honly j (ne_of_lt hj)

theorem Stream.fillingSide?_of_none {st : Stream} (h : ∀ k, (st.side k).state ≠ .filling) : st.fillingSide? = none :=
  List.find?_eq_none.mpr fun k _ => by simpa using h k

/-- A DATA or DATA-LAST frame in UP is taken by R126. -/
theorem exec_dataFrame {s : State} {b : Fin 6} (hl : (s.branch b).link = .up) {ch : Fin 8} {p : List Byte} {i : Instr}
    (hi : i = .data b ch p ∨ i = .dataLast b ch p) : ∃ last, exec i s = .next ((s.received b).takeData b ch last p) := by
  rcases hi with rfl | rfl
  · exact ⟨false, congrArg Host.Outcome.next (State.goodFrame_received hl _)⟩
  · exact ⟨true, congrArg Host.Outcome.next (State.goodFrame_received hl _)⟩

/-- A frame's drop, counted at the port and at the stream and offered as an event of the stream. -/
theorem State.received_drop (s : State) (b : Fin 6) (n : Fin 32) (f : BranchCounters → BranchCounters)
    (g : StreamCounters → StreamCounters) (d : Byte) :
    (((s.received b).countBranch b f).countStream n g).offerStream n .overrun d =
      ((s.withStreamEvent n .overrun d).withStream n
        { s.stream n with counters := g (s.stream n).counters }).withBranch b
        { (s.branch b).received with counters := f (s.branch b).received.counters } := by
  rw [State.countBranch_received]
  rw [State.countStream_offerStream]
  rfl

/-- Settles O27: each step of R126 that drops the frame. -/
theorem dataFramesDropped : Obligations.DataFramesDropped := by
  intro s b ch p i hl hi br key good
  obtain ⟨last, hexec⟩ := exec_dataFrame hl hi
  rw [hexec]
  let u := s.received b
  refine ⟨fun hroute hlen => congrArg _ ?_, fun hroute hlen => congrArg _ ?_, fun n hroute => ?_⟩
  · rw [State.takeData_oversize_unrouted (s := u) last hroute hlen, State.dropOversize, State.countBranch_received]
    rfl
  · exact (State.takeData_unrouted (s := u) last hroute hlen).trans (s.countBranch_received b _)
  intro st
  refine ⟨fun hlen => congrArg _ ?oversize, fun hmax hlimit k hk hfilling honly hspace => congrArg _ ?noRoom,
    fun hmax hlimit hnone hgrant => congrArg _ ?noGrant⟩
  case oversize => exact (State.takeData_oversize (s := u) last hroute hlen).trans (s.received_drop b n _ _ 4)
  case noRoom =>
    have hside := Stream.fillingSide?_of_only hk hfilling honly
    exact (State.takeData_noRoom (s := u) last hroute hmax hlimit hside hspace).trans (s.received_drop b n _ _ 5)
  case noGrant =>
    have hside := Stream.fillingSide?_of_none hnone
    exact (State.takeData_noGrant (s := u) last hroute hmax hlimit hside hgrant).trans (s.received_drop b n _ _ 6)

/-! ### CREDIT frames and unwanted frames (R125, R128) -/

section Credit

variable {s : State} {b : Fin 6} {ch : Fin 8} {p : List Byte}

/-- One count byte for a routed key: the credits grow up to 15, and the arbiter picks. -/
theorem State.takeCredit_taken {n : Fin 32} (hroute : s.route (downKey b ch) = some n) (count : Byte) :
    s.takeCredit b ch [count] = (s.withStream n { s.stream n with
      credits := min 15 ((s.stream n).credits + count.toNat) }).arbitrate b := by
  simp only [State.takeCredit, hroute]
  rfl

theorem State.takeCredit_dropped (h : p.length ≠ 1 ∨ s.route (downKey b ch) = none) : s.takeCredit b ch p = s.unrouted b := by
  unfold State.takeCredit
  split
  · next hroute =>
    rcases h with h | h
    · exact absurd rfl h
    · exact absurd (hroute.symm.trans h) (by simp)
  · rfl

/-- A frame dropped as unrouted once it is counted. -/
theorem State.received_unrouted (s : State) (b : Fin 6) : (s.received b).unrouted b = s.withBranch b
    { (s.branch b).received with counters := { (s.branch b).received.counters with
      unrouted := satInc (s.branch b).counters.unrouted } } :=
  State.countBranch_received s b _

end Credit

/-- Settles O29: a CREDIT that R128 takes, and the frames that are dropped as unrouted. -/
theorem creditsAndUnwantedFrames : Obligations.CreditsAndUnwantedFrames := by
  intro s b ch hl br key taken dropped
  have hframe : ∀ handle, s.goodFrame b handle = handle (s.received b) := State.goodFrame_received hl
  refine ⟨fun n count hroute => congrArg Host.Outcome.next ((hframe _).trans ?_),
    fun p hp => congrArg Host.Outcome.next ((hframe _).trans ?_),
    congrArg Host.Outcome.next ((hframe _).trans (s.received_unrouted b))⟩
  · exact State.takeCredit_taken (s := s.received b) hroute count
  · exact (State.takeCredit_dropped (s := s.received b) hp).trans (s.received_unrouted b)

/-! ### The ends of control frames (R134) -/

section ControlEnd

variable {s : State} {b : Fin 6} {ch : Fin 8}

theorem exec_controlFrameEnd_revoke {dir : Dir} (htx : (s.branch b).tx = .busy (.revoke ch dir)) :
    exec (.controlFrameEnd b) s = .next (s.txDone b) := by
  show Host.Outcome.next _ = _
  simp only [htx]

/-- The end of a GRANT delivers the in-flight grants of its key's stream. -/
theorem exec_controlFrameEnd_grant {count cap : Nat} {n : Fin 32} (htx : (s.branch b).tx = .busy (.grant ch count cap))
    (hroute : s.route (upKey b ch) = some n) : exec (.controlFrameEnd b) s = .next ((s.withStream n { s.stream n with
      delivered := (s.stream n).delivered + (s.stream n).inFlight, inFlight := 0 }).txDone b) := by
  show Host.Outcome.next _ = _
  simp only [htx, State.mapUpStream, hroute]
  rfl

end ControlEnd

/-- Settles O30: a REVOKE that ends delivers nothing, a GRANT its in-flight grants. -/
theorem controlFrameEnds : Obligations.ControlFrameEnds := fun _ _ _ =>
  ⟨fun _ _ htx => exec_controlFrameEnd_revoke htx, fun _ _ _ _ htx hroute => exec_controlFrameEnd_grant htx hroute⟩

end Sys2Proof.Machine
end

