-- ==== Sys2Proof/Proofs/LineChecks.lean ====
section
/-! The check of R177 as a division bit by bit, and the bytes of the cells and frames that the part sends (11.1, 11.2). -/

namespace Sys2Proof.Machine

/-! ### The division (R177) -/

/-- The bits of a byte in the order of the line. -/
def byteBits (b : Byte) : List Bool := [7, 6, 5, 4, 3, 2, 1, 0].map b.getLsbD

theorem crcFrom_append (r : Half) (bs cs : List Byte) : crcFrom r (bs ++ cs) = crcFrom (crcFrom r bs) cs :=
  List.foldl_append

/-- One bit of the division leaves a remainder with bit 0 clear exactly when it is the top bit of the remainder: the feedback
sets bit 0. -/
theorem crcBit_getMsbD_last (r : Half) (bit : Bool) : (crcBit r bit).getMsbD 15 = (r.msb != bit) := by
  unfold crcBit
  cases h : r.msb != bit <;> simp

theorem crcBit_of_msb {r : Half} {bit : Bool} (h : r.msb = bit) : crcBit r bit = r <<< 1 := by
  simp [crcBit, h]

/-- At most 16 bits bring the remainder to 0 exactly when they are its leading bits and its other bits are 0. Each step
shifts the remainder by a bit, and a bit that differs from the top one would leave bit 0 set, past the reach of the rest. -/
theorem crcBits_eq_zero_iff (bits : List Bool) (hlen : bits.length ≤ 16) :
    ∀ r : Half, bits.foldl crcBit r = 0 ↔ ∀ i < 16, r.getMsbD i = bits.getD i false := by
  induction bits with
  | nil =>
    intro r
    constructor
    · rintro rfl i -
      simp
    · intro h
      refine BitVec.eq_of_getMsbD_eq fun i hi => ?_
      simpa using h i hi
  | cons bit bits ih =>
    intro r
    have hshort : bits.length ≤ 15 := Nat.le_of_succ_le_succ hlen
    rw [List.foldl_cons, ih (Nat.le_succ_of_le hshort)]
    have hpast : bits.getD 15 false = false := List.getD_eq_default _ _ hshort
    have hshift : ∀ i, (r <<< 1).getMsbD i = r.getMsbD (i + 1) := fun i => by simp
    constructor
    · intro h i hi
      have hmsb : r.msb = bit := by
        have hlast := h 15 (by omega)
        rw [crcBit_getMsbD_last, hpast] at hlast
        simpa using hlast
      rw [crcBit_of_msb hmsb] at h
      cases i with
      | zero => exact hmsb
      | succ i => rw [← hshift]; exact h i (by omega)
    · intro h i hi
      have hmsb : r.msb = bit := h 0 (by omega)
      rw [crcBit_of_msb hmsb, hshift]
      by_cases hi' : i + 1 < 16
      · exact h (i + 1) hi'
      · obtain rfl : i = 15 := by omega
        rw [hpast]
        simp

theorem byteBits_getD (b : Byte) : ∀ i < 8, (byteBits b).getD i false = b.getMsbD i := by
  intro i h
  interval_cases i <;> rfl

theorem byteBits_append_getD (hi lo : Byte) : ∀ i < 16,
    (byteBits hi ++ byteBits lo).getD i false = (hi ++ lo).getMsbD i := by
  intro i h
  have hlen : (byteBits hi).length = 8 := rfl
  rw [BitVec.getMsbD_append]
  split
  · next h8 => rw [List.getD_append_right _ _ _ _ (hlen ▸ h8), hlen, byteBits_getD lo _ (by omega)]
  · next h8 => rw [List.getD_append _ _ _ _ (hlen ▸ Nat.not_le.mp h8), byteBits_getD hi i (by omega)]

theorem crcFrom_two_eq_zero_iff (r : Half) (hi lo : Byte) : crcFrom r [hi, lo] = 0 ↔ r = hi ++ lo := by
  have hfold : crcFrom r [hi, lo] = (byteBits hi ++ byteBits lo).foldl crcBit r := by
    rw [List.foldl_append]
    rfl
  rw [hfold, crcBits_eq_zero_iff _ (by simp [byteBits])]
  constructor
  · intro h
    exact BitVec.eq_of_getMsbD_eq fun i hi' => (h i hi').trans (byteBits_append_getD hi lo i hi')
  · rintro rfl i hi'
    exact (byteBits_append_getD hi lo i hi').symm

theorem halfBytes_append (hi lo : Byte) : halfBytes (hi ++ lo) = [hi, lo] := by
  rw [halfBytes, BitVec.extractLsb'_append_eq_left, BitVec.extractLsb'_append_eq_right]

theorem crc_append_two (bs : List Byte) (hi lo : Byte) : crc (bs ++ [hi, lo]) = 0 ↔ crc bs = hi ++ lo := by
  rw [crc, crcFrom_append]
  exact crcFrom_two_eq_zero_iff _ hi lo

/-- The check leaves the residue 0, and no other two bytes do. -/
theorem crc_residue (bs : List Byte) (hi lo : Byte) : crc (bs ++ [hi, lo]) = 0 ↔ [hi, lo] = halfBytes (crc bs) := by
  rw [crc_append_two]
  constructor
  · intro h
    rw [h, halfBytes_append]
  · intro h
    obtain ⟨rfl, rfl⟩ : hi = (crc bs).extractLsb' 8 8 ∧ lo = (crc bs).extractLsb' 0 8 := by simpa [halfBytes] using h
    exact (BitVec.extractLsb'_append_extractLsb' (w := 8) (len := 8)).symm

theorem crc_withCheck (bs : List Byte) : crc (withCheck bs) = 0 := (crc_residue bs _ _).mpr rfl

/-! ### The bytes on the lines (11.1, 11.2, R134, R135) -/

/-- The parts of byte 0 of a cell (11.1). -/
theorem cellByte0_parts (kind : BitVec 4) (seq attn : Bool) :
    (cellByte0 kind seq attn).extractLsb' 4 4 = kind ∧ (cellByte0 kind seq attn).getLsbD 3 = false ∧
      (cellByte0 kind seq attn).getLsbD 2 = false ∧ (cellByte0 kind seq attn).getLsbD 1 = seq ∧
      (cellByte0 kind seq attn).getLsbD 0 = attn := by
  revert kind seq attn
  decide

/-- The parts of byte 0 of a frame (11.2). -/
theorem frameByte0_parts (kind : BitVec 4) (ch : Fin 8) (b0 : Byte) (h : b0 = kind ++ 0#1 ++ BitVec.ofNat 3 ch.val) :
    b0.extractLsb' 4 4 = kind ∧ b0.getLsbD 3 = false ∧ (b0.extractLsb' 0 3).toNat = ch.val := by
  subst h
  revert kind ch
  decide

theorem cellBytes_layout (kind : BitVec 4) (seq attn : Bool) (addr stream : Byte) (payload : List Byte) :
    crc (cellBytes kind seq attn addr stream payload) = 0 ∧ ∃ b0 hi lo c0 c1 : Byte,
      cellBytes kind seq attn addr stream payload = [b0, addr, stream, hi, lo] ++ payload ++ [c0, c1] ∧
      b0.extractLsb' 4 4 = kind ∧ b0.getLsbD 3 = false ∧ b0.getLsbD 2 = false ∧ b0.getLsbD 1 = seq ∧
      b0.getLsbD 0 = attn ∧ hi ++ lo = BitVec.ofNat 16 payload.length := by
  obtain ⟨hkind, h3, h2, hseq, hattn⟩ := cellByte0_parts kind seq attn
  exact ⟨crc_withCheck _, _, _, _, _, _, rfl, hkind, h3, h2, hseq, hattn, BitVec.extractLsb'_append_extractLsb'⟩

theorem frameBytes_layout (kind : BitVec 4) (ch : Fin 8) (payload : List Byte) :
    crc (frameBytes kind ch payload) = 0 ∧ ∃ b0 hi lo c0 c1 : Byte,
      frameBytes kind ch payload = [b0, hi, lo] ++ payload ++ [c0, c1] ∧ b0.extractLsb' 4 4 = kind ∧
      b0.getLsbD 3 = false ∧ (b0.extractLsb' 0 3).toNat = ch.val ∧ hi ++ lo = BitVec.ofNat 16 payload.length := by
  obtain ⟨hkind, h3, hch⟩ := frameByte0_parts kind ch _ rfl
  exact ⟨crc_withCheck _, _, _, _, _, _, rfl, hkind, h3, hch, BitVec.extractLsb'_append_extractLsb'⟩

/-- The bytes of the side capacity that a GRANT carries. -/
theorem halfBytes_halfOf (n : Nat) : halfBytes (halfOf n) = [BitVec.ofNat 8 (n / 256), BitVec.ofNat 8 n] := by
  have hhigh : (halfOf n).extractLsb' 8 8 = BitVec.ofNat 8 (n / 256) := by
    apply BitVec.eq_of_toNat_eq
    simp only [halfOf, BitVec.extractLsb'_toNat, BitVec.toNat_ofNat, Nat.shiftRight_eq_div_pow]
    omega
  have hlow : (halfOf n).extractLsb' 0 8 = BitVec.ofNat 8 n := by
    apply BitVec.eq_of_toNat_eq
    simp only [halfOf, BitVec.extractLsb'_toNat, BitVec.toNat_ofNat, Nat.shiftRight_zero]
    omega
  rw [halfBytes, hhigh, hlow]

theorem dirByte_eq (dir : Dir) : dirByte dir = if dir = .up then 0 else 1 := by
  cases dir <;> rfl

/-- Settles O53: the residue by the bits of the division (`crcBits_eq_zero_iff`), and the layouts of a cell and of a frame. -/
theorem checkResidueIsZero : Obligations.CheckResidueIsZero := by
  refine ⟨crc_residue, fun u => ?_, fun f => ?_⟩
  · obtain ⟨hcheck, b0, hi, lo, c0, c1, hbytes, hkind, hrest⟩ := cellBytes_layout u.answer.kind.code u.answer.seq u.attn
      (u.answer.addr.setWidth 8) u.answer.stream u.answer.payload
    refine ⟨hcheck, b0, hi, lo, c0, c1, hbytes, hkind.trans ?_, hrest⟩
    cases u.answer.kind <;> rfl
  · cases f with
    | grant ch count capacity =>
      rw [TxFrame.bytes, halfBytes_halfOf]
      exact frameBytes_layout 3 ch _
    | revoke ch dir =>
      rw [TxFrame.bytes, dirByte_eq]
      exact frameBytes_layout 5 ch _
    | data last ch n k p => exact frameBytes_layout _ ch p

end Sys2Proof.Machine
end

