-- ==== Sys2Proof/Proofs/RequestBegins.lean ====
section
/-! REQUEST on stream 0: the header checks of R141 with the lengths and node states of 9.1 (R155), and the exchange that
every request begins, whatever its own work (R140). -/

namespace Sys2Proof.Machine

/-! ### A command that is a request (11.4) -/

theorem ReqFields.value_of_branchActs {f : ReqFields} {a : BranchAction} (h : branchActs f a.value.toNat = true) :
    { f with value := a.value } = f := by
  have hvalue : f.value = a.value := by
    simp only [branchActs, Bool.and_eq_true, beq_iff_eq] at h
    exact BitVec.eq_of_toNat_eq h.2
  rw [← hvalue]

/-- The header fields with which a request acts, the same in every state: its own when it is well formed, because a
well-formed BRANCH row carries the value of its row already. -/
theorem exec_request_fields {i : Instr} {c : CellHdr} {r : Request} {f : ReqFields} (h : i.request? = some (c, r, f)) :
    ∃ g, (i.wf = true → g = f) ∧ ∀ s, exec i s = .next (s.request c r g (r.body g)) := by
  cases i <;> simp only [Instr.request?, Option.some.injEq, Prod.mk.injEq, reduceCtorEq] at h
  all_goals obtain ⟨rfl, rfl, rfl⟩ := h
  case branchEnable => exact ⟨_, ReqFields.value_of_branchActs (a := .enable), fun _ => rfl⟩
  case branchDisable => exact ⟨_, ReqFields.value_of_branchActs (a := .disable), fun _ => rfl⟩
  case branchRetrain => exact ⟨_, ReqFields.value_of_branchActs (a := .retrain), fun _ => rfl⟩
  all_goals exact ⟨_, fun _ => rfl, fun _ => rfl⟩

theorem exec_request_of_wf {i : Instr} {c : CellHdr} {r : Request} {f : ReqFields} (hwf : i.wf = true)
    (h : i.request? = some (c, r, f)) (s : State) : exec i s = .next (s.request c r f (r.body f)) := by
  obtain ⟨g, hg, hexec⟩ := exec_request_fields h
  rw [hexec, hg hwf]

/-! ### The header checks (R141 steps 3 to 5, R155) -/

theorem headerRefusal?_badRequest {r : Request} {f : ReqFields} (h : f.flags ≠ 0 ∨ r.lengthOk f.length.toNat = false)
    (node : NodeState) : headerRefusal? r f node = some .badRequest := by
  unfold headerRefusal?
  split_ifs with hflags hlength hnode
  · rfl
  · rfl
  all_goals exact absurd h (by simp_all)

theorem headerRefusal?_wrongState {r : Request} {f : ReqFields} {node : NodeState} (hf : f.flags = 0)
    (hl : r.lengthOk f.length.toNat = true) (hn : r.allowedIn node = false) :
    headerRefusal? r f node = some .wrongState := by
  simp [headerRefusal?, hf, hl, hn]

/-- A request that fails a header check ends with its code, its cell answered ACK, and changes nothing else. -/
theorem State.request_failsCheck {s : State} {c : CellHdr} {r : Request} {f : ReqFields} (htakes : s.Takes c)
    (hs : c.stream = 0) (hidle : s.mgmt.exchange = .idle ∨ s.mgmt.exchange = .failed) {code : ResultCode}
    (hcode : headerRefusal? r f s.trunk.node = some code) (body : State → State) :
    s.request c r f body = s.resulted c r f code := by
  have hbegun : headerRefusal? r f (s.begun r f).trunk.node = some code := hcode
  rw [State.request, State.takeRequest_taken htakes hs, State.beginExchange_idle hidle, State.runRequest_refused hbegun,
    State.begun_finish, State.answer_eq]

/-- Settles O35: the first failing check of `headerRefusal?`, and the rows of 9.1 request by request. -/
theorem headerChecksRefuse : Obligations.HeaderChecksRefuse := by
  refine ⟨fun s i c r f hwf hi htakes hs hidle => ?_, fun r n => ?_, fun r node => ?_⟩
  · rw [exec_request_of_wf hwf hi]
    exact ⟨fun hbad => congrArg _ (State.request_failsCheck htakes hs hidle (headerRefusal?_badRequest hbad _) _),
      fun hf hl hn => congrArg _ (State.request_failsCheck htakes hs hidle (headerRefusal?_wrongState hf hl hn) _)⟩
  · cases r <;> simp [Request.lengthOk, or_assoc]
  · cases r <;> simp [Request.allowedIn]

/-! ### The exchange that a request begins (R140) -/

/-- The exchange that the REQUEST with header `hd` began stands: it is past its beginning, and has taken and sent nothing. -/
structure Mgmt.Stands (m : Mgmt) (hd : ReqHeader) : Prop where
  header : m.header = some hd
  seqBit : m.seqBit = true
  response : m.response = .opened
  packet : m.packet = none
  outCount : m.outCount = 0
  snapOff : m.snapOff = 0
  notIdle : m.exchange ≠ .idle
  notFailed : m.exchange ≠ .failed

/-- What the work of a request on the other blocks leaves alone: the address and the sending of the Trunk Port, an exchange
that has just begun, and the records that the event queue holds. -/
structure State.Beside (s t : State) : Prop where
  addr : t.trunk.addr = s.trunk.addr
  sending : t.trunk.sending = s.trunk.sending
  fresh : ∀ hd, s.mgmt.Fresh hd → t.mgmt.Fresh hd
  records : s.events.records <+: t.events.records

/-- What a request with header `hd` makes of the state in which its exchange has just begun. -/
structure State.Begins (s t : State) (hd : ReqHeader) : Prop where
  addr : t.trunk.addr = s.trunk.addr
  sending : t.trunk.sending = s.trunk.sending
  stands : t.mgmt.Stands hd
  records : s.events.records <+: t.events.records

theorem State.Beside.of_same {s t : State} (haddr : t.trunk.addr = s.trunk.addr)
    (hsending : t.trunk.sending = s.trunk.sending) (hmgmt : t.mgmt = s.mgmt)
    (hrecords : t.events.records = s.events.records) : s.Beside t :=
  ⟨haddr, hsending, fun _ hf => hmgmt ▸ hf, hrecords ▸ List.prefix_rfl⟩

theorem State.Beside.refl (s : State) : s.Beside s := .of_same rfl rfl rfl rfl

theorem State.Beside.trans {s t u : State} (h : s.Beside t) (g : t.Beside u) : s.Beside u :=
  ⟨g.addr.trans h.addr, g.sending.trans h.sending, fun hd hf => g.fresh hd (h.fresh hd hf), h.records.trans g.records⟩

theorem State.PortStep.beside {s t : State} (h : s.PortStep t) : s.Beside t :=
  .of_same (congrArg Trunk.addr h.trunk) (congrArg Trunk.sending h.trunk) h.mgmt (congrArg EventQueue.records h.events)

theorem State.mapTimebase_beside (s : State) (g : Timebase → Timebase) : s.Beside (s.mapTimebase g) :=
  .of_same rfl rfl rfl rfl

theorem State.claim_beside (s : State) (n : Fin 32) (r : Response) : s.Beside (s.claim n r) := by
  rcases s.claim_cases n r with ⟨-, -, h⟩ | ⟨-, h⟩ <;> rw [h]
  · exact .of_same rfl rfl rfl rfl
  · exact .refl s

theorem State.claimHoldAll_beside (s : State) : s.Beside s.claimHoldAll :=
  .of_same (by simp) (by simp) (by simp) (by simp)

/-- The loss of a link offers its BRANCH-DOWN, and an exchange that has just begun waits for no side. -/
theorem State.loseLink_beside (s : State) (b : Fin 6) (link : LinkState) (aligns : Nat) (detail : Byte) :
    s.Beside (s.loseLink b link aligns detail) := by
  have h := s.loseLink_lossEffects b link aligns detail
  have htrunk : (s.loseLink b link aligns detail).trunk = s.trunk := (congrArg State.trunk h.rest).trans rfl
  exact ⟨congrArg Trunk.addr htrunk, congrArg Trunk.sending htrunk, fun _ => (s.loseLink_traffic b _ _ _).fresh,
    h.events ▸ EventQueue.offer_prefix _ _ _ _ _ _⟩

theorem State.branchCommit_beside (s : State) (b : Fin 6) (a : BranchAction) : s.Beside (s.branchCommit b a) := by
  have hport : ∀ g : Branch → Branch, s.Beside (s.mapBranch b g) := fun _ => .of_same rfl rfl rfl rfl
  unfold State.branchCommit
  split
  any_goals exact s.loseLink_beside b _ _ _
  any_goals exact hport _
  all_goals exact .refl s

/-- RESET-STREAM works on the stream and on its port (R161). -/
theorem resetStream_beside (s : State) (n : Fin 32) :
    s.Beside (((s.mapStream n Stream.resetStream).revokeStream n).issueGrants n) :=
  have hstream : s.Beside (s.mapStream n Stream.resetStream) := .of_same rfl rfl rfl rfl
  (hstream.trans (State.revokeStream_portStep _ n).beside).trans (State.issueGrants_portStep _ n).beside

theorem clearGroup_beside (s : State) (g : CounterGroup) : s.Beside (s.clearGroup g) := by
  cases g <;> exact .of_same rfl rfl rfl rfl

/-! ### The ends of a request's own work (R141, R142, R147, R155) -/

section Ends

variable {s t : State} {hd : ReqHeader} (h : s.Beside t) (hf : s.mgmt.Fresh hd)

include h hf

/-- What keeps the exchange that stands in each Management Engine just begun. -/
theorem State.Beside.mapMgmt {g : Mgmt → Mgmt} (hg : ∀ m : Mgmt, (g (m.begin hd)).Stands hd) :
    s.Begins (t.mapMgmt g) hd := by
  obtain ⟨m, hm⟩ := h.fresh hd hf
  exact ⟨h.addr, h.sending, show (g t.mgmt).Stands hd from hm ▸ hg m, h.records⟩

theorem State.Beside.finish (code : ResultCode) : s.Begins (t.finish code) hd :=
  h.mapMgmt hf fun _ => ⟨rfl, rfl, rfl, rfl, rfl, rfl, nofun, nofun⟩

theorem State.Beside.execute : s.Begins t.execute hd :=
  h.mapMgmt hf fun _ => ⟨rfl, rfl, rfl, rfl, rfl, rfl, nofun, nofun⟩

theorem State.Beside.snapshot (bytes : List Byte) (detail : Byte) (deferred : Option Deferred) :
    s.Begins (t.snapshot bytes detail deferred) hd :=
  h.mapMgmt hf fun _ => ⟨rfl, rfl, rfl, rfl, rfl, rfl, nofun, nofun⟩

theorem State.Beside.dataOut : s.Begins (writeStreamBody t) hd :=
  h.mapMgmt hf fun _ => ⟨rfl, rfl, rfl, rfl, rfl, rfl, nofun, nofun⟩

end Ends

/-- A deferred action is held beside the exchange. -/
theorem State.Begins.defer {s t : State} {hd : ReqHeader} (h : s.Begins t hd) (d : Option Deferred) :
    s.Begins (t.mapMgmt (fun m => { m with deferred := d })) hd := by
  obtain ⟨haddr, hsending, ⟨hheader, hseq, hresponse, hpacket, hout, hoff, hidle, hfailed⟩, hrecords⟩ := h
  exact ⟨haddr, hsending, ⟨hheader, hseq, hresponse, hpacket, hout, hoff, hidle, hfailed⟩, hrecords⟩

/-! ### The fifteen requests (Chapter 9) -/

section Bodies

variable {s : State} {f : ReqFields} {hd : ReqHeader} (hf : s.mgmt.Fresh hd)

include hf

theorem assignAddressBody_begins : s.Begins (assignAddressBody f s) hd := by
  have hends := (State.Beside.refl s).finish hf
  unfold assignAddressBody
  split_ifs
  · exact hends _
  · exact hends _
  · exact (hends .done).defer _

theorem startBody_begins : s.Begins (startBody s) hd := by
  have hnode : s.Beside (s.mapTrunk (fun t => { t with node := .running })) := .of_same rfl rfl rfl rfl
  exact hnode.finish hf .done

theorem stopBody_begins : s.Begins (stopBody s) hd := by
  have hnode : s.Beside (s.mapTrunk (fun t => { t with node := .addressed })) :=
    .of_same rfl rfl rfl rfl
  exact (hnode.trans (State.claimHoldAll_beside _)).finish hf .done

theorem setCycleBody_begins : s.Begins (setCycleBody f s) hd := by
  have hends := (State.Beside.refl s).finish hf
  unfold setCycleBody
  split
  · exact hends _
  · split_ifs
    · exact hends _
    · exact hends _
    · exact (s.mapTimebase_beside _).finish hf _

theorem setResponseBody_begins : s.Begins (setResponseBody f s) hd := by
  have hends := (State.Beside.refl s).finish hf
  unfold setResponseBody
  split
  · exact hends _
  · next n _ =>
    split
    · exact hends _
    · next r _ =>
      split
      · exact hends _
      · split
        · exact hends _
        · refine State.Beside.finish ((s.claim_beside n r).trans ?_) hf _
          split
          · exact .of_same rfl rfl rfl rfl
          · exact .refl _

theorem resetStreamBody_begins : s.Begins (resetStreamBody f s) hd := by
  have hends := (State.Beside.refl s).finish hf
  unfold resetStreamBody
  split
  · exact hends _
  · next n _ =>
    split
    · exact hends _
    · simp only
      split
      · exact (resetStream_beside s n).execute hf
      · exact (resetStream_beside s n).finish hf _

theorem branchControlBody_begins : s.Begins (branchControlBody f s) hd := by
  have hends := (State.Beside.refl s).finish hf
  unfold branchControlBody
  split
  · exact hends _
  · split
    · exact hends _
    · exact (s.branchCommit_beside _ _).finish hf _

theorem readStreamBody_begins : s.Begins (readStreamBody f s) hd := by
  unfold readStreamBody
  split
  · exact (State.Beside.refl s).finish hf _
  · exact (State.Beside.refl s).snapshot hf _ _ _

theorem setEventMaskBody_begins : s.Begins (setEventMaskBody f s) hd := by
  unfold setEventMaskBody
  split
  · exact (State.Beside.refl s).finish hf _
  · have hmask : s.Beside (s.setEvents { s.events with mask := f.value }) := .of_same rfl rfl rfl rfl
    exact hmask.finish hf _

theorem readCountersBody_begins : s.Begins (readCountersBody f s) hd := by
  unfold readCountersBody
  split
  · exact (State.Beside.refl s).finish hf _
  · split
    · exact (State.Beside.refl s).finish hf _
    · exact (State.Beside.refl s).snapshot hf _ _ _

theorem clearCountersBody_begins : s.Begins (clearCountersBody f s) hd := by
  unfold clearCountersBody
  split
  · exact (State.Beside.refl s).finish hf _
  · exact (clearGroup_beside s _).finish hf _

/-- Whatever its own work, a request leaves the exchange that it began standing. -/
theorem Request.body_begins (r : Request) : s.Begins (r.body f s) hd := by
  have hsnaps := (State.Beside.refl s).snapshot hf
  cases r with
  | assignAddress => exact assignAddressBody_begins hf
  | readIdentity => exact hsnaps _ _ _
  | start => exact startBody_begins hf
  | stop => exact stopBody_begins hf
  | setCycle => exact setCycleBody_begins hf
  | writeStream => exact (State.Beside.refl s).dataOut hf
  | readStream => exact readStreamBody_begins hf
  | setResponse => exact setResponseBody_begins hf
  | resetStream => exact resetStreamBody_begins hf
  | branchControl => exact branchControlBody_begins hf
  | readEvents => exact hsnaps _ _ _
  | setEventMask => exact setEventMaskBody_begins hf
  | readCounters => exact readCountersBody_begins hf
  | clearCounters => exact clearCountersBody_begins hf
  | readTimebase => exact hsnaps _ _ _

/-- So does one that a header check of R141 ends. -/
theorem State.runRequest_begins (r : Request) : s.Begins (s.runRequest r f (r.body f)) hd := by
  cases hr : headerRefusal? r f s.trunk.node with
  | none => rw [State.runRequest_ok hr]; exact r.body_begins hf
  | some code => rw [State.runRequest_refused hr]; exact (State.Beside.refl s).finish hf code

end Bodies

/-! ### The exchange that a REQUEST abandons (R140) -/

theorem Exchange.standing_iff (e : Exchange) : e.standing = true ↔ e ≠ .idle ∧ e ≠ .failed := by
  cases e <;> decide

/-- A REQUEST that finds an exchange standing reports it, and begins its own as it does in IDLE. -/
theorem State.beginExchange_standing {s : State} (h : s.mgmt.exchange ≠ .idle) (h' : s.mgmt.exchange ≠ .failed)
    (hd : ReqHeader) : s.beginExchange hd =
      { s.withPlainEvent .mgmtAbandoned s.mgmt.headerCode with
        mgmt := { s.mgmt with exchange := .idle } }.beginExchange hd := by
  rw [State.beginExchange, if_pos ((Exchange.standing_iff _).mpr ⟨h, h'⟩), State.beginExchange_idle (.inl rfl)]
  rfl

theorem State.takeRequest_standing {s : State} {c : CellHdr} (htakes : s.Takes c) (hs : c.stream = 0)
    (h : s.mgmt.exchange ≠ .idle) (h' : s.mgmt.exchange ≠ .failed) (hd : ReqHeader) (run : State → State) :
    s.takeRequest c hd run =
      { s.withPlainEvent .mgmtAbandoned s.mgmt.headerCode with
        mgmt := { s.mgmt with exchange := .idle } }.takeRequest c hd run := by
  rw [State.takeRequest_taken htakes hs, State.beginExchange_standing h h', ← State.takeRequest_taken ?_ hs]
  exact htakes

/-- The beginning of an exchange is all that touches the trunk's address, its sending and the event queue. -/
theorem State.beginExchange_rest (s : State) (hd : ReqHeader) :
    (s.beginExchange hd).trunk = s.trunk ∧ (s.beginExchange hd).events =
      if s.mgmt.exchange = .idle ∨ s.mgmt.exchange = .failed then s.events
      else (s.withPlainEvent .mgmtAbandoned s.mgmt.headerCode).events := by
  by_cases h : s.mgmt.exchange = .idle ∨ s.mgmt.exchange = .failed
  · rw [State.beginExchange_idle h, if_pos h]
    exact ⟨rfl, rfl⟩
  · obtain ⟨hidle, hfailed⟩ := not_or.mp h
    rw [State.beginExchange_standing hidle hfailed, State.beginExchange_idle (.inl rfl), if_neg h]
    exact ⟨rfl, rfl⟩

/-- Settles O34: the exchange begun (`State.beginExchange_keeps`) stands after the request's own work
(`State.runRequest_begins`), and one that it abandons is reported first (`State.takeRequest_standing`). -/
theorem requestBeginsItsExchange : Obligations.RequestBeginsItsExchange := by
  refine ⟨fun s i c r f hwf hi htakes hs => ?_, fun s i c htakes hs hi hidle hfailed => ?_⟩
  · let hd : ReqHeader := { code := r.code, fields := some f }
    obtain ⟨htrunk, hevents⟩ := s.beginExchange_rest hd
    obtain ⟨haddr, hsending, ⟨hheader, hseq, hresponse, hpacket, hout, hoff, hnotIdle, hnotFailed⟩, hrecords⟩ :=
      State.runRequest_begins (f := f) (s.beginExchange_keeps hd).2 r
    rw [htrunk] at haddr hsending
    refine ⟨((s.beginExchange hd).runRequest r f (r.body f)).answer c .ack c.seq [], ?_, ?_, ?_, hheader, hseq, hresponse,
      hpacket, hout, hoff, hnotIdle, hnotFailed, hevents ▸ hrecords⟩
    · rw [exec_request_of_wf hwf hi, State.request, State.takeRequest_taken htakes hs]
    · rw [State.answer_trunk, State.answerTo, haddr]
    · exact hsending.trans htakes.1.2
  · rcases hi with ⟨r, f, hi⟩ | ⟨p, rfl, hbad⟩
    · obtain ⟨g, -, hexec⟩ := exec_request_fields hi
      rw [hexec, hexec]
      exact congrArg Host.Outcome.next (State.takeRequest_standing htakes hs hidle hfailed _ _)
    · have hstanding := State.takeRequest_standing htakes hs hidle hfailed (badHeader p) (fun s => s.finish .badRequest)
      rw [← State.requestPayload_bad hbad, ← State.requestPayload_bad hbad] at hstanding
      exact congrArg Host.Outcome.next hstanding

end Sys2Proof.Machine
end

