-- ==== Sys2Proof/Proofs/ExchangeStages.lean ====
section
/-! Stream 0 cells by exchange state: the OUT data stage (R142, R143), the IN data stage (R145, R146), and the cells that the
present stage cannot take (R147, R150, R151). -/

namespace Sys2Proof.Machine

/-! ### Cells on stream 0 go to the Management Engine (R58) -/

section StreamZero

variable {s : State} {c : CellHdr} (htakes : s.Takes c) (hs : c.stream = 0)

include htakes hs

theorem exec_put_streamZero (p : List Byte) : exec (.put c p) s = .next (s.mgmtPut c p) :=
  congrArg Host.Outcome.next ((State.takeCell_taken htakes _).trans (if_pos hs))

theorem exec_fetch_streamZero : exec (.fetch c) s = .next (s.mgmtFetch c) :=
  congrArg Host.Outcome.next ((State.takeCell_taken htakes _).trans (if_pos hs))

theorem exec_ask_streamZero : exec (.ask c) s = .next (s.mgmtAsk c) :=
  congrArg Host.Outcome.next ((State.takeCell_taken htakes _).trans (if_pos hs))

theorem exec_ack_streamZero : exec (.ack c) s = .next s.mgmtAck :=
  congrArg Host.Outcome.next ((State.takeCell_taken htakes _).trans (if_pos hs))

end StreamZero

/-! ### The OUT data stage (R142, R143) -/

section DataOut

variable {s : State} {c : CellHdr} {p : List Byte} (hout : s.mgmt.exchange = .dataOut)

include hout

theorem State.mgmtPut_repeat (hseq : c.seq ≠ s.mgmt.seqBit) : s.mgmtPut c p = s.withAnswer c .ack c.seq [] := by
  simp only [State.mgmtPut, hout, State.mgmtOut, if_pos hseq, State.answer_eq]

theorem State.mgmtPut_gathers (hseq : c.seq = s.mgmt.seqBit) (hshort : p.length ≤ 32)
    (hmore : s.mgmt.outCount + p.length < s.mgmt.declared) :
    s.mgmtPut c p = { s.withAnswer c .ack c.seq [] with mgmt := s.mgmt.take p } := by
  have hfits : ¬ (Config.mgmtPacket < p.length ∨ s.mgmt.declared < s.mgmt.outCount + p.length) :=
    not_or_intro (Nat.not_lt.mpr hshort) (Nat.not_lt.mpr hmore.le)
  have hopen : ¬ (s.mapMgmt (fun m => m.take p)).mgmt.outCount = (s.mapMgmt (fun m => m.take p)).mgmt.declared := hmore.ne
  simp only [State.mgmtPut, hout, State.mgmtOut, if_neg (not_not_intro hseq), if_neg hfits, if_neg hopen]
  rfl

theorem State.mgmtPut_overruns (hseq : c.seq = s.mgmt.seqBit)
    (hover : 32 < p.length ∨ s.mgmt.declared < s.mgmt.outCount + p.length) : s.mgmtPut c p = s.sequenceError c := by
  have hunfit : Config.mgmtPacket < p.length ∨ s.mgmt.declared < s.mgmt.outCount + p.length := hover
  simp only [State.mgmtPut, hout, State.mgmtOut, if_neg (not_not_intro hseq), if_pos hunfit]

end DataOut

/-- Settles O45: the body of WRITE-STREAM, and the PUT that leaves the data short of its declared length
(`State.mgmtPut_gathers`). -/
theorem outDataIsGathered : Obligations.OutDataIsGathered := by
  refine ⟨fun s c f h hlen hnode => ?_, fun s c p htakes hs hout => ?_⟩
  · have hrun := State.request_runs (r := .writeStream) h (by simp [Request.lengthOk, hlen])
      (by simpa [Request.allowedIn] using hnode) writeStreamBody
    exact congrArg Host.Outcome.next hrun
  · rw [exec_put_streamZero htakes hs]
    refine ⟨fun hseq => congrArg _ (State.mgmtPut_repeat hout hseq), fun hseq hshort hmore hwf hdeclared => ?_⟩
    have hroom : s.mgmt.outCount + p.length ≤ Config.bufferBytes := by
      have hbuffer : 64 ≤ Config.bufferBytes := by decide
      omega
    exact ⟨_, congrArg _ (State.mgmtPut_gathers hout hseq hshort hmore), rfl,
      Memory.read_writeBytes p s.mgmt.outCount hwf hroom, rfl⟩

/-! ### The IN data stage (R145, R146) -/

theorem Mgmt.inDone_iff (m : Mgmt) (len : Nat) :
    m.inDone len = true ↔ len = 0 ∨ (m.snapOff + len = m.snapLen ∧ m.snapLen % 32 ≠ 0) := by
  simp [Mgmt.inDone, Config.mgmtPacket]

section DataIn

variable {s : State} (hin : s.mgmt.exchange = .dataIn)

include hin

theorem State.mgmtFetch_again (c : CellHdr) {off len : Nat} {seq : Bool} (hp : s.mgmt.packet = some (.inData off len seq)) :
    s.mgmtFetch c = s.withAnswer c .data seq (s.mgmt.buffer.readBytes off len) := by
  simp only [State.mgmtFetch, hin, State.mgmtIn, hp, State.sendIn, State.answer_eq]

theorem State.mgmtAck_completes {off len : Nat} {seq : Bool} (hp : s.mgmt.packet = some (.inData off len seq)) :
    s.mgmtAck = { s with mgmt := { s.mgmt with
      packet := none, seqBit := !s.mgmt.seqBit, snapOff := s.mgmt.snapOff + len,
      exchange := if len = 0 ∨ (s.mgmt.snapOff + len = s.mgmt.snapLen ∧ s.mgmt.snapLen % 32 ≠ 0) then .result
        else .dataIn } } := by
  simp only [State.mgmtAck, hin, hp, Mgmt.ackIn, State.mapMgmt, Mgmt.inDone_iff]

theorem State.mgmtFetch_cuts (c : CellHdr) (hp : s.mgmt.packet = none) :
    s.mgmtFetch c = { s.withAnswer c .data s.mgmt.seqBit
        (s.mgmt.buffer.readBytes s.mgmt.snapOff (min 32 (s.mgmt.snapLen - s.mgmt.snapOff))) with
      mgmt := { s.mgmt with
        packet := some (.inData s.mgmt.snapOff (min 32 (s.mgmt.snapLen - s.mgmt.snapOff)) s.mgmt.seqBit) } } := by
  have hfetch : s.mgmtFetch c = s.mgmtIn c := by simp only [State.mgmtFetch, hin]
  rw [hfetch]
  simp only [State.mgmtIn, hp]
  rfl

end DataIn

/-- An ACK for stream 0 with no packet to complete is stray, whatever the stage (R151). -/
theorem State.mgmtAck_stray {s : State}
    (h : (s.mgmt.exchange ≠ .dataIn ∧ s.mgmt.exchange ≠ .result) ∨ s.mgmt.packet = none) : s.mgmtAck = s.strayAck := by
  unfold State.mgmtAck
  split
  · next he hp => simp [he, hp] at h
  · next he hp => simp [he, hp] at h
  · rfl

/-- Settles O49: the packet that stands, sent again and completed, or with none the next one cut. -/
theorem inDataStage : Obligations.InDataStage := by
  intro s c htakes hs hin m
  rw [exec_fetch_streamZero htakes hs, exec_ack_streamZero htakes hs]
  refine ⟨fun off len seq hp => ⟨congrArg _ (State.mgmtFetch_again hin c hp), congrArg _ (State.mgmtAck_completes hin hp)⟩,
    fun hp => ?_⟩
  intro len
  exact ⟨fun _ => congrArg _ (State.mgmtFetch_cuts hin c hp), congrArg _ (State.mgmtAck_stray (.inr hp))⟩

/-! ### Cells out of place (R147, R150, R151) -/

/-- A sequence error, part by part: the offer does not read the Management Engine. -/
theorem State.sequenceError_eq (s : State) (c : CellHdr) : s.sequenceError c =
    { (s.withPlainEvent .mgmtSequence s.mgmt.headerCode).withAnswer c .halt c.seq [] with mgmt := s.mgmt.fail } := rfl

section Stages

variable {s : State} {c : CellHdr} {p : List Byte}

/-- No stage but DATA-OUT takes a PUT. -/
theorem State.mgmtPut_outOfPlace
    (h : s.mgmt.exchange = .dataIn ∨ s.mgmt.exchange = .executing ∨ s.mgmt.exchange = .result) :
    s.mgmtPut c p = s.sequenceError c := by
  rcases h with h | h | h <;> simp only [State.mgmtPut, h]

/-- No stage takes an ASK. -/
theorem State.mgmtAsk_outOfPlace (h : s.mgmt.exchange ≠ .idle ∧ s.mgmt.exchange ≠ .failed) :
    s.mgmtAsk c = s.sequenceError c := by
  unfold State.mgmtAsk
  split
  · next he => exact absurd he h.1
  · next he => exact absurd he h.2
  all_goals rfl

theorem State.mgmtFetch_outOfPlace (h : s.mgmt.exchange = .dataOut) : s.mgmtFetch c = s.sequenceError c := by
  simp only [State.mgmtFetch, h]

theorem State.mgmtFetch_executing (h : s.mgmt.exchange = .executing) :
    s.mgmtFetch c = s.withAnswer c .wait s.mgmt.seqBit [] := by
  simp only [State.mgmtFetch, h, State.answer_eq]

/-- With no exchange in progress, a PUT, a FETCH and an ASK are answered HALT. -/
theorem State.mgmtCells_halted (h : s.mgmt.exchange = .idle ∨ s.mgmt.exchange = .failed) :
    s.mgmtPut c p = s.withAnswer c .halt c.seq [] ∧ s.mgmtFetch c = s.withAnswer c .halt c.seq [] ∧
      s.mgmtAsk c = s.withAnswer c .halt c.seq [] := by
  rcases h with h | h <;>
    simp only [State.mgmtPut, State.mgmtFetch, State.mgmtAsk, h, State.answer_eq, and_self]

end Stages

/-- Settles O51: the cells that each stage cannot take, and those that find no exchange in progress. -/
theorem cellsOutOfPlaceOnStreamZero : Obligations.CellsOutOfPlaceOnStreamZero := by
  refine ⟨fun s c p i htakes hs hi => ?_, fun s c p htakes hs => ⟨fun hidle i hi => ?_, fun hstage => ?_, fun hexec => ?_⟩⟩
  · have herror : exec i s = .next (s.sequenceError c) := by
      rcases hi with ⟨rfl, hout, hseq, hover⟩ | ⟨rfl, hout⟩ | ⟨rfl, hout⟩ | ⟨rfl | rfl, hstage⟩
      · rw [exec_put_streamZero htakes hs, State.mgmtPut_overruns hout hseq hover]
      · rw [exec_fetch_streamZero htakes hs, State.mgmtFetch_outOfPlace hout]
      · rw [exec_ask_streamZero htakes hs, State.mgmtAsk_outOfPlace (by simp [hout])]
      · rw [exec_put_streamZero htakes hs, State.mgmtPut_outOfPlace hstage]
      · rw [exec_ask_streamZero htakes hs, State.mgmtAsk_outOfPlace (by rcases hstage with h | h | h <;> simp [h])]
    rw [herror, State.sequenceError_eq]
    rfl
  · obtain ⟨hput, hfetch, hask⟩ := State.mgmtCells_halted (c := c) (p := p) hidle
    rcases hi with rfl | rfl | rfl
    · rw [exec_put_streamZero htakes hs, hput]
    · rw [exec_fetch_streamZero htakes hs, hfetch]
    · rw [exec_ask_streamZero htakes hs, hask]
  · have hnone : s.mgmt.exchange ≠ .dataIn ∧ s.mgmt.exchange ≠ .result := by
      rcases hstage with h | h | h | h <;> simp [h]
    rw [exec_ack_streamZero htakes hs, State.mgmtAck_stray (.inl hnone)]
    rfl
  · rw [exec_fetch_streamZero htakes hs, State.mgmtFetch_executing hexec]

end Sys2Proof.Machine
end

