-- ==== Sys2Proof/Proofs/SetResponse.lean ====
section
/-! ASSIGN-ADDRESS and its deferred action (R156); the requests with no data that every attached node takes (R141, 9.1);
SET-RESPONSE, its claim and its clear-sequence flag (R19, R160). -/

namespace Sys2Proof.Machine

/-! ### ASSIGN-ADDRESS (R156) -/

section AssignAddress

variable {f : ReqFields} (s : State)

theorem assignAddressBody_badRequest (h : f.target ≠ 0 ∨ 63 < f.value.toNat) :
    assignAddressBody f s = s.finish .badRequest := by
  unfold assignAddressBody
  split_ifs with htarget hvalue
  · rfl
  · rfl
  · exact absurd h (not_or.mpr ⟨htarget, hvalue⟩)

theorem assignAddressBody_defers (htarget : f.target = 0) (hvalue : f.value.toNat ≤ 63) :
    assignAddressBody f s = (s.finish .done).mapMgmt (fun m =>
      { m with deferred := some (.address (BitVec.ofNat 6 f.value.toNat)) }) := by
  rw [assignAddressBody, if_neg (not_not_intro htarget), if_neg hvalue.not_gt]
  rfl

end AssignAddress

/-- Settles O37: the two checks, and the address held beside a RESULT that is DONE. -/
theorem assignAddressIsDeferred : Obligations.AssignAddressIsDeferred := by
  intro s c f h hlen hnode
  have hl : Request.assignAddress.lengthOk f.length.toNat = true := by simp [Request.lengthOk, hlen]
  have hn : Request.assignAddress.allowedIn s.trunk.node = true := by simpa [Request.allowedIn] using hnode
  refine ⟨fun hbad => congrArg Host.Outcome.next (State.request_ends h hl hn (assignAddressBody_badRequest _ hbad)),
    fun htarget hvalue => ?_⟩
  have hrun := State.request_runs h hl hn (assignAddressBody f)
  rw [assignAddressBody_defers _ htarget hvalue] at hrun
  exact congrArg Host.Outcome.next hrun

/-! ### Requests with no data that every attached node takes (R141, 9.1) -/

/-- The requests of 9.1 with data length 0 and every node state but DETACHED. -/
def Request.Unconditional (r : Request) : Prop :=
  r.lengthOk 0 = true ∧ ∀ node, node ≠ .detached → r.allowedIn node = true

theorem Request.unconditional_setResponse : Request.setResponse.Unconditional :=
  ⟨rfl, fun node h => by simpa [Request.allowedIn] using h⟩

theorem Request.unconditional_setEventMask : Request.setEventMask.Unconditional :=
  ⟨rfl, fun node h => by simpa [Request.allowedIn] using h⟩

theorem Request.unconditional_clearCounters : Request.clearCounters.Unconditional :=
  ⟨rfl, fun node h => by simpa [Request.allowedIn] using h⟩

section Unconditional

variable {s : State} {c : CellHdr} {r : Request} {f : ReqFields} (hr : r.Unconditional) (h : s.TakesRequest c f)
  (hlen : f.length = 0)

include hr h hlen

/-- Such a request passes its header checks, and its cell is answered ACK after its own work. -/
theorem Request.Unconditional.runs {body : State → State} {t : State} (hbody : body (s.begun r f) = t) :
    s.request c r f body = t.answer c .ack c.seq [] := by
  have hl : r.lengthOk f.length.toNat = true := by rw [hlen]; exact hr.1
  rw [State.request_runs h hl (hr.2 _ h.1.1.1), hbody]

/-- Such a request that ends with a result code changes nothing else. -/
theorem Request.Unconditional.ends {body : State → State} {code : ResultCode}
    (hbody : body (s.begun r f) = (s.begun r f).finish code) : s.request c r f body = s.resulted c r f code :=
  hr.runs h hlen hbody

end Unconditional

/-! ### SET-RESPONSE (R19, R160) -/

theorem responseOfCode?_byte (r : Response) : responseOfCode? r.byte.toNat = some r := by cases r <;> rfl

theorem responseOfCode?_eq_none {n : Nat} (h : n = 0 ∨ 3 < n) : responseOfCode? n = none := by
  unfold responseOfCode?
  split
  on_goal 4 => rfl
  all_goals omega

/-- The Stream Table accepts a claim on an enabled stream, of OPEN only in RUNNING (R19). -/
theorem State.claimAccepted_iff (s : State) (n : Fin 32) (r : Response) :
    s.claimAccepted n r = true ↔ (s.stream n).entry.enabled = true ∧ (r = .opened → s.trunk.node = .running) := by
  simp [State.claimAccepted, imp_iff_not_or]

/-- The bytes 4 to 6 pass their check exactly when the value above its lowest byte, the clear-sequence flag, is 0 or 1. -/
theorem ReqFields.clearFlag_iff (f : ReqFields) :
    ¬ (f.valueByte 4 ≠ 0 ∨ f.valueByte 5 ≠ 0 ∨ 1 < f.valueByte 6) ↔ f.value.toNat / 256 ≤ 1 := by
  rw [ReqFields.valueBytes_high]
  omega

section SetResponse

variable {f : ReqFields} (s : State)

theorem setResponseBody_range (h : f.stream? = none ∨ responseOfCode? (f.value.toNat % 256) = none ∨
    1 < f.value.toNat / 256) : setResponseBody f s = s.finish .range := by
  rw [← ReqFields.valueByte_seven] at h
  unfold setResponseBody
  split
  · rfl
  · next n hn =>
    split
    · rfl
    · next r hr =>
      have hflag : 1 < f.value.toNat / 256 := by simpa [hn, hr] using h
      exact if_pos (by_contra fun hclear => hflag.not_ge ((ReqFields.clearFlag_iff f).mp hclear))

variable {n : Fin 32} {r : Response} (htarget : f.stream? = some n)
  (hcode : responseOfCode? (f.value.toNat % 256) = some r) (hflag : f.value.toNat / 256 ≤ 1)

include htarget hcode hflag

theorem setResponseBody_wrongState (h : ¬ s.claimAccepted n r = true) :
    setResponseBody f s = s.finish .wrongState := by
  rw [← ReqFields.valueByte_seven] at hcode
  simp only [setResponseBody, htarget, hcode, if_neg ((ReqFields.clearFlag_iff f).mpr hflag), h, Bool.not_false, if_true]

/-- The claim, then the clear-sequence flag. -/
theorem setResponseBody_done (h : s.claimAccepted n r = true) :
    setResponseBody f s = (s.mapStream n (fun st =>
      { st with response := r, seqBit := if f.value.toNat / 256 = 1 then false else st.seqBit })).finish .done := by
  have hclear := (ReqFields.clearFlag_iff f).mpr hflag
  have hsix : f.valueByte 6 = f.value.toNat / 256 := by
    have hbytes := ReqFields.valueBytes_high f
    omega
  rw [← ReqFields.valueByte_seven] at hcode
  simp only [setResponseBody, htarget, hcode, if_neg hclear, h, Bool.not_true, Bool.false_eq_true, if_false,
    State.claim, if_true, ← hsix]
  split
  · rw [State.mapStream_mapStream]
    rfl
  · rfl

end SetResponse

/-- Settles O41: the own checks in their order, then the accepted claim with its flag. -/
theorem setResponseClaims : Obligations.SetResponseClaims := by
  intro s c f h hlen state clear
  have hrow := Request.unconditional_setResponse
  refine ⟨fun hbad => ?_, fun n r hn htarget hstate hflag => ?_⟩
  · refine congrArg Host.Outcome.next (hrow.ends h hlen (setResponseBody_range _ ?_))
    rcases hbad with h0 | h31 | h0 | h3 | h1
    · exact .inl (ReqFields.stream?_eq_none (.inl h0))
    · exact .inl (ReqFields.stream?_eq_none (.inr h31))
    · exact .inr (.inl (responseOfCode?_eq_none (.inl h0)))
    · exact .inr (.inl (responseOfCode?_eq_none (.inr h3)))
    · exact .inr (.inr h1)
  · have hn' := ReqFields.stream?_eq_some hn htarget
    have hbyte : state = r.byte.toNat := by cases r <;> exact hstate
    have hcode : responseOfCode? state = some r := hbyte ▸ responseOfCode?_byte r
    have haccepted := (s.begun .setResponse f).claimAccepted_iff n r
    refine ⟨fun hrefused => ?_, fun hen hopen => ?_⟩
    · refine congrArg Host.Outcome.next (hrow.ends h hlen (setResponseBody_wrongState _ hn' hcode hflag fun hacc => ?_))
      obtain ⟨hen, hopen⟩ := haccepted.mp hacc
      rcases hrefused with hdis | ⟨hr, hnode⟩
      · exact absurd (hdis.symm.trans hen) (by decide)
      · exact hnode (hopen hr)
    · exact congrArg Host.Outcome.next
        (hrow.runs h hlen (setResponseBody_done _ hn' hcode hflag (haccepted.mpr ⟨hen, hopen⟩)))

end Sys2Proof.Machine
end

