-- ==== Sys2Proof/Proofs/ClearAndMask.lean ====
section
/-! CLEAR-COUNTERS group by group (R168, R175), and the positions of SET-EVENT-MASK that name an event kind (R167, 11.6). -/

namespace Sys2Proof.Machine

/-! ### CLEAR-COUNTERS (R168, R175) -/

theorem counterGroupOf?_stream {target : Half} {n : Fin 32} (hn : n ≠ 0) (h : target.toNat = n.val) :
    counterGroupOf? target = some (.stream n) := by
  have hin : 1 ≤ target.toNat ∧ target.toNat ≤ 31 := by
    have hpos := Nat.pos_of_ne_zero fun h0 => hn (Fin.ext h0)
    omega
  rw [counterGroupOf?_eq, dif_pos hin]
  simp only [h]

theorem counterGroupOf?_branch {target : Half} {b : Fin 6} (h : target.toNat = 256 + b.val) :
    counterGroupOf? target = some (.branch b) := by
  rw [counterGroupOf?_eq, dif_neg (by omega), dif_pos (by omega)]
  simp only [h, Nat.add_sub_cancel_left]

theorem counterGroupOf?_trunk {target : Half} (h : target.toNat = 512) : counterGroupOf? target = some .trunk := by
  rw [counterGroupOf?_eq, dif_neg (by omega), dif_neg (by omega), if_pos h]

theorem counterGroupOf?_timebase {target : Half} (h : target.toNat = 768) : counterGroupOf? target = some .timebase := by
  rw [counterGroupOf?_eq, dif_neg (by omega), dif_neg (by omega), if_neg (by omega), if_pos h]

theorem counterGroupOf?_eq_none {target : Half} (h : target.toNat = 0 ∨ (31 < target.toNat ∧ target.toNat < 256) ∨
    (261 < target.toNat ∧ target.toNat ≠ 512 ∧ target.toNat ≠ 768)) : counterGroupOf? target = none := by
  rw [counterGroupOf?_eq, dif_neg (by omega), dif_neg (by omega), if_neg (by omega), if_neg (by omega)]

section ClearCounters

variable {s : State} {c : CellHdr} {f : ReqFields}

/-- A CLEAR-COUNTERS clears the group that its target names and ends with DONE. -/
theorem exec_clearCounters {g : CounterGroup} (h : s.TakesRequest c f) (hlen : f.length = 0)
    (hg : counterGroupOf? f.target = some g) : exec (.clearCounters c f) s =
      .next ((((s.begun .clearCounters f).clearGroup g).finish .done).answer c .ack c.seq []) :=
  congrArg _ (Request.unconditional_clearCounters.runs h hlen (by simp only [clearCountersBody, hg]))

theorem exec_clearCounters_noGroup (h : s.TakesRequest c f) (hlen : f.length = 0)
    (hg : counterGroupOf? f.target = none) :
    exec (.clearCounters c f) s = .next (s.resulted c .clearCounters f .range) :=
  congrArg _ (Request.unconditional_clearCounters.ends h hlen (by simp only [clearCountersBody, hg]))

end ClearCounters

/-! ### SET-EVENT-MASK (R167, 11.6) -/

/-- The positions 1 to 16 are those that name a kind. -/
theorem maskReserved_getLsbD_eq_false_iff {j : Nat} (hj : j < 32) :
    Config.maskReserved.getLsbD j = false ↔ 1 ≤ j ∧ j ≤ 16 := by
  revert j; decide

/-- A mask meets no reserved position exactly when each of its bits names a kind. -/
theorem maskReserved_and_eq_zero_iff (mask : Word) : mask &&& Config.maskReserved = 0 ↔
    ∀ j < 32, mask.getLsbD j = true → 1 ≤ j ∧ j ≤ 16 := by
  constructor
  · intro hzero j hj hset
    have hbit : (mask &&& Config.maskReserved).getLsbD j = false := by simp [hzero]
    rw [BitVec.getLsbD_and, hset, Bool.true_and] at hbit
    exact (maskReserved_getLsbD_eq_false_iff hj).mp hbit
  · intro hnamed
    refine BitVec.eq_of_getLsbD_eq fun j hj => ?_
    cases hset : mask.getLsbD j with
    | false => simp [hset]
    | true => simp [(maskReserved_getLsbD_eq_false_iff hj).mpr (hnamed j hj hset)]

section SetEventMask

variable {f : ReqFields} (s : State)

theorem setEventMaskBody_range (h : ∃ j < 32, f.value.getLsbD j = true ∧ (j = 0 ∨ 16 < j)) :
    setEventMaskBody f s = s.finish .range := by
  refine if_pos fun hnone => ?_
  obtain ⟨j, hj, hset, hreserved⟩ := h
  have hnamed := (maskReserved_and_eq_zero_iff _).mp hnone j hj hset
  omega

theorem setEventMaskBody_done (h : ∀ j < 32, f.value.getLsbD j = true → 1 ≤ j ∧ j ≤ 16) :
    setEventMaskBody f s = (s.setEvents { s.events with mask := f.value }).finish .done :=
  if_neg (not_not_intro ((maskReserved_and_eq_zero_iff _).mpr h))

end SetEventMask

/-- Settles O44: the group that each target names (`counterGroupOf?`), and the mask position by position. -/
theorem clearCountersAndSetEventMask : Obligations.ClearCountersAndSetEventMask := by
  intro s c f h hlen done target
  have hmask := Request.unconditional_setEventMask
  refine ⟨fun n hn htarget => exec_clearCounters h hlen (counterGroupOf?_stream hn htarget),
    fun b htarget => exec_clearCounters h hlen (counterGroupOf?_branch htarget),
    fun htarget => exec_clearCounters h hlen (counterGroupOf?_trunk htarget),
    fun htarget => exec_clearCounters h hlen (counterGroupOf?_timebase htarget),
    fun hout => exec_clearCounters_noGroup h hlen (counterGroupOf?_eq_none hout),
    fun hbad => congrArg Host.Outcome.next (hmask.ends h hlen (setEventMaskBody_range _ hbad)),
    fun hgood => congrArg Host.Outcome.next (hmask.runs h hlen (setEventMaskBody_done _ hgood))⟩

end Sys2Proof.Machine
end

