-- ==== Sys2Proof/Proofs/EventOffers.lean ====
section
/-! One offer to the Event Queue (R171), as the whole next state: the queue's rules `EventQueue.offer_masked`, `offer_room` and
`offer_full` carried to the state that holds the queue. -/

namespace Sys2Proof.Machine

/-! ### Offers (R171) -/

/-- The lost count stops at 255 (R171 step 4). -/
theorem satIncByte_eq (b : Byte) : satIncByte b = if b = 255 then 255 else b + 1 :=
  ite_congr rfl id fun _ => rfl

section Offers

variable {s : State} {kind : EventKind} (st br d : Byte)

theorem State.offer_masked (h : s.events.mask.getLsbD kind.code = false) : s.offer kind st br d = s :=
  congrArg s.setEvents (EventQueue.offer_masked h s.timebase.count st br d)

theorem State.offer_room (h : s.events.mask.getLsbD kind.code = true) (hroom : s.events.records.length < 32) :
    s.offer kind st br d = { s with events :=
      { s.events with serial := s.events.serial + 1,
                      records := s.events.records ++ [s.eventOf kind st br d] } } :=
  congrArg s.setEvents (EventQueue.offer_room h hroom s.timebase.count st br d)

theorem State.offer_full (h : s.events.mask.getLsbD kind.code = true) (hfull : 32 ≤ s.events.records.length) :
    s.offer kind st br d = { s with events :=
      { s.events with serial := s.events.serial + 1,
                      lost := if s.events.lost = 255 then 255 else s.events.lost + 1 } } := by
  rw [← satIncByte_eq]
  exact congrArg s.setEvents (EventQueue.offer_full h hfull.not_gt s.timebase.count st br d)

end Offers

/-- Settles O52: the offer masked out (step 1), the record appended (step 3), the event lost (step 4). -/
theorem offersTakenWhole : Obligations.OffersTakenWhole := by
  intro s kind st br d q
  exact ⟨State.offer_masked st br d, State.offer_room st br d, State.offer_full st br d⟩

end Sys2Proof.Machine
end

