-- ==== Sys2Proof/Proofs/LineCommands.lean ====
section
/-! The commands on the lines: every well-formed cell and frame passes its form and check tests and is read back as the
command it was written from (R56, R177, R178, 11.1 to 11.4). -/

namespace Sys2Proof.Machine

/-! ### Fields and their bytes (1.5) -/

theorem half_extract (h : Half) : half (h.extractLsb' 8 8) (h.extractLsb' 0 8) = h :=
  BitVec.extractLsb'_append_extractLsb'

theorem word_extract (w : Word) :
    word (w.extractLsb' 24 8) (w.extractLsb' 16 8) (w.extractLsb' 8 8) (w.extractLsb' 0 8) = w := by
  have hhigh : w.extractLsb' 24 8 ++ w.extractLsb' 16 8 = w.extractLsb' 16 16 :=
    BitVec.extractLsb'_append_extractLsb'_eq_extractLsb' rfl
  have hlow : w.extractLsb' 8 8 ++ w.extractLsb' 0 8 = w.extractLsb' 0 16 :=
    BitVec.extractLsb'_append_extractLsb'_eq_extractLsb' rfl
  rw [word, hhigh, hlow]
  exact BitVec.extractLsb'_append_extractLsb' (w := 16) (len := 16)

/-- A length that fits the two length bytes is read back from them. -/
theorem half_halfOf_toNat {n : Nat} (h : n ≤ 65535) :
    (half ((halfOf n).extractLsb' 8 8) ((halfOf n).extractLsb' 0 8)).toNat = n := by
  rw [half_extract, halfOf, BitVec.toNat_ofNat]
  omega

/-! ### The form and check tests (R56, R177) -/

section Parse

variable {hi lo : Byte} {p : List Byte} (hlen : (half hi lo).toNat = p.length)

include hlen

/-- A cell passes both tests of R56 when its length field is that of its payload, within the bound, and its check follows. -/
theorem parseCell?_withCheck (b0 addr stream : Byte) (h : p.length ≤ Config.maxCellPayload) :
    parseCell? (withCheck (b0 :: addr :: stream :: hi :: lo :: p)) =
      some ((b0.extractLsb' 4 4).toNat, { seq := b0.getLsbD 1, addr := addr, stream := stream }, p) := by
  simp only [withCheck, List.cons_append, parseCell?, hlen, List.take_left, List.drop_left, List.length_append,
    halfBytes_length, h, and_self, if_true]

/-- A frame whose length field is that of its payload and whose check follows is a good frame (R177). -/
theorem parseFrame?_withCheck (b0 : Byte) :
    parseFrame? (withCheck (b0 :: hi :: lo :: p)) =
      some ((b0.extractLsb' 4 4).toNat, (b0.extractLsb' 0 3).toFin, p) := by
  simp only [withCheck, List.cons_append, parseFrame?, hlen, List.take_left, List.drop_left, List.length_append,
    halfBytes_length, and_self, if_true]

end Parse

theorem parseCell?_downBytes (kind : BitVec 4) (c : CellHdr) {p : List Byte} (h : p.length ≤ Config.maxCellPayload) :
    parseCell? (downBytes kind c p) = some (kind.toNat, c, p) := by
  obtain ⟨hkind, -, -, hseq, -⟩ := cellByte0_parts kind c.seq false
  have hlen := half_halfOf_toNat (h.trans (by decide : Config.maxCellPayload ≤ 65535))
  refine (parseCell?_withCheck hlen _ c.addr c.stream h).trans ?_
  rw [hkind, hseq]

theorem parseFrame?_frameBytes (kind : BitVec 4) (ch : Fin 8) {p : List Byte} (h : p.length ≤ 65535) :
    parseFrame? (frameBytes kind ch p) = some (kind.toNat, ch, p) := by
  obtain ⟨hkind, -, hch⟩ := frameByte0_parts kind ch _ rfl
  refine (parseFrame?_withCheck (half_halfOf_toNat h) _).trans ?_
  rw [hkind, Fin.ext hch]

/-! ### Cells other than REQUEST, and frames (R57, R125) -/

section Cells

variable (time : Ticks) (c : CellHdr) {p : List Byte}

theorem cellCommand_cycle (k : Half) : cellCommand time (downBytes 1 c (halfBytes k)) = .cycle c k time := by
  have hlen : (halfBytes k).length ≤ Config.maxCellPayload := (halfBytes_length k).trans_le (by decide)
  rw [cellCommand, parseCell?_downBytes 1 c hlen]
  exact congrArg (Instr.cycle c · time) (half_extract k)

theorem cellCommand_put (h : p.length ≤ Config.maxCellPayload) : cellCommand time (downBytes 2 c p) = .put c p := by
  rw [cellCommand, parseCell?_downBytes 2 c h]
  rfl

theorem cellCommand_fetch : cellCommand time (downBytes 3 c []) = .fetch c := by
  rw [cellCommand, parseCell?_downBytes 3 c (Nat.zero_le _)]
  rfl

theorem cellCommand_ask : cellCommand time (downBytes 4 c []) = .ask c := by
  rw [cellCommand, parseCell?_downBytes 4 c (Nat.zero_le _)]
  rfl

theorem cellCommand_ack : cellCommand time (downBytes 6 c []) = .ack c := by
  rw [cellCommand, parseCell?_downBytes 6 c (Nat.zero_le _)]
  rfl

theorem cellCommand_requestCell (h : p.length ≤ Config.maxCellPayload) :
    cellCommand time (downBytes 5 c p) = requestCell c p := by
  rw [cellCommand, parseCell?_downBytes 5 c h]
  rfl

end Cells

section Frames

variable (b : Fin 6) (ch : Fin 8) {p : List Byte} (h : p.length ≤ 65535)

theorem frameCommand_align : frameCommand b (frameBytes 0 0 []) = .align b := by
  rw [frameCommand, parseFrame?_frameBytes 0 0 (Nat.zero_le _)]
  rfl

include h

theorem frameCommand_data : frameCommand b (frameBytes 1 ch p) = .data b ch p := by
  rw [frameCommand, parseFrame?_frameBytes 1 ch h]
  rfl

theorem frameCommand_dataLast : frameCommand b (frameBytes 2 ch p) = .dataLast b ch p := by
  rw [frameCommand, parseFrame?_frameBytes 2 ch h]
  rfl

theorem frameCommand_credit : frameCommand b (frameBytes 4 ch p) = .credit b ch p := by
  rw [frameCommand, parseFrame?_frameBytes 4 ch h]
  rfl

end Frames

/-! ### REQUEST cells (11.4, R141, R163, R178) -/

@[simp] theorem requestBytes_length (code : Byte) (f : ReqFields) : (requestBytes code f).length = 12 := rfl

theorem reqFieldsOf?_requestBytes (code : Byte) (f : ReqFields) : reqFieldsOf? (requestBytes code f) = some (code, f) := by
  simp only [requestBytes, halfBytes, wordBytes, List.cons_append, List.nil_append, reqFieldsOf?, half_extract,
    word_extract]

theorem Request.ofCode?_code (r : Request) : Request.ofCode? r.code = some r := by
  cases r <;> rfl

theorem requestCell_requestBytes (c : CellHdr) (r : Request) (f : ReqFields) :
    requestCell c (requestBytes r.code f) = requestCommand c f r := by
  simp only [requestCell, reqFieldsOf?_requestBytes, Request.ofCode?_code]

/-- A payload that names no request stays whole in its command (R141). -/
theorem requestCell_unnamed {p : List Byte} (h : namesRequest p = false) (c : CellHdr) :
    requestCell c p = .requestBadCode c p := by
  by_cases hlen : p.length = 12
  · obtain ⟨f, hf, -⟩ := reqFieldsOf?_eq_some hlen
    simp only [requestCell, hf, ofCode?_of_namesRequest h hlen]
  · simp only [requestCell, reqFieldsOf?_eq_none hlen]

theorem cellCommand_requestCellBytes (time : Ticks) (r : Request) (c : CellHdr) (f : ReqFields) :
    cellCommand time (requestCellBytes r c f) = requestCommand c f r := by
  have hlen : (requestBytes r.code f).length ≤ Config.maxCellPayload := (requestBytes_length r.code f).trans_le (by decide)
  rw [requestCellBytes, cellCommand_requestCell time c hlen, requestCell_requestBytes]

/-- A BRANCH-CONTROL with a branch as its target and the value of an action is the row of that action (R163). -/
theorem branchCommand_of_branchActs {f : ReqFields} {a : BranchAction} (h : branchActs f a.value.toNat = true)
    (c : CellHdr) : branchCommand c f = a.command c f := by
  simp only [branchActs, Bool.and_eq_true, decide_eq_true_eq, beq_iff_eq] at h
  obtain ⟨htarget, hvalue⟩ := h
  have hbranch : f.branch? = some ⟨f.target.toNat, by omega⟩ := ReqFields.branch?_eq_some rfl
  have haction : branchActionOf? f.value = some a := by
    rw [BitVec.eq_of_toNat_eq hvalue, branchActionOf?_value]
  cases a <;> simp only [branchCommand, hbranch, haction, BranchAction.command]

theorem BranchAction.value_of_branchActionOf? {v : Word} {a : BranchAction} (h : branchActionOf? v = some a) :
    v.toNat = a.value.toNat := by
  unfold branchActionOf? at h
  split at h
  all_goals cases h
  all_goals assumption

/-- Any other BRANCH-CONTROL is BRANCH_CONTROL (R163). -/
theorem branchCommand_of_not_branchActs {f : ReqFields} (h : ∀ a : BranchAction, branchActs f a.value.toNat = false)
    (c : CellHdr) : branchCommand c f = .branchControl c f := by
  cases hb : f.branch? with
  | none => simp only [branchCommand, hb]
  | some b =>
    cases ha : branchActionOf? f.value with
    | none => simp only [branchCommand, hb, ha]
    | some a =>
      have htarget : f.target.toNat ≤ 5 := by
        by_contra hout
        rw [ReqFields.branch?_eq_none (by omega)] at hb
        cases hb
      have hacts : branchActs f a.value.toNat = true := by
        simp [branchActs, htarget, BranchAction.value_of_branchActionOf? ha]
      exact absurd ((h a).symm.trans hacts) (by decide)

/-- The command that a well-formed request's header gives is that request. -/
theorem requestCommand_of_wf {i : Instr} {c : CellHdr} {r : Request} {f : ReqFields} (hwf : i.wf = true)
    (h : i.request? = some (c, r, f)) : requestCommand c f r = i := by
  cases i <;> simp only [Instr.request?, Option.some.injEq, Prod.mk.injEq, reduceCtorEq] at h
  all_goals obtain ⟨rfl, rfl, rfl⟩ := h
  case branchEnable => exact branchCommand_of_branchActs (a := .enable) hwf _
  case branchDisable => exact branchCommand_of_branchActs (a := .disable) hwf _
  case branchRetrain => exact branchCommand_of_branchActs (a := .retrain) hwf _
  case branchControl =>
    simp only [Instr.wf, Bool.not_eq_true', Bool.or_eq_false_iff] at hwf
    obtain ⟨⟨henable, hdisable⟩, hretrain⟩ := hwf
    refine branchCommand_of_not_branchActs (fun a => ?_) _
    cases a <;> assumption
  all_goals rfl

theorem encode_request {i : Instr} {c : CellHdr} {r : Request} {f : ReqFields} (h : i.request? = some (c, r, f)) :
    encode i = some (requestCellBytes r c f) := by
  cases i <;> simp only [Instr.request?, Option.some.injEq, Prod.mk.injEq, reduceCtorEq] at h
  all_goals
    obtain ⟨rfl, rfl, rfl⟩ := h
    rfl

/-- A request is read back from its cell, with every header field. -/
theorem cellCommand_request {i : Instr} {c : CellHdr} {r : Request} {f : ReqFields} (hwf : i.wf = true)
    (hi : i.request? = some (c, r, f)) {bs : List Byte} (hbs : encode i = some bs) (time : Ticks) :
    cellCommand time bs = i := by
  obtain rfl := Option.some.inj ((encode_request hi).symm.trans hbs)
  rw [cellCommand_requestCellBytes, requestCommand_of_wf hwf hi]

/-- Settles O54: the cells and frames by their kind codes, the requests together by their header (`cellCommand_request`); a
row that is no single cell or frame has no bytes. -/
theorem lineCommandsRoundTrip : Obligations.LineCommandsRoundTrip := by
  intro i bs hwf hbs
  cases i with
  | cycle c k time =>
    obtain rfl := Option.some.inj hbs
    exact cellCommand_cycle time c k
  | put c p =>
    obtain rfl := Option.some.inj hbs
    exact fun time => cellCommand_put time c (of_decide_eq_true hwf)
  | fetch c =>
    obtain rfl := Option.some.inj hbs
    exact fun time => cellCommand_fetch time c
  | ask c =>
    obtain rfl := Option.some.inj hbs
    exact fun time => cellCommand_ask time c
  | ack c =>
    obtain rfl := Option.some.inj hbs
    exact fun time => cellCommand_ack time c
  | requestBadCode c p =>
    obtain rfl := Option.some.inj hbs
    simp only [Instr.wf, cellPayloadOk, Bool.and_eq_true, decide_eq_true_eq, Bool.not_eq_true'] at hwf
    obtain ⟨hlen, hunnamed⟩ := hwf
    exact fun time => (cellCommand_requestCell time c hlen).trans (requestCell_unnamed hunnamed c)
  | align b =>
    obtain rfl := Option.some.inj hbs
    exact frameCommand_align b
  | data b ch p =>
    obtain rfl := Option.some.inj hbs
    exact frameCommand_data b ch (of_decide_eq_true hwf)
  | dataLast b ch p =>
    obtain rfl := Option.some.inj hbs
    exact frameCommand_dataLast b ch (of_decide_eq_true hwf)
  | credit b ch p =>
    obtain rfl := Option.some.inj hbs
    exact frameCommand_credit b ch (of_decide_eq_true hwf)
  | assignAddress | readIdentity | start | stop | setCycle | writeStream | readStream | setResponse | resetStream
  | branchEnable | branchDisable | branchRetrain | readEvents | setEventMask | readCounters | clearCounters
  | readTimebase | branchControl => exact cellCommand_request hwf rfl hbs
  | resetN | trunkSignalPresent | trunkSignalLost | lineReset | cellBadCheck | cellUnknownKind | cycleTimerExpiry
  | answerSendBegin | answerSendEnd | branchSignalPresent | branchSignalLost | frameBadCheck | unwantedFrame
  | controlFrameEnd | dataFrameEnd => exact nomatch hbs

end Sys2Proof.Machine
end

