-- ==== Sys2Proof/Proofs/StreamEntries.lean ====
section
/-! The 16 bytes of a stream entry (11.5), written and read back without loss. -/

namespace Sys2Proof.Machine

/-! ### Byte 0 of a stream entry (11.5) -/

/-- The flags of byte 0, bit by bit. -/
theorem Entry.byte0_bits (e : Entry) :
    e.byte0.getLsbD 7 = e.enabled ∧ e.byte0.getLsbD 6 = decide (e.dir = .down) ∧
      e.byte0.getLsbD 5 = decide (e.cls = .cyclic) ∧ e.byte0.getLsbD 4 = e.continuous ∧
      e.byte0.getLsbD 3 = e.staleFlush ∧ e.byte0.getLsbD 2 = e.holdAtEnd ∧ e.byte0.getLsbD 1 = e.twoSides ∧
      e.byte0.getLsbD 0 = e.spare0 := by
  simp only [Entry.byte0, BitVec.getLsbD_append, BitVec.getLsbD_ofBool, beq_eq_decide, Nat.reduceLT, Nat.reduceSub,
    ↓reduceIte, decide_true, Bool.true_and, and_self]

/-- A bit is read back from the direction that it stands for, and a direction from its bit. -/
theorem decide_ite_down (b : Bool) : decide ((if b then Dir.down else .up) = .down) = b := by cases b <;> rfl

theorem ite_decide_down (d : Dir) : (if decide (d = .down) then Dir.down else .up) = d := by cases d <;> rfl

/-- A bit is read back from the class that it stands for, and a class from its bit. -/
theorem StreamClass.decide_ite_cyclic (b : Bool) :
    decide ((if b then StreamClass.cyclic else .flow) = .cyclic) = b := by cases b <;> rfl

theorem StreamClass.ite_decide_cyclic (c : StreamClass) :
    (if decide (c = .cyclic) then StreamClass.cyclic else .flow) = c := by cases c <;> rfl

/-- The entry read from bytes has their first byte as its byte 0. -/
theorem Entry.byte0_ofBytes (b : Byte) (bs : List Byte) : (Entry.ofBytes (b :: bs)).byte0 = b := by
  obtain ⟨h7, h6, h5, h4, h3, h2, h1, h0⟩ := (Entry.ofBytes (b :: bs)).byte0_bits
  refine BitVec.eq_of_getLsbD_eq fun i hi => ?_
  interval_cases i
  · exact h0
  · exact h1
  · exact h2
  · exact h3
  · exact h4
  · exact h5.trans (StreamClass.decide_ite_cyclic (b.getLsbD 5))
  · exact h6.trans (decide_ite_down (b.getLsbD 6))
  · exact h7

/-! ### The sixteen bytes (11.5) -/

theorem Entry.ofBytes_bytes (e : Entry) : Entry.ofBytes e.bytes = e := by
  obtain ⟨h7, h6, h5, h4, h3, h2, h1, h0⟩ := e.byte0_bits
  simp only [Entry.ofBytes, Entry.bytes, halfBytes, List.cons_append, List.nil_append, List.getD_cons_zero,
    List.getD_cons_succ, half_extract, h7, h6, h5, h4, h3, h2, h1, h0, ite_decide_down,
    StreamClass.ite_decide_cyclic]

theorem Entry.bytes_ofBytes : ∀ {bs : List Byte}, bs.length = 16 → (Entry.ofBytes bs).bytes = bs
  | [b0, b1, b2, b3, b4, b5, b6, b7, b8, b9, b10, b11, b12, b13, b14, b15], _ => by
    rw [Entry.bytes, Entry.byte0_ofBytes]
    simp [Entry.ofBytes, half, halfBytes_append]

/-- Settles O48: the flags by the bits of byte 0 (`Entry.byte0_bits`), the 16-bit fields by their two bytes. -/
theorem entryBytesRoundTrip : Obligations.EntryBytesRoundTrip :=
  ⟨Entry.ofBytes_bytes, fun _ hlen => ⟨Entry.bytes_ofBytes hlen, fun e => ⟨e.byte0, rfl, e.byte0_bits⟩⟩⟩

end Sys2Proof.Machine
end

