-- ==== Sys2Proof/Proofs/FrontCommand.lean ====
section
/-! The step and the queue of commands (1.5, log entry 5). -/

namespace Sys2Proof.Machine

/-- Settles O1: the step on a queue that has a front command. -/
theorem stepTakesTheFrontCommand : Obligations.StepTakesTheFrontCommand := by
  intro s i rest hpending
  rw [step, hpending]

end Sys2Proof.Machine
end
